-- ==== Sys2Proof/Word.lean ====
section
/-! DEFINITION. The words of the machine (R1, R59, R61): bytes, 32-bit registers, 64-bit pairs and instruction words. -/

namespace Sys2Proof

/-- One byte of memory. -/
abbrev Byte := BitVec 8

/-- One register of 32 bits (R45). -/
abbrev Word := BitVec 32

/-- A register pair, a pointer, an instruction word or a clause header: 64 bits (R45, R107). -/
abbrev DWord := BitVec 64

/-- Bit `i` of a vector as a Bool. -/
abbrev bitAt {w : Nat} (x : BitVec w) (i : Nat) : Bool := x.getLsbD i

/-- A pair from its low word (even register) and its high word (odd register), R45. -/
abbrev pairOf (lo hi : Word) : DWord := hi ++ lo

end Sys2Proof
end

