-- ==== Sys2Proof/Machine/Bits.lean ====
section
/-! DEFINITION. Byte order, sign extension and bit-field helpers (R1, R59, R145). -/

namespace Sys2Proof.Machine

/-- The little-endian bytes of a natural number (R1). -/
def bytesOf (n : Nat) (v : Nat) : List Byte := (List.range n).map fun i => BitVec.ofNat 8 (v >>> (8 * i))

/-- The natural number of little-endian bytes (R1). -/
def natOf (bs : List Byte) : Nat := bs.foldr (fun b acc => b.toNat + 256 * acc) 0

/-- The field of `n` bytes at an offset of a record, as a number. -/
def fieldAt (r : List Byte) (off n : Nat) : Nat := natOf ((r.drop off).take n)

/-- A number as a two's complement integer of `w` bits. -/
def sext (w n : Nat) : Int :=
  let m := n % 2 ^ w
  if w ≠ 0 ∧ 2 ^ (w - 1) ≤ m then (m : Int) - 2 ^ w else m

/-- An integer modulo 2^w. -/
def wrapN (w : Nat) (x : Int) : Nat := (x % (2 ^ w : Nat)).toNat

/-- Clamp to a range (SatN of R66). -/
def satN (x lo hi : Int) : Int := if x < lo then lo else if hi < x then hi else x

/-- The low `k` registers of a number, low word first (R45). -/
def wordsOf (k : Nat) (v : Nat) : List Word := (List.range k).map fun i => BitVec.ofNat 32 (v >>> (32 * i))

/-- The number that registers hold, low word first (R45). -/
def natOfWords (ws : List Word) : Nat := ws.foldr (fun w acc => w.toNat + 2 ^ 32 * acc) 0

/-- The bytes of registers (R164, R169). -/
def bytesOfWords (ws : List Word) : List Byte := ws.flatMap fun w => bytesOf 4 w.toNat

/-- Registers from bytes, four to a register (R164, R169). -/
def wordsOfBytes (k : Nat) (bs : List Byte) : List Word := (List.range k).map fun i => BitVec.ofNat 32 (natOf ((bs.drop (4 * i)).take 4))

/-- A pointer is canonical when bits [63:56] all equal bit 55 (R79). -/
def canonical (a : DWord) : Bool := (a.extractLsb' 0 56).signExtend 64 == a

/-- Bits [high:low] of a number. -/
def bitsNat (v lo n : Nat) : Nat := (v >>> lo) % 2 ^ n

/-- Number of 1 bits. -/
def popcount (w v : Nat) : Nat := ((List.range w).filter fun i => v.testBit i).length

/-- Leading zeros in `w` bits. -/
def leadingZeros (w v : Nat) : Nat := if v % 2 ^ w = 0 then w else w - 1 - Nat.log2 (v % 2 ^ w)

/-- Trailing zeros in `w` bits. -/
def trailingZeros (w v : Nat) : Nat := ((List.range w).takeWhile fun i => !v.testBit i).length

/-- Bits reversed in `w` bits. -/
def reverseBits (w v : Nat) : Nat :=
  (List.range w).foldl (fun acc i => if v.testBit (w - 1 - i) then acc + 2 ^ i else acc) 0

/-- A register file with register `r` written; a list too short is first filled up with zeros. -/
def setAt : List Word → Nat → Word → List Word
  | [], 0, w => [w]
  | [], r + 1, w => 0 :: setAt [] r w
  | _ :: xs, 0, w => w :: xs
  | x :: xs, r + 1, w => x :: setAt xs r w

/-- Ceiling division. -/
def ceilDiv (a b : Nat) : Nat := (a + b - 1) / b

end Sys2Proof.Machine
end

