-- ==== Sys2Proof/Machine/Float.lean ====
section
/-! DEFINITION. Floating-point values and their one rounding (R61-R66, R74-R77, R148-R154, R392), and TwinScale blocks (R67-R70). -/

namespace Sys2Proof.Machine

/-- A value before rounding: NaN, an infinity, or (-1)^s times m times 2^e. -/
inductive FVal where
  | nan
  | inf (s : Bool)
  | fin (s : Bool) (m : Nat) (e : Int)
deriving DecidableEq, Repr

/-- A binary interchange format: exponent bits and fraction bits (R61). -/
structure FFmt where
  eb : Nat
  mb : Nat
deriving DecidableEq, Repr

/-- `f16`. -/
def f16 : FFmt := ⟨5, 10⟩
/-- `bf16`. -/
def bf16 : FFmt := ⟨8, 7⟩
/-- `f32`. -/
def f32 : FFmt := ⟨8, 23⟩
/-- `f64`. -/
def f64 : FFmt := ⟨11, 52⟩

/-- Rounding modes of R63 by their codes. -/
inductive RMode where
  | rne | rtz | rup | rdn
deriving DecidableEq, Repr

/-- The mode of a 2-bit code (R63). -/
def RMode.ofCode (n : Nat) : RMode := if n = 0 then .rne else if n = 1 then .rtz else if n = 2 then .rup else .rdn

/-- The exponent bias. -/
def FFmt.bias (f : FFmt) : Nat := 2 ^ (f.eb - 1) - 1
/-- The largest exponent field: infinities and NaNs. -/
def FFmt.emax (f : FFmt) : Nat := 2 ^ f.eb - 1
/-- The width of the format. -/
def FFmt.width (f : FFmt) : Nat := 1 + f.eb + f.mb
/-- The canonical NaN (R61). -/
def FFmt.canonNan (f : FFmt) : Nat := f.emax * 2 ^ f.mb + 2 ^ (f.mb - 1)
/-- The bit pattern with a sign. -/
def FFmt.signed (f : FFmt) (s : Bool) (x : Nat) : Nat := if s then 2 ^ (f.eb + f.mb) + x else x
/-- The pattern of an infinity. -/
def FFmt.infBits (f : FFmt) (s : Bool) : Nat := f.signed s (f.emax * 2 ^ f.mb)
/-- The pattern of the largest finite value. -/
def FFmt.maxBits (f : FFmt) (s : Bool) : Nat := f.signed s (f.emax * 2 ^ f.mb - 1)

/-- The value a bit pattern holds; a signalling NaN is treated as quiet (R64). -/
def FFmt.read (f : FFmt) (x : Nat) : FVal :=
  let s := x.testBit (f.eb + f.mb)
  let ex := bitsNat x f.mb f.eb
  let fr := x % 2 ^ f.mb
  if ex = f.emax then (if fr = 0 then .inf s else .nan)
  else if ex = 0 then .fin s fr (1 - (f.bias : Int) - f.mb)
  else .fin s (2 ^ f.mb + fr) ((ex : Int) - f.bias - f.mb)

/-- Whether a rounded-off part makes the magnitude go up: `s` the sign, `odd` the last bit kept, `r` the remainder
and `h` one unit of the last place, with 0 < r. -/
def roundsUp (rm : RMode) (s odd : Bool) (r h : Nat) : Bool :=
  match rm with
  | .rne => decide (h < 2 * r) || (decide (2 * r = h) && odd)
  | .rtz => false
  | .rup => !s
  | .rdn => s

/-- A magnitude m times 2^e rounded to a multiple of 2^q: the multiple. -/
def roundTo (rm : RMode) (s : Bool) (m : Nat) (e q : Int) : Nat :=
  if q ≤ e then m <<< (e - q).toNat
  else
    let k := (q - e).toNat
    let d := m >>> k
    let r := m % 2 ^ k
    if r ≠ 0 ∧ roundsUp rm s (d % 2 = 1) r (2 ^ k) then d + 1 else d

/-- One rounding to a format (R63, R66, R154); `sat` gives the largest finite value instead of an overflow, and
`satInf` does so for an infinite value too (R393). -/
def FFmt.round (f : FFmt) (rm : RMode) (sat satInf : Bool) (v : FVal) : Nat :=
  match v with
  | .nan => f.canonNan
  | .inf s => if satInf then f.maxBits s else f.infBits s
  | .fin s m e =>
    if m = 0 then f.signed s 0
    else
      let top := e + Nat.log2 m
      let q := max (top - f.mb) (1 - (f.bias : Int) - f.mb)
      let n := roundTo rm s m e q
      -- the exponent field and fraction as one number: a carry out of the fraction moves into the exponent
      let base := (q - (1 - (f.bias : Int) - f.mb)).toNat
      let bits := base * 2 ^ f.mb + n
      if f.emax * 2 ^ f.mb ≤ bits then
        let toInf := match rm with
          | .rne => true
          | .rtz => false
          | .rup => !s
          | .rdn => s
        if toInf && !sat then f.infBits s else f.maxBits s
      else f.signed s bits

/-- Round to nearest even. -/
def FFmt.rne (f : FFmt) (v : FVal) : Nat := f.round .rne false false v

/-- The sign of a value; a NaN counts as positive. -/
def FVal.sign (v : FVal) : Bool :=
  match v with
  | .nan => false
  | .inf s => s
  | .fin s _ _ => s

/-- Negation. -/
def FVal.neg (v : FVal) : FVal :=
  match v with
  | .nan => .nan
  | .inf s => .inf (!s)
  | .fin s m e => .fin (!s) m e

/-- Magnitude. -/
def FVal.abs (v : FVal) : FVal :=
  match v with
  | .nan => .nan
  | .inf _ => .inf false
  | .fin _ m e => .fin false m e

/-- Whether the value is a NaN. -/
def FVal.isNan (v : FVal) : Bool :=
  match v with
  | .nan => true
  | _ => false

/-- Whether the value is infinite. -/
def FVal.isInf (v : FVal) : Bool :=
  match v with
  | .inf _ => true
  | _ => false

/-- Whether the value is a zero. -/
def FVal.isZero (v : FVal) : Bool :=
  match v with
  | .fin _ m _ => m == 0
  | _ => false

/-- A signed magnitude on a common grid. -/
def gridInt (s : Bool) (m : Nat) (e g : Int) : Int :=
  let x := ((m <<< (e - g).toNat : Nat) : Int)
  if s then -x else x

/-- The exact sum of two values; an exact zero of unlike signs takes the sign `z` (R148). -/
def FVal.add (z : Bool) (a b : FVal) : FVal :=
  match a, b with
  | .nan, _ => .nan
  | _, .nan => .nan
  | .inf s, .inf t => if s = t then .inf s else .nan
  | .inf s, .fin _ _ _ => .inf s
  | .fin _ _ _, .inf t => .inf t
  | .fin s m e, .fin t n g =>
    let k := min e g
    let x := gridInt s m e k + gridInt t n g k
    if x = 0 then .fin (if s = t then s else z) 0 k
    else .fin (decide (x < 0)) x.natAbs k

/-- The exact product. -/
def FVal.mul (a b : FVal) : FVal :=
  match a, b with
  | .nan, _ => .nan
  | _, .nan => .nan
  | .inf s, .inf t => .inf (s ^^ t)
  | .inf s, .fin t n _ => if n = 0 then .nan else .inf (s ^^ t)
  | .fin s m _, .inf t => if m = 0 then .nan else .inf (s ^^ t)
  | .fin s m e, .fin t n g => .fin (s ^^ t) (m * n) (e + g)

/-- The quotient to 66 bits with a sticky bit below them, enough for one rounding to any format. -/
def FVal.div (a b : FVal) : FVal :=
  match a, b with
  | .nan, _ => .nan
  | _, .nan => .nan
  | .inf _, .inf _ => .nan
  | .inf s, .fin t _ _ => .inf (s ^^ t)
  | .fin s _ _, .inf t => .fin (s ^^ t) 0 0
  | .fin s m e, .fin t n g =>
    if n = 0 then (if m = 0 then .nan else .inf (s ^^ t))
    else if m = 0 then .fin (s ^^ t) 0 0
    else
      let k := 66 + Nat.log2 n - Nat.log2 m
      let q := (m <<< k) / n
      let st := if (m <<< k) % n = 0 then 0 else 1
      .fin (s ^^ t) (2 * q + st) (e - g - k - 1)

/-- Integer square root, bit by bit from `k`. -/
def isqrtGo (n : Nat) : Nat → Nat → Nat
  | 0, r => r
  | k + 1, r => let c := r + 2 ^ k; isqrtGo n k (if c * c ≤ n then c else r)

/-- The square root to 40 bits with a sticky bit, enough for one rounding to f32. -/
def FVal.sqrt (a : FVal) : FVal :=
  match a with
  | .nan => .nan
  | .inf s => if s then .nan else .inf false
  | .fin s m e =>
    if m = 0 then .fin s 0 0
    else if s then .nan
    else
      let k : Nat := 82 - Nat.log2 m
      let k := if (e - k) % 2 = 0 then k else k + 1
      let n := m <<< k
      let r := isqrtGo n 48 0
      .fin false (2 * r + (if r * r = n then 0 else 1)) ((e - k) / 2 - 1)

/-- Comparison of two numbers: none when either is a NaN; zeros of either sign are equal (R150). -/
def FVal.cmp (a b : FVal) : Option Ordering :=
  match a, b with
  | .nan, _ => none
  | _, .nan => none
  | .inf s, .inf t => some (if s = t then .eq else if s then .lt else .gt)
  | .inf s, .fin _ _ _ => some (if s then .lt else .gt)
  | .fin _ _ _, .inf t => some (if t then .gt else .lt)
  | .fin s m e, .fin t n g =>
    let k := min e g
    some (compare (gridInt s m e k) (gridInt t n g k))

/-- a below b. -/
def FVal.lt (a b : FVal) : Bool := a.cmp b == some .lt

/-- The integer a finite value rounds to in a mode (R65). -/
def roundInt (rm : RMode) (s : Bool) (m : Nat) (e : Int) : Int :=
  let n := roundTo rm s m e 0
  if s then -(n : Int) else n

/-- Conversion to an integer range (R65). -/
def FVal.toInt (rm : RMode) (lo hi : Int) (v : FVal) : Int :=
  match v with
  | .nan => 0
  | .inf s => if s then lo else hi
  | .fin s m e => satN (roundInt rm s m e) lo hi

/-- An integer as a value. -/
def FVal.ofInt (x : Int) : FVal := .fin (decide (x < 0)) x.natAbs 0

/-- The sign of an exact zero sum in a mode (R148). -/
def zeroSign (rm : RMode) : Bool := rm == .rdn

/-- One IEEE addition. -/
def FFmt.fadd (f : FFmt) (rm : RMode) (a b : Nat) : Nat := f.round rm false false ((f.read a).add (zeroSign rm) (f.read b))
/-- One IEEE subtraction. -/
def FFmt.fsub (f : FFmt) (rm : RMode) (a b : Nat) : Nat :=
  f.round rm false false ((f.read a).add (zeroSign rm) (f.read b).neg)
/-- One IEEE multiplication. -/
def FFmt.fmul (f : FFmt) (rm : RMode) (a b : Nat) : Nat := f.round rm false false ((f.read a).mul (f.read b))
/-- One IEEE division. -/
def FFmt.fdiv (f : FFmt) (rm : RMode) (a b : Nat) : Nat := f.round rm false false ((f.read a).div (f.read b))
/-- One IEEE fused multiply-add. -/
def FFmt.ffma (f : FFmt) (rm : RMode) (a b c : Nat) : Nat :=
  f.round rm false false (((f.read a).mul (f.read b)).add (zeroSign rm) (f.read c))

/-- `fmin` (`mx` false) and `fmax` (`mx` true) on bit patterns (R149). -/
def FFmt.minmax (f : FFmt) (mx nanRule : Bool) (a b : Nat) : Nat :=
  let x := f.read a
  let y := f.read b
  if nanRule && (x.isNan || y.isNan) then f.canonNan
  else if x.isNan && y.isNan then f.canonNan
  else if x.isNan then b
  else if y.isNan then a
  else if x.isZero && y.isZero then
    (if mx then f.signed (x.sign && y.sign) 0 else f.signed (x.sign || y.sign) 0)
  else if x.lt y then (if mx then b else a)
  else (if mx then a else b)

/-- `frnd` (R151): an integral value of the same type. -/
def FFmt.frnd (f : FFmt) (rm : RMode) (a : Nat) : Nat :=
  match f.read a with
  | .nan => f.canonNan
  | .inf s => f.infBits s
  | .fin s m e => f.rne (.fin s (roundTo rm s m e 0) 0)

/-- `fclass` (R151): the class bit of a pattern. -/
def FFmt.fclass (f : FFmt) (a : Nat) : Nat :=
  let s := a.testBit (f.eb + f.mb)
  let ex := bitsNat a f.mb f.eb
  let fr := a % 2 ^ f.mb
  if ex = f.emax then
    (if fr = 0 then (if s then 0 else 7) else if fr.testBit (f.mb - 1) then 9 else 8)
  else if ex = 0 then
    (if fr = 0 then (if s then 3 else 4) else if s then 2 else 5)
  else if s then 1 else 6

/-- The exact sum of terms (ExactSum of R76): an exact zero is −0 only when every term is −0. -/
def exactSum (ts : List FVal) : FVal :=
  if ts.any (·.isNan) then .nan
  else if (ts.any fun t => t == .inf false) && (ts.any fun t => t == .inf true) then .nan
  else if ts.any fun t => t == .inf false then .inf false
  else if ts.any fun t => t == .inf true then .inf true
  else
    match ts with
    | [] => .fin false 0 0
    | t :: rest => rest.foldl (fun acc x => acc.add false x) t

/-- A subnormal f32 pattern: exponent field zero and fraction not. -/
def isSub32 (x : Nat) : Bool := bitsNat x 23 8 == 0 && x % 2 ^ 23 != 0

/-- FlushAcc (R76, R392): a subnormal f32 becomes zero of its sign. -/
def flush32 (x : Nat) : Nat := if isSub32 x then f32.signed (x.testBit 31) 0 else x

/-- A value read by the tensor array: a subnormal input of a 16-bit format is zero of its sign (R63, R76). -/
def FFmt.readFlush (f : FFmt) (x : Nat) : FVal :=
  if bitsNat x f.mb f.eb = 0 then .fin (x.testBit (f.eb + f.mb)) 0 0 else f.read x

/-- The format of a scalar float type code of R118. -/
def floatOf (t : Nat) : FFmt := if t = 9 then f16 else if t = 0xA then bf16 else if t = 0xB then f64 else f32

/-- The element format of a packed type code. -/
def packedOf (t : Nat) : FFmt := if t = 0xD then bf16 else f16

/-- An operation on a type code of R118, per element for packed types (R62). -/
def floatMap2 (t : Nat) (op : FFmt → Nat → Nat → Nat) (a b : Nat) : Nat :=
  if t = 0xC ∨ t = 0xD then
    let f := packedOf t
    op f (a % 2 ^ 16) (b % 2 ^ 16) + 2 ^ 16 * op f (bitsNat a 16 16) (bitsNat b 16 16)
  else op (floatOf t) a b

/-- The operand of a type code: 16-bit types ignore the upper bits (R61). -/
def floatOperand (t a : Nat) : Nat := if t = 9 ∨ t = 0xA then a % 2 ^ 16 else a

/-- TwinScale formats (R67): element bits, fraction bits of the magnitude, largest magnitude, block bytes. -/
def twinBits (fmt : Nat) : Nat := if fmt = 4 then 8 else if fmt = 5 then 6 else 4
/-- f of R67. -/
def twinF (fmt : Nat) : Nat := if fmt = 4 then 5 else if fmt = 5 then 3 else 1
/-- m_max of R67. -/
def twinMax (fmt : Nat) : Nat := if fmt = 4 then 63 else if fmt = 5 then 15 else 3
/-- S of R67. -/
def twinSize (fmt : Nat) : Nat := if fmt = 4 then 32 else if fmt = 5 then 24 else 16

/-- The value of an element (R68): its bits, and the block's scale. -/
def twinVal (fmt elem scale : Nat) : FVal :=
  let b := twinBits fmt
  let sel := elem.testBit (b - 1)
  let s := elem.testBit (b - 2)
  let m := elem % 2 ^ (b - 2)
  let hi := bitsNat scale 8 8
  let ex := if sel then hi else scale % 256
  if hi = 0xFF then .nan
  else if sel && s && m == 0 then .nan
  else if m = 0 then .fin false 0 0
  else .fin s m ((ex : Int) - 127 - twinF fmt)

/-- Round a finite magnitude times 2^k to the nearest integer, ties to even. -/
def twinRound (v : FVal) (k : Int) : Nat :=
  match v with
  | .fin _ m e => roundTo .rne false m (e + k) 0
  | _ => 0

/-- What a conversion reports for the census and the max-magnitude registers (R222, R224). -/
structure Report where
  nan   : Nat
  inf   : Nat
  sat   : Nat
  under : Nat
  anyNan : Bool
  mag   : Nat
deriving DecidableEq, Repr

/-- An empty report. -/
def Report.zero : Report := ⟨0, 0, 0, 0, false, 0⟩

/-- Two reports together. -/
def Report.plus (a b : Report) : Report :=
  ⟨a.nan + b.nan, a.inf + b.inf, a.sat + b.sat, a.under + b.under, a.anyNan || b.anyNan, max a.mag b.mag⟩

/-- The max-magnitude report of values (R222): the largest magnitude as an f32 pattern, +∞ for an infinity.  DESIGN CHOICE (log 56): a TwinScale
value beyond f32, which R70 does not expect, is rounded to f32 as any other and reports +∞. -/
def magReport (vs : List FVal) : Report :=
  { Report.zero with
    anyNan := vs.any (·.isNan)
    mag := vs.foldl (fun acc v => match v with
      | .nan => acc
      | .inf _ => max acc (f32.infBits false)
      | .fin _ m e => max acc (f32.rne (.fin false m e))) 0 }

/-- The shared exponents of a block (R69): E_hi and E_lo. -/
def twinExps (fmt d : Nat) (xs : List FVal) : Nat × Nat :=
  let f := twinF fmt
  let a := xs.foldl (fun acc v => match v with
    | .fin _ m e => if acc.lt (.fin false m e) then .fin false m e else acc
    | _ => acc) (FVal.fin false 0 0)
  let eh := ((List.range 255).find? fun (e : Nat) => decide (twinRound a (127 + (f : Int) - (e : Int)) ≤ twinMax fmt)).getD 254
  (eh, eh - d)

/-- One element of a block (R69) and its census report. -/
def twinElem (fmt : Nat) (sat : Bool) (eh el : Nat) (v : FVal) : Nat × Report :=
  let f := twinF fmt
  let mm := twinMax fmt
  let b := twinBits fmt
  let mk (sel s : Bool) (m : Nat) : Nat := (if sel then 2 ^ (b - 1) else 0) + (if s then 2 ^ (b - 2) else 0) + m
  let nanE := (mk true true 0, { Report.zero with nan := 1 })
  match v with
  | .nan => nanE
  | .inf s => if sat then (mk true s mm, { Report.zero with sat := 1 }) else nanE
  | .fin s m e =>
    let under (q : Nat) : Report := if m ≠ 0 ∧ q = 0 then { Report.zero with under := 1 } else Report.zero
    let q := twinRound (.fin false m e) (127 + f - (el : Int))
    if q ≤ mm then (mk false s q, under q)
    else
      let q := twinRound (.fin false m e) (127 + f - (eh : Int))
      if q = 0 then (mk false s 0, under 0)
      else if q ≤ mm then (mk true s q, Report.zero)
      else if sat then (mk true s mm, { Report.zero with sat := 1 })
      else nanE

/-- ToTwinScale (R69): the block's element bytes, its scale and its report. -/
def toTwin (fmt d : Nat) (sat : Bool) (xs : List FVal) : List Byte × Nat × Report :=
  let (eh, el) := twinExps fmt d xs
  let es := xs.map (twinElem fmt sat eh el)
  let b := twinBits fmt
  let n := es.reverse.foldl (fun acc p => acc * 2 ^ b + p.1) 0
  (bytesOf (twinSize fmt) n, eh * 256 + el, es.foldl (fun r p => r.plus p.2) Report.zero)

/-- Element `i` of a block's bytes. -/
def twinElemAt (fmt : Nat) (block : List Byte) (i : Nat) : Nat := bitsNat (natOf block) (twinBits fmt * i) (twinBits fmt)

/-- The 32 values of a block (R68). -/
def fromTwin (fmt : Nat) (block : List Byte) (scale : Nat) : List FVal :=
  (List.range 32).map fun i => twinVal fmt (twinElemAt fmt block i) scale

/-- The format codes of R72 that hold one value an element: their format and bytes. -/
def slotFmt (fmt : Nat) : FFmt := if fmt = 1 then bf16 else if fmt = 2 then f16 else if fmt = 3 then f64 else f32

/-- Bytes of an element of a format code of R72 (I4 apart). -/
def fmtBytes (fmt : Nat) : Nat := if fmt = 0 then 4 else if fmt = 1 ∨ fmt = 2 then 2 else if fmt = 3 then 8 else 1

/-- Whether a format code is TwinScale. -/
def isTwin (fmt : Nat) : Bool := fmt == 4 || fmt == 5 || fmt == 6

/-- Whether a format code is reserved (R72). -/
def fmtReserved (fmt : Nat) : Bool := fmt == 7 || 0xB ≤ fmt

/-- The value of an element of an IEEE or integer format (R72). -/
def fmtRead (fmt x : Nat) : FVal :=
  if fmt = 8 then .ofInt (sext 8 x) else if fmt = 9 then .ofInt (x % 256) else if fmt = 0xA then .ofInt (sext 4 x)
  else (slotFmt fmt).read x

/-- A value converted through a slot to an IEEE or integer format (R65, R70, R154, R393) and its census report. -/
def fmtWrite (fmt : Nat) (rm : RMode) (sat : Bool) (v : FVal) : Nat × Report :=
  let int (lo hi : Int) (w : Nat) : Nat × Report :=
    let raw : Int := match v with
      | .nan => 0
      | .inf s => if s then lo - 1 else hi + 1
      | .fin s m e => roundInt rm s m e
    let r := v.toInt rm lo hi
    (wrapN w r, { Report.zero with sat := if raw < lo ∨ hi < raw then 1 else 0,
                                   under := if r = 0 ∧ !v.isNan ∧ !v.isZero then 1 else 0 })
  if fmt = 8 then int (-128) 127 8
  else if fmt = 9 then int 0 255 8
  else if fmt = 0xA then int (-8) 7 4
  else
    let f := slotFmt fmt
    let x := f.round rm sat sat v
    let un := f.round rm false false v
    let y := f.read x
    (x, { Report.zero with
      nan := if y.isNan then 1 else 0
      inf := if y.isInf then 1 else 0
      sat := if sat && (v.isInf || un == f.infBits v.sign && un != x) then 1 else 0
      under := if y.isZero && !v.isZero then 1 else 0 })

end Sys2Proof.Machine
end

