-- ==== Sys2Proof/Config.lean ====
section
/-! DEFINITION. What an implementation fixes and the free values: every constant here is opaque, so that a theorem holds whatever its value is. -/

namespace Sys2Proof

namespace Config

/-- A 32-bit value the manual leaves unspecified (R5): that of a context for each value of the context's own counter. -/
opaque freeWord : Nat → Nat → Word

/-- A byte the manual leaves unspecified (R5): that of a context for each value of the context's own counter. -/
opaque freeByte : Nat → Nat → Byte

/-- Whether the host's translation agent grants a host request at once (R377), by the request's name. -/
opaque hostGrants : Nat → Bool

/-- How far the window of an arbitration point has run when module reset ends: the windows of different points are not aligned (R310). -/
opaque windowPhase : Nat → Nat

/-- Whether a refresh of HBM4 asks for a grant of a pseudo-channel's controller in a clock: the spec gives the refreshes no schedule (R310). -/
opaque refreshAsks : Nat → Nat → Bool

/-- Credits in beats of a class of a Quill port that its peer gives back in a clock: the spec says how many there are and not when they come
back (R383). -/
opaque creditsBack : Nat → Nat → Nat → Nat

/-- Whether address translation services and page requests are enabled for a virtual function, which the host says (R377). -/
opaque atsEnabled : Nat → Bool
opaque priEnabled : Nat → Bool

/-- A byte of an image record whose content the manual lists and whose layout it does not give (R332): of a TYPE, a content and a place. -/
opaque recordByte : Nat → List (BitVec 8) → Nat → BitVec 8

/-- The return address of a Marrow cluster, which a KIND 0 chunk finds in `ra` (R360). -/
opaque marrowReturn : Nat → BitVec 64

/-- The value of a core's local cycle counter when module reset ends: some value below 2^48 (R137). -/
opaque cycleOffset : Nat → BitVec 48

/-- SHA-512 (FIPS 180-4), which R296 and R386 name and do not define: 64 bytes for a message. -/
opaque sha512 : List Byte → List Byte

/-- Whether an Ed25519 signature of a message verifies under a key (RFC 8032, named by R296). -/
opaque ed25519Verify : List Byte → List Byte → List Byte → Bool

/-- Whether an ML-DSA-65 signature of a message with an empty context string verifies under a key (FIPS 204, named by R296). -/
opaque mldsaVerify : List Byte → List Byte → List Byte → Bool

/-- Whether a boot image verifies in the manner of R296 (R384): its layout is not given; key hashes, anti-rollback minimum and image. -/
opaque bootImageOk : List Byte → List Byte → Nat → List Byte → Bool

/-- The Ed25519 signature of an SPDM measurement response, from the device secret (R386). -/
opaque spdmEd25519 : BitVec 256 → List Byte → List Byte

/-- The ML-DSA-65 signature of an SPDM measurement response, from the device secret (R386). -/
opaque spdmMldsa : BitVec 256 → List Byte → List Byte

end Config

end Sys2Proof
end

