-- ==== Sys2Proof/Syntax/Args.lean ====
section
/-! DEFINITION. What an event of the opcode table names: the unit it concerns, and for an act of an outside party what that party supplies. -/

namespace Sys2Proof

/-- A channel of a context: one of a core's four while it serves that context, or a bulk channel on a die (R92).  Core
numbers 4 to 11 are the posting queues of `fur`, one for each cluster. -/
inductive ChanKey where
  | core (core ctx k : Nat)
  | bulk (die ctx k : Nat)
deriving DecidableEq, Repr

/-- Where a packet waits to be accepted: a launch queue, or a die's device launch buffer (R134, R304). -/
inductive AcceptSrc where
  | queue (q : Nat)
  | device (gid : Nat)
deriving DecidableEq, Repr

/-- The points CCP firmware may resume a thread at after a NIBTRAP (R294). -/
inductive ResumePoint where
  | wordBypass
  | nextWord
  | entry (a : DWord)
deriving DecidableEq, Repr

/-- How a Marrow chunk ended (R360, R362). A KIND 0 chunk runs RISC-V code, whose writes and result are
outside this specification and so are supplied here; a KIND 1 chunk is computed by the model. -/
inductive ChunkEnd where
  | returned (a0 : DWord) (writes : List (DWord × Byte))
  | exception (writes : List (DWord × Byte))
  | access (kind : Nat) (va : DWord) (writes : List (DWord × Byte))
  | badWord (va : DWord)
deriving DecidableEq, Repr

/-- An arbitration point (R94, R310). -/
inductive Point where
  | slice (n : Nat)
  | controller (pc : Nat)
  | link (dir : Nat)
  | quill (port dir : Nat)
deriving DecidableEq, Repr

/-- A register that has no row of its own (REGISTER_WRITE, R4): one of a window (R378, R379), or a control register of a context, which
the Scribe reads and writes for any context (R287). -/
inductive RegAddr where
  | physical (offset : Nat)
  | driver (vf offset : Nat)
  | control (ctx n : Nat)
deriving DecidableEq, Repr

/-- Who writes a budget register (R311): CCP firmware of a core, or the Scribe. -/
inductive BudgetWriter where
  | firmware (core : Nat)
  | scribe
deriving DecidableEq, Repr

/-- The host link's kinds (R376): PCI Express, and CXL with flits of 68 or of 256 bytes. -/
inductive LinkKind where
  | pcie
  | cxl68
  | cxl256
deriving DecidableEq, Repr

/-- What a Quill flit carries (R383): a class, and for class 0 a rank's collective data. -/
structure Flit where
  cls   : Nat
  group : Nat
  seq   : Nat
  rank  : Nat
  off   : Nat
  data  : List Byte
deriving DecidableEq, Repr

/-- What bring-up finds (R384, R389): the images that the module boots from, and the units whose self-test fails, as (KIND, UNIT) of R354. -/
structure BringUp where
  scribe : List Byte
  ccp    : List Byte
  nib    : List Byte
  failed : List (Nat × Nat)
deriving DecidableEq, Repr

/-- The three images a module boots from (R384). -/
inductive ImageKind where
  | scribe
  | ccp
  | nib
deriving DecidableEq, Repr

end Sys2Proof
end

