-- ==== Sys2Proof/Syntax/Forms.lean ====
section
/-! DEFINITION. The forms of an instruction word (R114, R115): what fields a word of each form carries, by the manual's own names. A bit that R115 marks zero is no field here; Decode checks that it is zero. -/

namespace Sys2Proof

/-- A guard field (R114): it holds for a thread when `p`n XOR INV is 1. -/
structure Guard where
  inv : Bool
  pn  : BitVec 3
deriving DecidableEq, Repr

/-- The fields of forms R and M-reg: MOD, FS, HOLD, X, D, A, B, C. In form M-reg, X is order, scope and policy. -/
structure RWord where
  g0   : Guard
  g1   : Guard
  md   : BitVec 4
  fs   : Bool
  hold : BitVec 2
  x    : BitVec 7
  d    : BitVec 8
  a    : BitVec 8
  b    : BitVec 8
  c    : BitVec 8
deriving DecidableEq, Repr

/-- The fields of forms I and M-off: as R, with a 16-bit immediate or offset in place of B and C. -/
structure IWord where
  g0   : Guard
  g1   : Guard
  md   : BitVec 4
  fs   : Bool
  hold : BitVec 2
  x    : BitVec 7
  d    : BitVec 8
  a    : BitVec 8
  imm  : BitVec 16
deriving DecidableEq, Repr

/-- The fields of form L: D, MOD6 and a 32-bit immediate. -/
structure LWord where
  g0  : Guard
  g1  : Guard
  d   : BitVec 8
  md6 : BitVec 6
  imm : BitVec 32
deriving DecidableEq, Repr

/-- The fields of form B: MOD and the offset in words of 8 bytes (R117). -/
structure BWord where
  g0  : Guard
  g1  : Guard
  md  : BitVec 4
  off : BitVec 32
deriving DecidableEq, Repr

/-- The fields of form E: timeline, format slot, channel and the scalar numbers of R115. -/
structure EWord where
  g0   : Guard
  g1   : Guard
  md   : BitVec 4
  fs   : Bool
  tl   : BitVec 3
  slot : BitVec 3
  bulk : Bool
  hnd  : BitVec 9
  shp  : BitVec 9
  crd  : BitVec 9
  chan : BitVec 4
deriving DecidableEq, Repr

/-- The fields of form U: four scalar numbers; with BI set, B9 and C9 are one signed 18-bit immediate. -/
structure UWord where
  g0 : Guard
  g1 : Guard
  md : BitVec 4
  fs : Bool
  bi : Bool
  d  : BitVec 9
  a  : BitVec 9
  b  : BitVec 9
  c  : BitVec 9
deriving DecidableEq, Repr

end Sys2Proof
end

