-- ==== Sys2Proof/Syntax.lean ====
section
/-! DEFINITION. The instructions and events of the opcode table, one constructor for each of its 262 rows: a word row carries the fields of its form (R115), an event names the unit it concerns. -/

namespace Sys2Proof

/-- One step of the part (opcode_table.json; spec/95_what_each_step_holds.md: each row is one whole, indivisible step). -/
inductive Instr where
  /-- NOP, R127. Does nothing for the threads of the pack. -/
  | nop (f : RWord)
  /-- BRA, R125. Each guard-holding thread records the PC-relative target as its next address. -/
  | bra (f : BWord)
  /-- JMP, R125. Each guard-holding thread records the target in its register pair as its next address. -/
  | jmp (f : RWord)
  /-- CALL, R125. Each guard-holding thread pushes the following header and branches to the PC-relative callee. -/
  | call (f : BWord)
  /-- CALLI, R125. Each guard-holding thread pushes the following header and branches to the callee in its register pair. -/
  | calli (f : RWord)
  /-- RET, R125. Each guard-holding thread pops its return stack, refilling from the spill area when needed. -/
  | ret (f : RWord)
  /-- EXIT, R127. Each guard-holding thread leaves its pack and drains or frees its slot. -/
  | exit (f : RWord)
  /-- TRAP, R128. Raises the software trap with the immediate code in every guard-holding thread. -/
  | trap (f : IWord)
  /-- TRET, R130. Ends a handler run and files the thread at the re-execute, skip or explicit resume point. -/
  | tret (f : RWord)
  /-- BRK, R129. Raises the breakpoint trap with the immediate code in every guard-holding thread. -/
  | brk (f : IWord)
  /-- BAR, R132. Arrives at a team barrier and parks unless the barrier completes. -/
  | bar (f : IWord)
  /-- BAR_ARR, R132. Arrives at a team barrier without waiting. -/
  | barArr (f : IWord)
  /-- BAR_WAIT, R132. Waits at a barrier the thread has arrived at, or continues as an acquire. -/
  | barWait (f : IWord)
  /-- LAUNCH, R134. Starts one child grid per guard-holding thread and returns a pending grid handle and status. -/
  | launch (f : RWord)
  /-- LWAIT, R135. Parks on a pending grid handle until its grid retires, then acquires its effects. -/
  | lwait (f : RWord)
  /-- LWAIT_TEST, R135. Writes 1 if the grid handle pair is no longer pending, 0 otherwise. -/
  | lwaitTest (f : RWord)
  /-- YIELD, R127. Each guard-holding thread leaves its pack and waits in the resume pod of the next word. -/
  | yield (f : RWord)
  /-- SREG, R136. Copies a special register into the destination. -/
  | sreg (f : IWord)
  /-- ADD, R141. Integer addition, wrapping or saturating. -/
  | add (f : RWord)
  /-- SUB, R141. Integer subtraction, wrapping or saturating. -/
  | sub (f : RWord)
  /-- ADDC, R141. Unsigned addition with carry in and out through a predicate. -/
  | addc (f : RWord)
  /-- SUBB, R141. Unsigned subtraction with borrow in and out through a predicate. -/
  | subb (f : RWord)
  /-- MUL, R141. Low half of an integer product. -/
  | mul (f : RWord)
  /-- MULH, R141. High half of an integer product. -/
  | mulh (f : RWord)
  /-- MAD, R141. Integer multiply-add. -/
  | mad (f : RWord)
  /-- MADW, R141. Widening 32-bit multiply with 64-bit addend. -/
  | madw (f : RWord)
  /-- DIV, R142. Integer division truncated toward zero, in the function unit, flagged. -/
  | div (f : RWord)
  /-- REM, R142. Integer remainder with the dividend's sign, flagged. -/
  | rem (f : RWord)
  /-- MIN, R141. Smaller of two integers. -/
  | min (f : RWord)
  /-- MAX, R141. Larger of two integers. -/
  | max (f : RWord)
  /-- ABS, R141. Absolute value of a signed integer. -/
  | abs (f : RWord)
  /-- CMP, R143. Integer comparison into a predicate and optionally a register. -/
  | cmp (f : RWord)
  /-- ADD_IMMEDIATE, R141. Integer addition with a sign-extended immediate. -/
  | addI (f : IWord)
  /-- SUB_IMMEDIATE, R141. Integer subtraction of a sign-extended immediate. -/
  | subI (f : IWord)
  /-- MUL_IMMEDIATE, R141. Integer product with an immediate. -/
  | mulI (f : IWord)
  /-- MIN_IMMEDIATE, R141. Smaller of a register and an immediate. -/
  | minI (f : IWord)
  /-- MAX_IMMEDIATE, R141. Larger of a register and an immediate. -/
  | maxI (f : IWord)
  /-- CMP_IMMEDIATE, R143. Integer comparison against an immediate. -/
  | cmpI (f : IWord)
  /-- AND, R145. Bitwise AND. -/
  | and (f : RWord)
  /-- OR, R145. Bitwise OR. -/
  | or (f : RWord)
  /-- XOR, R145. Bitwise XOR. -/
  | xor (f : RWord)
  /-- ANDN, R145. Bitwise AND with the complement of the second source. -/
  | andn (f : RWord)
  /-- NOT, R145. Bitwise complement. -/
  | not (f : RWord)
  /-- SHL, R145. Left shift by a count modulo the width. -/
  | shl (f : RWord)
  /-- SHR, R145. Logical right shift. -/
  | shr (f : RWord)
  /-- SAR, R145. Arithmetic right shift. -/
  | sar (f : RWord)
  /-- ROT, R145. Left rotate. -/
  | rot (f : RWord)
  /-- BFE, R145. Bit-field extract. -/
  | bfe (f : RWord)
  /-- BFI, R145. Bit-field insert. -/
  | bfi (f : RWord)
  /-- POPC, R145. Population count. -/
  | popc (f : RWord)
  /-- CLZ, R145. Count of leading zeros. -/
  | clz (f : RWord)
  /-- CTZ, R145. Count of trailing zeros. -/
  | ctz (f : RWord)
  /-- BREV, R145. Bit reversal. -/
  | brev (f : RWord)
  /-- PERM, R145. Byte permutation of two registers under nibble control. -/
  | perm (f : RWord)
  /-- LEA, R145. 64-bit base plus shifted index. -/
  | lea (f : RWord)
  /-- SEL, R145. Bit copy of one of two sources chosen by a predicate. -/
  | sel (f : RWord)
  /-- MOV, R145. Bit copy of a source. -/
  | mov (f : RWord)
  /-- MOVI, R146. Writes a 32-bit immediate, plain, extended or into the odd half of a pair. -/
  | movi (f : LWord)
  /-- AND_IMMEDIATE, R145. Bitwise AND with an immediate. -/
  | andI (f : IWord)
  /-- OR_IMMEDIATE, R145. Bitwise OR with an immediate. -/
  | orI (f : IWord)
  /-- XOR_IMMEDIATE, R145. Bitwise XOR with an immediate. -/
  | xorI (f : IWord)
  /-- ANDN_IMMEDIATE, R145. AND with the complement of an immediate. -/
  | andnI (f : IWord)
  /-- SHL_IMMEDIATE, R145. Left shift by an immediate count. -/
  | shlI (f : IWord)
  /-- SHR_IMMEDIATE, R145. Logical right shift by an immediate count. -/
  | shrI (f : IWord)
  /-- SAR_IMMEDIATE, R145. Arithmetic right shift by an immediate count. -/
  | sarI (f : IWord)
  /-- ROT_IMMEDIATE, R145. Left rotate by an immediate count. -/
  | rotI (f : IWord)
  /-- LEA_IMMEDIATE, R145. 64-bit base plus a sign-extended immediate index. -/
  | leaI (f : IWord)
  /-- FADD, R148. Floating-point addition rounded once. -/
  | fadd (f : RWord)
  /-- FSUB, R148. Floating-point subtraction rounded once. -/
  | fsub (f : RWord)
  /-- FMUL, R148. Floating-point multiplication rounded once. -/
  | fmul (f : RWord)
  /-- FFMA, R148. Fused multiply-add rounded once. -/
  | ffma (f : RWord)
  /-- FMIN, R149. Floating-point minimum with the NaN rule selected. -/
  | fmin (f : RWord)
  /-- FMAX, R149. Floating-point maximum with the NaN rule selected. -/
  | fmax (f : RWord)
  /-- FCMP, R150. Floating-point comparison into a predicate and optionally a register. -/
  | fcmp (f : RWord)
  /-- FCLASS, R151. Writes a one-hot class mask of the operand. -/
  | fclass (f : RWord)
  /-- FRND, R151. Rounds to an integral value of the same type. -/
  | frnd (f : RWord)
  /-- FDOT2, R152. Two-element packed dot product with f32 addend, rounded once. -/
  | fdot2 (f : RWord)
  /-- FCVT, R153. Converts between float types or between float and integer types. -/
  | fcvt (f : RWord)
  /-- ICVT, R155. Converts between integer types, wrapping or saturating. -/
  | icvt (f : RWord)
  /-- RAND, R159. Produces a counter-based random value and advances the thread's counter. -/
  | rand (f : RWord)
  /-- PSET, R156. Sets a predicate from a truth table of two predicates. -/
  | pset (f : RWord)
  /-- PMOV, R157. Moves predicates to or from a register. -/
  | pmov (f : RWord)
  /-- FNLD, R185. Loads a function descriptor into the inactive copy of a function register, once per pack. -/
  | fnld (f : RWord)
  /-- FAPP, R179. Applies a function register and delivers the value. -/
  | fapp (f : RWord)
  /-- FAPPD, R179. Applies a function register and delivers the derivative. -/
  | fappd (f : RWord)
  /-- FAPP2, R179. Applies a function register and delivers value and derivative. -/
  | fapp2 (f : RWord)
  /-- FNSYNC, R188. Sets a flag that clears once earlier loads have switched and old pins are gone. -/
  | fnsync (f : RWord)
  /-- FNQ, R189. Reads a function register's status word. -/
  | fnq (f : RWord)
  /-- SHFL, R196. Gives each active member the value of another member of its sub-group. -/
  | shfl (f : RWord)
  /-- SBC, R197. Broadcasts one member's value to every active member. -/
  | sbc (f : RWord)
  /-- SVOTE, R198. Votes or ballots a predicate over the active members. -/
  | svote (f : RWord)
  /-- SRED, R199. Ordered reduction over the active members. -/
  | sred (f : RWord)
  /-- SSCAN, R199. Ordered inclusive or exclusive scan over the active members. -/
  | sscan (f : RWord)
  /-- SMV, R200. Mean and population variance over the active members. -/
  | smv (f : RWord)
  /-- SSMX, R201. Softmax over the active members through two function registers. -/
  | ssmx (f : RWord)
  /-- LD, R167. Global load, flagged. -/
  | ld (f : IWord)
  /-- ST, R167. Global store. -/
  | st (f : IWord)
  /-- LDL, R167. Local load from scratch or a frame window. -/
  | ldl (f : IWord)
  /-- STL, R167. Local store to scratch or a frame window. -/
  | stl (f : IWord)
  /-- LDS, R167. Global load to a scalar, performed once per pack. -/
  | lds (f : IWord)
  /-- LDX, R169. Loads one row or column line of a sector per thread. -/
  | ldx (f : IWord)
  /-- STX, R169. Stores one row or column line of a sector per thread. -/
  | stx (f : IWord)
  /-- LD_FE, R171. Takes a full scratch word and empties it, or parks. -/
  | ldFe (f : IWord)
  /-- ST_FE, R171. Fills an empty scratch word, or parks. -/
  | stFe (f : IWord)
  /-- FE_SET, R171. Forces a scratch word's full/empty bit and releases the oldest served waiter. -/
  | feSet (f : IWord)
  /-- FENCE, R172. Release, acquire or sequentially consistent fence. -/
  | fence (f : IWord)
  /-- PRF, R173. Prefetches a line into the LLC and optionally L1. -/
  | prf (f : IWord)
  /-- CINV, R173. Invalidates the whole L1 or one line. -/
  | cinv (f : IWord)
  /-- ATOM_B32, R170. 32-bit atomic read-modify-write at the home slice returning the old value. -/
  | atomB32 (f : RWord)
  /-- ATOM_B64, R170. 64-bit atomic read-modify-write at the home slice returning the old value. -/
  | atomB64 (f : RWord)
  /-- RED_B32, R170. 32-bit atomic reduction at the home slice with no result. -/
  | redB32 (f : RWord)
  /-- RED_B64, R170. 64-bit atomic reduction at the home slice with no result. -/
  | redB64 (f : RWord)
  /-- MRES, R203. Reserves the tensor array singly or as a pair, reporting status. -/
  | mres (f : RWord)
  /-- MREL, R203. Releases the team's reservation once its earlier matrix instructions retire. -/
  | mrel (f : RWord)
  /-- MMAC, R212. Queues a tile multiply-accumulate into the accumulation buffer. -/
  | mmac (f : RWord)
  /-- MDUAL, R216. Queues the dual backward product into two buffer regions. -/
  | mdual (f : RWord)
  /-- MZERO, R218. Queues zeroing of a buffer region. -/
  | mzero (f : RWord)
  /-- MLD, R218. Queues a load of a buffer region from memory. -/
  | mld (f : RWord)
  /-- MST, R219. Queues a converting store of a buffer region to memory. -/
  | mst (f : RWord)
  /-- QCVT, R220. Queues conversion of blocks to TwinScale in memory. -/
  | qcvt (f : RWord)
  /-- DQCVT, R220. Queues conversion of TwinScale blocks to an IEEE format in memory. -/
  | dqcvt (f : RWord)
  /-- AMRD, R223. Reads a max-magnitude register. -/
  | amrd (f : RWord)
  /-- AMCLR, R223. Clears a max-magnitude register. -/
  | amclr (f : RWord)
  /-- CP, R237. Queues a tensor box copy on a channel and returns a handle. -/
  | cp (f : EWord)
  /-- CP_RED, R238. Queues a converting reduce-add of a box into memory and returns a handle. -/
  | cpRed (f : EWord)
  /-- CP_GAT, R237. Queues a gather of table rows through an index list. -/
  | cpGat (f : EWord)
  /-- COLL, R240. Queues this rank's part of a collective. -/
  | coll (f : EWord)
  /-- FUR, R241. Posts a job record to a Marrow cluster. -/
  | fur (f : EWord)
  /-- CP_FILL, R242. Reads a channel's fill pointer, optionally as an acquire. -/
  | cpFill (f : RWord)
  /-- TL_WAIT, R244. Continues as an acquire once a timeline reaches a value, or parks. -/
  | tlWait (f : RWord)
  /-- TL_TEST, R244. Writes whether a handle's command is complete. -/
  | tlTest (f : UWord)
  /-- TL_CANCEL, R244. Removes a queued, unstarted command and reports whether it did. -/
  | tlCancel (f : UWord)
  /-- TL_RD, R244. Reads a timeline's COMPLETED or FAILV. -/
  | tlRd (f : UWord)
  /-- TL_SIG, R244. Assigns the next timeline value as a releasing signal. -/
  | tlSig (f : UWord)
  /-- UNIFORM_ADD, R162. Scalar addition in the U form. -/
  | uAdd (f : UWord)
  /-- UNIFORM_SUB, R162. Scalar subtraction in the U form. -/
  | uSub (f : UWord)
  /-- UNIFORM_MUL, R162. Scalar multiplication in the U form. -/
  | uMul (f : UWord)
  /-- UNIFORM_MIN, R162. Scalar minimum in the U form. -/
  | uMin (f : UWord)
  /-- UNIFORM_MAX, R162. Scalar maximum in the U form. -/
  | uMax (f : UWord)
  /-- UNIFORM_AND, R162. Scalar AND in the U form. -/
  | uAnd (f : UWord)
  /-- UNIFORM_OR, R162. Scalar OR in the U form. -/
  | uOr (f : UWord)
  /-- UNIFORM_XOR, R162. Scalar XOR in the U form. -/
  | uXor (f : UWord)
  /-- UNIFORM_ANDN, R162. Scalar AND-NOT in the U form. -/
  | uAndn (f : UWord)
  /-- UNIFORM_NOT, R162. Scalar complement in the U form. -/
  | uNot (f : UWord)
  /-- UNIFORM_SHL, R162. Scalar left shift in the U form. -/
  | uShl (f : UWord)
  /-- UNIFORM_SHR, R162. Scalar logical right shift in the U form. -/
  | uShr (f : UWord)
  /-- UNIFORM_SAR, R162. Scalar arithmetic right shift in the U form. -/
  | uSar (f : UWord)
  /-- UNIFORM_BFE, R162. Scalar bit-field extract in the U form. -/
  | uBfe (f : UWord)
  /-- UNIFORM_POPC, R162. Scalar population count in the U form. -/
  | uPopc (f : UWord)
  /-- UNIFORM_CLZ, R162. Scalar leading-zero count in the U form. -/
  | uClz (f : UWord)
  /-- UNIFORM_CTZ, R162. Scalar trailing-zero count in the U form. -/
  | uCtz (f : UWord)
  /-- UNIFORM_MOV, R162. Scalar move or immediate write in the U form. -/
  | uMov (f : UWord)
  /-- UNIFORM_LEA, R162. Scalar 64-bit base plus index in the U form. -/
  | uLea (f : UWord)
  /-- NRET, R298. Leaves patch mode, reloads saved registers and resumes per MOD. -/
  | nret (f : RWord)
  /-- CTL_RD, R290. Reads a context control register. -/
  | ctlRd (f : RWord)
  /-- CTL_WR, R290. Writes a context control register on every core of the context. -/
  | ctlWr (f : RWord)
  /-- NON_INSTRUCTION, R121. A word that is not an instruction comes to issue and passes the decode steps. -/
  | nonInstruction (w : DWord)
  /-- SERIALISE_DRAIN_END, R294. The serialise drain and fence complete and the word continues at step 2. -/
  | serialiseDrainEnd (core part stream : Nat)
  /-- PATCH_MODE_ENTRY, R297. Once its flags are clear, a thread saves v0-v7 and predicates and is filed at the emulation routine. -/
  | patchModeEntry (core part slot : Nat)
  /-- CLAUSE_FETCH, R28. A clause fetch returns and the stream's pack may issue its words. -/
  | clauseFetch (core part stream : Nat)
  /-- POD_EVICT, R24. An open pod aged past AGE_LIMIT is closed to make room for an aged closed pod. -/
  | podEvict (core part : Nat)
  /-- POD_OPEN, R22. The selector opens one eligible closed pod. -/
  | podOpen (core part : Nat)
  /-- PACK_FORM, R25. The selector draws a pack from an open pod for a free stream. -/
  | packForm (core part : Nat)
  /-- THREAD_FILING, R31. Threads leaving a pack are filed at their next addresses 4 clocks after the last word. -/
  | threadFiling (core part : Nat)
  /-- POD_HEADER_FETCH, R391. A new pod's header fetch returns RANK and CONV and makes its threads eligible. -/
  | podHeaderFetch (core part pod : Nat)
  /-- ENTRY_QUEUE_SERVE, R20. The filer moves queued threads into pods in FIFO order. -/
  | entryQueueServe (core part : Nat)
  /-- POLL_RETRY, R39. A polling thread is released after 64 clocks to retry its full/empty operation. -/
  | pollRetry (core part slot : Nat)
  /-- BARRIER_COMPLETE, R132. A barrier completes, clearing ARRIVED bits and releasing its waiters. -/
  | barrierComplete (core team b : Nat)
  /-- RESULT_LAND, R34. A flagged result lands and clears the thread's completion flag. -/
  | resultLand (core id : Nat)
  /-- STORE_ACK, R96. A home slice acknowledgement of a store or atomic returns to the core. -/
  | storeAck (core id : Nat)
  /-- LINE_REQUEST_SEND, R168. The partition sends up to two queued line requests per clock. -/
  | lineRequestSend (core part : Nat)
  /-- SLICE_SERVICE, R99. An LLC slice serves one request, performing it in coherence order. -/
  | sliceService (slice : Nat)
  /-- SECTOR_REORIENT_END, R87. After 32 clocks the slice flips a sector's orientation and resets its count. -/
  | sectorReorientEnd (slice : Nat)
  /-- MEMORY_CONTROLLER_SERVICE, R94. A pseudo-channel controller serves a queued request by class and row-buffer order. -/
  | memoryControllerService (pc : Nat)
  /-- SECTOR_FILL, R85. An HBM4 read returns and fills a sector, serving the missing access. -/
  | sectorFill (slice sector : Nat)
  /-- INKWELL_SERVICE, R99. Inkwell serves a read. -/
  | inkwellService (group : Nat)
  /-- COMPLETION_TIMEOUT, R356. A host request with no completion after 3,000 clocks writes a CLASS 0x15 record. -/
  | completionTimeout (id : Nat)
  /-- CCP_RESUME, R36. CCP firmware resumes a thread parked on a NIBTRAP fault, at the word with BYPASS, at the next word or at an ENTRY header. -/
  | ccpResume (core part slot : Nat) (p : ResumePoint)
  /-- DIE_TO_DIE_LINK_BEAT, R94. The die-to-die link grants one 64-byte beat per direction to a class with budget left, round-robin. -/
  | dieToDieLinkBeat (dir : Nat)
  /-- QUILL_FLIT, R383. A 256-byte flit is carried in its credit class. -/
  | quillFlit (port dir : Nat) (f : Flit)
  /-- INKWELL_REFRESH_START, R88. A bank group's 640-clock refresh window begins on the die clock count. -/
  | inkwellRefreshStart (group : Nat)
  /-- INKWELL_REFRESH_END, R88. A bank group's refresh window ends and waiting reads proceed. -/
  | inkwellRefreshEnd (group : Nat)
  /-- BANK_RESERVATION, R53. A port access that has waited 8 clocks reserves its bank. -/
  | bankReservation (core part : Nat)
  /-- BUDGET_WINDOW_START, R311. An arbitration point starts a 4,096-clock window and restarts grant counts. -/
  | budgetWindowStart (pt : Point)
  /-- WALK_COMPLETE, R95. A page-table walk finishes and fills TLBs or delivers a fault to its waiters. -/
  | walkComplete (die ctx vpn : Nat)
  /-- ACCESSED_DIRTY_SET, R316. The atomic OR setting A or D is acknowledged and the write proceeds. -/
  | accessedDirtySet (die : Nat)
  /-- FNLD_SWITCH, R185. A descriptor load writes the inactive copy and switches it active as a new generation. -/
  | fnldSwitch (core reg : Nat)
  /-- FNSYNC_CLEAR, R188. An fnsync flag clears once earlier loads switched and no old pin remains. -/
  | fnsyncClear (core id : Nat)
  /-- ARRAY_START, R209. The next queued array instruction starts after the previous retires. -/
  | arrayStart (core : Nat)
  /-- ARRAY_RETIRE, R209. An array instruction retires and clears its flags. -/
  | arrayRetire (core : Nat)
  /-- COMMAND_HEAD, R236. A command reaches its channel's head, reads its records and starts. -/
  | commandHead (ch : ChanKey)
  /-- SEQUENCE_WORD_READ, R238. An ordered cp.red's sequence word read returns; it starts if it matches. -/
  | sequenceWordRead (ch : ChanKey)
  /-- SEQUENCE_WORD_POLL, R238. 64 clocks after a non-matching read, the sequence word is read again. -/
  | sequenceWordPoll (ch : ChanKey)
  /-- DELIVERY_TURN, R93. A channel writes 64 destination bytes in its round-robin turn. -/
  | deliveryTurn (ch : ChanKey)
  /-- COMMAND_COMPLETE, R231. A command's effects are acknowledged and the timeline completes values in order. -/
  | commandComplete (core team tl : Nat)
  /-- MARROW_JOB_START, R357. A cluster takes the next job from its FIFO. -/
  | marrowJobStart (cluster : Nat)
  /-- MARROW_CHUNK_START, R357. A free Marrow core takes the lowest unstarted chunk. -/
  | marrowChunkStart (cluster : Nat)
  /-- MARROW_CHUNK_END, R360. A chunk finishes or aborts; the last one completes the job. -/
  | marrowChunkEnd (marrow : Nat) (e : ChunkEnd)
  /-- TEAM_RETIRE, R13. A finished team whose launched grids have retired releases its resources. -/
  | teamRetire (core team : Nat)
  /-- GRID_RETIRE, R13. A grid's last team retires and its completion timeline advances. -/
  | gridRetire (gid : Nat)
  /-- WPTR_DOORBELL, R301. A write to a queue's wptr makes packets available or records an error. -/
  | wptrDoorbell (q : Nat) (v : DWord)
  /-- QUEUE_ENABLE, R300. Setting ENABLE zeroes the queue's pointers and timeline. -/
  | queueEnable (q : Nat) (v : DWord)
  /-- QUEUE_DISABLE, R300. Clearing ENABLE stops acceptance of further packets. -/
  | queueDisable (q : Nat)
  /-- QERR_CLEAR, R300. A write to qerr clears the recorded rejection. -/
  | qerrClear (q : Nat) (v : DWord)
  /-- PACKET_ACCEPT, R304. A queue's head packet is read, checked, its dependences met and its data fetched. -/
  | packetAccept (src : AcceptSrc)
  /-- PLACEMENT_STEP, R307. Every 8 clocks the dispatcher places at most one team on an eligible core. -/
  | placementStep (die : Nat)
  /-- TEAM_START, R309. A placed team's scalars are set and its threads filed at the kernel entry. -/
  | teamStart (core team : Nat)
  /-- CODE_RING_ENABLE, R336. Setting the code ring's ENABLE zeroes its pointers. -/
  | codeRingEnable (vf : Nat) (v : DWord)
  /-- CODE_RING_DOORBELL, R336. A write to cmwptr makes code commands available. -/
  | codeRingDoorbell (vf : Nat) (v : DWord)
  /-- LOAD, R338. Makes an object LOADED and writes its kernel entries after flushing fetched code. -/
  | codeLoad (vf : Nat)
  /-- REPLACE, R339. Points kernel entries at a LOADED object in one switch clock. -/
  | codeReplace (vf : Nat)
  /-- UNLOAD, R340. Invalidates an object's entries and sets it RETIRING with a reference count. -/
  | codeUnload (vf : Nat)
  /-- FAULT_QUEUE_ENABLE, R322. Setting the fault queue's ENABLE zeroes its pointers. -/
  | faultQueueEnable (vf : Nat) (v : DWord)
  /-- FAULT_QUEUE_READ_POINTER, R322. A write to fqrptr frees ring entries. -/
  | faultQueueReadPointer (vf : Nat) (v : DWord)
  /-- FAULT_RECORD_WRITE, R322. A waiting fault record is written, released and signalled when the ring has room. -/
  | faultRecordWrite (vf : Nat)
  /-- FAULT_RESPONSE_RETRY, R323. ACTION 0 releases the token's threads or resumes its channel. -/
  | faultResponseRetry (vf token : Nat)
  /-- FAULT_RESPONSE_TERMINATE, R323. ACTION 1 ends the token's threads or fails the channel's command. -/
  | faultResponseTerminate (vf token : Nat)
  /-- FAULT_RESPONSE_ABORT, R323. ACTION 2 makes the context lost. -/
  | faultResponseAbort (vf token : Nat)
  /-- FAULT_RESPONSE_STEP, R367. ACTION 3 releases debug-stopped threads with SKIP and STEP set. -/
  | faultResponseStep (vf token : Nat)
  /-- FAULT_RESPONSE_RUN_FREE, R367. ACTION 4 releases debug-stopped threads with breakpoints disabled. -/
  | faultResponseRunFree (vf token : Nat)
  /-- TLB_INVALIDATE, R319. A tlbinv write starts a numbered invalidation of a context's range. -/
  | tlbInvalidate (vf : Nat) (v : DWord)
  /-- TLB_INVALIDATE_COMPLETE, R319. All covered translations are dropped and tlbseq advances. -/
  | tlbInvalidateComplete (vf : Nat)
  /-- REGION_MODE_WRITE, R348. A regmode write starts a region's mode change and zeroing. -/
  | regionModeWrite (vf : Nat) (v : DWord)
  /-- REGION_MODE_DONE, R348. The region is zeroed and BUSY clears. -/
  | regionModeDone (vf : Nat)
  /-- PREEMPT, R328. pcmd OP 1 starts pre-emption of a context. -/
  | preempt (vf ctx : Nat)
  /-- RESTORE, R335. pcmd OP 2 restores a context image onto eligible cores. -/
  | restoreImage (vf ctx : Nat)
  /-- DRAIN_DEADLINE, R329. At the drain deadline, outstanding reads become replay entries. -/
  | drainDeadline (core : Nat)
  /-- CORE_HALTED, R328. A core reports halted with every thread at an instruction boundary. -/
  | coreHalted (core : Nat)
  /-- IMAGE_SAVED, R330. Checkpoints and acknowledgements complete; the image is written and pstat shows saved. -/
  | imageSaved (vf : Nat)
  /-- PREEMPT_WATCHDOG, R331. At 10,000 clocks an unhalted core is stopped and the context lost. -/
  | preemptWatchdog (vf : Nat)
  /-- ASSIGNMENT_APPLY, R347. A pending assignment applies once the function is quiet, zeroing changed units. -/
  | assignmentApply (vf : Nat)
  /-- FEATMASK_APPLY, R292. A pending featmask applies when no team of the context is resident. -/
  | featmaskApply (ctx : Nat)
  /-- CENSUS_CHECK_DONE, R375. The comparison ends, setting DIFF and raising a divergence event if unequal. -/
  | censusCheckDone (vf : Nat)
  /-- REGISTER_WRITE, R4. A write to a register with no row of its own sets it by its access code. -/
  | registerWrite (r : RegAddr) (v : DWord)
  /-- ASSIGNMENT_WRITE, R346. The hypervisor writes a virtual function's assignment block. -/
  | assignmentWrite (vf offset : Nat) (v : DWord)
  /-- BUDGET_REGISTER_WRITE, R311. Firmware writes a class budget, with floors and the sum limit enforced. -/
  | budgetRegisterWrite (by_ : BudgetWriter) (p k : Nat) (v : DWord)
  /-- BREAKPOINT_CONTROL_WRITE, R364. A bpc write sets a breakpoint, clearing EN for a foreign context. -/
  | breakpointControlWrite (vf k : Nat) (v : DWord)
  /-- HOST_COMPLETION, R390. A completion for a host-range access arrives from the host link. -/
  | hostCompletion (id : Nat) (data : List Byte)
  /-- DUMP_RING_ENABLE, R364. Setting ENABLE in dmpctl zeroes the dump ring pointers, as for the fault queue. -/
  | dumpRingEnable (vf : Nat) (v : DWord)
  /-- DUMP_RING_READ_POINTER, R368. A write to dmprptr frees dump-ring entries, so held dump records and the fault records behind them are written. -/
  | dumpRingReadPointer (vf : Nat) (v : DWord)
  /-- TRACE_BUFFER_ENABLE, R369. Setting EN in trctl, or in jrctl for the journey buffer, restarts each core segment's WRITTEN count. -/
  | traceBufferEnable (vf : Nat) (journey : Bool) (v : DWord)
  /-- THERMAL_TRIP, R388. Overtemperature or coolant loss halts the module and loses every context. -/
  | thermalTrip
  /-- NIB_SWITCH, R299. At the quiet point every decoder switches to the new slots in one clock. -/
  | nibSwitch
  /-- ARRIVAL_AND_OPENED_ADVANCE, R42. At the end of every clock each pod's ARRIVAL and OPENED counts advance, saturating at 65,535. -/
  | arrivalAndOpenedAdvance
  /-- FENCE_LLC_SLICE, R355. isol KIND 2 moves a slice's homes to its partner slice. -/
  | fenceLlcSlice (unit : Nat)
  /-- FENCE_CORE, R355. isol KIND 1 fences a core, stopping issue and losing its contexts. -/
  | fenceCore (unit : Nat)
  /-- FENCE_PSEUDO_CHANNEL, R355. isol KIND 3 poisons every unit of an HBM4 pseudo-channel. -/
  | fencePseudoChannel (unit : Nat)
  /-- FENCE_QUILL_PORT, R355. isol KIND 4 fences a Quill port, failing collectives that use it. -/
  | fenceQuillPort (unit : Nat)
  /-- FENCE_MARROW_CORE, R355. isol KIND 5 fences a Marrow core, aborting its chunk. -/
  | fenceMarrowCore (unit : Nat)
  /-- LINK_RETRY, R352. A flit CRC failure is retried, fencing after 16 retries. -/
  | linkRetry (port : Nat)
  /-- LINK_DOWN, R383. A Quill link going down fences its port. -/
  | linkDown (port : Nat)
  /-- NIB_IMAGE_LOAD, R296. The Scribe verifies a patch image and requests a quiet point. -/
  | nibImageLoad (image : List Byte)
  /-- RECOVERY_IMAGE, R384. A replacement image arrives through the DOE mailbox in recovery. -/
  | recoveryImage (k : ImageKind) (image : List Byte)
  /-- SPDM_REQUEST, R386. The Scribe answers an SPDM request with dual-signed measurements. -/
  | spdmRequest (index : Nat)
  /-- MODULE_RESET, R389. Module reset runs the verified bring-up sequence to READY. -/
  | moduleReset (b : BringUp)
  /-- CONFIGURATION_REQUEST, R389. A configuration request is answered, with retry status before READY. -/
  | configurationRequest (tag : Nat)
  /-- HOST_LINK_TRAINING, R376. At link training the host chooses PCI Express or CXL, and the link settles at a width and rate from ×16 at 128 GT/s downward. -/
  | hostLinkTraining (k : LinkKind) (width rate : Nat)
  /-- POWER_GOVERNOR_TICK, R387. Each millisecond the governor adjusts SHARE values and DUTY. -/
  | powerGovernorTick (shares : List (Nat × Nat × BitVec 9)) (duty : BitVec 9)
  /-- ATS_INVALIDATION, R376. The host invalidates cached host translations. -/
  | atsInvalidation (vf base size : Nat)
  /-- PAGE_REQUEST_RESPONSE, R377. A PRI response retries the held access or faults it. -/
  | pageRequestResponse (id : Nat) (ok : Bool)
  /-- FEATMASK_WRITE, R292. The hypervisor writes a context's featmask, pending while teams are resident. -/
  | featmaskWrite (ctx : Nat) (v : DWord)
  /-- CENSUS_CHECK, R375. A cnschk write starts comparing an object's census table with its reference. -/
  | censusCheck (vf : Nat) (v : DWord)
deriving DecidableEq, Repr

end Sys2Proof
end

