-- ==== Sys2Proof/Machine/Entries.lean ====
section
/-! DEFINITION. What the entry of each instruction says of its word: the operands each field names, the codes it accepts, its port and whether it is long-latency (R110, R116, R118-R120, and the encoding tables R124, R140, R144, R147, R153-R159, R162, R163, R170, R178, R195, R205, R234, R242, R243, R290, R298). -/

namespace Sys2Proof

/-- The fields of a word, by form (R115). -/
inductive Fields where
  | r (f : RWord)
  | i (f : IWord)
  | l (f : LWord)
  | b (f : BWord)
  | e (f : EWord)
  | u (f : UWord)
deriving DecidableEq, Repr

/-- The PORTS bit that R109 checks, by the port column of R120. -/
inductive Port where
  | v | m | f | e
deriving DecidableEq, Repr

/-- What an operand field must name (R116): `n` is the number of consecutive registers.  A kind without a
letter takes `v`, `s` or the zero register; `lit` is a field that holds bits of an immediate (R243). -/
inductive Opd where
  | none
  | src (n : Nat)
  | srcV (n : Nat)
  | srcS (n : Nat)
  | srcVS (n : Nat)
  | dst (n : Nat)
  | dstV (n : Nat)
  | dstS (n : Nat)
  | dstVS (n : Nat)
  | dstOpt
  | dstVOpt
  | lit
deriving DecidableEq, Repr

/-- The four operand fields of a word. -/
structure Opds where
  d : Opd
  a : Opd
  b : Opd
  c : Opd
deriving DecidableEq, Repr

/-- What an entry says of one word. -/
structure Entry where
  accepts : Bool
  port    : Port
  flagged : Bool
  opds    : Opds
deriving DecidableEq, Repr

/-- The selector kinds of R116. -/
abbrev isV (s : BitVec 8) : Bool := s.toNat < 0x80
/-- A scalar selector, `s0`-`s125`. -/
abbrev isS (s : BitVec 8) : Bool := 0x80 ≤ s.toNat && s.toNat ≤ 0xFD
/-- The zero register (R45). -/
abbrev isZ (s : BitVec 8) : Bool := s.toNat == 0xFE
/-- No operand. -/
abbrev isNone (s : BitVec 8) : Bool := s.toNat == 0xFF

/-- Whether a selector may stand in a field of the given kind (R116). -/
def Opd.fits (o : Opd) (s : BitVec 8) : Bool :=
  match o with
  | .none => isNone s
  | .src _ | .dst _ => !isNone s
  | .srcV _ | .dstV _ => isV s
  | .srcS _ | .dstS _ => isS s
  | .srcVS _ | .dstVS _ => isV s || isS s
  | .dstOpt | .lit => true
  | .dstVOpt => isV s || isNone s

/-- How many registers a field of this kind names; 0 when it names none. -/
def Opd.regs (o : Opd) : Nat :=
  match o with
  | .none | .lit => 0
  | .src n | .srcV n | .srcS n | .srcVS n | .dst n | .dstV n | .dstS n | .dstVS n => n
  | .dstOpt | .dstVOpt => 1

/-- Whether the instruction reads the field. -/
def Opd.isSrc (o : Opd) : Bool :=
  match o with
  | .src _ | .srcV _ | .srcS _ | .srcVS _ => true
  | _ => false

/-- Whether the instruction writes the field. -/
def Opd.isDst (o : Opd) : Bool :=
  match o with
  | .dst _ | .dstV _ | .dstS _ | .dstVS _ | .dstOpt | .dstVOpt => true
  | _ => false

/-- Registers of a type code of R118: a 64-bit type takes a pair. -/
def typeRegs (md : Nat) : Nat := if md == 2 || md == 3 || md == 0xB then 2 else 1

/-- Float type codes that hold one value: f32, f16, bf16, f64. -/
def isScalarFloat (t : Nat) : Bool := 8 ≤ t && t ≤ 0xB

/-- The special registers of R136: whether a number is assigned, and its registers. -/
def sregRegs (n : Nat) : Option Nat :=
  if n ≤ 0x0006 then some 1
  else if (0x0008 ≤ n && n ≤ 0x000A) || (0x000C ≤ n && n ≤ 0x000E) then some 1
  else if (0x0010 ≤ n && n ≤ 0x0012) || n == 0x0018 || n == 0x0019 || n == 0x001A then some 1
  else if n == 0x0014 || n == 0x0020 || n == 0x0030 then some 2
  else if n == 0x0040 then some 1
  else if n == 0x0041 || n == 0x0042 || n == 0x0043 then some 2
  else if n == 0x0080 || n == 0x0081 || n == 0x0082 then some 1
  else if 0x0100 ≤ n && n ≤ 0x0117 then some 1
  else none

/-- Registers a memory size code takes (R164); 0 for the reserved code. -/
def sizeRegs (md : Nat) : Nat :=
  if md == 0xF then 0 else if md == 0xE then 4 else typeRegs md

/-- Order, scope and policy of X in a memory form (R97, R82). -/
abbrev xOrder (x : BitVec 7) : Nat := (x.extractLsb' 5 2).toNat
/-- The scope code, X[36:34]. -/
abbrev xScope (x : BitVec 7) : Nat := (x.extractLsb' 2 3).toNat
/-- The cache policy, X[33:32]. -/
abbrev xPolicy (x : BitVec 7) : Nat := (x.extractLsb' 0 2).toNat

/-- An entry with no operands. -/
def noOpds : Opds := ⟨.none, .none, .none, .none⟩

/-- D, A. -/
def opdsDA (d a : Opd) : Opds := ⟨d, a, .none, .none⟩
/-- D, A, B. -/
def opdsDAB (d a b : Opd) : Opds := ⟨d, a, b, .none⟩
/-- D, A, B, C. -/
def opdsDABC (d a b c : Opd) : Opds := ⟨d, a, b, c⟩
/-- A only. -/
def opdsA (a : Opd) : Opds := ⟨.none, a, .none, .none⟩

/-- A control word of R124 in the V port: X zero, one MOD value. -/
def ctlEntry (f : RWord) (o : Opds) : Entry := ⟨f.md.toNat == 0 && f.x.toNat == 0, .v, false, o⟩

/-- An integer or bit word of R140, R144: the MODs accepted and the X bits used. -/
def aluEntry (md : BitVec 4) (x : BitVec 7) (mods xm : Nat) (o : Opds) : Entry :=
  ⟨mods.testBit md.toNat && (x.toNat &&& (0x7F - xm)) == 0, .v, false, o⟩

/-- Division (R139, R140): port F, flagged. -/
def divEntry (f : RWord) : Entry :=
  let w := typeRegs f.md.toNat
  ⟨f.md.toNat ≤ 3 && f.x.toNat == 0, .f, true, opdsDAB (.dst w) (.src w) (.src w)⟩

/-- A float word of R147: port F and flagged when the type is f64 (R120, R139). -/
def floatEntry (f : RWord) (lo hi xm : Nat) (o : Opds) : Entry :=
  let m := f.md.toNat
  let f64 := m == 0xB
  ⟨lo ≤ m && m ≤ hi && (f.x.toNat &&& (0x7F - xm)) == 0, if f64 then .f else .v, f64, o⟩

/-- Source type of a conversion, X[37:34] (R153). -/
abbrev cvtSrc (x : BitVec 7) : Nat := (x.extractLsb' 2 4).toNat

/-- `fcvt` (R153). -/
def fcvtEntry (f : RWord) : Entry :=
  let m := f.md.toNat
  let s := cvtSrc f.x
  let sat := bitAt f.x 6
  let f64 := m == 0xB || s == 0xB
  let mk (ok : Bool) (o : Opds) : Entry := ⟨ok, if f64 then .f else .v, f64, o⟩
  if m ≤ 7 && isScalarFloat s then mk (!sat) (opdsDA (.dst (typeRegs m)) (.src (typeRegs s)))
  else if isScalarFloat m && (isScalarFloat s || s ≤ 7) then mk true (opdsDA (.dst (typeRegs m)) (.src (typeRegs s)))
  else if (m == 0xC || m == 0xD) && s == 8 then mk true (opdsDAB (.dst 1) (.src 1) (.src 1))
  else if m == 8 && (s == 0xC || s == 0xD) then mk true (opdsDA (.dst 2) (.src 1))
  else if (m == 0xC && s == 0xD) || (m == 0xD && s == 0xC) then mk true (opdsDA (.dst 1) (.src 1))
  else mk false noOpds

/-- An apply (R178). -/
def appEntry (f : RWord) (d : Opd) : Entry :=
  ⟨8 ≤ f.md.toNat && f.md.toNat ≤ 0xA && f.x.toNat < 16, .f, true, opdsDA d (.src 1)⟩

/-- Reductions and scans (R195). -/
def sredEntry (f : RWord) (excl : Bool) : Entry :=
  let m := f.md.toNat
  let fl := 8 ≤ m
  let op := (f.x.extractLsb' 2 3).toNat
  let w := typeRegs m
  ⟨(m ≤ 3 || m == 8 || m == 0xB) && !bitAt f.x 6 && (excl || !bitAt f.x 5)
    && op ≤ (if fl then 2 else 5) && (fl || (f.x.extractLsb' 0 2).toNat == 0), .f, true, opdsDA (.dstV w) (.src w)⟩

/-- A memory word of R163: MODs, orders, whether any policy is accepted, flagged, operands. -/
def memEntry (f : IWord) (mods ords : Nat) (anyPolicy flagged : Bool) (o : Opds) : Entry :=
  ⟨mods.testBit f.md.toNat && ords.testBit (xOrder f.x) && xScope f.x ≤ 5
    && (anyPolicy || xPolicy f.x == 0), .m, flagged, o⟩

/-- An atomic of `w` registers (R119, R170). -/
def atomEntry (f : RWord) (w : Nat) : Entry :=
  ⟨f.md.toNat ≤ 0xB && xScope f.x ≤ 5, .m, true,
   opdsDABC (.dstV w) (.src 2) (.src w) (if f.md.toNat == 9 then .src w else .none)⟩

/-- A reduction to memory of `w` registers (R119, R170). -/
def redEntry (f : RWord) (w : Nat) : Entry :=
  ⟨(f.md.toNat ≤ 7 || f.md.toNat == 0xA) && xScope f.x ≤ 5, .m, false, ⟨.none, .src 2, .src w, .none⟩⟩

/-- A matrix word (R205): the MODs accepted, the X bits used, flagged. -/
def matEntry (f : RWord) (mods xm : Nat) (flagged : Bool) (o : Opds) : Entry :=
  ⟨mods.testBit f.md.toNat && (f.x.toNat &&& (0x7F - xm)) == 0, .e, flagged, o⟩

/-- The optional scale-plane address of `mmac` and `mst` (R205). -/
def optSrc (s : BitVec 8) (n : Nat) : Opd := if isNone s then .none else .srcVS n

/-- Whether CHAN fits a copy channel (R115). -/
def chanOk (f : EWord) : Bool := f.bulk || f.chan.toNat ≤ 3

/-- An engine command (R234); `top` is the highest scalar offset from CRD. -/
def engEntry (ok : Bool) (f : EWord) (top : Nat) : Entry :=
  ⟨ok && f.crd.toNat + top ≤ 511, .e, false, noOpds⟩

/-- A uniform word of two sources (R162). -/
def uniEntry (f : UWord) : Entry := ⟨f.md.toNat ≤ 3, .v, false, noOpds⟩

/-- A uniform word that reads A9 only (R162). -/
def uniEntry1 (f : UWord) : Entry :=
  ⟨f.md.toNat ≤ 3 && !f.bi && f.b.toNat == 0 && f.c.toNat == 0, .v, false, noOpds⟩

/-- A timeline word of the U form (R243). -/
def tlEntry (f : UWord) (ok flagged : Bool) : Entry :=
  ⟨ok && !f.bi && f.b.toNat == 0 && f.c.toNat == 0, .e, flagged, noOpds⟩

/-- The operation's entry: what it accepts, its port, whether it is long-latency and its operand fields. -/
def Instr.entry (i : Instr) : Option Entry :=
  match i with
  -- control (R124)
  | .nop f | .ret f | .exit f | .yield f => some (ctlEntry f noOpds)
  | .bra f | .call f => some ⟨f.md.toNat == 0, .v, false, noOpds⟩
  | .jmp f | .calli f => some (ctlEntry f (opdsA (.src 2)))
  | .trap f | .brk f => some ⟨f.md.toNat == 0 && f.x.toNat == 0, .v, false, noOpds⟩
  | .tret f => some ⟨f.md.toNat ≤ 2 && f.x.toNat == 0, .v, false, opdsA (if f.md.toNat == 2 then .src 2 else .none)⟩
  | .bar f | .barArr f | .barWait f => some ⟨f.md.toNat == 0 && f.x.toNat == 0 && f.imm.toNat < 16, .v, false, noOpds⟩
  | .launch f => some ⟨f.md.toNat < 8 && f.x.toNat == 0, .e, true, opdsDA (.dstV 2) (.src 2)⟩
  | .lwait f => some ⟨f.md.toNat == 0 && f.x.toNat == 0, .e, false, opdsA (.src 2)⟩
  | .lwaitTest f => some ⟨f.md.toNat == 1 && f.x.toNat == 0, .e, false, opdsDA (.dstV 1) (.src 2)⟩
  | .sreg f => some ⟨f.md.toNat == 0 && f.x.toNat == 0 && (sregRegs f.imm.toNat).isSome, .v, false,
      ⟨.dst ((sregRegs f.imm.toNat).getD 1), .none, .none, .none⟩⟩
  -- integer (R140)
  | .add f | .sub f => some (aluEntry f.md f.x 0xFF 0x01 (let w := typeRegs f.md.toNat; opdsDAB (.dst w) (.src w) (.src w)))
  | .addc f | .subb f => some (aluEntry f.md f.x 0x0A 0x70 (let w := typeRegs f.md.toNat; opdsDAB (.dst w) (.src w) (.src w)))
  | .mul f | .min f | .max f => some (aluEntry f.md f.x 0xFF 0 (let w := typeRegs f.md.toNat; opdsDAB (.dst w) (.src w) (.src w)))
  | .mulh f => some (aluEntry f.md f.x 0x0F 0 (let w := typeRegs f.md.toNat; opdsDAB (.dst w) (.src w) (.src w)))
  | .mad f => some (aluEntry f.md f.x 0x0F 0 (let w := typeRegs f.md.toNat; opdsDABC (.dst w) (.src w) (.src w) (.src w)))
  | .madw f => some (aluEntry f.md f.x 0x03 0 (opdsDABC (.dst 2) (.src 1) (.src 1) (.src 2)))
  | .div f | .rem f => some (divEntry f)
  | .abs f => some (aluEntry f.md f.x 0x55 0x01 (let w := typeRegs f.md.toNat; opdsDA (.dst w) (.src w)))
  | .cmp f => some (let e := aluEntry f.md f.x 0xFF 0x7E (let w := typeRegs f.md.toNat; opdsDAB .dstOpt (.src w) (.src w))
      ⟨e.accepts && (f.x.extractLsb' 1 3).toNat ≤ 5, e.port, e.flagged, e.opds⟩)
  | .addI f | .subI f => some (aluEntry f.md f.x 0xFF 0x01 (let w := typeRegs f.md.toNat; opdsDA (.dst w) (.src w)))
  | .mulI f | .minI f | .maxI f => some (aluEntry f.md f.x 0xFF 0 (let w := typeRegs f.md.toNat; opdsDA (.dst w) (.src w)))
  | .cmpI f => some (let e := aluEntry f.md f.x 0xFF 0x7E (let w := typeRegs f.md.toNat; opdsDA .dstOpt (.src w))
      ⟨e.accepts && (f.x.extractLsb' 1 3).toNat ≤ 5, e.port, e.flagged, e.opds⟩)
  -- bit and address (R144)
  | .and f | .or f | .xor f | .andn f => some (aluEntry f.md f.x 0x0F 0 (let w := typeRegs f.md.toNat; opdsDAB (.dst w) (.src w) (.src w)))
  | .not f | .brev f => some (aluEntry f.md f.x 0x0F 0 (let w := typeRegs f.md.toNat; opdsDA (.dst w) (.src w)))
  | .shl f | .shr f | .sar f | .rot f | .bfe f => some (aluEntry f.md f.x 0x0F 0 (let w := typeRegs f.md.toNat; opdsDAB (.dst w) (.src w) (.src 1)))
  | .bfi f => some (aluEntry f.md f.x 0x0F 0 (let w := typeRegs f.md.toNat; opdsDABC (.dst w) (.src w) (.src 1) (.src w)))
  | .popc f | .clz f | .ctz f => some (aluEntry f.md f.x 0x0F 0 (opdsDA (.dst 1) (.src (typeRegs f.md.toNat))))
  | .perm f => some (aluEntry f.md f.x 0x03 0 (opdsDABC (.dst 1) (.src 1) (.src 1) (.src 1)))
  | .lea f => some (aluEntry f.md f.x 0x0F 0x07 (opdsDAB (.dst 2) (.src 2) (.src (typeRegs f.md.toNat))))
  | .sel f => some (aluEntry f.md f.x 0x3FFF 0x78 (let w := typeRegs f.md.toNat; opdsDAB (.dst w) (.src w) (.src w)))
  | .mov f => some (aluEntry f.md f.x 0x3FFF 0 (let w := typeRegs f.md.toNat; opdsDA (.dst w) (.src w)))
  | .movi f => some ⟨f.md6.toNat ≤ 3, .v, false, ⟨.dstVS (if f.md6.toNat == 0 then 1 else 2), .none, .none, .none⟩⟩
  | .andI f | .orI f | .xorI f | .andnI f | .shlI f | .shrI f | .sarI f | .rotI f =>
      some (aluEntry f.md f.x 0x0F 0 (let w := typeRegs f.md.toNat; opdsDA (.dst w) (.src w)))
  | .leaI f => some (aluEntry f.md f.x 0x01 0x07 (opdsDA (.dst 2) (.src 2)))
  -- float (R147)
  | .fadd f | .fsub f | .fmul f => some (floatEntry f 8 0xD 3 (let w := typeRegs f.md.toNat; opdsDAB (.dst w) (.src w) (.src w)))
  | .ffma f => some (floatEntry f 8 0xD 3 (let w := typeRegs f.md.toNat; opdsDABC (.dst w) (.src w) (.src w) (.src w)))
  | .fmin f | .fmax f => some (floatEntry f 8 0xD 4 (let w := typeRegs f.md.toNat; opdsDAB (.dst w) (.src w) (.src w)))
  | .fcmp f => some (floatEntry f 8 0xB 0x7C (let w := typeRegs f.md.toNat; opdsDAB .dstOpt (.src w) (.src w)))
  | .fclass f => some (floatEntry f 8 0xB 0 (opdsDA (.dst 1) (.src (typeRegs f.md.toNat))))
  | .frnd f => some (floatEntry f 8 0xD 3 (let w := typeRegs f.md.toNat; opdsDA (.dst w) (.src w)))
  | .fdot2 f => some (floatEntry f 0xC 0xD 3 (opdsDABC (.dst 1) (.src 1) (.src 1) (.src 1)))
  -- conversion, random, predicate (R153-R159)
  | .fcvt f => some (fcvtEntry f)
  | .icvt f => some ⟨f.md.toNat ≤ 7 && cvtSrc f.x ≤ 7 && (f.x.extractLsb' 0 2).toNat == 0, .v, false,
      opdsDA (.dst (typeRegs f.md.toNat)) (.src (typeRegs (cvtSrc f.x)))⟩
  | .rand f => some ⟨(f.md.toNat == 1 || f.md.toNat == 3 || f.md.toNat == 8) && f.x.toNat == 0, .f, true,
      ⟨.dstV (typeRegs f.md.toNat), .none, .none, .none⟩⟩
  | .pset f => some ⟨!bitAt f.x 0, .v, false, noOpds⟩
  | .pmov f => some (if f.md.toNat == 0 then ⟨f.x.toNat == 0, .v, false, ⟨.dstV 1, .none, .none, .none⟩⟩
      else ⟨f.md.toNat == 1, .v, false, opdsA (.src 1)⟩)
  -- function (R178)
  | .fnld f => some ⟨f.md.toNat == 0 && f.x.toNat < 16, .m, true, opdsA (.srcVS 2)⟩
  | .fapp f | .fappd f => some (appEntry f (.dstV 1))
  | .fapp2 f => some (appEntry f (.dstV 2))
  | .fnsync f => some ⟨f.md.toNat == 0 && f.x.toNat < 16, .f, true, noOpds⟩
  | .fnq f => some ⟨f.md.toNat == 0 && f.x.toNat < 16, .f, false, ⟨.dstVS 1, .none, .none, .none⟩⟩
  -- sub-group (R195)
  | .shfl f => some (let w := if bitAt f.md 2 then 2 else 1
      ⟨!bitAt f.md 3 && (f.x.extractLsb' 0 4).toNat == 0, .f, true, opdsDAB (.dstV w) (.src w) (.src 1)⟩)
  | .sbc f => some (let w := if bitAt f.md 2 then 2 else 1
      ⟨!bitAt f.md 3 && !bitAt f.md 1 && (f.x.extractLsb' 0 4).toNat == 0, .f, true,
       opdsDAB (.dstV w) (.src w) (if bitAt f.md 0 then .none else .src 1)⟩)
  | .svote f => some ⟨f.md.toNat ≤ 3 && !bitAt f.x 0, .f, true,
      ⟨if f.md.toNat == 3 then .dstV 1 else .dstVOpt, .none, .none, .none⟩⟩
  | .sred f => some (sredEntry f false)
  | .sscan f => some (sredEntry f true)
  | .smv f => some ⟨f.md.toNat == 8 && f.x.toNat == 0, .f, true, opdsDA (.dstV 2) (.src 1)⟩
  | .ssmx _ => some ⟨true, .f, true, opdsDA (.dstV 1) (.src 1)⟩
  -- memory (R163)
  | .ld f => some (memEntry f 0x7FFF 0b0011 true true (opdsDA (.dstV (sizeRegs f.md.toNat)) (.src 2)))
  | .st f => some (memEntry f 0x7FFF 0b0101 true false
      (opdsDA (if f.md.toNat == 0xE && isS f.d then .srcV 4 else .src (sizeRegs f.md.toNat)) (.src 2)))
  | .ldl f => some (memEntry f 0x7FFF 0b0011 false true (opdsDA (.dstV (sizeRegs f.md.toNat)) (.src 1)))
  | .stl f => some (memEntry f 0x7FFF 0b0101 false false
      (opdsDA (if f.md.toNat == 0xE && isS f.d then .srcV 4 else .src (sizeRegs f.md.toNat)) (.src 1)))
  | .lds f => some (memEntry f 0x490F 0b0011 true true (opdsDA (.dstS (sizeRegs f.md.toNat)) (.srcS 2)))
  | .ldx f => some (memEntry f 0x0701 0b0011 true true (opdsDA (.dstV 8) (.src 2)))
  | .stx f => some (memEntry f 0x0701 0b0101 true false (opdsDA (.srcV 8) (.src 2)))
  | .ldFe f => some (memEntry f 0x0001 0b1111 false true (opdsDA (.dstV 1) (.src 1)))
  | .stFe f => some (memEntry f 0x0001 0b1111 false false (opdsDA (.src 1) (.src 1)))
  | .feSet f => some ⟨f.md.toNat ≤ 1 && f.x.toNat == 0, .m, false, opdsA (.src 1)⟩
  | .fence f => some (let e := memEntry f 0x0003 0b1111 false false noOpds
      ⟨e.accepts && (f.md.toNat == 0 || xOrder f.x == 3) && f.imm.toNat == 0, .m, false, noOpds⟩)
  | .prf f => some ⟨f.md.toNat ≤ 1 && f.x.toNat == 0, .m, false, opdsA (.src 2)⟩
  | .cinv f => some (if f.md.toNat == 0 then ⟨f.x.toNat == 0 && f.imm.toNat == 0, .m, false, noOpds⟩
      else ⟨f.md.toNat == 1 && f.x.toNat == 0, .m, false, opdsA (.src 2)⟩)
  -- atomic (R170)
  | .atomB32 f => some (atomEntry f 1)
  | .atomB64 f => some (atomEntry f 2)
  | .redB32 f => some (redEntry f 1)
  | .redB64 f => some (redEntry f 2)
  -- matrix (R205)
  | .mres f => some (matEntry f 0xFFFF 0 false noOpds)
  | .mrel f => some (matEntry f 0x0001 0 false noOpds)
  | .mmac f => some (let n := if bitAt f.md 1 then 1 else 2
      matEntry f 0x000F 0x0F true (opdsDABC (optSrc f.d n) (.srcV 1) (.srcVS n) (.srcVS 1)))
  | .mdual f => some (matEntry f 0x0001 0x07 true (opdsDABC (.srcVS 2) (.srcV 1) (.srcVS 2) (.srcVS 1)))
  | .mzero f => some (matEntry f 0x0003 0 true (opdsDABC .none .none .none (.srcVS 1)))
  | .mld f => some (let n := if bitAt f.md 1 then 1 else 2
      matEntry f 0x000F 0x07 true (opdsDABC .none (.srcVS n) .none (.srcVS 1)))
  | .mst f => some (let n := if bitAt f.md 1 then 1 else 2
      matEntry f 0x00FF 0x07 true (opdsDABC (optSrc f.d n) (.srcVS n) .none (.srcVS 1)))
  | .qcvt f => some (matEntry f 0x0700 0x07 true (opdsDABC (.srcVS 2) (.srcVS 2) (.srcVS 2) (.srcVS 1)))
  | .dqcvt f => some (matEntry f 0x0007 0x07 true (opdsDABC (.srcVS 2) (.srcVS 2) (.srcVS 2) (.srcVS 1)))
  | .amrd f => some (matEntry f 0x0001 0x07 false ⟨.dstVS 1, .none, .none, .none⟩)
  | .amclr f => some (matEntry f 0x0001 0x07 false noOpds)
  -- engine and timeline (R234, R242, R243)
  | .cp f => some (engEntry (f.md.toNat == 0 && f.slot.toNat == 0 && chanOk f) f 7)
  | .cpRed f => some (engEntry (f.md.toNat ≤ 3 && chanOk f) f (if bitAt f.md 1 then 9 else if bitAt f.md 0 then 8 else 7))
  | .cpGat f => some (engEntry (f.md.toNat == 0 && f.slot.toNat == 0 && chanOk f) f 8)
  | .coll f => some (engEntry (f.md.toNat < 12 && ((f.md.extractLsb' 0 2).toNat ≤ 1 || f.md.toNat < 4) && f.bulk) f 7)
  | .fur f => some (engEntry (f.md.toNat == 0 && f.slot.toNat == 0 && !f.bulk && f.chan.toNat ≤ 7 && f.crd.toNat == 0) f 0)
  | .cpFill f => some ⟨(bitAt f.x 0 || f.md.toNat ≤ 3) && !bitAt f.x 1 && xScope f.x ≤ 5 && xOrder f.x ≤ 1, .e, true,
      ⟨.dstVS 2, .none, .none, .none⟩⟩
  | .tlWait f => some ⟨f.md.toNat ≤ 7 && xOrder f.x == 1 && xScope f.x ≤ 5 && xPolicy f.x == 0
        && (if isNone f.a then isNone f.d else true), .e, false,
      if isNone f.a then ⟨.none, .none, .lit, .lit⟩ else opdsA (.src 2)⟩
  | .tlTest f => some (tlEntry f (f.md.toNat == 0) false)
  | .tlCancel f => some (tlEntry f (f.md.toNat == 0) true)
  | .tlRd f => some (tlEntry f (f.a.toNat == 0) false)
  | .tlSig f => some (tlEntry f (f.md.toNat ≤ 7 && f.d.toNat == 0 && f.a.toNat == 0) false)
  -- uniform (R162)
  | .uAdd f | .uSub f | .uMul f | .uMin f | .uMax f | .uAnd f | .uOr f | .uXor f | .uAndn f | .uShl f | .uShr f | .uSar f
  | .uBfe f | .uLea f =>
      some (let e := uniEntry f; ⟨e.accepts && (f.bi || f.c.toNat == 0), e.port, false, noOpds⟩)
  | .uNot f | .uPopc f | .uClz f | .uCtz f => some (uniEntry1 f)
  | .uMov f => some (let e := uniEntry f
      ⟨e.accepts && (if f.bi then f.a.toNat == 0 else f.b.toNat == 0 && f.c.toNat == 0), e.port, false, noOpds⟩)
  -- privileged (R290, R298)
  | .nret f => some ⟨f.md.toNat ≤ 2 && f.x.toNat == 0, .f, false, opdsA (if f.md.toNat == 1 then .srcV 2 else .none)⟩
  | .ctlRd _ => some ⟨true, .f, true, ⟨.dstV 2, .none, .none, .none⟩⟩
  | .ctlWr _ => some ⟨true, .f, true, opdsA (.srcVS 2)⟩
  | _ => none

/-- The opcode and the fields of an instruction word; none for an event (R120). -/
def Instr.fields (i : Instr) : Option (Nat × Fields) :=
  match i with
  | .nop f => some (0x000, .r f)
  | .bra f => some (0x001, .b f)
  | .jmp f => some (0x002, .r f)
  | .call f => some (0x003, .b f)
  | .calli f => some (0x004, .r f)
  | .ret f => some (0x005, .r f)
  | .exit f => some (0x006, .r f)
  | .trap f => some (0x007, .i f)
  | .tret f => some (0x008, .r f)
  | .brk f => some (0x009, .i f)
  | .bar f => some (0x00A, .i f)
  | .barArr f => some (0x00B, .i f)
  | .barWait f => some (0x00C, .i f)
  | .launch f => some (0x00D, .r f)
  | .lwait f => some (0x00E, .r f)
  | .lwaitTest f => some (0x00E, .r f)
  | .yield f => some (0x00F, .r f)
  | .sreg f => some (0x010, .i f)
  | .add f => some (0x040, .r f)
  | .sub f => some (0x041, .r f)
  | .addc f => some (0x042, .r f)
  | .subb f => some (0x043, .r f)
  | .mul f => some (0x044, .r f)
  | .mulh f => some (0x045, .r f)
  | .mad f => some (0x046, .r f)
  | .madw f => some (0x047, .r f)
  | .div f => some (0x048, .r f)
  | .rem f => some (0x049, .r f)
  | .min f => some (0x04A, .r f)
  | .max f => some (0x04B, .r f)
  | .abs f => some (0x04C, .r f)
  | .cmp f => some (0x04D, .r f)
  | .addI f => some (0x060, .i f)
  | .subI f => some (0x061, .i f)
  | .mulI f => some (0x064, .i f)
  | .minI f => some (0x06A, .i f)
  | .maxI f => some (0x06B, .i f)
  | .cmpI f => some (0x06D, .i f)
  | .and f => some (0x080, .r f)
  | .or f => some (0x081, .r f)
  | .xor f => some (0x082, .r f)
  | .andn f => some (0x083, .r f)
  | .not f => some (0x084, .r f)
  | .shl f => some (0x085, .r f)
  | .shr f => some (0x086, .r f)
  | .sar f => some (0x087, .r f)
  | .rot f => some (0x088, .r f)
  | .bfe f => some (0x089, .r f)
  | .bfi f => some (0x08A, .r f)
  | .popc f => some (0x08B, .r f)
  | .clz f => some (0x08C, .r f)
  | .ctz f => some (0x08D, .r f)
  | .brev f => some (0x08E, .r f)
  | .perm f => some (0x08F, .r f)
  | .lea f => some (0x090, .r f)
  | .sel f => some (0x091, .r f)
  | .mov f => some (0x092, .r f)
  | .movi f => some (0x093, .l f)
  | .andI f => some (0x0A0, .i f)
  | .orI f => some (0x0A1, .i f)
  | .xorI f => some (0x0A2, .i f)
  | .andnI f => some (0x0A3, .i f)
  | .shlI f => some (0x0A5, .i f)
  | .shrI f => some (0x0A6, .i f)
  | .sarI f => some (0x0A7, .i f)
  | .rotI f => some (0x0A8, .i f)
  | .leaI f => some (0x0B0, .i f)
  | .fadd f => some (0x0C0, .r f)
  | .fsub f => some (0x0C1, .r f)
  | .fmul f => some (0x0C2, .r f)
  | .ffma f => some (0x0C3, .r f)
  | .fmin f => some (0x0C4, .r f)
  | .fmax f => some (0x0C5, .r f)
  | .fcmp f => some (0x0C6, .r f)
  | .fclass f => some (0x0C7, .r f)
  | .frnd f => some (0x0C8, .r f)
  | .fdot2 f => some (0x0C9, .r f)
  | .fcvt f => some (0x100, .r f)
  | .icvt f => some (0x101, .r f)
  | .rand f => some (0x102, .r f)
  | .pset f => some (0x140, .r f)
  | .pmov f => some (0x141, .r f)
  | .fnld f => some (0x180, .r f)
  | .fapp f => some (0x181, .r f)
  | .fappd f => some (0x182, .r f)
  | .fapp2 f => some (0x183, .r f)
  | .fnsync f => some (0x184, .r f)
  | .fnq f => some (0x185, .r f)
  | .shfl f => some (0x1C0, .r f)
  | .sbc f => some (0x1C1, .r f)
  | .svote f => some (0x1C2, .r f)
  | .sred f => some (0x1C3, .r f)
  | .sscan f => some (0x1C4, .r f)
  | .smv f => some (0x1C5, .r f)
  | .ssmx f => some (0x1C6, .r f)
  | .ld f => some (0x200, .i f)
  | .st f => some (0x201, .i f)
  | .ldl f => some (0x202, .i f)
  | .stl f => some (0x203, .i f)
  | .lds f => some (0x204, .i f)
  | .ldx f => some (0x205, .i f)
  | .stx f => some (0x206, .i f)
  | .ldFe f => some (0x207, .i f)
  | .stFe f => some (0x208, .i f)
  | .feSet f => some (0x209, .i f)
  | .fence f => some (0x20A, .i f)
  | .prf f => some (0x20B, .i f)
  | .cinv f => some (0x20C, .i f)
  | .atomB32 f => some (0x240, .r f)
  | .atomB64 f => some (0x241, .r f)
  | .redB32 f => some (0x242, .r f)
  | .redB64 f => some (0x243, .r f)
  | .mres f => some (0x280, .r f)
  | .mrel f => some (0x281, .r f)
  | .mmac f => some (0x282, .r f)
  | .mdual f => some (0x283, .r f)
  | .mzero f => some (0x284, .r f)
  | .mld f => some (0x285, .r f)
  | .mst f => some (0x286, .r f)
  | .qcvt f => some (0x287, .r f)
  | .dqcvt f => some (0x288, .r f)
  | .amrd f => some (0x289, .r f)
  | .amclr f => some (0x28A, .r f)
  | .cp f => some (0x2C0, .e f)
  | .cpRed f => some (0x2C1, .e f)
  | .cpGat f => some (0x2C2, .e f)
  | .coll f => some (0x2C3, .e f)
  | .fur f => some (0x2C4, .e f)
  | .cpFill f => some (0x2C5, .r f)
  | .tlWait f => some (0x2C6, .r f)
  | .tlTest f => some (0x2C7, .u f)
  | .tlCancel f => some (0x2C8, .u f)
  | .tlRd f => some (0x2C9, .u f)
  | .tlSig f => some (0x2CA, .u f)
  | .uAdd f => some (0x300, .u f)
  | .uSub f => some (0x301, .u f)
  | .uMul f => some (0x302, .u f)
  | .uMin f => some (0x303, .u f)
  | .uMax f => some (0x304, .u f)
  | .uAnd f => some (0x305, .u f)
  | .uOr f => some (0x306, .u f)
  | .uXor f => some (0x307, .u f)
  | .uAndn f => some (0x308, .u f)
  | .uNot f => some (0x309, .u f)
  | .uShl f => some (0x30A, .u f)
  | .uShr f => some (0x30B, .u f)
  | .uSar f => some (0x30C, .u f)
  | .uBfe f => some (0x30D, .u f)
  | .uPopc f => some (0x30E, .u f)
  | .uClz f => some (0x30F, .u f)
  | .uCtz f => some (0x310, .u f)
  | .uMov f => some (0x311, .u f)
  | .uLea f => some (0x312, .u f)
  | .nret f => some (0x3C0, .r f)
  | .ctlRd f => some (0x3C1, .r f)
  | .ctlWr f => some (0x3C2, .r f)
  | _ => none

end Sys2Proof
end

