-- ==== Sys2Proof/WellFormed.lean ====
section
/-! DEFINITION. When a word is an instruction (R110, R116 and the section before R121): its entry accepts its codes, every operand field names what the entry asks, and FS is 0 unless the instruction is long-latency. -/

namespace Sys2Proof

/-- The FS bit of a word; form L and form B have none (R115). -/
def Fields.fs (f : Fields) : Bool :=
  match f with
  | .r f => f.fs
  | .i f => f.fs
  | .l _ => false
  | .b _ => false
  | .e f => f.fs
  | .u f => f.fs

/-- Whether every operand field of the word names what its entry asks (R116). -/
def Fields.fit (f : Fields) (o : Opds) : Bool :=
  match f with
  | .r f => o.d.fits f.d && o.a.fits f.a && o.b.fits f.b && o.c.fits f.c
  | .i f => o.d.fits f.d && o.a.fits f.a
  | .l f => o.d.fits f.d
  | .b _ => true
  | .e _ => true
  | .u _ => true

/-- Whether the word is an instruction; false of an event. -/
def Instr.wordOk (i : Instr) : Bool :=
  match i.fields, i.entry with
  | some (_, f), some e => e.accepts && (e.flagged || !f.fs) && f.fit e.opds
  | _, _ => false

/-- A word is well formed when it is an instruction.  An event names its unit by a number, and a number that no
unit has finds nothing to do, so every event is well formed. -/
def Instr.wellFormed (i : Instr) : Bool :=
  match i.fields with
  | some _ => i.wordOk
  | none => true

end Sys2Proof
end

