-- ==== Sys2Proof/Decode.lean ====
section
/-! DEFINITION. The decoder and the encoder of instruction words (R114-R116, R120), and the clause header (R108). -/

namespace Sys2Proof

/-- The guard field whose four bits stand at `lo` (R114): INV above the predicate number. -/
def getGuard (w : DWord) (lo : Nat) : Guard := ⟨bitAt w (lo + 3), w.extractLsb' lo 3⟩

/-- The opcode, bits [63:54] (R114). -/
def opOf (w : DWord) : BitVec 10 := w.extractLsb' 54 10

/-- Guard 0, bits [53:50]. -/
def g0Of (w : DWord) : Guard := getGuard w 50

/-- Guard 1, bits [49:46]. -/
def g1Of (w : DWord) : Guard := getGuard w 46

/-- Form R and form M-reg (R115). -/
def getR (w : DWord) : Option RWord :=
  some ⟨g0Of w, g1Of w, w.extractLsb' 42 4, bitAt w 41, w.extractLsb' 39 2, w.extractLsb' 32 7,
    w.extractLsb' 24 8, w.extractLsb' 16 8, w.extractLsb' 8 8, w.extractLsb' 0 8⟩

/-- Form I and form M-off (R115). -/
def getI (w : DWord) : Option IWord :=
  some ⟨g0Of w, g1Of w, w.extractLsb' 42 4, bitAt w 41, w.extractLsb' 39 2, w.extractLsb' 32 7,
    w.extractLsb' 24 8, w.extractLsb' 16 8, w.extractLsb' 0 16⟩

/-- Form L (R115). -/
def getL (w : DWord) : Option LWord :=
  some ⟨g0Of w, g1Of w, w.extractLsb' 38 8, w.extractLsb' 32 6, w.extractLsb' 0 32⟩

/-- Form B: bits [41:32] are zero (R115). -/
def getB (w : DWord) : Option BWord :=
  if w.extractLsb' 32 10 = 0 then some ⟨g0Of w, g1Of w, w.extractLsb' 42 4, w.extractLsb' 0 32⟩ else none

/-- Form E: bits [40:39] and [4] are zero (R115). -/
def getE (w : DWord) : Option EWord :=
  if w.extractLsb' 39 2 = 0 ∧ bitAt w 4 = false then
    some ⟨g0Of w, g1Of w, w.extractLsb' 42 4, bitAt w 41, w.extractLsb' 36 3, w.extractLsb' 33 3, bitAt w 32,
      w.extractLsb' 23 9, w.extractLsb' 14 9, w.extractLsb' 5 9, w.extractLsb' 0 4⟩
  else none

/-- Form U: bits [40:37] are zero (R115). -/
def getU (w : DWord) : Option UWord :=
  if w.extractLsb' 37 4 = 0 then
    some ⟨g0Of w, g1Of w, w.extractLsb' 42 4, bitAt w 41, bitAt w 36, w.extractLsb' 27 9, w.extractLsb' 18 9,
      w.extractLsb' 9 9, w.extractLsb' 0 9⟩
  else none

/-- The instruction an opcode and a layout name, before the checks of R110 and R116 (R120). -/
def rawDecode (w : DWord) : Option Instr :=
  match (opOf w).toNat with
  | 0x000 => (getR w).map .nop
  | 0x001 => (getB w).map .bra
  | 0x002 => (getR w).map .jmp
  | 0x003 => (getB w).map .call
  | 0x004 => (getR w).map .calli
  | 0x005 => (getR w).map .ret
  | 0x006 => (getR w).map .exit
  | 0x007 => (getI w).map .trap
  | 0x008 => (getR w).map .tret
  | 0x009 => (getI w).map .brk
  | 0x00A => (getI w).map .bar
  | 0x00B => (getI w).map .barArr
  | 0x00C => (getI w).map .barWait
  | 0x00D => (getR w).map .launch
  | 0x00E => (getR w).map fun f => if f.md == 0 then .lwait f else .lwaitTest f
  | 0x00F => (getR w).map .yield
  | 0x010 => (getI w).map .sreg
  | 0x040 => (getR w).map .add
  | 0x041 => (getR w).map .sub
  | 0x042 => (getR w).map .addc
  | 0x043 => (getR w).map .subb
  | 0x044 => (getR w).map .mul
  | 0x045 => (getR w).map .mulh
  | 0x046 => (getR w).map .mad
  | 0x047 => (getR w).map .madw
  | 0x048 => (getR w).map .div
  | 0x049 => (getR w).map .rem
  | 0x04A => (getR w).map .min
  | 0x04B => (getR w).map .max
  | 0x04C => (getR w).map .abs
  | 0x04D => (getR w).map .cmp
  | 0x060 => (getI w).map .addI
  | 0x061 => (getI w).map .subI
  | 0x064 => (getI w).map .mulI
  | 0x06A => (getI w).map .minI
  | 0x06B => (getI w).map .maxI
  | 0x06D => (getI w).map .cmpI
  | 0x080 => (getR w).map .and
  | 0x081 => (getR w).map .or
  | 0x082 => (getR w).map .xor
  | 0x083 => (getR w).map .andn
  | 0x084 => (getR w).map .not
  | 0x085 => (getR w).map .shl
  | 0x086 => (getR w).map .shr
  | 0x087 => (getR w).map .sar
  | 0x088 => (getR w).map .rot
  | 0x089 => (getR w).map .bfe
  | 0x08A => (getR w).map .bfi
  | 0x08B => (getR w).map .popc
  | 0x08C => (getR w).map .clz
  | 0x08D => (getR w).map .ctz
  | 0x08E => (getR w).map .brev
  | 0x08F => (getR w).map .perm
  | 0x090 => (getR w).map .lea
  | 0x091 => (getR w).map .sel
  | 0x092 => (getR w).map .mov
  | 0x093 => (getL w).map .movi
  | 0x0A0 => (getI w).map .andI
  | 0x0A1 => (getI w).map .orI
  | 0x0A2 => (getI w).map .xorI
  | 0x0A3 => (getI w).map .andnI
  | 0x0A5 => (getI w).map .shlI
  | 0x0A6 => (getI w).map .shrI
  | 0x0A7 => (getI w).map .sarI
  | 0x0A8 => (getI w).map .rotI
  | 0x0B0 => (getI w).map .leaI
  | 0x0C0 => (getR w).map .fadd
  | 0x0C1 => (getR w).map .fsub
  | 0x0C2 => (getR w).map .fmul
  | 0x0C3 => (getR w).map .ffma
  | 0x0C4 => (getR w).map .fmin
  | 0x0C5 => (getR w).map .fmax
  | 0x0C6 => (getR w).map .fcmp
  | 0x0C7 => (getR w).map .fclass
  | 0x0C8 => (getR w).map .frnd
  | 0x0C9 => (getR w).map .fdot2
  | 0x100 => (getR w).map .fcvt
  | 0x101 => (getR w).map .icvt
  | 0x102 => (getR w).map .rand
  | 0x140 => (getR w).map .pset
  | 0x141 => (getR w).map .pmov
  | 0x180 => (getR w).map .fnld
  | 0x181 => (getR w).map .fapp
  | 0x182 => (getR w).map .fappd
  | 0x183 => (getR w).map .fapp2
  | 0x184 => (getR w).map .fnsync
  | 0x185 => (getR w).map .fnq
  | 0x1C0 => (getR w).map .shfl
  | 0x1C1 => (getR w).map .sbc
  | 0x1C2 => (getR w).map .svote
  | 0x1C3 => (getR w).map .sred
  | 0x1C4 => (getR w).map .sscan
  | 0x1C5 => (getR w).map .smv
  | 0x1C6 => (getR w).map .ssmx
  | 0x200 => (getI w).map .ld
  | 0x201 => (getI w).map .st
  | 0x202 => (getI w).map .ldl
  | 0x203 => (getI w).map .stl
  | 0x204 => (getI w).map .lds
  | 0x205 => (getI w).map .ldx
  | 0x206 => (getI w).map .stx
  | 0x207 => (getI w).map .ldFe
  | 0x208 => (getI w).map .stFe
  | 0x209 => (getI w).map .feSet
  | 0x20A => (getI w).map .fence
  | 0x20B => (getI w).map .prf
  | 0x20C => (getI w).map .cinv
  | 0x240 => (getR w).map .atomB32
  | 0x241 => (getR w).map .atomB64
  | 0x242 => (getR w).map .redB32
  | 0x243 => (getR w).map .redB64
  | 0x280 => (getR w).map .mres
  | 0x281 => (getR w).map .mrel
  | 0x282 => (getR w).map .mmac
  | 0x283 => (getR w).map .mdual
  | 0x284 => (getR w).map .mzero
  | 0x285 => (getR w).map .mld
  | 0x286 => (getR w).map .mst
  | 0x287 => (getR w).map .qcvt
  | 0x288 => (getR w).map .dqcvt
  | 0x289 => (getR w).map .amrd
  | 0x28A => (getR w).map .amclr
  | 0x2C0 => (getE w).map .cp
  | 0x2C1 => (getE w).map .cpRed
  | 0x2C2 => (getE w).map .cpGat
  | 0x2C3 => (getE w).map .coll
  | 0x2C4 => (getE w).map .fur
  | 0x2C5 => (getR w).map .cpFill
  | 0x2C6 => (getR w).map .tlWait
  | 0x2C7 => (getU w).map .tlTest
  | 0x2C8 => (getU w).map .tlCancel
  | 0x2C9 => (getU w).map .tlRd
  | 0x2CA => (getU w).map .tlSig
  | 0x300 => (getU w).map .uAdd
  | 0x301 => (getU w).map .uSub
  | 0x302 => (getU w).map .uMul
  | 0x303 => (getU w).map .uMin
  | 0x304 => (getU w).map .uMax
  | 0x305 => (getU w).map .uAnd
  | 0x306 => (getU w).map .uOr
  | 0x307 => (getU w).map .uXor
  | 0x308 => (getU w).map .uAndn
  | 0x309 => (getU w).map .uNot
  | 0x30A => (getU w).map .uShl
  | 0x30B => (getU w).map .uShr
  | 0x30C => (getU w).map .uSar
  | 0x30D => (getU w).map .uBfe
  | 0x30E => (getU w).map .uPopc
  | 0x30F => (getU w).map .uClz
  | 0x310 => (getU w).map .uCtz
  | 0x311 => (getU w).map .uMov
  | 0x312 => (getU w).map .uLea
  | 0x3C0 => (getR w).map .nret
  | 0x3C1 => (getR w).map .ctlRd
  | 0x3C2 => (getR w).map .ctlWr
  | _ => none

/-- The instruction a 64-bit word is; none when it is a non-instruction (the section before R121). -/
def decode (w : DWord) : Option Instr :=
  match rawDecode w with
  | some i => if i.wordOk then some i else none
  | none => none

/-- The four bits of a guard. -/
def putGuard (g : Guard) : BitVec 4 := BitVec.ofBool g.inv ++ g.pn

/-- Bits [63:46]: opcode and guards (R114). -/
def putTop (op : Nat) (g0 g1 : Guard) : BitVec 18 := BitVec.ofNat 10 op ++ putGuard g0 ++ putGuard g1

/-- The word of form R or M-reg. -/
def putR (op : Nat) (f : RWord) : DWord :=
  putTop op f.g0 f.g1 ++ f.md ++ BitVec.ofBool f.fs ++ f.hold ++ f.x ++ f.d ++ f.a ++ f.b ++ f.c

/-- The word of form I or M-off. -/
def putI (op : Nat) (f : IWord) : DWord :=
  putTop op f.g0 f.g1 ++ f.md ++ BitVec.ofBool f.fs ++ f.hold ++ f.x ++ f.d ++ f.a ++ f.imm

/-- The word of form L. -/
def putL (op : Nat) (f : LWord) : DWord := putTop op f.g0 f.g1 ++ f.d ++ f.md6 ++ f.imm

/-- The word of form B. -/
def putB (op : Nat) (f : BWord) : DWord := putTop op f.g0 f.g1 ++ f.md ++ (0 : BitVec 10) ++ f.off

/-- The word of form E. -/
def putE (op : Nat) (f : EWord) : DWord :=
  putTop op f.g0 f.g1 ++ f.md ++ BitVec.ofBool f.fs ++ (0 : BitVec 2) ++ f.tl ++ f.slot ++ BitVec.ofBool f.bulk
    ++ f.hnd ++ f.shp ++ f.crd ++ (0 : BitVec 1) ++ f.chan

/-- The word of form U. -/
def putU (op : Nat) (f : UWord) : DWord :=
  putTop op f.g0 f.g1 ++ f.md ++ BitVec.ofBool f.fs ++ (0 : BitVec 4) ++ BitVec.ofBool f.bi ++ f.d ++ f.a ++ f.b ++ f.c

/-- The word of an opcode and its fields. -/
def putFields (op : Nat) (f : Fields) : DWord :=
  match f with
  | .r f => putR op f
  | .i f => putI op f
  | .l f => putL op f
  | .b f => putB op f
  | .e f => putE op f
  | .u f => putU op f

/-- The word of an instruction; an event has none, and zero stands in its place. -/
def encode (i : Instr) : DWord :=
  match i.fields with
  | some (op, f) => putFields op f
  | none => 0

/-- The clause header (R108). -/
structure Header where
  sig    : BitVec 4
  count  : Nat
  wait   : BitVec 12
  seta   : BitVec 4
  setb   : BitVec 4
  ports  : BitVec 4
  entry  : Bool
  reform : Bool
  conv   : Bool
  rank   : BitVec 13
  low    : BitVec 16
deriving DecidableEq, Repr

/-- The fields of a header word (R108); `count` is the number of instruction words, 1-16. -/
def readHeader (w : DWord) : Header :=
  { sig := w.extractLsb' 60 4, count := (w.extractLsb' 56 4).toNat + 1, wait := w.extractLsb' 44 12,
    seta := w.extractLsb' 40 4, setb := w.extractLsb' 36 4, ports := w.extractLsb' 32 4,
    entry := bitAt w 31, reform := bitAt w 30, conv := bitAt w 29, rank := w.extractLsb' 16 13,
    low := w.extractLsb' 0 16 }

/-- A header that R109 rejects: SIG, the reserved bits, or a SETA or SETB of 12-14. -/
def Header.bad (h : Header) : Bool :=
  h.sig != 0xD || h.low != 0 || (12 ≤ h.seta.toNat && h.seta.toNat ≤ 14) || (12 ≤ h.setb.toNat && h.setb.toNat ≤ 14)

/-- A header that may be a branch, call or return target: valid and with ENTRY set (R32). -/
def Header.isEntry (h : Header) : Bool := !h.bad && h.entry

/-- The instruction the decoder reads from the first `nbits` bits of a word, the bits above them zero; an
instruction has 64 bits (R107). -/
def decodeTableWord (nbits w : Nat) : Option Instr := decode (BitVec.ofNat 64 (w % 2 ^ nbits))

end Sys2Proof
end

