-- ==== Sys2Proof/Machine/State/Thread.lean ====
section
/-! DEFINITION. The state of a thread, a pod, a pack and a partition (R11-R58, R129-R135, R333, R366). -/

namespace Sys2Proof.Machine

/-- Where a thread goes next (R19, R31, R36): a key address, whether the pod is a resume pod, and for a resume pod
keyed at an instruction the clause it lies in, with the RANK and CONV recorded for it.  `nib` is 0 for code of the
context, and the serial number of the patch image for an address in its emulation code (R297). -/
structure Target where
  key    : DWord
  resume : Bool
  hdr    : DWord
  rank   : BitVec 13
  conv   : Bool
  nib    : Nat
deriving DecidableEq, Repr

/-- Why a thread is parked (R36, R37, R39, R131). -/
inductive Park where
  /-- At barrier `b` of its team. -/
  | barrier (b : Nat)
  /-- At a full/empty word: byte address in scratch; `ld` is set for `ld.fe`. -/
  | fullEmpty (addr : Nat) (ld : Bool)
  /-- On timeline `k` below value `n`, with the scope of the acquire. -/
  | timeline (k n scope : Nat)
  /-- On a pending handle of timeline `k`, value `n`. -/
  | handle (k n : Nat)
  /-- On a pending grid handle. -/
  | grid (gid : Nat)
  /-- On a system fault; the token is given once the CCP has taken it (R321). -/
  | fault (token : Nat)
  /-- Held with its sub-group by R37, R131 or R365. -/
  | held
  /-- In the poll state until a clock (R39). -/
  | poll (due : Nat)
deriving DecidableEq, Repr

/-- The states of R17. -/
inductive Life where
  | waiting
  | inFlight
  | parked (p : Park)
  | draining
deriving DecidableEq, Repr

/-- Patch mode (R288, R297): the emulated word, its address, its clause header and the slot that matched. -/
structure Patch where
  pinst : DWord
  ppc   : DWord
  phdr  : DWord
  pslot : DWord
  /-- Waits for its flags before the save (R297). -/
  enter : Bool
  /-- The routine's ENTRY header in the image's code (R293). -/
  emu   : DWord
  /-- Address of the emulated word's clause header, for the resume record (the model's own). -/
  hdrAt : DWord
  /-- The pipe whose pack the thread left, 0 even and 1 odd (R42), and the image of the routine (R299; the model's own). -/
  pipe  : Nat
  nib   : Nat
deriving DecidableEq, Repr

/-- The check made when a thread is filed (R32, R130): the word whose next address it is, that word's address, its
clause header and that header's address; `entry` asks for an ENTRY header, and otherwise a nonzero canonical aligned
address is enough; `last` is bit [46] of the resume record; `vector` is set for a filing at the trap vector, whose failure ends the
thread (R128). -/
structure Check where
  pc    : DWord
  word  : DWord
  hdrAt : DWord
  hdr   : DWord
  entry : Bool
  last  : Bool
  vector : Bool
deriving DecidableEq, Repr

/-- Where a trap was raised: the address and word (or header) that `tpc` and `tinst` take, the clause header with its
address, whether the word is the last of a clause with REFORM set, whether `tpc` names a header, and the pipe (R42). -/
structure TrapAt where
  pc     : DWord
  inst   : DWord
  hdrAt  : DWord
  hdr    : DWord
  last   : Bool
  header : Bool
  pipe   : Nat
deriving DecidableEq, Repr

/-- What a spilling call or a refilling return goes back to when it faults (R126, R274): the word, and the return stack before it. -/
structure Undo where
  to_     : Target
  at_     : TrapAt
  rs      : List DWord
  spilled : Nat
deriving DecidableEq, Repr

/-- A thread at a barrier word of this clock (R132): whether it parks is known at the clock's end.  `own` is set for a thread
that waits at the barrier, and clear for a member of its sub-group that R37 would hold with it. -/
structure AtBar where
  b    : Nat
  own  : Bool
  to_  : Target
  chk  : Option Check
deriving DecidableEq, Repr

/-- One thread (R11, R45, R126, R129, R132, R135, R159, R297, R333, R366). -/
structure Thread where
  core     : Nat
  part     : Nat
  slot     : Nat
  team     : Nat
  tid      : Nat
  gindex   : Nat
  regs     : List Word
  preds    : BitVec 8
  flags    : BitVec 12
  rs       : List DWord
  spilled  : Nat
  /-- A return-stack refill that has not landed (R275). -/
  refill   : Bool
  /-- What the `ret` of that refill goes back to (R126). -/
  undo     : Option Undo
  /-- A spill or refill still being translated (R274). -/
  xlating  : Option Undo
  tcause   : DWord
  tval     : DWord
  tpc      : DWord
  tinst    : DWord
  /-- Address and COUNT of the trapping clause's header (the model's own). -/
  thdr     : DWord
  tcnt     : Nat
  rand     : DWord
  gridpend : BitVec 64
  arrived  : BitVec 16
  counted  : BitVec 16
  atBar    : Option AtBar
  life     : Life
  /-- Next address recorded by a control word (R125), taken at the block's end. -/
  next     : Option DWord
  /-- Resume point of a parked thread, or pod key of a waiting one. -/
  at_      : Target
  /-- The check of R32 for a resume point that is the fall-through of a clause with REFORM set (R36). -/
  chk      : Option Check
  /-- The resume point that firmware has set for a thread parked on a fault (R323, R324). -/
  moved    : Option DWord
  /-- The members whose release ends the hold of R37. -/
  hold37   : List Nat
  /-- Held by R131 until its trap group releases it. -/
  hold131  : Bool
  bypass   : Bool
  patch    : Option Patch
  patched  : Bool
  dbgSkip  : Bool
  dbgNobp  : Bool
  dbgStep  : Bool
  /-- Flags whose landing is a poisoned, refused or timed-out read, with the fault (R320, R356, R377): flag, class,
  code, access, address. -/
  badFlags : List (Nat × Nat × Nat × Nat × DWord)
  /-- Registers whose entry of the store is poisoned (R320, R352). -/
  badRegs  : List Nat
deriving DecidableEq, Repr

/-- A trap group of R131: the members of a sub-group that trapped at one word and are in their handlers, those held
with them, and the resume point chosen so far. -/
structure TrapGroup where
  team      : Nat
  inHandler : List Nat
  /-- Those of them that a Nib slot took: their run ends with `nret` or when the CCP resumes them, and that of the others with
  `tret` (R131, R294). -/
  patching  : List Nat
  held      : List Nat
  point     : Target
deriving DecidableEq, Repr

/-- A pod (R18); `fetched` says the header of R391 has returned. -/
structure Pod where
  idx     : Nat
  team    : Nat
  key     : DWord
  resume  : Bool
  conv    : Bool
  rank    : BitVec 13
  isOpen  : Bool
  opened  : BitVec 16
  /-- The slots whose WAITING bit is set, each with the clocks since its arrival (R18). -/
  waiting : List (Nat × Nat)
  arrival : BitVec 16
  fetched : Bool
  /-- Address of the clause header that contains the key (the model's own). -/
  hdr     : DWord
  nib     : Nat
deriving DecidableEq, Repr

/-- An entry of the operand latch (R54): selector, registers, the value of each thread, and the issues left. -/
structure Latch where
  sel  : BitVec 8
  n    : Nat
  vals : List (Nat × List Word)
  left : Nat
deriving DecidableEq, Repr

/-- A pack holding a stream (R25, R28, R31). -/
structure Pack where
  team    : Nat
  slots   : List Nat
  conv    : Bool
  /-- RANK of the pod that gave the pack (R43). -/
  rank    : BitVec 13
  nib     : Nat
  hdr     : DWord
  /-- The fetched clause: header and words (R107, R113). -/
  clause  : Option (DWord × List DWord)
  /-- The word to issue next; none while the header's checks of R109 and R28 are still to be made. -/
  pos     : Option Nat
  start   : Nat
  latches : List Latch
  /-- Words of a rewrite sequence still to issue (R294). -/
  rewrite : List DWord
  /-- Slots that have left the pack at the word being issued and hold their sub-groups after it (R37, R365). -/
  stopped : List Nat
  inRewrite : Bool
  /-- Slots on which the word that issues has no effect (R294): those with BYPASS during a rewrite, and the others while the
  word itself follows it for those. -/
  skip    : List Nat
  /-- A serialise action in progress, or done for this word (R294). -/
  serial  : Bool
  serialDone : Bool
  formed  : Nat
deriving DecidableEq, Repr

/-- A stream (R27): its pack and the faults a walk has delivered to its next word: page, access, class, code. -/
structure Stream where
  idx    : Nat
  pack   : Option Pack
  faults : List (DWord × Nat × Nat × Nat)
  /-- Waits for a walk (R95). -/
  walking : Bool
  freeAt : Nat
deriving DecidableEq, Repr

/-- Whether a filing ends a handler run (R130, R298). -/
inductive Leave where
  | no
  | tret (md : Nat)
  | nret
deriving DecidableEq, Repr

/-- A filing that falls due (R31, R42): `rankIn` is 0 for an even pipe's pack, 1 for an odd pipe's, 2 for a release. -/
structure Filing where
  slot   : Nat
  to_    : Target
  due    : Nat
  rankIn : Nat
  check  : Option Check
  /-- Filed at the context's trap vector (R128). -/
  vector : Bool
  /-- The end of a handler run (R130, R131, R298). -/
  ret    : Leave
deriving DecidableEq, Repr

/-- A claim of a bank in a clock (R52, R53): the clock its word issued, whether on the odd pipe, and for a claim of a port or a landing
the access and the entry of the bank. -/
structure BankClaim where
  bank   : Nat
  at_    : Nat
  issued : Nat
  odd    : Bool
  port   : Option (Nat × Nat)
deriving DecidableEq, Repr

/-- A bank that a port access or a landing uses: its partition, the bank, and the entry there. -/
structure BankUse where
  part  : Nat
  bank  : Nat
  entry : Nat
deriving DecidableEq, Repr

/-- A port access or a landing that waits for its banks, with the clocks it has waited (R53). -/
structure PortWait where
  id     : Nat
  waited : Nat
  uses   : List BankUse
deriving DecidableEq, Repr

/-- A partition of a core (R16-R29). -/
structure Part where
  core    : Nat
  idx     : Nat
  pods    : List Pod
  /-- The entry queue (R20): slot and target, head first. -/
  queue   : List (Nat × Target)
  streams : List Stream
  filings : List Filing
  groups  : List TrapGroup
  memBusy : Nat
  funBusy : Nat
  engBusy : Nat
  /-- Claims of this clock and of later ones (R52). -/
  claims   : List BankClaim
  /-- What waits for its banks, and the banks reserved for a clock (R53). -/
  portWait : List PortWait
  reserved : List (Nat × Nat)
deriving DecidableEq, Repr

end Sys2Proof.Machine
end

