-- ==== Sys2Proof/Machine/State/Core.lean ====
section
/-! DEFINITION. The state of a team and a core: scratch, timelines, barriers, operations in flight, caches, function registers, the tensor array and copy channels. -/

namespace Sys2Proof.Machine

/-- One engine command or `tl.sig` of a timeline (R231): its value, and whether its own effects are complete. -/
structure TlCmd where
  val  : Nat
  done : Bool
deriving DecidableEq, Repr

/-- A timeline (R231): the values of commands not yet complete in order are kept with their own state. -/
structure Timeline where
  assigned  : Nat
  completed : Nat
  failv     : Nat
  pending   : List TlCmd
deriving DecidableEq, Repr

/-- A waiter on a full/empty word (R90, R91): the thread, whether for `ld.fe`, and the clock it parked in. -/
structure FeWaiter where
  part : Nat
  slot : Nat
  ld   : Bool
  at_  : Nat
  tid  : Nat
deriving DecidableEq, Repr

/-- A full/empty word of scratch that is not in its start state (R90, R91): full bit, the thread it is reserved
for, and its waiters oldest first. -/
structure FeWord where
  addr     : Nat
  full     : Bool
  reserved : Option (Nat × Nat)
  waiters  : List FeWaiter
deriving DecidableEq, Repr

/-- A team on a core (R11-R15, R45, R47). -/
structure Team where
  core     : Nat
  slot     : Nat
  /-- The thread slots of the team, as partition and slot, which it keeps until it retires (R13, R41). -/
  slots    : List (Nat × Nat)
  ctx      : Nat
  gid      : Nat
  index    : Nat
  size     : Nat
  sgLog    : Nat
  frame    : Nat
  packW    : Nat
  scratchBytes : Nat
  scalars  : List Word
  fs       : List DWord
  am       : List Word
  /-- `am` registers that an `amclr` of this clock zeroes in the next (R223). -/
  amClear  : List Nat
  /-- Scratch bytes written since the start; every other byte is a free value (R47). -/
  scratch  : List (Nat × Byte)
  scratchSeed : Nat
  /-- Scratch entries of 32 bytes that are poisoned (R320, R352). -/
  badScratch : List Nat
  fe       : List FeWord
  tls      : List Timeline
  /-- Pending handle pairs: even scalar, timeline, value (R233). -/
  tags     : List (Nat × Nat × Nat)
  /-- Engine arrivals (R239): barrier, timeline, value. -/
  engArr   : List (Nat × Nat × Nat)
  /-- Threads filed so far by TEAM_START, and the clock the first may be filed (R309). -/
  started  : Nat
  startAt  : Nat
  preloads : List (Nat × DWord)
  /-- A preload fault holds the start (R320). -/
  heldTok  : Option Nat
  /-- Grids launched by its threads that have not retired (R13). -/
  children : List Nat
  /-- The reuse latch (R213): A rows, M, K, FMT. -/
  reuse    : Option (List (List Word) × Nat × Nat × Nat)
  pair     : Bool
deriving DecidableEq, Repr

/-- A destination register of an operation. -/
inductive Dest where
  | v (slot n : Nat)
  | s (team n : Nat)
  | p (slot n : Nat)
deriving DecidableEq, Repr

/-- What an operation in flight is. -/
inductive OpKind where
  /-- A flagged result already computed (R34). -/
  | result
  | load
  | store
  | atomic (op : Nat)
  | reduction (op : Nat)
  | localLoad
  | localStore
  /-- `ld.fe` and `st.fe` waiting for the release half (R171). -/
  | fullEmpty (ld : Bool)
  /-- A fence (R103); `sc` is the sequentially consistent form. -/
  | fence (sc : Bool)
  /-- The release of a barrier arrival (R132). -/
  | arrive (b : Nat)
  /-- A spill store or refill load of the return stack (R126). -/
  | spill
  | refill
  /-- The packet read of a `launch` (R134); `pd` is the status predicate. -/
  | launch (pd : Nat)
  /-- `fnsync` on a register (R188): the loads and pins it waits for. -/
  | fnsync (reg : Nat)
  /-- The release of an engine command or `tl.sig` (R104, R244). -/
  | engine
  /-- A prefetch (R173). -/
  | prefetch
  /-- `fe.set`, after the acquires before it (R171). -/
  | feSet (full : Bool)
  /-- A store of a patch save, or a load of an `nret`: the registers of the record or its predicates (R297, R298). -/
  | patchSave
  | patchLoad
  /-- `ctl.wr` of a control register, after its release (R290). -/
  | ctlWr (n : Nat)
deriving DecidableEq, Repr

/-- Where an operation in flight is. -/
inductive Stage where
  /-- Held by its own release or by an earlier acquire (R102), or in the line queue (R168). -/
  | queued
  /-- On the die-to-die link, in a direction (R94). -/
  | link (dir : Nat)
  | slice (n : Nat)
  /-- Read from memory by a controller for a miss; `ready` when the data are back. -/
  | memory (pc : Nat) (ready : Bool)
  | inkwell (g : Nat)
  | host
  /-- Performed; the result has not landed or the acknowledgement not arrived. -/
  | done
  /-- A timed-out host read kept as a replay entry on a token (R356). -/
  | replay (token : Nat)
deriving DecidableEq, Repr

/-- An operation in flight: a global or local access, or a flagged result (R34, R102, R168). -/
structure Op where
  id      : Nat
  word    : Nat
  part    : Nat
  slot    : Nat
  team    : Nat
  ctx     : Nat
  kind    : OpKind
  stage   : Stage
  /-- Translated; a spill or refill may wait for its walk (R274). -/
  xlated  : Bool
  pc      : DWord
  va      : DWord
  pa      : Nat
  loc     : Nat
  ink     : Bool
  size    : Nat
  col     : Nat
  data    : List Byte
  data2   : List Byte
  order   : Nat
  scope   : Nat
  policy  : Nat
  md      : Nat
  dest    : List Dest
  vals    : List Word
  preds   : List (Nat × Bool)
  flag    : Option Nat
  /-- The 32-byte line read, to install in L1; `noInstall` by R83. -/
  line    : List Byte
  noInstall : Bool
  bypass  : Bool
  pins    : List (Nat × Nat)
  poisoned : Bool
  /-- The place of a load's or store's performing among those of the device, from which its line's age in L1 follows (R83, R100; the model's own). -/
  perf    : Nat
  /-- Class and code of a fault that its read met after issue (R134, R319). -/
  fault   : Option (Nat × Nat)
  /-- Further slots whose flags the landing clears: the other threads of an `lds` (R167). -/
  also    : List Nat
  /-- Clock of issue, clock the present hop began, the clocks of the eight hops, and whether it is sampled (R370, R371). -/
  stampAt : Nat
  since   : Nat
  hops    : List Nat
  sampled : Bool
  /-- The issuing thread's GINDEX (R371), and the token whose parked threads its landing releases (R356). -/
  gindex  : Nat
  wakes   : Option Nat
deriving DecidableEq, Repr

/-- A line of L1 (R81), newest first in the list. -/
structure L1Line where
  line : Nat
  data : List Byte
deriving DecidableEq, Repr

/-- A TLB entry (R95, R314, R318): the virtual page base, log2 of its size, the physical page and the leaf's bits. -/
structure TlbEntry where
  ctx   : Nat
  va    : Nat
  log   : Nat
  pa    : Nat
  leaf  : DWord
  dirty : Bool
deriving DecidableEq, Repr

/-- One copy of a function register (R175-R177): the descriptor's bytes, generation, R177 code, valid. -/
structure FnCopy where
  image : List Byte
  gen   : BitVec 32
  code  : Nat
  valid : Bool
deriving DecidableEq, Repr

/-- A function register: two copies and which is active (R175, R326). -/
structure FnReg where
  copy0  : FnCopy
  copy1  : FnCopy
  active : Bool
deriving DecidableEq, Repr

/-- An `fnld` in flight (R185): register, the descriptor's address and the bytes of it read so far, the threads whose flags it clears
(its reader first), and the image once it has been read whole. -/
structure FnLoad where
  id    : Nat
  reg   : Nat
  ctx   : Nat
  addr  : DWord
  got   : List Byte
  part  : Nat
  slots : List Nat
  flag  : Nat
  image : Option (List Byte)
  /-- The first clock of the writing of the inactive copy (R185). -/
  since : Option Nat
  /-- A preload of a team (R191). -/
  team  : Option Nat
  /-- The word as a resume point (R356), and as a place where a fault is raised (R295). -/
  at_   : Target
  trap  : TrapAt
deriving DecidableEq, Repr

/-- An array instruction issued on a core (R209, R226). -/
structure ArrayOp where
  id     : Nat
  /-- The issuing core: the follower of a pair queues on its leader (R209). -/
  core   : Nat
  word   : DWord
  /-- The word as a resume point (R221), as a place where a fault is raised (R295), and its clock of issue (R209). -/
  at_    : Target
  trap   : TrapAt
  issued : Nat
  ctx    : Nat
  team   : Nat
  part   : Nat
  slot   : Nat
  slots  : List Nat
  flag   : Nat
  /-- Operand values read at issue: D, A, B, C. -/
  d      : DWord
  a      : DWord
  b      : DWord
  c      : Word
  /-- The clock it started and whether its effect has been made since, its duration, and what it reports at retirement: census counts, the
  `am` register and the report that commits to it (R209, R221, R222, R224, R227). -/
  started : Option Nat
  made   : Bool
  dur    : Nat
  counts : List Nat
  am     : Option Nat
  amNan  : Bool
  amMag  : Nat
deriving DecidableEq, Repr

/-- A queued or running engine command (R228-R241). -/
structure Command where
  id     : Nat
  core   : Nat
  team   : Nat
  ctx    : Nat
  gid    : Nat
  part   : Nat
  slot   : Nat
  relId  : Nat
  word   : DWord
  tl     : Nat
  val    : Nat
  shp    : DWord
  crd    : List Word
  fmtSlot : DWord
  /-- 0 queued, 1 at the head holding for its sequence word, its cluster or its peers, 2 started or posted, 3 delivered. -/
  phase  : Nat
  recs   : List (List Byte)
  /-- Element positions delivered or passed so far, and their bytes that no acknowledgement covers yet (R92, R105). -/
  pos    : Nat
  unacked : Nat
  /-- Clock of the next read of the sequence word; 0 while a read is in progress (R238). -/
  pollAt : Nat
  /-- The fault token a paused channel waits on, and whether it stands at a checkpoint (R245, R320). -/
  paused : Option Nat
  pausing : Bool
  failed : Bool
  /-- Number of the collective in its group (R240). -/
  num    : Nat
deriving DecidableEq, Repr

/-- A copy channel (R92, R318): fill pointer, queue, head first, and the translations of its pages, the last used first. -/
structure Chan where
  key   : ChanKey
  fill  : BitVec 64
  queue : List Command
  /-- Commands that have delivered their last byte and whose writes are being acknowledged (R236). -/
  acking : List Command
  pages : List TlbEntry
deriving DecidableEq, Repr

/-- Census counts of a site (R224): object, offset of the word, the four counts. -/
structure Census where
  ctx   : Nat
  obj   : Nat
  site  : DWord
  nan   : BitVec 32
  inf   : BitVec 32
  sat   : BitVec 32
  under : BitVec 32
deriving DecidableEq, Repr

/-- A core (R49, R81, R90, R95, R175, R203, R209, R287, R321, R326, R369). -/
structure Core where
  idx      : Nat
  ctx      : Option Nat
  lastCtx  : Option Nat
  ops      : List Op
  l1       : List L1Line
  tlb1     : List TlbEntry
  tlb2     : List TlbEntry
  fns      : List FnReg
  loads    : List FnLoad
  /-- The team slot that holds the array, whether as a pair, and whether the core is the follower (R203). -/
  resv     : Option (Nat × Bool)
  follower : Bool
  /-- An `mrel` waits for the team's earlier matrix instructions (R203). -/
  releasing : Option (Nat × Nat)
  /-- Accumulation buffer words written since the grant; every other word is a free value (R204). -/
  acc      : List (Nat × Word)
  /-- The context and the count that the free words of the buffer are drawn with. -/
  accSeed  : Nat × Nat
  /-- Words of the buffer that are poisoned (R221, R352). -/
  accBad   : List Nat
  array    : List ArrayOp
  /-- Array-busy clocks counted in the current window (R387). -/
  busy     : Nat
  census   : List Census
  /-- The selectors have stopped for a pre-emption (R328), and the core has halted. -/
  halting  : Bool
  halted   : Bool
  /-- The clock of the drain deadline (R328). -/
  drainAt  : Nat
  /-- Trace records of 32 bytes and journey records of 64 that wait to be written (R369, R371). -/
  trace    : List (List Byte)
  journey  : Nat
deriving DecidableEq, Repr

end Sys2Proof.Machine
end

