-- ==== Sys2Proof/Machine/State/Device.lean ====
section
/-! DEFINITION. The state outside the cores: contexts, grids, queues, virtual functions, walkers, LLC slices, controllers, links, clusters, the Nib, the Scribe and power. -/

namespace Sys2Proof.Machine

/-- An object slot of a context (R337, R340): `count` is the reference count while RETIRING, and `cmd` the physical address
of the command whose STATUS is still to become 0x03. -/
inductive ObjState where
  | loaded (base size : Nat)
  | retiring (base size count cmd : Nat)
deriving DecidableEq, Repr

/-- The kernel table of a context as the device keeps it beside the entries in memory: the object slot whose code an
entry names (R337). -/
structure KtOwner where
  kidx : Nat
  obj  : Nat
deriving DecidableEq, Repr

/-- A context (R288, R289, R292, R331, R337, R380). -/
structure Ctx where
  num      : Nat
  ptbase   : DWord
  trapvec  : DWord
  agelim   : BitVec 16
  seed     : DWord
  psave    : DWord
  fnsave   : DWord
  cnsdir   : DWord
  ktbase   : DWord
  ktsize   : Nat
  valid    : Bool
  featmask : DWord
  featPend : Option DWord
  ctxerr   : BitVec 3
  seq      : Nat
  objs     : List (Nat × ObjState)
  owners   : List KtOwner
  /-- Collectives begun in each group (R240). -/
  colls    : List (Nat × Nat)
  lost     : Bool
  /-- Saved by a pre-emption and not yet restored (R330, R335). -/
  saved    : Bool
  /-- The clock of the last switch of its kernel table (R339, R340). -/
  switchAt : Option Nat
  /-- The PTBASE that a code command has read from the descriptor of a context with no accepted grid, until the command ends (R337). -/
  cmdRoot  : Option DWord
deriving DecidableEq, Repr

/-- Where the completion value of a grid lies (R305): a queue's timeline, or a team timeline of the parent. -/
inductive Compl where
  | none
  | queue (q v : Nat)
  | team (core team k v : Nat)
deriving DecidableEq, Repr

/-- A grid (R11-R13, R303-R305, R341), from the moment its packet is read. -/
structure Grid where
  gid      : Nat
  ctx      : Nat
  launchid : Nat
  depth    : Nat
  prio     : Nat
  packet   : List Byte
  /-- The launching team: core, team slot. -/
  parent   : Option (Nat × Nat)
  /-- The queue of a host grid. -/
  queue    : Option Nat
  /-- The die whose launch buffer holds a device-side grid (R134). -/
  die      : Option Nat
  compl    : Compl
  accepted : Bool
  entry    : List Byte
  obj      : Nat
  args     : List Byte
  preload  : List (Nat × DWord)
  nextTeam : Nat
  teams    : List (Nat × Nat)
  /-- Cores whose preloads of this grid are done (R191). -/
  preCores : List Nat
  retired  : Nat
  finished : Bool
deriving DecidableEq, Repr

/-- The completion timeline of a queue (R305). -/
structure Queue where
  idx    : Nat
  qbase  : DWord
  vf     : Nat
  ctx    : Nat
  prio   : Nat
  log2n  : Nat
  enable : Bool
  wptr   : Nat
  rptr   : Nat
  qerr   : DWord
  tl     : Timeline
deriving DecidableEq, Repr

/-- A ring of records: the fault queues, the dump ring and the code ring (R322, R336, R368). -/
structure Ring where
  base   : DWord
  ctl    : DWord
  wptr   : Nat
  rptr   : Nat
deriving DecidableEq, Repr

/-- A TLB invalidation in progress (R319): its number, range, and the operations in flight when it arrived. -/
structure TlbInv where
  num   : Nat
  ctx   : Nat
  lo    : Nat
  hi    : Nat
  upto  : Nat
deriving DecidableEq, Repr

/-- A fault record waiting in the CCP (R321, R322). -/
structure FaultRec where
  vf      : Nat
  cls     : Nat
  code    : Nat
  access  : Nat
  source  : Nat
  unit    : Nat
  ctx     : Nat
  token   : Nat
  va      : DWord
  pc      : DWord
  gindex  : DWord
  extra   : DWord
  /-- Number of the dump record that must be written first (R368). -/
  dump    : Option Nat
  /-- The thread whose accesses of names below a bound must be complete first (R106): core, partition, slot, bound. -/
  behind  : Option (Nat × Nat × Nat × Nat)
deriving DecidableEq, Repr

/-- What a token's response acts on (R321, R323). -/
structure Token where
  num    : Nat
  vf     : Nat
  ctx    : Nat
  core   : Nat
  source : Nat
  unit   : Nat
  cls    : Nat
  code   : Nat
  access : Nat
  page   : DWord
  /-- Threads parked on it: core, partition, slot. -/
  threads : List (Nat × Nat × Nat)
  chan   : Option ChanKey
  /-- Teams whose per-core preload is held: core, team slot. -/
  starts : List (Nat × Nat)
  /-- Timed-out host reads kept as replay entries: core, operation (R356). -/
  replays : List (Nat × Nat)
  /-- The ACTION of a response that came while the context was saved (R325). -/
  answer : Option Nat
deriving DecidableEq, Repr

/-- A dump record waiting (R368): its sequence number and bytes. -/
structure Dump where
  num   : Nat
  bytes : List Byte
deriving DecidableEq, Repr

/-- A pre-emption or restore of a virtual function (R327-R331, R335): `since` is the clock of the write. -/
structure Preempt where
  ctx   : Nat
  since : Nat
  base  : Nat
deriving DecidableEq, Repr

/-- The units of an assignment block (R346). -/
structure Assign where
  vcore    : BitVec 160
  wayMask  : BitVec 16
  quill    : BitVec 18
  clusters : BitVec 8
  vink     : BitVec 24
deriving DecidableEq, Repr

/-- A virtual function's control block and debug page (R322, R327, R336, R348, R364, R369, R370, R375, R379). -/
structure Vf where
  idx      : Nat
  fault    : Ring
  held     : List FaultRec
  tlbseq   : Nat
  tlbnum   : Nat
  invs     : List TlbInv
  psarea   : DWord
  pstatCtx : Nat
  pstatSize : Nat
  pstat    : Nat
  preempt  : Option Preempt
  /-- A restore whose groups are not all placed (R335). -/
  restore  : Option Preempt
  /-- The last region named by regmode, and whether its change is in progress (R348). -/
  regLast  : Nat
  regBusy  : Option (Nat × Nat)
  code     : Ring
  ctxbase  : DWord
  grpbase  : DWord
  vtarget  : DWord
  bpa      : List DWord
  bpc      : List DWord
  dump     : Ring
  dumps    : List Dump
  dumpNum  : Nat
  trbase   : DWord
  trctl    : DWord
  trWritten : List (Nat × Nat × Nat)
  jrbase   : DWord
  jrctl    : DWord
  jrWritten : List (Nat × Nat × Nat)
  /-- Segments whose counts in memory are still to be written: of the journey buffer or the trace buffer, and the core (R369). -/
  headPend : List (Bool × Nat)
  lostTrace : BitVec 32
  lostJourney : BitVec 32
  cnsBusy  : Option (Nat × Nat)
  cnsDiff  : Bool
  cnsSite  : BitVec 32
  /-- The assignment block (R346) and a pending one (R347). -/
  vcore    : BitVec 160
  wayMask  : BitVec 16
  quill    : BitVec 18
  clusters : BitVec 8
  vink     : BitVec 24
  pend     : Option Assign
deriving DecidableEq, Repr

/-- What an access is, for the checks of R315 and R349. -/
inductive Acc where
  | read
  | write
  | atomic (carried : Bool)
  | fetch
  | engWrite (inkOk : Bool)
  | redDest
  | mmacB
deriving DecidableEq, Repr

/-- Who waits on a walk (R95, R318): a stream's word or clause fetch, a pod's header fetch, an access in flight, or an agent by its owner's
name: a unit of a core (an array word, a descriptor's read, a patch save), a channel, or a dispatcher or Marrow core, which has no core. -/
inductive Waiter where
  | word (core part stream : Nat)
  | header (core part pod : Nat)
  | op (core id : Nat)
  | unit (core : Option Nat) (owner : Nat)
  | chan (k : ChanKey) (owner : Nat)
deriving DecidableEq, Repr

/-- A page-table walk (R95, R315, R316, R318): waiters with the access each makes, and the clock of its request. -/
structure Walk where
  die     : Nat
  ctx     : Nat
  vpn     : Nat
  waiters : List (Waiter × Acc)
  noInsert : Bool
  since   : Nat
  /-- The entry found and its address while its A or D bit is being set (R316). -/
  setting : Option (TlbEntry × Nat × DWord)
deriving DecidableEq, Repr

/-- What a walk has found for an agent: a page, or a fault's class and code. -/
inductive Found where
  | page (e : TlbEntry)
  | fault (cls code : Nat)
deriving DecidableEq, Repr

/-- What a walk has delivered to an agent that waited on it (R318), which keeps it until its step is made: the page, and the ACCESS of R322
that a fault concerns. -/
structure Brought where
  owner  : Nat
  ctx    : Nat
  vpn    : Nat
  access : Nat
  found  : Found
deriving DecidableEq, Repr

/-- A walk-cache entry (R95): context, level, the VA bits that select it, the next table. -/
structure WalkCache where
  die   : Nat
  ctx   : Nat
  level : Nat
  tag   : Nat
  table : Nat
deriving DecidableEq, Repr

/-- A resident sector of a slice (R85-R87), newest first in the slice's list. -/
structure Sector where
  addr   : Nat
  way    : Nat
  dirty  : Bool
  column : Bool
  cross  : Nat
deriving DecidableEq, Repr

/-- What an agent does with a line (R84, R87, R170): a row or a column read, a write that it waits for, or a read-modify-write. -/
inductive How where
  | row
  | column
  | write
  | rmw
  /-- A write that nothing waits for. -/
  | posted
deriving DecidableEq, Repr

/-- An agent that asks for a line: the owner's name, what it does, and the virtual function whose way mask holds. -/
structure Asker where
  owner : Nat
  how   : How
  vf    : Nat
deriving DecidableEq, Repr

/-- A line whose request for an agent has been served (R84, R94), kept until the agent has made its access. -/
structure Grant where
  owner : Nat
  line  : Nat
  how   : How
deriving DecidableEq, Repr

/-- An entry of a slice's or controller's class FIFO (R94): the class, and the core and the operation's word and line, or the agent that
asks. -/
structure Req where
  cls  : Nat
  core : Nat
  word : Nat
  line : Nat
  /-- Requests that younger ones have passed (R94). -/
  passed : Nat
  /-- The write-back of an evicted sector (R85), or a refresh, which is of class 6 (R310). -/
  wb     : Bool
  by_    : Option Asker
deriving DecidableEq, Repr

/-- An LLC slice (R85, R87, R94). -/
structure Slice where
  idx     : Nat
  sectors : List Sector
  queue   : List Req
  /-- The sectors being rewritten in the other orientation and the clock each ends (R87). -/
  rewriting : List (Nat × Nat)
deriving DecidableEq, Repr

/-- A pseudo-channel controller (R94): its queue and the open row. -/
structure MemCtl where
  idx     : Nat
  queue   : List Req
  openRow : Option Nat
  /-- Sectors read and waiting to fill their slice. -/
  filled  : List Req
deriving DecidableEq, Repr

/-- Grant counts of an arbitration point in its window (R310-R312), the class last served (R94), and the clock in which its next window
begins. -/
structure PointState where
  pt    : Point
  used  : List Nat
  last  : Nat
  next  : Nat
deriving DecidableEq, Repr

/-- A Marrow job (R357, R358). -/
structure Job where
  cmd    : Nat
  chan   : ChanKey
  ctx    : Nat
  core   : Nat
  team   : Nat
  tl     : Nat
  val    : Nat
  addr   : DWord
  rec_   : List Byte
  nchunk : Nat
  next   : Nat
  bad    : List Nat
  ended  : Nat
  rejected : Bool
deriving DecidableEq, Repr

/-- What the manual says of the registers of a Marrow core as a KIND 0 chunk starts (R360). -/
structure MarrowRegs where
  core : Nat
  pc   : DWord
  a0   : DWord
  a1   : DWord
  a2   : DWord
  sp   : DWord
  ra   : DWord
deriving DecidableEq, Repr

/-- A Marrow cluster (R357): FIFO of jobs, whether the head is running, and the chunk of each of its eight cores. -/
structure Cluster where
  idx     : Nat
  fifo    : List Job
  running : Bool
  chunks  : List (Nat × Nat)
  /-- The registers with which the latest KIND 0 chunk of each core started. -/
  regs    : List MarrowRegs
  /-- The local memories of the eight cores, of 256 KiB each (R359). -/
  local_  : List Host.Cell
  /-- Clocks of the aborts of each core (R352). -/
  aborts  : List (Nat × Nat)
deriving DecidableEq, Repr

/-- A Nib slot (R293). -/
structure NibSlot where
  match_ : DWord
  mask   : DWord
  ctl    : DWord
  emu    : DWord
deriving DecidableEq, Repr

/-- A patch image in force (R296). -/
structure NibImage where
  serial  : Nat
  arv     : Nat
  flags   : BitVec 32
  dec     : List NibSlot
  flt     : List NibSlot
  store   : List DWord
  code    : List Byte
  digest  : List Byte
deriving DecidableEq, Repr

/-- Fuses of one image: the two key hashes and the anti-rollback minimum (R385). -/
structure FuseSet where
  hashEd : List Byte
  hashMl : List Byte
  arvMin : Nat
deriving DecidableEq, Repr

/-- The fuses (R385). -/
structure Fuses where
  scribe : FuseSet
  ccp    : FuseSet
  nib    : FuseSet
  secret : BitVec 256
  debugDisable : Bool
deriving DecidableEq, Repr

/-- Host bytes that a completion has brought for an owner. -/
structure HostDatum where
  owner : Nat
  pa    : Nat
  data  : List Byte
deriving DecidableEq, Repr

/-- A soft error that is to occur (R352): one that a unit of R354 corrects, which counts, or an uncorrectable one: of a line of the LLC, HBM4 or Inkwell; of an entry of the unified store, a register
of the eight threads of a lane column or 32 bytes of scratch; of eight words of an accumulation buffer; of an L1 line; of a copy of a function
register; of a TLB entry; of a walk-cache entry. -/
inductive Upset where
  | frame (core part col reg : Nat)
  | scratch (core team entry : Nat)
  | acc (core row group : Nat)
  | line (line : Nat)
  | l1 (core line : Nat)
  | fn (core reg : Nat) (second : Bool)
  | tlb (core ctx va : Nat)
  | walkCache (w : WalkCache)
  | corrected (kind unit : Nat)
deriving DecidableEq, Repr

/-- What has left the module towards the host, a peer or a management controller. -/
inductive Out where
  | msix (vf vector : Nat)
  | hostRead (id vf addr size : Nat)
  | hostWrite (id vf addr : Nat) (data : List Byte)
  | hostAtomic (id vf addr op : Nat) (data data2 : List Byte)
  | pageRequest (id vf addr : Nat)
  | config (tag : Nat) (retry : Bool)
  | spdm (index : Nat) (value sigEd sigMl : List Byte)
  | flit (port : Nat) (f : Flit)
deriving DecidableEq, Repr

/-- What holds a host request back from the link (R377): nothing; a translation that the host has denied, before its page request has been
sent and after; or the token of the fault that a failed page request is. -/
inductive HostWait where
  | none
  | denied
  | asked
  | token (n : Nat)
deriving DecidableEq, Repr

/-- A host request outstanding (R376, R377): the core's operation it serves, or the array instruction, command or
dispatcher that `owner` names; what goes out on the link, when it was sent, what holds it back, and the virtual address
that a fault of it reports (R322). -/
structure HostReq where
  id    : Nat
  core  : Nat
  op    : Nat
  owner : Option Nat
  msg   : Out
  sent  : Nat
  wait  : HostWait
  va    : DWord
deriving DecidableEq, Repr

/-- What crosses the die-to-die link (R7, R94): a request for a slice of the other die, a request of die 1 for the host link, which die 0
serves, or a flit for a Quill port of the other die. -/
inductive LinkTo where
  | slice (n : Nat) (req : Req)
  | host (r : HostReq)
  | quill (port : Nat) (f : Flit)
deriving DecidableEq, Repr

/-- A request on the die-to-die link (R94): the die it leaves, its class, and the beats of it that have crossed. -/
structure LinkReq where
  dir  : Nat
  cls  : Nat
  to_  : LinkTo
  sent : Nat
deriving DecidableEq, Repr

/-- A Quill port and direction (R383): credits of the three classes, retries of the flit at its head.  Entry 18 counts the
retries of the die-to-die link (R352). -/
structure Port18 where
  idx     : Nat
  up      : Bool
  credits : List Nat
  /-- Flits that wait to be sent, oldest first. -/
  queue   : List Flit
  retries : Nat
  downs   : Nat
  retried : Nat
deriving DecidableEq, Repr

/-- The host link (R376, R377). -/
structure HostLink where
  kind  : LinkKind
  width : Nat
  rate  : Nat
deriving DecidableEq, Repr

/-- What a rank of a collective has sent (R240): group of a virtual function, number, rank; `ctl` for its parameters, and
otherwise source bytes from an offset. -/
structure RankData where
  vf    : Nat
  group : Nat
  num   : Nat
  rank  : Nat
  ctl   : Bool
  off   : Nat
  data  : List Byte
deriving DecidableEq, Repr

/-- A context image (R332-R335), kept with the bytes written, so that a restore can tell an image the device wrote. -/
structure Image where
  ctx    : Nat
  base   : Nat
  bytes  : List Byte
  cores  : List Core
  parts  : List Part
  threads : List Thread
  teams  : List Team
  chans  : List Chan
  grids  : List Grid
deriving DecidableEq, Repr

end Sys2Proof.Machine
end

