-- ==== Sys2Proof/Machine/State.lean ====
section
/-! DEFINITION. The state of the module, its reasons to stop, and the state after bring-up (R389). -/

namespace Sys2Proof.Machine

/-- The word being issued (R121): the unit, its address, the word, its clause header and that header's address.
Set by `step` before it runs the meaning of the word, and the model's own. -/
structure Cur where
  core   : Nat
  part   : Nat
  stream : Nat
  pc     : DWord
  word   : DWord
  hdr    : DWord
  hdrAt  : DWord
  pos    : Nat
  nib    : Nat
  /-- The word that executes: `word` itself, or a word of a rewrite in its place (R294). -/
  exec   : DWord
deriving DecidableEq, Repr

/-- What the next step does: issue the next word of a stream, or run an event of the opcode table. -/
inductive Act where
  | issue (core part stream : Nat)
  | event (i : Instr)
deriving DecidableEq, Repr

/-- The module. -/
structure State where
  /-- Acts of this clock still to do (the model's own). -/
  agenda   : List Act
  /-- Acts of outside parties that have not happened yet (the model's own). -/
  inputs   : List Instr
  /-- Soft errors that have not occurred yet (R352; the model's own). -/
  upsets   : List Upset
  cur      : Option Cur
  /-- For each context the count of free values drawn (R5), and the counter that names are drawn with (the model's own). -/
  fresh    : List (Nat × Nat)
  nextId   : Nat
  /-- Main clock, and the die clock count of R88. -/
  clock    : Nat
  mem      : List Host.Cell
  poison   : List Nat
  threads  : List Thread
  parts    : List Part
  teams    : List Team
  cores    : List Core
  chans    : List Chan
  turns    : List (Nat × ChanKey)
  ctxs     : List Ctx
  grids    : List Grid
  queues   : List Queue
  vfs      : List Vf
  /-- The physical function's fault queue and the records waiting for it (R356, R378). -/
  pfRing   : Ring
  pfHeld   : List FaultRec
  tokens   : List Token
  walks    : List Walk
  walkCache : List WalkCache
  /-- What walks have brought for agents that waited on them, and the lines granted to agents (R94, R318). -/
  brought  : List Brought
  granted  : List Grant
  slices   : List Slice
  memctls  : List MemCtl
  points   : List PointState
  linkQ    : List LinkReq
  refreshing : List Nat
  clusters : List Cluster
  /-- Region entries: region, virtual function (16 when not VALID), mode (R348); and writes that wait for R347: region, and
  the new owner if it is to be VALID. -/
  regions  : List (Nat × Nat × Nat)
  regPend  : List (Nat × Option Nat)
  fencedCores  : BitVec 160
  fencedSlices : BitVec 128
  fencedPcs    : BitVec 256
  fencedPorts  : BitVec 18
  fencedMarrow : BitVec 64
  budgets  : List (Nat × Nat × BitVec 10)
  nib      : NibImage
  /-- Earlier images, whose code stays while a thread is in one of their routines (R299). -/
  nibOld   : List NibImage
  nibPend  : Option NibImage
  /-- The quiet point of a hot load is in progress (R299). -/
  quiet    : Bool
  fuses    : Fuses
  bootRom  : List Byte
  scribeDigest : List Byte
  ccpDigest : List Byte
  scribeOk : Bool
  ccpOk    : Bool
  nibOk    : Bool
  /-- What the boot began with, for the stages that follow a recovery (R384, R389). -/
  flash    : BringUp
  ready    : Bool
  recovery : Bool
  tripped  : Bool
  quillid  : BitVec 16
  routes   : List (Nat × BitVec 18)
  pwrcap   : BitVec 12
  duty     : BitVec 9
  /-- Corrected errors that each unit has counted, by the KIND and UNIT of R354 (R352). -/
  corrected : List ((Nat × Nat) × Nat)
  host     : HostLink
  hostReqs : List HostReq
  hostData : List HostDatum
  /-- Virtual function and 4 KiB page of each host translation held (R377). -/
  atsCache : List (Nat × Nat)
  ports    : List Port18
  ranks    : List RankData
  images   : List Image
  dispLast : List (Nat × Nat)
  /-- What has left the module, newest first (the model's own). -/
  out      : List Out
deriving DecidableEq, Repr

/-- Why the machine stops. -/
inductive Fault where
  /-- A device-internal access (a ring, a table, an image) names a physical address that R348 gives no memory or
  Inkwell and no host range; raised by the operations that read or write such structures. Safe: the spec does not
  say what such an access does. -/
  | absentPhysical (pa : Nat)
deriving DecidableEq, Repr

/-- Why there is no meaning. -/
inductive Refusal where
  /-- An instruction that has no meaning yet, by its mnemonic; raised by `exec` only. Safe. -/
  | notModelled (mnemonic : String)
deriving DecidableEq, Repr

/-- The result type of every meaning. -/
abbrev Res := Host.Outcome State Fault Refusal

/-- An empty ring (R322). -/
def Ring.reset : Ring := ⟨0, 0, 0, 0⟩

/-- A timeline at zero (R231). -/
def Timeline.reset : Timeline := ⟨0, 0, 0, []⟩

/-- A virtual function after reset (R319, R322, R327, R336, R346, R348, R364, R379). -/
def Vf.reset (v : Nat) : Vf :=
  { idx := v, fault := .reset, held := [], tlbseq := 0, tlbnum := 0, invs := [], psarea := 0, pstatCtx := 0,
    pstatSize := 0, pstat := 0, preempt := none, restore := none, regLast := 0, regBusy := none, code := .reset,
    ctxbase := 0, grpbase := 0, vtarget := 0, bpa := List.replicate 8 0, bpc := List.replicate 8 0, dump := .reset,
    dumps := [], dumpNum := 0, trbase := 0, trctl := 0, trWritten := [], jrbase := 0, jrctl := 0, jrWritten := [], headPend := [],
    lostTrace := 0, lostJourney := 0, cnsBusy := none, cnsDiff := false, cnsSite := BitVec.allOnes 32, vcore := 0,
    wayMask := 0xFFFF, quill := 0, clusters := 0, vink := 0, pend := none }

/-- A launch queue after reset (R300). -/
def Queue.reset (q : Nat) : Queue :=
  { idx := q, qbase := 0, vf := 0, ctx := 0, prio := 0, log2n := 0, enable := false, wptr := 0, rptr := 0, qerr := 0,
    tl := .reset }

/-- The Nib before any image is loaded: every slot off (R293). -/
def NibImage.off : NibImage := ⟨0, 0, 0, [], [], [], [], []⟩

/-- Unblown fuses. -/
def FuseSet.blank : FuseSet := ⟨List.replicate 64 0, List.replicate 64 0, 0⟩

/-- The fuses of the model's part. -/
def Fuses.blank : Fuses := ⟨.blank, .blank, .blank, 0, false⟩

/-- A Quill port after training (R383, R389). -/
def Port18.reset (p : Nat) : Port18 := ⟨p, true, [256, 32, 16, 256, 32, 16], [], 0, 0, 0⟩

/-- The module in the clock in which bring-up sets READY with every unit unfenced (R389).  DESIGN CHOICE (log 6): the clock count of R88, which
runs from the end of module reset, is 0 then; the spec gives bring-up no duration. -/
def State.reset : State :=
  { agenda := [], inputs := [], upsets := [], cur := none, fresh := [], nextId := 0, clock := 0, mem := [], poison := [],
    threads := [], parts := [], teams := [], cores := [], chans := [], turns := [], ctxs := [], grids := [],
    queues := (List.range 64).map Queue.reset, vfs := (List.range 16).map Vf.reset, pfRing := .reset, pfHeld := [],
    tokens := [], walks := [], walkCache := [], brought := [], granted := [], slices := [], memctls := [], points := [], linkQ := [],
    refreshing := [], clusters := [], regions := [], regPend := [], fencedCores := 0, fencedSlices := 0, fencedPcs := 0,
    fencedPorts := 0, fencedMarrow := 0, budgets := [], nib := .off, nibOld := [], nibPend := none, quiet := false,
    fuses := .blank, bootRom := [], scribeDigest := [], ccpDigest := [], scribeOk := true, ccpOk := true, nibOk := true, flash := ⟨[], [], [], []⟩, ready := true,
    recovery := false, tripped := false, quillid := 0, routes := [], pwrcap := 3200, duty := 256, corrected := [],
    host := ⟨.pcie, 16, 128⟩, hostReqs := [], hostData := [], atsCache := [], ports := (List.range 19).map Port18.reset,
    ranks := [], images := [], dispLast := [], out := [] }

end Sys2Proof.Machine
end

