-- ==== Sys2Proof/Machine/Memory.lean ====
section
/-! DEFINITION. Device memory as a canonical list of cells (R1, R84, R348, R389), and poison (R353). -/

namespace Sys2Proof.Machine

/-- What an address that is not listed reads as: bring-up zeroes memory and Inkwell (R389 step 2). -/
def unlisted : Byte := 0

/-- The byte at an address. -/
def memGet : List Host.Cell → Nat → Byte
  | [], _ => unlisted
  | (k, v) :: rest, a => if a = k then v else if a < k then unlisted else memGet rest a

/-- The list with one byte changed, in canonical form. -/
def memSet : List Host.Cell → Nat → Byte → List Host.Cell
  | [], a, b => if b = unlisted then [] else [(a, b)]
  | (k, v) :: rest, a, b =>
    if a = k then (if b = unlisted then rest else (a, b) :: rest)
    else if a < k then (if b = unlisted then (k, v) :: rest else (a, b) :: (k, v) :: rest)
    else (k, v) :: memSet rest a b

/-- The canonical form: addresses strictly rising from a bound, and no entry equal to what an unlisted address reads as. -/
def memWfFrom (lo : Nat) : List Host.Cell → Bool
  | [] => true
  | (k, v) :: rest => decide (lo ≤ k) && decide (v ≠ unlisted) && memWfFrom (k + 1) rest

/-- The canonical form of memory. -/
def Memory.wf (m : List Host.Cell) : Bool := memWfFrom 0 m

/-- Bytes written from an address up. -/
def memPut : List Host.Cell → Nat → List Byte → List Host.Cell
  | m, _, [] => m
  | m, a, b :: bs => memPut (memSet m a b) (a + 1) bs

/-- `n` bytes from an address up. -/
def memTake (m : List Host.Cell) (a n : Nat) : List Byte := (List.range n).map fun i => memGet m (a + i)

/-- HBM4 (R348). -/
def hbmEnd : Nat := 0x60_0000_0000
/-- The first byte of Inkwell (R348). -/
def inkBase : Nat := 0x100_0000_0000
/-- One Inkwell bank group (R88, R348). -/
def inkGroup : Nat := 0x400_0000

/-- Whether a physical address is HBM4. -/
def isHbm (pa : Nat) : Bool := pa < hbmEnd
/-- Whether a physical address is Inkwell. -/
def isInk (pa : Nat) : Bool := inkBase ≤ pa && pa < inkBase + 24 * inkGroup
/-- The Inkwell bank group of an address (R88). -/
def inkGroupOf (pa : Nat) : Nat := (pa - inkBase) / inkGroup
/-- Whether `n` bytes from an address exist. -/
def paOk (pa n : Nat) : Bool := (isHbm pa && isHbm (pa + n - 1)) || (isInk pa && isInk (pa + n - 1))

/-- The byte the device holds at a physical address. -/
def State.byte (s : State) (pa : Nat) : Byte := memGet s.mem pa
/-- `n` bytes the device holds. -/
def State.bytes (s : State) (pa n : Nat) : List Byte := memTake s.mem pa n
/-- A number the device holds in `n` bytes (R1). -/
def State.num (s : State) (pa n : Nat) : Nat := natOf (s.bytes pa n)
/-- The state with bytes stored. -/
def State.store (s : State) (pa : Nat) (bs : List Byte) : State := { s with mem := memPut s.mem pa bs }

/-- Whether a range touches a poisoned 32-byte line (R353). -/
def State.poisoned (s : State) (pa n : Nat) : Bool := s.poison.any fun l => decide (pa / 32 ≤ l) && decide (l ≤ (pa + n - 1) / 32)
/-- Poison the lines of a range (R353). -/
def State.addPoison (s : State) (pa n : Nat) : State :=
  let ls := (List.range (n / 32)).map fun i => pa / 32 + i
  { s with poison := s.poison ++ ls.filter fun l => !s.poison.contains l }
/-- A write that covers all 32 bytes of a line in one slice operation clears its mark (R353). -/
def State.clearPoison (s : State) (pa n : Nat) : State :=
  if pa % 32 = 0 ∧ n % 32 = 0 then
    { s with poison := s.poison.filter fun l => !(decide (pa / 32 ≤ l) && decide (l < (pa + n) / 32)) }
  else s

/-- A store of one slice operation, with its effect on poison (R353). -/
def State.storeLine (s : State) (pa : Nat) (bs : List Byte) : State := (s.store pa bs).clearPoison pa bs.length

/-- The bytes of a column access (R86): element `j` of `e` bytes lies 32 bytes below the one before it. -/
def columnAddrs (pa e : Nat) : List Nat :=
  (List.range (32 / e)).flatMap fun j => (List.range e).map fun i => pa + 32 * j + i

/-- A column line read (R86). -/
def State.column (s : State) (pa e : Nat) : List Byte := (columnAddrs pa e).map s.byte

/-- A column line stored, byte by byte (R86). -/
def State.storeColumn (s : State) (pa e : Nat) (bs : List Byte) : State :=
  { s with mem := (List.zip (columnAddrs pa e) bs).foldl (fun m p => memSet m p.1 p.2) s.mem }

/-- Whether a column access is aligned (R86). -/
def columnAligned (a e : Nat) : Bool := a % e == 0 && (a / 32 % 32) % (32 / e) == 0

end Sys2Proof.Machine
end

