-- ==== Sys2Proof/Machine/Access.lean ====
section
/-! DEFINITION. Finding and replacing the parts of the state.  A part that is not listed is in its state after reset. -/

namespace Sys2Proof.Machine

/-- Replace the entry that satisfies `p`, or add one at the end. -/
def upsert {α : Type} (p : α → Bool) (x : α) : List α → List α
  | [] => [x]
  | y :: ys => if p y then x :: ys else y :: upsert p x ys

/-- The first of several checks that fails. -/
def firstSome {α : Type} : List (Option α) → Option α
  | [] => none
  | some x :: _ => some x
  | none :: rest => firstSome rest

/-- A value by its key in an association list. -/
def assoc {β : Type} (k : Nat) (d : β) (xs : List (Nat × β)) : β := ((xs.find? fun p => p.1 == k).map (·.2)).getD d

/-- An association list with one key set. -/
def setAssoc {β : Type} (k : Nat) (v : β) (xs : List (Nat × β)) : List (Nat × β) := upsert (fun p => p.1 == k) (k, v) xs

/-- A copy of a function register that holds no load (R175). -/
def FnCopy.empty : FnCopy := ⟨[], 0, 0, false⟩
/-- A function register that holds no load (R175). -/
def FnReg.empty : FnReg := ⟨.empty, .empty, false⟩

/-- A core after reset. -/
def Core.init (n : Nat) : Core :=
  { idx := n, ctx := none, lastCtx := none, ops := [], l1 := [], tlb1 := [], tlb2 := [],
    fns := List.replicate 16 .empty, loads := [], resv := none, follower := false, releasing := none, acc := [],
    accSeed := (0, 0), accBad := [], array := [], busy := 0, census := [], halting := false, halted := false, drainAt := 0,
    trace := [], journey := 0 }

/-- A partition after reset. -/
def Part.init (c p : Nat) : Part :=
  { core := c, idx := p, pods := [], queue := [], streams := [], filings := [], groups := [], memBusy := 0,
    funBusy := 0, engBusy := 0, claims := [], portWait := [], reserved := [] }

/-- A stream with no pack. -/
def Stream.init (i : Nat) : Stream := ⟨i, none, [], false, 0⟩

/-- A channel after its context starts (R92). -/
def Chan.init (k : ChanKey) : Chan := ⟨k, 0, [], [], []⟩

/-- An LLC slice after reset (R85). -/
def Slice.init (n : Nat) : Slice := ⟨n, [], [], []⟩

/-- A controller after reset (R94). -/
def MemCtl.init (n : Nat) : MemCtl := ⟨n, [], none, []⟩

/-- A cluster after reset (R357). -/
def Cluster.init (n : Nat) : Cluster := ⟨n, [], false, [], [], [], []⟩

/-- A context before any grid is accepted in it: AGE_LIMIT is 256 (R289). -/
def Ctx.init (n : Nat) : Ctx :=
  { num := n, ptbase := 0, trapvec := 0, agelim := 256, seed := 0, psave := 0, fnsave := 0, cnsdir := 0, ktbase := 0,
    ktsize := 0, valid := false, featmask := 0, featPend := none, ctxerr := 0, seq := 0, objs := [], owners := [], colls := [],
    lost := false, saved := false, switchAt := none, cmdRoot := none }

/-- An arbitration point that has granted nothing (R310).  DESIGN CHOICE (log 56): the manual names no class as last served after reset, and
class 0 stands as such here, so class 1 is the first in the round robin of R94. -/
def PointState.init (p : Point) : PointState := ⟨p, List.replicate 8 0, 0, 0⟩

/-- The number of an arbitration point. -/
def pointNum (p : Point) : Nat :=
  match p with
  | .slice n => 4 * n
  | .controller n => 4 * n + 1
  | .link d => 4 * d + 2
  | .quill port dir => 4 * (2 * port + dir) + 3

/-- Core `n`. -/
def State.core (s : State) (n : Nat) : Core := (s.cores.find? fun c => c.idx == n).getD (.init n)
/-- The state with a core replaced. -/
def State.setCore (s : State) (c : Core) : State := { s with cores := upsert (fun d => d.idx == c.idx) c s.cores }
/-- Change core `n`. -/
def State.onCore (s : State) (n : Nat) (f : Core → Core) : State := s.setCore (f (s.core n))

/-- Partition `p` of core `c`. -/
def State.part (s : State) (c p : Nat) : Part := (s.parts.find? fun q => q.core == c && q.idx == p).getD (.init c p)
/-- The state with a partition replaced. -/
def State.setPart (s : State) (q : Part) : State :=
  { s with parts := upsert (fun r => r.core == q.core && r.idx == q.idx) q s.parts }
/-- Change a partition. -/
def State.onPart (s : State) (c p : Nat) (f : Part → Part) : State := s.setPart (f (s.part c p))

/-- A stream of a partition. -/
def Part.stream (q : Part) (i : Nat) : Stream := (q.streams.find? fun t => t.idx == i).getD (.init i)
/-- The partition with a stream replaced. -/
def Part.setStream (q : Part) (t : Stream) : Part := { q with streams := upsert (fun u => u.idx == t.idx) t q.streams }
/-- The partition with a pod replaced. -/
def Part.setPod (q : Part) (p : Pod) : Part := { q with pods := upsert (fun u => u.idx == p.idx) p q.pods }

/-- The thread in a slot of a partition. -/
def State.thread? (s : State) (c p sl : Nat) : Option Thread :=
  s.threads.find? fun t => t.core == c && t.part == p && t.slot == sl
/-- The state with a thread replaced. -/
def State.setThread (s : State) (t : Thread) : State :=
  { s with threads := upsert (fun u => u.core == t.core && u.part == t.part && u.slot == t.slot) t s.threads }
/-- Change a thread, if there is one in the slot. -/
def State.onThread (s : State) (c p sl : Nat) (f : Thread → Thread) : State :=
  match s.thread? c p sl with
  | some t => s.setThread (f t)
  | none => s
/-- A thread as it stands now. -/
def State.again (s : State) (t : Thread) : Thread := (s.thread? t.core t.part t.slot).getD t
/-- The state with a slot freed. -/
def State.dropThread (s : State) (c p sl : Nat) : State :=
  { s with threads := s.threads.filter fun t => !(t.core == c && t.part == p && t.slot == sl) }

/-- A team of a core. -/
def State.team? (s : State) (c n : Nat) : Option Team := s.teams.find? fun t => t.core == c && t.slot == n
/-- The state with a team replaced. -/
def State.setTeam (s : State) (t : Team) : State :=
  { s with teams := upsert (fun u => u.core == t.core && u.slot == t.slot) t s.teams }
/-- Change a team, if it is there. -/
def State.onTeam (s : State) (c n : Nat) (f : Team → Team) : State :=
  match s.team? c n with
  | some t => s.setTeam (f t)
  | none => s
/-- The teams resident on a core. -/
def State.teamsOn (s : State) (c : Nat) : List Team := s.teams.filter fun t => t.core == c
/-- The threads of a team. -/
def State.threadsOf (s : State) (c n : Nat) : List Thread := s.threads.filter fun t => t.core == c && t.team == n

/-- Context `n`. -/
def State.ctx (s : State) (n : Nat) : Ctx := (s.ctxs.find? fun c => c.num == n).getD (.init n)
/-- The state with a context replaced. -/
def State.setCtx (s : State) (c : Ctx) : State := { s with ctxs := upsert (fun d => d.num == c.num) c s.ctxs }
/-- Change a context. -/
def State.onCtx (s : State) (n : Nat) (f : Ctx → Ctx) : State := s.setCtx (f (s.ctx n))

/-- A grid by its name. -/
def State.grid? (s : State) (g : Nat) : Option Grid := s.grids.find? fun x => x.gid == g
/-- The state with a grid replaced. -/
def State.setGrid (s : State) (g : Grid) : State := { s with grids := upsert (fun x => x.gid == g.gid) g s.grids }
/-- Change a grid, if it is there. -/
def State.onGrid (s : State) (g : Nat) (f : Grid → Grid) : State :=
  match s.grid? g with
  | some x => s.setGrid (f x)
  | none => s

/-- Queue `q`. -/
def State.queue (s : State) (q : Nat) : Queue := (s.queues.find? fun x => x.idx == q).getD (.reset q)
/-- The state with a queue replaced. -/
def State.setQueue (s : State) (q : Queue) : State := { s with queues := upsert (fun x => x.idx == q.idx) q s.queues }
/-- Change a queue. -/
def State.onQueue (s : State) (q : Nat) (f : Queue → Queue) : State := s.setQueue (f (s.queue q))

/-- Virtual function `v`. -/
def State.vf (s : State) (v : Nat) : Vf := (s.vfs.find? fun x => x.idx == v).getD (.reset v)
/-- The state with a virtual function replaced. -/
def State.setVf (s : State) (v : Vf) : State := { s with vfs := upsert (fun x => x.idx == v.idx) v s.vfs }
/-- Change a virtual function. -/
def State.onVf (s : State) (v : Nat) (f : Vf → Vf) : State := s.setVf (f (s.vf v))
/-- The virtual function that owns a context (R378). -/
def vfOf (ctx : Nat) : Nat := ctx / 256

/-- A copy channel. -/
def State.chan (s : State) (k : ChanKey) : Chan := (s.chans.find? fun x => x.key == k).getD (.init k)
/-- The state with a channel replaced. -/
def State.setChan (s : State) (c : Chan) : State := { s with chans := upsert (fun x => x.key == c.key) c s.chans }
/-- Change a channel. -/
def State.onChan (s : State) (k : ChanKey) (f : Chan → Chan) : State := s.setChan (f (s.chan k))

/-- An LLC slice. -/
def State.slice (s : State) (n : Nat) : Slice := (s.slices.find? fun x => x.idx == n).getD (.init n)
/-- The state with a slice replaced. -/
def State.setSlice (s : State) (x : Slice) : State := { s with slices := upsert (fun y => y.idx == x.idx) x s.slices }

/-- A memory controller. -/
def State.memctl (s : State) (n : Nat) : MemCtl := (s.memctls.find? fun x => x.idx == n).getD (.init n)
/-- The state with a controller replaced. -/
def State.setMemctl (s : State) (x : MemCtl) : State :=
  { s with memctls := upsert (fun y => y.idx == x.idx) x s.memctls }

/-- A Marrow cluster. -/
def State.cluster (s : State) (n : Nat) : Cluster := (s.clusters.find? fun x => x.idx == n).getD (.init n)
/-- The state with a cluster replaced. -/
def State.setCluster (s : State) (x : Cluster) : State :=
  { s with clusters := upsert (fun y => y.idx == x.idx) x s.clusters }

/-- An arbitration point; one that has granted nothing yet stands in its window of 4,096 clocks since reset (R310). -/
def State.point (s : State) (p : Point) : PointState :=
  (s.points.find? fun x => x.pt == p).getD
    { PointState.init p with next := s.clock + 4096 - (s.clock + Config.windowPhase (pointNum p)) % 4096 }
/-- The state with a point replaced. -/
def State.setPoint (s : State) (x : PointState) : State := { s with points := upsert (fun y => y.pt == x.pt) x s.points }

/-- A budget register: MODE and SHARE of class `k` at point type `p`; reset is work-conserving with SHARE 32 (R311). -/
def State.budget (s : State) (p k : Nat) : BitVec 10 :=
  ((s.budgets.find? fun x => x.1 == p && x.2.1 == k).map (·.2.2)).getD 0x220
/-- The state with a budget register written. -/
def State.setBudget (s : State) (p k : Nat) (v : BitVec 10) : State :=
  { s with budgets := upsert (fun x => x.1 == p && x.2.1 == k) (p, k, v) s.budgets }

/-- A flit waits at its Quill port (R383). -/
def State.queueFlit (s : State) (port : Nat) (f : Flit) : State :=
  { s with ports := s.ports.map fun x => if x.idx = port then { x with queue := x.queue ++ [f] } else x }

/-- A fault token. -/
def State.token? (s : State) (n : Nat) : Option Token := s.tokens.find? fun t => t.num == n
/-- The state with a token replaced. -/
def State.setToken (s : State) (t : Token) : State := { s with tokens := upsert (fun u => u.num == t.num) t s.tokens }

/-- The die of a core (R7). -/
def dieOf (core : Nat) : Nat := core / 80
/-- The die of a slice (R7). -/
def sliceDie (n : Nat) : Nat := n / 64

/-- The count of free values drawn for a context (R5). -/
def State.freshOf (s : State) (ctx : Nat) : Nat := assoc ctx 0 s.fresh
/-- A number of free values drawn for a context. -/
def State.drawn (s : State) (ctx n : Nat) : State := { s with fresh := setAssoc ctx (s.freshOf ctx + n) s.fresh }
/-- A free word of a context (R5). -/
def State.freshWord (s : State) (ctx : Nat) : Word × State := (Config.freeWord ctx (s.freshOf ctx), s.drawn ctx 1)
/-- The next name of an access, grid or token. -/
def State.newId (s : State) : Nat × State := (s.nextId, { s with nextId := s.nextId + 1 })

/-- A live thread: one that has not exited (R38). -/
def Thread.live (t : Thread) : Bool := t.life != .draining
/-- Whether a thread is parked. -/
def Thread.isParked (t : Thread) : Bool :=
  match t.life with
  | .parked _ => true
  | _ => false

/-- Sub-group size of a team. -/
def Team.sg (t : Team) : Nat := 2 ^ t.sgLog
/-- The sub-group a thread belongs to (R14). -/
def Team.sgOf (t : Team) (th : Thread) : Nat := th.tid / t.sg

/-- The local cycle counter of a core (R137). -/
def State.cycle (s : State) (core : Nat) : DWord := BitVec.ofNat 64 ((Config.cycleOffset core).toNat + s.clock)

end Sys2Proof.Machine
end

