-- ==== Sys2Proof/Machine/Llc.lean ====
section
/-! DEFINITION. Homes (R84, R348, R355), the arbitration points and their grants (R94, R310-R312), the LLC slices (R82, R85, R87), and the accesses of the agents other than threads at them. -/

namespace Sys2Proof.Machine

/-- The mode of the region of an address: 0 interleaved, 2 or 3 die-local (R348). -/
def State.regionMode (s : State) (pa : Nat) : Nat :=
  ((s.regions.find? fun r => r.1 == pa / 2 ^ 30).map (·.2.2)).getD 0

/-- The virtual function of the region of an HBM4 address, if it is VALID (R348). -/
def State.regionVf (s : State) (pa : Nat) : Option Nat := (s.regions.find? fun r => r.1 == pa / 2 ^ 30 && decide (r.2.1 < 16)).map (·.2.1)

/-- The HBM4 stack of an address (R84). -/
def State.stackOf (s : State) (pa : Nat) : Nat :=
  let u := pa / 4096
  let m := s.regionMode pa
  if m = 2 ∨ m = 3 then 4 * (m - 2) + ((u % 4) ^^^ (bitsNat u 2 2))
  else (u % 8) ^^^ (bitsNat u 3 3) ^^^ (bitsNat u 6 3)

/-- The slice R84 gives before any fence. -/
def State.sliceOf (s : State) (pa : Nat) : Nat :=
  let st := s.stackOf pa
  64 * (st / 4) + 16 * (st % 4) + ((bitsNat pa 10 4) ^^^ (bitsNat pa 14 4))

/-- The home slice: a fenced slice's homes move to its partner (R355). -/
def State.home (s : State) (pa : Nat) : Nat :=
  let n := s.sliceOf pa
  if bitAt s.fencedSlices n then n ^^^ 1 else n

/-- An address homed on two fenced slices: reads are poison and writes are discarded (R355). -/
def State.homeless (s : State) (pa : Nat) : Bool :=
  let n := s.sliceOf pa
  bitAt s.fencedSlices n && bitAt s.fencedSlices (n ^^^ 1)

/-- The pseudo-channel of an address, numbered 32 × stack + channel (R84, R354). -/
def State.pcOf (s : State) (pa : Nat) : Nat :=
  let u := pa / 4096
  32 * s.stackOf pa + ((bitsNat u 3 5) ^^^ (bitsNat u 8 5))

/-- Whether a read meets poison: a marked line, a fenced pseudo-channel (R355), or an address with no home. -/
def State.readsPoison (s : State) (pa n : Nat) : Bool :=
  s.poisoned pa n || (isHbm pa && (bitAt s.fencedPcs (s.pcOf pa) || s.homeless pa))

/-- The point type of a budget register (R311). -/
def pointType (p : Point) : Nat :=
  match p with
  | .slice _ => 0
  | .controller _ => 1
  | .link _ => 2
  | .quill _ _ => 3

/-- Grants that a class has in a window (R311).  A slice and a controller grant one request a clock (R94); at 2.0 GHz (R8) the
die-to-die link's 8 TB/s are 62.5 beats of 64 bytes a clock, and a Quill port's 224 GB/s are 1.75 beats. -/
def State.grants (s : State) (p : Point) (k : Nat) : Nat :=
  let share := (s.budget (pointType p) k).toNat % 512
  match p with
  | .slice _ | .controller _ => share * 16
  | .link _ => share * 1000
  | .quill _ _ => share * 28

/-- The class that a point serves next among those with a request it can serve (R94, R312): round-robin among those with
`n` grants left, and then among the work-conserving ones. -/
def State.classFor (s : State) (p : Point) (n : Nat) (waiting : List Nat) : Option Nat :=
  let ps := s.point p
  let order := (List.range 8).map fun i => (ps.last + 1 + i) % 8
  match order.find? fun k => waiting.contains k && decide (ps.used.getD k 0 + n ≤ s.grants p k) with
  | some k => some k
  | none => order.find? fun k => waiting.contains k && bitAt (s.budget (pointType p) k) 9

/-- The class of the next grant of a point. -/
def State.chooseClass (s : State) (p : Point) (waiting : List Nat) : Option Nat := s.classFor p 1 waiting

/-- `n` grants counted (R310). -/
def State.countGrants (s : State) (p : Point) (k n : Nat) : State :=
  let ps := s.point p
  s.setPoint { ps with used := ps.used.set k (ps.used.getD k 0 + n), last := k }

/-- A grant counted (R310). -/
def State.countGrant (s : State) (p : Point) (k : Nat) : State := s.countGrants p k 1

/-- The access of a resident sector (R85, R87): it becomes the most recently used, and its count of cross-axis accesses moves; the
16th in a row starts the rewrite. -/
def Slice.touch (x : Slice) (sec : Sector) (col writes : Bool) (clock : Nat) : Slice :=
  let cross := if sec.column = col then 0 else min 15 (sec.cross + 1)
  let sixteenth := sec.column != col && sec.cross == 15
  { x with sectors := { sec with cross := cross, dirty := sec.dirty || writes } :: x.sectors.filter fun y => y.addr != sec.addr
           rewriting := if sixteenth then x.rewriting ++ [(sec.addr, clock + 32)] else x.rewriting }

/-- Whether a sector is being rewritten, so that its accesses wait (R87). -/
def Slice.isRewriting (x : Slice) (sec : Nat) : Bool := x.rewriting.any fun r => r.1 == sec

/-- The set of a sector (R85): PA[16:10] XOR PA[23:17]. -/
def sectorSet (sec : Nat) : Nat := sec % 128 ^^^ sec / 128 % 128

/-- The sectors of a set in the ways that a mask permits, the most recently used first (R85). -/
def Slice.setOf (x : Slice) (sec : Nat) (mask : BitVec 16) : List Sector :=
  x.sectors.filter fun y => sectorSet y.addr == sectorSet sec && bitAt mask y.way

/-- A way of the mask that holds no sector of the set (R85). -/
def Slice.freeWay (x : Slice) (sec : Nat) (mask : BitVec 16) : Option Nat :=
  (List.range 16).find? fun w => bitAt mask w && !((x.setOf sec mask).any fun y => y.way == w)

/-- The sector that bringing another in evicts: the least recently used, when no way is free (R85). -/
def Slice.victim (x : Slice) (sec : Nat) (mask : BitVec 16) : Option Sector :=
  if (x.freeWay sec mask).isSome then none else (x.setOf sec mask).getLast?

/-- A sector brought in (R82, R85): into a free way that the mask permits, or in place of the victim; `last` puts it in as the least
recently used. -/
def Slice.fill (x : Slice) (sec : Nat) (mask : BitVec 16) (dirty col last : Bool) : Slice :=
  let put (w : Nat) (rest : List Sector) : Slice :=
    let y : Sector := ⟨sec, w, dirty, col, 0⟩
    { x with sectors := if last then rest ++ [y] else y :: rest }
  match x.freeWay sec mask, x.victim sec mask with
  | some w, _ => put w x.sectors
  | none, some v => put v.way (x.sectors.filter fun y => y.addr != v.addr)
  | none, none => x

/-- A dirty sector that leaves a slice is written back (R85): its write waits at its controller, in the class that evicted it. -/
def State.writeBack (s : State) (cls : Nat) (v : Option Sector) : State :=
  match v with
  | some y =>
    if y.dirty then
      let m := s.memctl (s.pcOf (1024 * y.addr))
      s.setMemctl { m with queue := m.queue ++ [⟨cls, 0, 0, 33 * 32 * y.addr, 0, true, none⟩] }
    else s
  | none => s

/-- A sector is brought into a slice (R85). -/
def State.bringIn (s : State) (n sec : Nat) (mask : BitVec 16) (cls : Nat) (dirty col last : Bool) : State :=
  let x := s.slice n
  (s.setSlice (x.fill sec mask dirty col last)).writeBack cls (x.victim sec mask)

/-- The die of an address: that of its home slice, or of its Inkwell (R7, R84, R88). -/
def State.dieAt (s : State) (pa : Nat) : Nat := if isInk pa then inkGroupOf pa / 12 else sliceDie (s.home pa)

/-- A request enters the FIFO of a slice (R94). -/
def State.toSlice (s : State) (n : Nat) (r : Req) : State :=
  let x := s.slice n
  s.setSlice { x with queue := x.queue ++ [r] }

/-- Who makes accesses other than an operation in flight: the name under which they go, its context, its die, the class of its traffic
(R310), and who waits for it on a walk (R318). -/
structure Agent where
  owner  : Nat
  ctx    : Nat
  die    : Nat
  cls    : Nat
  waiter : Waiter
deriving DecidableEq, Repr

/-- An agent of a core: an array word, a descriptor's read, a launch packet or a patch save (R95, R310). -/
def coreAgent (owner ctx core : Nat) : Agent := ⟨owner, ctx, dieOf core, 0, .unit (some core) owner⟩

/-- An agent of a die that has no core. -/
def dieAgent (owner ctx die cls : Nat) : Agent := ⟨owner, ctx, die, cls, .unit none owner⟩

/-- The agent of a walk's reads (R95).  Walks count in class 0, in which R310 names no traffic of walkers (log 15). -/
def walkAgent (die ctx vpn : Nat) : Agent := dieAgent (2 ^ 80 + (die * 4096 + ctx) * 2 ^ 44 + vpn) ctx die 0

/-- The agent of a core's fetches of code (R391; log 15). -/
def fetchAgent (core ctx : Nat) : Agent := dieAgent (2 ^ 66 + core) ctx (dieOf core) 0

/-- The agent of a core's trace and journey records, and the CCP's of a die (R310; log 15). -/
def recordAgent (core vf : Nat) : Agent := dieAgent (2 ^ 67 + core) (256 * vf) (dieOf core) 3

/-- The agent of what the CCP of die 0 reads and writes for a virtual function (log 15). -/
def ccpAgent (vf : Nat) : Agent := dieAgent (2 ^ 68 + vf) (256 * vf) 0 0

/-- Whether what an agent does with a line writes it. -/
def How.writes (h : How) : Bool :=
  match h with
  | .row | .column => false
  | .write | .rmw | .posted => true

/-- The class of an access at a physical address (R310): a copy's writes to INK pages have one of their own. -/
def Agent.clsAt (g : Agent) (how : How) (pa : Nat) : Nat := if g.cls == 1 && how.writes && isInk pa then 4 else g.cls

/-- The line request of an agent. -/
def Agent.req (g : Agent) (how : How) (pa : Nat) : Req :=
  ⟨g.clsAt how pa, 80 * g.die, 0, 33 * (pa / 32) + if how = .column then 1 else 0, 0, false, some ⟨g.owner, how, vfOf g.ctx⟩⟩

/-- Whether an agent's line passes no shared point: one with no home (R355), or one of an Inkwell of its own die (R88). -/
def State.atHand (s : State) (g : Agent) (pa : Nat) : Bool := if isInk pa then s.dieAt pa == g.die else !isHbm pa || s.homeless pa

/-- Whether the request of an agent for a line has been served. -/
def State.served (s : State) (g : Agent) (how : How) (pa : Nat) : Bool :=
  s.granted.any fun x => x.owner == g.owner && x.line == pa / 32 && x.how == how

/-- Whether an agent may make its access to a line now (R84, R87, R88, R94, R312): its request has been served, and a read of Inkwell meets no
refresh window. -/
def State.mayServe (s : State) (g : Agent) (how : How) (pa : Nat) : Bool :=
  (s.atHand g pa || s.served g how pa) && !(isInk pa && !how.writes && s.refreshing.contains (inkGroupOf pa))

/-- Whether a request of an agent is on its way. -/
def State.asked (s : State) (r : Req) : Bool :=
  let same (x : Req) : Bool := x.by_ == r.by_ && x.line == r.line
  (s.slices.any fun x => x.queue.any same) || (s.memctls.any fun m => m.queue.any same || m.filled.any same)
    || s.linkQ.any fun l => match l.to_ with
      | .slice _ x => same x
      | _ => false

/-- A request sets out: to its home on the die, or over the die-to-die link (R84, R94). -/
def State.sendReq (s : State) (die : Nat) (r : Req) (pa : Nat) : State :=
  if s.dieAt pa = die then s.toSlice (s.home pa) r else { s with linkQ := s.linkQ ++ [⟨die, r.cls, .slice (s.home pa) r, 0⟩] }

/-- An agent asks for a line (R84, R94), unless it has it or has asked for it. -/
def State.ask (s : State) (g : Agent) (how : How) (pa : Nat) : State :=
  if s.atHand g pa || s.served g how pa || s.asked (g.req how pa) then s else s.sendReq g.die (g.req how pa) pa

/-- An agent asks for lines. -/
def State.askAll (s : State) (g : Agent) (how : How) (pas : List Nat) : State := pas.foldl (fun s pa => s.ask g how pa) s

/-- The lines of an agent have been used. -/
def State.dropGrants (s : State) (owner : Nat) : State := { s with granted := s.granted.filter fun x => x.owner != owner }

/-- The addresses at which a range of device memory meets its lines (R84). -/
def linesPa (pa n : Nat) : List Nat := (List.range ((pa + n + 31) / 32 - pa / 32)).map fun i => max pa (32 * (pa / 32 + i))

/-- Whether an agent may make its access to a range of device memory now. -/
def State.mayServePa (s : State) (g : Agent) (how : How) (pa n : Nat) : Bool := (linesPa pa n).all fun a => s.mayServe g how a

/-- An agent asks for a range of device memory. -/
def State.askPa (s : State) (g : Agent) (how : How) (pa n : Nat) : State := s.askAll g how (linesPa pa n)

/-- Bytes put into device memory, line by line: discarded where a line has no home (R355). -/
def State.putPa (s : State) (pa : Nat) (bs : List Byte) : State :=
  (linesPa pa bs.length).foldl (fun s a =>
    if isHbm a && s.homeless a then s else s.storeLine a ((bs.drop (a - pa)).take (32 - a % 32))) s

/-- Bytes that a unit of the module writes without waiting (R84; log 15): they stand in memory from this step on, and their requests take their
places at their homes, where the sectors become dirty (R355). -/
def State.post (s : State) (g : Agent) (pa : Nat) (bs : List Byte) : State :=
  (linesPa pa bs.length).foldl (fun s a => if s.atHand g a then s else s.sendReq g.die (g.req .posted a) a) (s.putPa pa bs)

end Sys2Proof.Machine
end

