-- ==== Sys2Proof/Machine/Translate.lean ====
section
/-! DEFINITION. Page tables and walks (R313-R318, R349), and the TLBs of a core (R95). -/

namespace Sys2Proof.Machine

/-- The ACCESS code of a fault record (R322). -/
def Acc.code (a : Acc) : Nat :=
  match a with
  | .read | .mmacB => 0
  | .write | .engWrite _ => 1
  | .atomic _ | .redDest => 2
  | .fetch => 3

/-- Whether the access writes. -/
def Acc.writes (a : Acc) : Bool :=
  match a with
  | .write | .atomic _ | .engWrite _ | .redDest => true
  | _ => false

/-- LOC of a leaf (R314). -/
abbrev leafLoc (e : DWord) : Nat := (e.extractLsb' 8 2).toNat
/-- INK of a leaf (R314). -/
abbrev leafInk (e : DWord) : Bool := bitAt e 7

/-- Whether an address of device memory belongs to a virtual function (R349). -/
def State.owns (s : State) (vf pa : Nat) : Bool :=
  if isInk pa then bitAt (s.vf vf).vink (inkGroupOf pa) else isHbm pa && s.regionVf pa == some vf

/-- The permission checks of an access through a leaf, in the order of R315 and R349: the first failing code. -/
def State.permission (s : State) (ctx : Nat) (a : Acc) (e : TlbEntry) (pa : Nat) : Option (Nat × Nat) :=
  let loc := leafLoc e.leaf
  let ink := leafInk e.leaf
  let host := loc == 2 || loc == 3
  let inkBad := match a with
    | .write | .atomic _ | .redDest => ink
    | .engWrite ok => ink && !ok
    | _ => false
  if a.writes && !bitAt e.leaf 1 then some (0x11, 4)
  else if a == .fetch && (!bitAt e.leaf 2 || loc != 0) then some (0x11, 5)
  else if inkBad then some (0x11, 6)
  else if host && a == .atomic false then some (0x11, 7)
  else if a == .mmacB && !ink then some (0x11, 8)
  else if loc == 0 && !s.owns (vfOf ctx) pa then some (0x11, 9)
  else if loc == 0 && ink != isInk pa then some (0x11, 10)
  else none

/-- What a walk has used of the walk cache and read (R95): non-leaf entries, the deepest first, and the addresses of the entries read. -/
structure WalkLog where
  cache : List WalkCache
  reads : List Nat
deriving DecidableEq, Repr

/-- What a walk of the tables finds: a leaf with the address of its entry, a fault's class and code, or a table at an address that does not
exist. -/
inductive WalkRes where
  | leaf (e : TlbEntry) (pte : Nat) (log : WalkLog)
  | bad (cls code : Nat) (log : WalkLog)
  | absent (pa : Nat)
deriving DecidableEq, Repr

/-- The lowest VA bit that selects an entry of a level (R313). -/
def levelShift (level : Nat) : Nat := 12 + 9 * level

/-- The walk from a table at a level down (R313-R315, R317). -/
def State.walkFrom (s : State) (die ctx : Nat) (va : Nat) : Nat → Nat → WalkLog → WalkRes
  | level, table, acc =>
    match level with
    | 0 => walkEntry 0 table acc fun _ l => .bad 0x10 3 l
    | n + 1 => walkEntry (n + 1) table acc fun t l => State.walkFrom s die ctx va n t l
where
  /-- One level: read the entry, which may be poisoned (R353), and either end there or go on with the next table. -/
  walkEntry (level table : Nat) (acc : WalkLog) (next : Nat → WalkLog → WalkRes) : WalkRes :=
    let pte := table + 8 * bitsNat va (levelShift level) 9
    if !paOk pte 8 then .absent pte
    else
      let acc := { acc with reads := acc.reads ++ [pte] }
      let e := BitVec.ofNat 64 (s.num pte 8)
      let isLeaf := level == 0 || (level ≤ 2 && bitAt e 3)
      let pfn := (e.extractLsb' 12 40).toNat * 4096
      if s.readsPoison pte 8 then .bad 0x12 0 acc
      else if !bitAt e 0 then .bad 0x10 2 acc
      else if bitAt e 63 || bitAt e 10 || bitAt e 11 then .bad 0x10 3 acc
      else if !isLeaf then
        if bitAt e 3 || (e.extractLsb' 4 6) != 0 || (e.extractLsb' 1 2) != 0 then .bad 0x10 3 acc
        else next pfn { acc with cache := ⟨die, ctx, level, va >>> levelShift level, pfn⟩ :: acc.cache }
      else
        let log := if level = 2 then 30 else if level = 1 then 21 else if bitAt e 4 then 16 else 12
        if pfn % 2 ^ log ≠ 0 then .bad 0x10 3 acc
        else if leafInk e && leafLoc e != 0 then .bad 0x10 3 acc
        else if leafLoc e == 1 then .bad 0x10 3 acc
        else .leaf ⟨ctx, va / 2 ^ log * 2 ^ log, log, pfn, e, bitAt e 6⟩ pte acc

/-- A walk from the root (R313). -/
def State.walkRoot (s : State) (die ctx va : Nat) : WalkRes :=
  s.walkFrom die ctx va 4 ((s.ctx ctx).cmdRoot.getD (s.ctx ctx).ptbase).toNat ⟨[], []⟩

/-- The deepest non-leaf entry for an address that a die's walk cache holds (R95). -/
def State.walkHeld (s : State) (die ctx va : Nat) : Option WalkCache :=
  firstSome ((List.range 4).map fun l => s.walkCache.find? fun w =>
    w.die == die && w.ctx == ctx && w.level == l + 1 && w.tag == va >>> levelShift (l + 1))

/-- A walk that starts below the deepest entry that the die's walk cache holds (R95). -/
def State.walkCached (s : State) (die ctx va : Nat) : WalkRes :=
  match s.walkHeld die ctx va with
  | some w => s.walkFrom die ctx va (w.level - 1) w.table ⟨[w], []⟩
  | none => s.walkRoot die ctx va

/-- Non-leaf entries that a walk has used or read become the most recently used of its die's walk cache of 256 entries (R95). -/
def State.cacheWalk (s : State) (die : Nat) (es : List WalkCache) : State :=
  let (mine, other) := s.walkCache.partition fun w => w.die == die
  { s with walkCache := (es ++ mine.filter fun w => !es.contains w).take 256 ++ other }

/-- Whether every entry that a walk reads has been read at its home (R95, R312). -/
def State.mayWalk (s : State) (die ctx vpn : Nat) (l : WalkLog) : Bool := l.reads.all fun pa => s.mayServe (walkAgent die ctx vpn) .row pa

/-- A walk asks for the next entry that it reads (R95 step 3): each is known when the one above it has been read. -/
def State.askWalk (s : State) (die ctx vpn : Nat) (l : WalkLog) : State :=
  let g := walkAgent die ctx vpn
  match l.reads.find? fun pa => !s.mayServe g .row pa with
  | some pa => s.ask g .row pa
  | none => s

/-- The physical address of a virtual one through an entry. -/
def TlbEntry.translate (e : TlbEntry) (va : Nat) : Nat := e.pa + va % 2 ^ e.log

/-- Whether an entry maps a virtual address of a context (R318). -/
def TlbEntry.maps (e : TlbEntry) (ctx va : Nat) : Bool := e.ctx == ctx && e.va == va / 2 ^ e.log * 2 ^ e.log

/-- The 56-bit address of a canonical pointer. -/
def va56 (a : DWord) : Nat := (a.extractLsb' 0 56).toNat

/-- What translating an access gives. -/
inductive Xl where
  | ok (pa : Nat) (loc : Nat) (ink : Bool)
  | bad (cls code : Nat)
  | miss
deriving DecidableEq, Repr

/-- The entry a core's TLBs hold for an address (R95). -/
def Core.tlbFind (c : Core) (ctx va : Nat) : Option TlbEntry :=
  match c.tlb1.find? fun e => e.maps ctx va with
  | some e => some e
  | none => c.tlb2.find? fun e => e.maps ctx va

/-- The entry used last, first: L1 TLB of 64, filled from the L2 TLB (R95).  DESIGN CHOICE (log 56): a hit in the L1 TLB also makes the page's
entry in the L2 TLB the most recently used; the spec does not say whether it does. -/
def Core.tlbTouch (c : Core) (e : TlbEntry) : Core :=
  let same (x : TlbEntry) : Bool := x.ctx == e.ctx && x.va == e.va && x.log == e.log
  { c with tlb1 := (e :: c.tlb1.filter fun x => !same x).take 64
           tlb2 := if c.tlb2.any same then e :: c.tlb2.filter fun x => !same x else c.tlb2 }

/-- The entry used last moves to the front of the TLBs (R95). -/
def State.touchTlb (s : State) (core ctx : Nat) (va : DWord) : State :=
  match (s.core core).tlbFind ctx (va56 va) with
  | some e => s.onCore core fun c => c.tlbTouch e
  | none => s

/-- The set of an L2 TLB entry (R95). -/
def TlbEntry.set (e : TlbEntry) : Nat := bitsNat e.va e.log 8

/-- An entry put into the L2 TLB: 8 ways a set, least recently used replaced (R95). -/
def Core.tlbFill (c : Core) (e : TlbEntry) : Core :=
  let same (x : TlbEntry) : Bool := x.ctx == e.ctx && x.va == e.va && x.log == e.log
  let rest := c.tlb2.filter fun x => !same x
  let inSet := rest.filter fun x => x.set == e.set
  let rest := if 8 ≤ inSet.length then
      match inSet.getLast? with
      | some v => rest.filter fun x => !(x == v)
      | none => rest
    else rest
  { c with tlb2 := e :: rest
           tlb1 := (e :: c.tlb1.filter fun x => !same x).take 64 }

/-- Translate an access of a core through its TLBs, given the faults that walks have delivered to the requester
(R79, R95, R315, R316): a write through an entry whose recorded D is clear walks again. -/
def State.xlateCore (s : State) (core ctx : Nat) (faults : List (DWord × Nat × Nat × Nat)) (a : Acc) (va : DWord) : Xl :=
  if !canonical va then .bad 0x10 1
  else
    match faults.find? fun f => f.1 == va >>> 12 && f.2.1 == a.code with
    | some f => .bad f.2.2.1 f.2.2.2
    | none =>
      match (s.core core).tlbFind ctx (va56 va) with
      | none => .miss
      | some e =>
        let pa := e.translate (va56 va)
        match s.permission ctx a e pa with
        | some (cls, code) => .bad cls code
        | none => if a.writes && !e.dirty then .miss else .ok pa (leafLoc e.leaf) (leafInk e.leaf)

/-- Set A, and D for a write, in a leaf entry, by an atomic OR at its home (R316). -/
def State.setAD (s : State) (pte : Nat) (w : Bool) : State :=
  let e := s.num pte 8
  let e := e ||| 0x20 ||| (if w then 0x40 else 0)
  if isHbm pte && s.homeless pte then s else s.store pte (bytesOf 8 e)

/-- The key of a walk: VA[55:12] (R318). -/
def vpnOf (va : DWord) : Nat := va56 va / 4096

/-- The order of a waiter among those that ask in one clock (R318): by core number, and channels after cores; who has no core comes last, for
whom the rule gives no place (log 56). -/
def Waiter.rank (w : Waiter) : Nat :=
  match w with
  | .word c _ _ | .header c _ _ | .op c _ | .unit (some c) _ => c
  | .chan _ _ => 160
  | .unit none _ => 161

/-- The order of a walk by its first waiter. -/
def Walk.rank (w : Walk) : Nat := (w.waiters.head?.map fun x => x.1.rank).getD 0

/-- A walk put behind the older ones, and among those of its clock by its waiter's order (R318). -/
def walkInsert (w : Walk) : List Walk → List Walk
  | [] => [w]
  | x :: rest => if x.since = w.since ∧ w.rank < x.rank then w :: x :: rest else x :: walkInsert w rest

/-- A request for a walk joins the walk of its key on its die, or starts one (R318). -/
def State.addWalk (s : State) (die ctx : Nat) (va : DWord) (w : Waiter) (a : Acc) : State :=
  let key (x : Walk) : Bool := x.die == die && x.ctx == ctx && x.vpn == vpnOf va
  match s.walks.find? key with
  | some x =>
    if x.waiters.contains (w, a) then s
    else { s with walks := upsert key { x with waiters := x.waiters ++ [(w, a)] } s.walks }
  | none => { s with walks := walkInsert ⟨die, ctx, vpnOf va, [(w, a)], false, s.clock, none⟩ s.walks }

/-- The walks in progress on a die: the first 128 (R95). -/
def State.running (s : State) (die : Nat) : List Walk := (s.walks.filter fun w => w.die == die).take 128

/-- A page that a walk has brought for an agent takes the place of an older one, and a fault stands until the agent has met it. -/
def State.bring (s : State) (b : Brought) : State :=
  let same (x : Brought) : Bool := x.owner == b.owner && x.ctx == b.ctx && x.vpn == b.vpn && x.access == b.access
  { s with brought := b :: s.brought.filter fun x => !same x }

/-- The fault that a walk has brought for an access of an agent. -/
def State.broughtFault (s : State) (g : Agent) (a : Acc) (va : DWord) : Option (Nat × Nat) :=
  (s.brought.find? fun b => b.owner == g.owner && b.ctx == g.ctx && b.vpn == vpnOf va && b.access == a.code).bind fun b =>
    match b.found with
    | .fault cls code => some (cls, code)
    | .page _ => none

/-- A translation used by a channel becomes the last used of the two that it holds (R318). -/
def State.holdPage (s : State) (k : ChanKey) (e : TlbEntry) : State :=
  s.onChan k fun ch => { ch with pages := (e :: ch.pages.filter fun x => x.ctx != e.ctx || x.va != e.va || x.log != e.log).take 2 }

/-- The page that an agent holds for an access: the last that a walk has brought, or one in the TLBs of its core
or in its channel (R95, R318). -/
def State.heldPage (s : State) (g : Agent) (va : DWord) : Option TlbEntry :=
  let brought := firstSome (s.brought.map fun b =>
    match b.found with
    | .page e => if b.owner = g.owner ∧ e.maps g.ctx (va56 va) then some e else none
    | .fault _ _ => none)
  brought.or (match g.waiter with
    | .unit (some c) _ => (s.core c).tlbFind g.ctx (va56 va)
    | .chan k _ => (s.chan k).pages.find? fun e => e.maps g.ctx (va56 va)
    | _ => none)

/-- A page used by an agent becomes the last used of its core's TLBs, or of the two that its channel holds (R95, R318). -/
def State.touchPage (s : State) (g : Agent) (e : TlbEntry) : State :=
  match g.waiter with
  | .unit (some c) _ => if ((s.core c).tlbFind g.ctx e.va).isSome then s.onCore c fun k => k.tlbTouch e else s
  | .chan k _ => s.holdPage k e
  | _ => s

/-- Translate an access of an agent through the pages that it holds; one that is not held, or a write through one whose D is clear, waits for a
walk (R95, R315, R316, R318). -/
def State.xlateUnit (s : State) (g : Agent) (a : Acc) (va : DWord) : Xl × State :=
  if !canonical va then (.bad 0x10 1, s)
  else
    match s.broughtFault g a va, s.heldPage g va with
    | some (cls, code), _ => (.bad cls code, s)
    | none, none => (.miss, s.addWalk g.die g.ctx va g.waiter a)
    | none, some e =>
      let pa := e.translate (va56 va)
      match s.permission g.ctx a e pa with
      | some (cls, code) => (.bad cls code, s)
      | none =>
        if a.writes && !e.dirty then (.miss, s.addWalk g.die g.ctx va g.waiter a)
        else (.ok pa (leafLoc e.leaf) (leafInk e.leaf), s.touchPage g e)

/-- The physical pieces of `n` bytes at a virtual address, page by page; none when a page is not translated. -/
def State.pieces (s : State) (core ctx : Nat) (faults : List (DWord × Nat × Nat × Nat)) (a : Acc) (va : DWord) (n : Nat) : Option (List (Nat × Nat) × Bool) :=
  let first := min n (4096 - va.toNat % 4096)
  match s.xlateCore core ctx faults a va with
  | .ok pa loc _ =>
    if first = n then some ([(pa, n)], loc != 0)
    else
      match s.xlateCore core ctx faults a (va + BitVec.ofNat 64 first) with
      | .ok pb _ _ => some ([(pa, first), (pb, n - first)], loc != 0)
      | _ => none
  | _ => none

/-- The bytes of physical pieces. -/
def State.gather (s : State) (ps : List (Nat × Nat)) : List Byte := ps.flatMap fun p => s.bytes p.1 p.2
/-- Whether any piece meets poison. -/
def State.poisonedPieces (s : State) (ps : List (Nat × Nat)) : Bool := ps.any fun p => s.readsPoison p.1 p.2

/-- Virtual function, address and size of what goes out to a host range. -/
def Out.range (o : Out) : Nat × Nat × Nat :=
  match o with
  | .hostRead _ vf a n => (vf, a, n)
  | .hostWrite _ vf a d => (vf, a, d.length)
  | .hostAtomic _ vf a _ d _ => (vf, a, d.length)
  | _ => (0, 0, 0)

/-- Whether a host request is held back from the link. -/
def HostReq.pri (r : HostReq) : Bool := r.wait != .none

/-- A host request goes out on the link (R377); the completion timeout runs from here. -/
def State.sendHost (s : State) (r : HostReq) : State :=
  { s with out := r.msg :: s.out, hostReqs := s.hostReqs ++ [{ r with sent := s.clock, wait := .none }] }

/-- A host translation held in the 1,024 entries of the I/O complex (R377). -/
def State.cacheHost (s : State) (vf page : Nat) : State :=
  { s with atsCache := ((vf, page) :: s.atsCache.filter fun e => e != (vf, page)).take 1024 }

/-- Whether a page request may go out (R376, R377): page requests are enabled, and at most 512 are outstanding. -/
def State.mayAskPage (s : State) (vf : Nat) : Bool :=
  Config.priEnabled vf && decide ((s.hostReqs.filter fun r => r.wait == .asked).length < 512)

/-- A host request at the I/O complex (R377): sent when ATS is not enabled, when its translation is held or when ATS grants it, which is the
host's to say and so an opaque constant; and otherwise held, on a page request as soon as one may go out. -/
def State.hostAsk (s : State) (r : HostReq) : State :=
  let (vf, a, _) := r.msg.range
  if s.atsCache.contains (vf, a / 4096) || !Config.atsEnabled vf then s.sendHost r
  else if Config.hostGrants r.id then (s.cacheHost vf (a / 4096)).sendHost r
  else if s.mayAskPage vf then { s with out := .pageRequest r.id vf a :: s.out, hostReqs := s.hostReqs ++ [{ r with wait := .asked }] }
  else { s with hostReqs := s.hostReqs ++ [{ r with wait := .denied }] }

/-- The held requests that have sent no page request send theirs, as far as they may (R376). -/
def State.askPages (s : State) : State :=
  (s.hostReqs.filter fun r => r.wait == .denied).foldl (fun s r =>
    let (vf, a, _) := r.msg.range
    if s.mayAskPage vf then
      { s with out := .pageRequest r.id vf a :: s.out, hostReqs := s.hostReqs.map fun x => if x = r then { x with wait := .asked } else x }
    else s) s

/-- A request for the host link, which is served through die 0 (R7): one of a unit of die 1 crosses the die-to-die link first, in class 5
HOSTIO (R310). -/
def State.hostRequest (s : State) (r : HostReq) : State :=
  if dieOf r.core = 0 then s.hostAsk r else { s with linkQ := s.linkQ ++ [⟨1, 5, .host r, 0⟩] }

/-- The host requests of the module that have not been answered, those that have not yet reached the host link among them. -/
def State.hostOut (s : State) : List HostReq :=
  s.hostReqs ++ s.linkQ.filterMap fun l => match l.to_ with
    | .host r => some r
    | _ => none

/-- A read of a host range for an operation of a core. -/
def State.hostRead (s : State) (core id ctx : Nat) (va : DWord) (pa n : Nat) : State :=
  s.hostRequest ⟨id, core, id, none, .hostRead id (vfOf ctx) pa n, s.clock, .none, va⟩

end Sys2Proof.Machine
end

