-- ==== Sys2Proof/Machine/Bulk.lean ====
section
/-! DEFINITION. Transfers of many bytes by the tensor array, the engines, the dispatchers and the Marrow cores: translating whole ranges (R95, R221, R318), reading and writing them, and host ranges (R377). -/

namespace Sys2Proof.Machine

/-- A virtual range cut at its page boundaries, or at 32-byte lines: `unit` is the size of a cut. -/
def cutRange (unit : Nat) (va : DWord) (n : Nat) : List (DWord × Nat) :=
  if n = 0 then []
  else
    let first := va.toNat % unit
    (List.range ((first + n - 1) / unit + 1)).map fun i =>
      let lo := if i = 0 then 0 else i * unit - first
      let hi := min n ((i + 1) * unit - first)
      (va + BitVec.ofNat 64 lo, hi - lo)

/-- A host request of an agent for a virtual address (R7, R377). -/
def State.agentHost (s : State) (g : Agent) (va : DWord) (mk : Nat → Out) : State :=
  let (id, s) := s.newId
  s.hostRequest ⟨id, 80 * g.die, id, some g.owner, mk id, s.clock, .none, va⟩

/-- Translated pages: page number, physical address of the page, and LOC. -/
abbrev PageMap := List (Nat × Nat × Nat)

/-- The physical address and LOC of a byte. -/
def pageFind (m : PageMap) (va : DWord) : Option (Nat × Nat) :=
  (m.find? fun e => e.1 == va.toNat / 4096).map fun e => (e.2.1 + va.toNat % 4096, e.2.2)

/-- What translating many pages gives. -/
inductive XlAll where
  | ok (m : PageMap)
  | bad (cls code access : Nat) (va : DWord)
  /-- A page waits for the walker (R95, R318). -/
  | wait
deriving DecidableEq, Repr

/-- Translate pages one after another; the first failure ends it, and while one waits for the walker the walks of the rest are asked for. -/
def State.xlatePages (s : State) (g : Agent) : List (Acc × DWord) → PageMap → XlAll × State
  | [], m => (.ok m, s)
  | (a, va) :: rest, m =>
    match s.xlateUnit g a va with
    | (.ok pa loc _, s) => s.xlatePages g rest ((va.toNat / 4096, pa - va.toNat % 4096, loc) :: m)
    | (.bad cls code, s) => (.bad cls code a.code va, s)
    | (.miss, s) => (.wait, (s.xlatePages g rest m).2)

/-- Translate every page of ranges, each with its access (R221). -/
def State.xlateRanges (s : State) (g : Agent) (rs : List (Acc × DWord × Nat)) : XlAll × State :=
  s.xlatePages g ((rs.flatMap fun r => (cutRange 4096 r.2.1 r.2.2).map fun p => (r.1, p.1)).eraseDups) []

/-- A byte of a host range that a completion has brought. -/
def State.hostByte (s : State) (owner pa : Nat) : Byte :=
  match s.hostData.find? fun d => d.owner == owner && decide (d.pa ≤ pa) && decide (pa < d.pa + d.data.length) with
  | some d => d.data.getD (pa - d.pa) 0
  | none => 0

/-- `n` bytes of a virtual range through translated pages. -/
def State.readVa (s : State) (owner : Nat) (m : PageMap) (va : DWord) (n : Nat) : List Byte :=
  (cutRange 32 va n).flatMap fun p =>
    match pageFind m p.1 with
    | some (pa, loc) => if loc = 0 then s.bytes pa p.2 else (List.range p.2).map fun i => s.hostByte owner (pa + i)
    | none => List.replicate p.2 0

/-- The first poisoned line that reading ranges meets (R353). -/
def State.poisonVa (s : State) (m : PageMap) (rs : List (DWord × Nat)) : Option DWord :=
  ((rs.flatMap fun r => cutRange 32 r.1 r.2).find? fun p =>
    match pageFind m p.1 with
    | some (pa, loc) => loc == 0 && s.readsPoison pa p.2
    | none => false).map (·.1)

/-- The pieces of ranges in device memory, line by line (R84). -/
def piecesVa (m : PageMap) (rs : List (DWord × Nat)) : List Nat :=
  (rs.flatMap fun r => cutRange 32 r.1 r.2).filterMap fun p =>
    match pageFind m p.1 with
    | some (pa, loc) => if loc = 0 then some pa else none
    | none => none

/-- The lines of device memory of ranges. -/
def linesVa (m : PageMap) (rs : List (DWord × Nat)) : List Nat := (piecesVa m rs).map fun pa => pa / 32

/-- Whether an agent may make its accesses of ranges now (R87, R88, R94, R312). -/
def State.mayServeVa (s : State) (g : Agent) (how : How) (m : PageMap) (rs : List (DWord × Nat)) : Bool :=
  (piecesVa m rs).all (s.mayServe g how)

/-- An agent asks for the lines of ranges (R84, R94). -/
def State.askVa (s : State) (g : Agent) (how : How) (m : PageMap) (rs : List (DWord × Nat)) : State := s.askAll g how (piecesVa m rs)

/-- Bytes written to a virtual range: to device memory line by line, and to a host range by posted writes (R84, R353, R377). -/
def State.writeVa (s : State) (g : Agent) (m : PageMap) (va : DWord) (bs : List Byte) : State :=
  (cutRange 32 va bs.length).foldl (fun s p =>
    let part := (bs.drop (p.1 - va).toNat).take p.2
    match pageFind m p.1 with
    | some (pa, loc) =>
      if loc = 0 then s.putPa pa part
      else s.agentHost g p.1 fun id => .hostWrite id (vfOf g.ctx) pa part
    | none => s) s

/-- Whether the host has brought bytes for an owner. -/
def State.hostHolds (s : State) (owner pa n : Nat) : Bool :=
  s.hostData.any fun d => d.owner == owner && decide (d.pa ≤ pa) && decide (pa + n ≤ d.pa + d.data.length)

/-- Ask the host for the parts of ranges that lie in host ranges; true when every part has come. -/
def State.fetchHost (s : State) (g : Agent) (m : PageMap) (rs : List (DWord × Nat)) : Bool × State :=
  let need := (rs.flatMap fun r => cutRange 4096 r.1 r.2).filterMap fun p =>
    match pageFind m p.1 with
    | some (pa, loc) => if loc = 0 then none else some (p.1, pa, p.2)
    | none => none
  need.foldl (fun acc p =>
    let (done, s) := acc
    if s.hostHolds g.owner p.2.1 p.2.2 then (done, s)
    else if s.hostOut.any fun r => r.owner == some g.owner && r.msg.range == (vfOf g.ctx, p.2) then (false, s)
    else (false, s.agentHost g p.1 fun id => .hostRead id (vfOf g.ctx) p.2.1 p.2.2)) (true, s)

/-- Whether a host request of an owner is outstanding. -/
def State.hostBusy (s : State) (owner : Nat) : Bool := s.hostOut.any fun r => r.owner == some owner

/-- What the host, the walker and the homes have brought for an owner is let go. -/
def State.hostForget (s : State) (owner : Nat) : State :=
  { s with hostData := s.hostData.filter (fun d => d.owner != owner), brought := s.brought.filter (fun b => b.owner != owner)
           granted := s.granted.filter fun x => x.owner != owner }

/-- The object of a context whose code holds an address (R337). -/
def Ctx.objectAt (c : Ctx) (a : DWord) : Option Nat :=
  (c.objs.find? fun o =>
    match o.2 with
    | .loaded b n => decide (b ≤ a.toNat) && decide (a.toNat < b + n)
    | .retiring b n _ _ => decide (b ≤ a.toNat) && decide (a.toNat < b + n)).map (·.1)

end Sys2Proof.Machine
end

