-- ==== Sys2Proof/Machine/Flags.lean ====
section
/-! DEFINITION. Predicates and guards (R45, R114), completion flags (R34), and the conditions of the compare instructions (R143, R150). -/

namespace Sys2Proof.Machine

/-- Predicate `n` of a thread; `p7` is true (R45). -/
def Thread.pred (t : Thread) (n : Nat) : Bool := n == 7 || bitAt t.preds n

/-- The thread with predicate `n` written; a write to `p7` is discarded (R45). -/
def Thread.setPred (t : Thread) (n : Nat) (b : Bool) : Thread :=
  if 7 ≤ n then t
  else
    let m : BitVec 8 := 1#8 <<< n
    { t with preds := if b then t.preds ||| m else t.preds &&& ~~~m }

/-- Whether a guard holds for a thread: `p`n XOR INV (R114). -/
def guardHolds (g : Guard) (t : Thread) : Bool := t.pred g.pn.toNat ^^ g.inv

/-- Whether the word executes for a thread (R114). -/
def holdsBoth (g0 g1 : Guard) (t : Thread) : Bool := guardHolds g0 t && guardHolds g1 t

/-- The thread with completion flag `n` set (R34). -/
def Thread.setFlag (t : Thread) (n : Nat) : Thread := { t with flags := t.flags ||| (1#12 <<< n) }

/-- The thread with completion flag `n` clear (R34). -/
def Thread.clearFlag (t : Thread) (n : Nat) : Thread := { t with flags := t.flags &&& ~~~(1#12 <<< n) }

/-- The flag an FS bit selects from a header (R34, R108). -/
def flagOf (h : Header) (fs : Bool) : Nat := if fs then h.setb.toNat else h.seta.toNat

/-- The conditions of `cmp` (R143). -/
def intCond (code : Nat) (a b : Int) : Bool :=
  if code = 0 then a == b
  else if code = 1 then a != b
  else if code = 2 then decide (a < b)
  else if code = 3 then decide (a ≤ b)
  else if code = 4 then decide (b < a)
  else decide (b ≤ a)

/-- The conditions of `fcmp` (R150). -/
def floatCond (code : Nat) (a b : FVal) : Bool :=
  match a.cmp b with
  | none => code == 3
  | some o =>
    if code = 0 then o == .eq
    else if code = 1 then o == .lt
    else if code = 2 then o != .gt
    else false

/-- The carry out of an addition and the borrow out of a subtraction (R141). -/
def carryOut (w : Nat) (r : Int) : Bool := decide ((2 ^ w : Int) ≤ r)
/-- The borrow of a subtraction (R141). -/
def borrowOut (r : Int) : Bool := decide (r < 0)

end Sys2Proof.Machine
end

