-- ==== Sys2Proof/Machine/Operands.lean ====
section
/-! DEFINITION. Operands: selectors (R45, R116), integer types (R59), the operand checks of R46, the HOLD latch (R54), and writing registers (R30, R58, R135, R233). -/

namespace Sys2Proof.Machine

/-- `n` registers of a thread from `v`r up. -/
def Thread.vregs (t : Thread) (r n : Nat) : List Word := (List.range n).map fun i => t.regs.getD (r + i) 0

/-- `n` scalars of a team from `s`r up. -/
def Team.sregs (t : Team) (r n : Nat) : List Word := (List.range n).map fun i => t.scalars.getD (r + i) 0

/-- The registers a selector names, read by a thread (R45, R116); the zero register reads as zero in every width. -/
def readSel (team : Team) (t : Thread) (sel : BitVec 8) (n : Nat) : List Word :=
  if isV sel then t.vregs sel.toNat n
  else if isS sel then team.sregs (sel.toNat - 0x80) n
  else List.replicate n 0

/-- The value a source gives: the latch supplies a selector it holds at the same width (R54). -/
def readSrc (latches : List Latch) (team : Team) (t : Thread) (sel : BitVec 8) (n : Nat) : List Word :=
  match latches.find? fun l => l.sel == sel && l.n == n with
  | some l => ((l.vals.find? fun p => p.1 == t.slot).map (·.2)).getD (readSel team t sel n)
  | none => readSel team t sel n

/-- The destination registers a selector names for a thread; the zero register's writes are discarded (R45). -/
def destsOf (team : Team) (t : Thread) (sel : BitVec 8) (n : Nat) : List Dest :=
  if isV sel then (List.range n).map fun i => .v t.slot (sel.toNat + i)
  else if isS sel then (List.range n).map fun i => .s team.slot (sel.toNat - 0x80 + i)
  else []

/-- Width in bits of an integer type code of R118. -/
def intWidth (md : Nat) : Nat := if md < 2 then 32 else if md < 4 then 64 else if md < 6 then 16 else 8
/-- Whether an integer type code is signed (i types are even, R118). -/
def intSigned (md : Nat) : Bool := md % 2 == 0
/-- The least value of an integer type (R59). -/
def intLo (md : Nat) : Int := if intSigned md then -(2 ^ (intWidth md - 1) : Int) else 0
/-- The greatest value of an integer type (R59). -/
def intHi (md : Nat) : Int := if intSigned md then 2 ^ (intWidth md - 1) - 1 else 2 ^ intWidth md - 1
/-- A register's bits read as a type: the upper bits are ignored (R59). -/
def intRead (md bits : Nat) : Int :=
  if intSigned md then sext (intWidth md) bits else ((bits % 2 ^ intWidth md : Nat) : Int)
/-- A result's registers: an 8-bit or 16-bit result is extended to 32 bits (R59). -/
def intWrite (md : Nat) (x : Int) : List Word :=
  let m := wrapN (intWidth md) x
  if intWidth md = 64 then wordsOf 2 m
  else if intSigned md then [BitVec.ofInt 32 (sext (intWidth md) m)]
  else [BitVec.ofNat 32 m]

/-- An immediate of the I form as a type: IMM16 sign-extended to the type's width (R140). -/
def immRead (md : Nat) (imm : BitVec 16) : Int := intRead md (wrapN (intWidth md) imm.toInt)

/-- The value of a type of R118 a loaded or computed bit pattern is written as (R59, R61). -/
def typeWrite (md bits : Nat) : List Word :=
  if md < 8 then intWrite md bits
  else if md = 9 ∨ md = 0xA then [BitVec.ofNat 32 (bits % 2 ^ 16)]
  else if md = 0xB then wordsOf 2 bits
  else [BitVec.ofNat 32 bits]

/-- `tval` of a bad operand: the selector and the position (R46). -/
def badSel (sel : BitVec 8) (pos : Nat) : DWord := BitVec.ofNat 64 (sel.toNat + 2 ^ 10 * pos)

/-- `tval` of a bad 9-bit scalar number (R46). -/
def badScalar (n pos : Nat) : DWord := BitVec.ofNat 64 (n + 2 ^ 9 + 2 ^ 10 * pos)

/-- The check of R46 on one operand field: a 64-bit operand whose selector is odd, a `v` register at or beyond F, or
a register group whose base is no multiple of its size (R164). -/
def checkSel (frame : Nat) (o : Opd) (sel : BitVec 8) (pos : Nat) : Option DWord :=
  let n := o.regs
  if n = 0 ∨ isNone sel ∨ isZ sel then none
  else
    let r := if isV sel then sel.toNat else sel.toNat - 0x80
    if r % n ≠ 0 then some (badSel sel pos)
    else if isV sel ∧ frame < r + n then some (badSel sel pos)
    else none

/-- The operand checks of R46 on a word.  DESIGN CHOICE (log 57): where several operands are faulty R46 gives no order, and the first of D, A, B, C gives
`tval`; of an engine's word HND before SHP, and of a three-source word D9, A9, B9. -/
def operandFault (frame : Nat) (i : Instr) : Option DWord :=
  match i.fields, i.entry with
  | some (_, .r f), some e =>
    firstSome [checkSel frame e.opds.d f.d 0, checkSel frame e.opds.a f.a 1, checkSel frame e.opds.b f.b 2, checkSel frame e.opds.c f.c 3]
  | some (_, .i f), some e => firstSome [checkSel frame e.opds.d f.d 0, checkSel frame e.opds.a f.a 1]
  | some (_, .l f), some e => checkSel frame e.opds.d f.d 0
  | _, _ => none

/-- Scalars an instruction reads through one operand field (R233). -/
def scalarsRead (o : Opd) (sel : BitVec 8) : List Nat :=
  if o.isSrc ∧ isS sel then (List.range o.regs).map fun i => sel.toNat - 0x80 + i else []

/-- `v` registers an instruction reads through one operand field (R135). -/
def vectorsRead (o : Opd) (sel : BitVec 8) : List Nat :=
  if o.isSrc ∧ isV sel then (List.range o.regs).map fun i => sel.toNat + i else []

/-- Scalars a word of form R, I or L reads (R233). -/
def scalarReads (i : Instr) : List Nat :=
  match i.fields, i.entry with
  | some (_, .r f), some e =>
    scalarsRead e.opds.d f.d ++ scalarsRead e.opds.a f.a ++ scalarsRead e.opds.b f.b ++ scalarsRead e.opds.c f.c
  | some (_, .i f), some e => scalarsRead e.opds.d f.d ++ scalarsRead e.opds.a f.a
  | _, _ => []

/-- `v` registers a word reads (R135). -/
def vectorReads (i : Instr) : List Nat :=
  match i.fields, i.entry with
  | some (_, .r f), some e =>
    vectorsRead e.opds.d f.d ++ vectorsRead e.opds.a f.a ++ vectorsRead e.opds.b f.b ++ vectorsRead e.opds.c f.c
  | some (_, .i f), some e => vectorsRead e.opds.d f.d ++ vectorsRead e.opds.a f.a
  | _, _ => []

/-- A register of a thread written: a marked handle pair loses its mark (R135). -/
def Thread.writeV (t : Thread) (r : Nat) (w : Word) : Thread :=
  { t with regs := setAt t.regs r w, gridpend := t.gridpend &&& ~~~(1#64 <<< (r / 2)) }

/-- A scalar written: a tagged pair loses its tag (R233). -/
def Team.writeS (t : Team) (r : Nat) (w : Word) : Team :=
  { t with scalars := setAt t.scalars r w, tags := t.tags.filter fun g => g.1 != r / 2 * 2 }

/-- One register written, of a thread or a team of core `c`, partition `p`. -/
def State.writeDest (s : State) (c p : Nat) (d : Dest) (w : Word) : State :=
  match d with
  | .v sl r => s.onThread c p sl fun t => t.writeV r w
  | .s tm r => s.onTeam c tm fun t => t.writeS r w
  | .p sl r => s.onThread c p sl fun t => t.setPred r (w != 0)

/-- Registers written one by one. -/
def State.writeDests (s : State) (c p : Nat) : List Dest → List Word → State
  | d :: ds, w :: ws => (s.writeDest c p d w).writeDests c p ds ws
  | _, _ => s

/-- A latch entry after a fixed-latency write to a register of a thread (R54). -/
def Latch.update (l : Latch) (slot r : Nat) (w : Word) : Latch :=
  let b := l.sel.toNat
  if isV l.sel ∧ b ≤ r ∧ r < b + l.n then
    { l with vals := l.vals.map fun p => if p.1 = slot then (p.1, p.2.set (r - b) w) else p }
  else l

end Sys2Proof.Machine
end

