-- ==== Sys2Proof/Machine/Ops.lean ====
section
/-! DEFINITION. The shared operations on threads: filing (R19-R21, R31), leaving a pack (R25, R41), user traps (R128-R131), system faults and tokens (R320-R322), parking and holding (R36, R37), patch mode (R297), and barriers (R132). -/

namespace Sys2Proof.Machine

/-- The partition number under which a core's CCP runs its firmware thread (R287): no pods, and no partition of the
core's eight. -/
def isFirmware (part : Nat) : Bool := part == 8

/-- The image whose code a thread runs: 0 for code of its context, and in patch mode that of its routine (R297, R299). -/
def Thread.codeImage (t : Thread) : Nat := if t.patched then (t.patch.map (·.nib)).getD 0 else 0

/-- The number of instruction words of a clause header (R108). -/
def hdrCount (h : DWord) : Nat := (readHeader h).count

/-- A normal pod keyed at an address (R19). -/
def normalAt (a : DWord) (nib : Nat) : Target := ⟨a, false, a, 0, false, nib⟩

/-- A resume pod keyed at a word of a clause (R19, R36). -/
def resumeAt (a hdrAt hdr : DWord) (nib : Nat) : Target := ⟨a, true, hdrAt, (readHeader hdr).rank, (readHeader hdr).conv, nib⟩

/-- A resume pod keyed at a clause header (R36, R391). -/
def resumeHeader (a : DWord) (nib : Nat) : Target := ⟨a, true, a, 0, false, nib⟩

/-- The key of a pod, bits [55:3] (R18). -/
def podKey (a : DWord) : BitVec 53 := a.extractLsb' 3 53

/-- Whether a filing to a target with a team matches a pod (R19). -/
def Pod.matches (p : Pod) (team : Nat) (t : Target) : Bool :=
  p.team == team && podKey p.key == podKey t.key && p.resume == t.resume && p.nib == t.nib

/-- Whether a pod must fetch the header at its key (R391). -/
def Target.fetches (t : Target) : Bool := !t.resume || t.hdr == t.key

/-- A slot put into the WAITING vector, in slot order. -/
def addWaiting (slot : Nat) : List (Nat × Nat) → List (Nat × Nat)
  | [] => [(slot, 0)]
  | (a, n) :: rest => if slot < a then (slot, 0) :: (a, n) :: rest else if slot = a then (a, n) :: rest else (a, n) :: addWaiting slot rest

/-- A thread filed to a key by R19: a matching pod, else the lowest free entry; none when no entry is free. -/
def Part.fileIn (q : Part) (team slot : Nat) (t : Target) : Option Part :=
  match q.pods.find? fun p => p.matches team t with
  | some p => some (q.setPod { p with waiting := addWaiting slot p.waiting })
  | none =>
    match (List.range 32).find? fun i => !(q.pods.any fun p => p.idx == i) with
    | some i => some (q.setPod
        { idx := i, team := team, key := t.key, resume := t.resume, conv := t.conv, rank := t.rank, isOpen := false,
          opened := 0, waiting := [(slot, 0)], arrival := 0, fetched := !t.fetches, hdr := t.hdr, nib := t.nib })
    | none => none

/-- File a thread: into a pod, or at the tail of the entry queue (R19). -/
def State.fileThread (s : State) (c p slot : Nat) (t : Target) : State :=
  match s.thread? c p slot with
  | none => s
  | some th =>
    let q := s.part c p
    let q := (q.fileIn th.team slot t).getD { q with queue := q.queue ++ [(slot, t)] }
    (s.setPart q).setThread { th with life := .waiting, at_ := t }

/-- A filing put among those due. -/
def State.schedule (s : State) (c p : Nat) (f : Filing) : State :=
  s.onPart c p fun q => { q with filings := q.filings ++ [f] }

/-- A plain filing due at a clock. -/
def filing (slot : Nat) (t : Target) (due rankIn : Nat) : Filing := ⟨slot, t, due, rankIn, none, false, .no⟩

/-- A thread leaves its pack; a pack that every thread has left frees its stream (R25). -/
def State.leavePack (s : State) (c p slot : Nat) : State :=
  s.onPart c p fun q =>
    { q with streams := q.streams.map fun t =>
        match t.pack with
        | none => t
        | some k =>
          let k' := { k with slots := k.slots.filter fun x => x != slot }
          if k.slots.contains slot then
            (if k'.slots.isEmpty then { t with pack := none, freeAt := s.clock + 1 } else { t with pack := some k' })
          else t }

/-- A thread leaves every pod, the entry queue, its pack and the filings that wait for it. -/
def State.pull (s : State) (c p slot : Nat) : State :=
  (s.leavePack c p slot).onPart c p fun q =>
    { q with pods := q.pods.map fun x => { x with waiting := x.waiting.filter fun w => w.1 != slot }
             queue := q.queue.filter fun x => x.1 != slot
             filings := q.filings.filter fun x => x.slot != slot }

/-- Release the members whose R37 hold ends when a thread is released (R37): each at its own next instruction, or at the ENTRY header
that firmware has set for the thread, with its check, where one is given (R323, R325). -/
def State.unholdTo (s : State) (c p slot due : Nat) (point : Option (Target × Check)) : State :=
  (s.threads.filter fun t => t.core == c && t.part == p && t.hold37.contains slot).foldl (fun s t =>
    let t := s.again t
    let rest := t.hold37.filter fun x => x != slot
    let t' := match point with
      | some x => { t with hold37 := rest, at_ := x.1, chk := some x.2 }
      | none => { t with hold37 := rest }
    if !t.hold37.contains slot then s
    else if rest.isEmpty && !t.hold131 && t.life == .parked .held then
      (s.setThread { t' with life := .inFlight }).schedule c p ⟨t.slot, t'.at_, due, 2, t'.chk, false, .no⟩
    else s.setThread t') s

/-- Release the members whose R37 hold ends when a thread is released: each at its own next instruction (R36, R37). -/
def State.unhold (s : State) (c p slot due : Nat) : State := s.unholdTo c p slot due none

/-- Release a parked thread to a target at the end of a clock (R36, R42). -/
def State.release (s : State) (th : Thread) (t : Target) (due : Nat) : State :=
  ((s.setThread { th with life := .inFlight, at_ := t }).schedule th.core th.part
      ⟨th.slot, t, due, 2, if t = th.at_ then th.chk else none, false, .no⟩).unhold
    th.core th.part th.slot due

/-- Whether a filing ends the run of a thread in a trap group (R131, R294): a `tret` that of a handler, and an `nret`, or a
resumption by the CCP, that of a routine or of a park on a Nib slot.  With no filing, the thread exits and ends either. -/
def TrapGroup.ends (g : TrapGroup) (slot : Nat) (by_ : Leave) : Bool :=
  g.inHandler.contains slot &&
    match by_ with
    | .no => true
    | .tret _ => !g.patching.contains slot
    | .nret => g.patching.contains slot

/-- End a member's run in its innermost trap group of that kind (R131, R294): `point` is the resume point its `tret` chose.  When others
of the group are still in their handlers the member is held; the last one releases every held member. -/
def State.groupLeave (s : State) (th : Thread) (point : Option Target) (by_ : Leave) : State :=
  let q := s.part th.core th.part
  let exits := by_ == .no
  match q.groups.find? fun g => g.ends th.slot by_ with
  | none => s
  | some g =>
    let g' := { g with inHandler := g.inHandler.filter fun x => x != th.slot, point := point.getD g.point
                       patching := g.patching.filter fun x => x != th.slot
                       held := if exits then g.held else g.held ++ [th.slot] }
    let others := q.groups.erase g
    if g'.inHandler.isEmpty then
      let s := s.setPart { q with groups := others }
      g'.held.foldl (fun s sl =>
        match s.thread? th.core th.part sl with
        | none => s
        | some m =>
          let m := { m with hold131 := false, at_ := g'.point }
          if m.hold37.isEmpty then
            (s.setThread { m with life := .inFlight }).schedule m.core m.part (filing sl g'.point s.clock 2)
          else s.setThread m) s
    else
      let s := s.setPart { q with groups := q.groups.map fun x => if x = g then g' else x }
      if exits then s else s.onThread th.core th.part th.slot fun t => { t with life := .parked .held, hold131 := true }

/-- A thread that ends leaves every trap group in which it has a handler to finish, the innermost first (R131). -/
def State.leaveGroups (s : State) (th : Thread) : State :=
  ((s.part th.core th.part).groups.filter fun g => g.inHandler.contains th.slot).foldl (fun s _ => s.groupLeave th none .no) s

/-- A full/empty word of a team; one that is not listed is empty, with no reservation and no waiter (R90). -/
def Team.feWord (t : Team) (addr : Nat) : FeWord := (t.fe.find? fun w => w.addr == addr).getD ⟨addr, false, none, []⟩

/-- The team with a full/empty word replaced. -/
def Team.setFe (t : Team) (w : FeWord) : Team := { t with fe := upsert (fun x => x.addr == w.addr) w t.fe }

/-- The oldest waiter that a word serves (R91): an `ld.fe` when it is full, an `st.fe` when it is empty. -/
def FeWord.next (w : FeWord) : Option FeWaiter := w.waiters.find? fun x => x.ld == w.full

/-- A waiter put among those of a word: the oldest first, and of those that parked in one clock the lowest `tid` (R91). -/
def feInsert (x : FeWaiter) : List FeWaiter → List FeWaiter
  | [] => [x]
  | y :: rest => if y.at_ = x.at_ ∧ x.tid < y.tid then x :: y :: rest else y :: feInsert x rest

/-- A word without a reservation serves its oldest waiter (R91): the waiter is released and the word reserved for it. -/
def State.serveFe (s : State) (core team addr : Nat) : State :=
  match s.team? core team with
  | none => s
  | some tm =>
    let w := tm.feWord addr
    if w.reserved.isSome then s
    else
      match w.next with
      | none => s
      | some x =>
        let s := s.setTeam (tm.setFe { w with reserved := some (x.part, x.slot), waiters := w.waiters.filter fun y => y != x })
        match s.thread? core x.part x.slot with
        | some th => s.release th th.at_ s.clock
        | none => s

/-- The reservations a thread holds end, and each such word serves its next waiter (R91). -/
def State.endReservations (s : State) (core team part slot : Nat) : State :=
  match s.team? core team with
  | none => s
  | some tm =>
    let mine := (tm.fe.filter fun w => w.reserved == some (part, slot)).map (·.addr)
    let s := s.setTeam { tm with fe := tm.fe.map fun w => if w.reserved = some (part, slot) then { w with reserved := none } else w }
    mine.foldl (fun s a => s.serveFe core team a) s

/-- A thread leaves every waiter list, and gives up its reservations (R91). -/
def State.dropWaiter (s : State) (core team part slot : Nat) : State :=
  (s.onTeam core team fun t => { t with fe := t.fe.map fun w =>
      { w with waiters := w.waiters.filter fun x => !(x.part == part && x.slot == slot) } }).endReservations core team part slot

/-- Entries in use in the waiter table of a core (R90). -/
def State.waiterCount (s : State) (core : Nat) : Nat :=
  (s.teamsOn core).foldl (fun n t => t.fe.foldl (fun n w => n + w.waiters.length) n) 0

/-- The core whose array queue a core uses: its leader's while it follows a pair reservation (R209). -/
def State.arrayOf (s : State) (c : Nat) : Core := if (s.core c).follower then s.core (c - 1) else s.core c

/-- Whether an operation in flight belongs to a thread. -/
def Op.of (o : Op) (part slot : Nat) : Bool := o.part == part && o.slot == slot

/-- A thread ends, as by `exit` with its guard true (R41, R127): it drains while it has a flag set. -/
def State.exitThread (s : State) (th : Thread) : State :=
  let s := s.leavePack th.core th.part th.slot
  let s := s.leaveGroups th
  let s := s.unhold th.core th.part th.slot s.clock
  let s := s.dropWaiter th.core th.team th.part th.slot
  if th.flags = 0 then s.dropThread th.core th.part th.slot
  else s.onThread th.core th.part th.slot fun t => { t with life := .draining, arrived := 0, counted := 0, atBar := none }

/-- The resume record of `tcause` bits [63:32] (R129). -/
def resumeRecord (hdr : DWord) (last header : Bool) : DWord :=
  let h := readHeader hdr
  BitVec.ofNat 64 (h.rank.toNat * 2 ^ 32 + (if h.conv then 2 ^ 45 else 0) + (if last then 2 ^ 46 else 0) + (if header then 2 ^ 47 else 0))

/-- Taking a user trap, in the thread's own registers: `tcause` with its resume record, `tval`, `tpc` and `tinst`
(R128, R129).  Nothing else of the thread changes. -/
def Thread.takeTrap (t : Thread) (cause : Nat) (tval : DWord) (a : TrapAt) : Thread :=
  { t with tcause := BitVec.ofNat 64 cause ||| resumeRecord a.hdr a.last a.header
           tval := tval, tpc := a.pc, tinst := a.inst, thdr := a.hdrAt, tcnt := hdrCount a.hdr }

/-- ACTION of a slot (R293). -/
def NibSlot.action (x : NibSlot) : Nat := (x.ctl.extractLsb' 14 3).toNat

/-- Whether a slot matches a word, its header and the context (R293). -/
def NibSlot.hits (x : NibSlot) (ctx : Nat) (word hdr : DWord) : Bool :=
  (word &&& x.mask) == (x.match_ &&& x.mask)
    && ((hdr.extractLsb' 29 7) &&& (x.ctl.extractLsb' 21 7)) == ((x.ctl.extractLsb' 28 7) &&& (x.ctl.extractLsb' 21 7))
    && bitAt x.ctl (48 + vfOf ctx) && (!bitAt x.ctl 35 || (x.ctl.extractLsb' 36 12).toNat == ctx)

/-- PRIORITY, then slot number (R121, R293). -/
def slotRank (p : Nat × NibSlot) : Nat := (p.2.ctl.extractLsb' 17 4).toNat * 16 + p.1

/-- The slot that acts: the lowest PRIORITY, then the lowest number, among those that match and are not off. -/
def firstSlot (slots : List NibSlot) (ctx : Nat) (word hdr : DWord) : Option (Nat × NibSlot) :=
  (slots.zipIdx.map fun p => (p.2, p.1)).foldl (fun (acc : Option (Nat × NibSlot)) p =>
    if p.2.hits ctx word hdr && p.2.action != 0 then
      match acc with
      | none => some p
      | some b => if slotRank p < slotRank b then some p else acc
    else acc) none

/-- The action a fault slot takes on a fault word, its number and its EMU (R293, R295): 0 when none matches. -/
def State.faultSlot (s : State) (ctx : Nat) (word hdr : DWord) : Nat × Nat × DWord :=
  match firstSlot s.nib.flt ctx word hdr with
  | some (n, x) => (x.action, n, x.emu)
  | none => (0, 0, 0)

/-- The fault word of R295. -/
def faultWord (cls op : Nat) : DWord := BitVec.ofNat 64 (cls + 2 ^ 8 * op)

/-- A record handed to the CCP for the fault queue of a virtual function (R321, R322). -/
def State.postRecord (s : State) (r : FaultRec) : State := s.onVf r.vf fun v => { v with held := v.held ++ [r] }

/-- The dump record of a stopped thread (R368), before the thread record's bytes are added by its caller. -/
def dumpHead (gindex launchid : DWord) (ctx code core : Nat) (stamp pc : DWord) : List Byte :=
  bytesOf 8 gindex.toNat ++ bytesOf 8 launchid.toNat ++ bytesOf 2 ctx ++ bytesOf 2 code ++ bytesOf 2 core ++ bytesOf 2 0
    ++ bytesOf 8 stamp.toNat ++ bytesOf 8 pc.toNat ++ List.replicate 24 0

/-- The state code of R333. -/
def Life.code (l : Life) : Nat :=
  match l with
  | .waiting | .inFlight => 1
  | .parked _ => 2
  | .draining => 3

/-- The park cause of R333. -/
def Life.cause (l : Life) : Nat :=
  match l with
  | .parked (.barrier _) => 1
  | .parked (.fullEmpty _ _) => 2
  | .parked (.timeline _ _ _) => 3
  | .parked (.handle _ _) => 4
  | .parked (.grid _) => 4
  | .parked (.fault _) => 5
  | .parked .held => 6
  | .parked (.poll _) => 7
  | _ => 0

/-- PARKINFO [63:32] and WAITVAL of R333: the scratch word or timeline, and the value or token. -/
def Life.wait (l : Life) : Nat × Nat :=
  match l with
  | .parked (.fullEmpty a _) => (a, 0)
  | .parked (.timeline k n _) => (k, n)
  | .parked (.handle k n) => (k, n)
  | .parked (.fault t) => (0, t)
  | _ => (0, 0)

/-- The barrier of R333. -/
def Life.barrierNo (l : Life) : Nat :=
  match l with
  | .parked (.barrier b) => b
  | _ => 0

/-- A thread record (R333). -/
def Thread.record (t : Thread) : List Byte :=
  let st := t.life.code + (if t.patched then 8 else 0) + (if t.bypass then 16 else 0) + 2 ^ 8 * t.life.cause
    + 2 ^ 16 * t.life.barrierNo + 2 ^ 32 * t.flags.toNat + 2 ^ 48 * (t.preds.toNat % 128)
  let pk := t.at_.rank.toNat + (if t.at_.conv then 2 ^ 13 else 0) + (if t.at_.resume then 2 ^ 14 else 0)
    + 2 ^ 16 * t.arrived.toNat + 2 ^ 32 * t.life.wait.1
  bytesOf 8 st ++ bytesOf 8 (t.moved.getD t.at_.key).toNat ++ bytesOf 8 pk ++ bytesOf 8 t.life.wait.2
    ++ bytesOf 8 t.tcause.toNat ++ bytesOf 8 t.tval.toNat ++ bytesOf 8 t.tpc.toNat ++ bytesOf 8 t.tinst.toNat
    ++ ((List.range 4).flatMap fun i => bytesOf 8 (t.rs.getD i 0).toNat)
    ++ bytesOf 8 (t.rs.length + 2 ^ 32 * t.spilled) ++ bytesOf 8 t.rand.toNat ++ bytesOf 8 t.gindex
    ++ bytesOf 8 t.gridpend.toNat ++ bytesOfWords t.regs

/-- A counter in 32 bits that saturates. -/
def bump32 (n : BitVec 32) : BitVec 32 := if n = 0xFFFFFFFF then n else n + 1

/-- WRITTEN and DROPPED of a core's segment of the trace or journey buffer (R369). -/
def Vf.seg (v : Vf) (journey : Bool) (core : Nat) : Nat × Nat :=
  (((if journey then v.jrWritten else v.trWritten).find? fun x => x.1 == core).map (·.2)).getD (0, 0)

/-- The counts of a segment changed. -/
def Vf.setSeg (v : Vf) (journey : Bool) (core written dropped : Nat) : Vf :=
  if journey then { v with jrWritten := setAssoc core (written, dropped) v.jrWritten }
  else { v with trWritten := setAssoc core (written, dropped) v.trWritten }

/-- A record dropped (R369): it counts in DROPPED and in `lostcnt`. -/
def Vf.dropRec (v : Vf) (journey : Bool) (core : Nat) : Vf :=
  let (w, d) := v.seg journey core
  let v := { v.setSeg journey core w (d + 1) with headPend := (journey, core) :: v.headPend.erase (journey, core) }
  if journey then { v with lostJourney := bump32 v.lostJourney } else { v with lostTrace := bump32 v.lostTrace }

/-- A trace or journey record enters the core's queue of 16, or is dropped (R369, R371). -/
def State.pushRec (s : State) (core vf : Nat) (journey : Bool) (r : List Byte) : State :=
  if (s.core core).trace.length < 16 then s.onCore core fun c => { c with trace := c.trace ++ [r] }
  else s.onVf vf fun v => v.dropRec journey core

/-- A trace record (R369). -/
def State.traceRec (s : State) (core vf kind maskBit ctx : Nat) (p1 p2 : Nat) : State :=
  let v := s.vf vf
  if bitAt v.trctl 0 && bitAt v.trctl (8 + maskBit) then
    s.pushRec core vf false
      (bytesOf 8 (s.cycle core).toNat ++ bytesOf 1 kind ++ [0] ++ bytesOf 2 ctx ++ bytesOf 4 0 ++ bytesOf 8 p1 ++ bytesOf 8 p2)
  else s

/-- The page of a token: VA[55:12] (R321). -/
def pageOf (va : DWord) : DWord := (va.extractLsb' 12 44).setWidth 64

/-- The token a fault joins (R321): one that no response has answered, of the CCP of that core, with the same context, source, unit,
class, code, access and page. -/
def State.findToken (s : State) (core : Nat) (r : FaultRec) : Option Token :=
  s.tokens.find? fun t => t.core == core && t.ctx == r.ctx && t.source == r.source && t.unit == r.unit && t.cls == r.cls
    && t.code == r.code && t.access == r.access && t.page == pageOf r.va && t.answer.isNone

/-- A fault that needs a response (R321): it joins the token of its key through `add`, or is the first of a new token, for which `r` is
recorded under its number.  A thread's record waits until what the thread accessed before is complete (R106). -/
def State.takeToken (s : State) (core : Nat) (r : FaultRec) (add : Token → Token) : Nat × State :=
  match s.findToken core r with
  | some t => (t.num, s.setToken (add t))
  | none =>
    let n := s.nextId + 1
    let t : Token :=
      { num := n, vf := r.vf, ctx := r.ctx, core := core, source := r.source, unit := r.unit, cls := r.cls, code := r.code
        access := r.access, page := pageOf r.va, threads := [], chan := none, starts := [], replays := [], answer := none }
    (n, ({ s with nextId := n }.setToken (add t)).postRecord
      { r with token := n, behind := r.behind.map fun (b : Nat × Nat × Nat × Nat) => (b.1, b.2.1, b.2.2.1, n) })

/-- A CLASS 0x15 or page-request record that no token follows (R322, R329, R356). -/
def State.lostRecord (s : State) (ctx source unit cls code access : Nat) (va pc : DWord) (gindex : Nat) : State :=
  let n := s.nextId + 1
  { s with nextId := n }.postRecord
    { vf := vfOf ctx, cls := cls, code := code, access := access, source := source, unit := unit, ctx := ctx, token := n, va := va,
      pc := pc, gindex := BitVec.ofNat 64 gindex, extra := 0, dump := none, behind := none }

/-- Whether a fault slot may act on a fault of a thread (R295): not on class 0x14 or 0x18, nor in patch mode, nor for the firmware's
own thread, which no slot matches (R287). -/
def Thread.slotted (t : Thread) (cls : Nat) : Bool := !t.patched && !isFirmware t.part && cls != 0x14 && cls != 0x18

/-- A system fault of a thread that is delivered (R36, R320-R322): it parks at `to_`, joins a token, and the token's first fault posts
a record, which waits until what the thread accessed before has been performed (R106).  NIBTRAP is served by the firmware itself and posts
none (R321). -/
def State.parkFault (s : State) (th : Thread) (cls code access : Nat) (va extra : DWord) (dump : Option Nat) (to_ : Target) : State :=
  match s.team? th.core th.team with
  | none => s
  | some tm =>
    let vf := vfOf tm.ctx
    let s := s.leavePack th.core th.part th.slot
    let s := s.traceRec th.core vf 5 2 tm.ctx th.gindex to_.key.toNat
    let s := if th.patched then s.onCtx tm.ctx fun c => { c with ctxerr := c.ctxerr ||| 4 } else s
    if cls = 0x14 then s.onThread th.core th.part th.slot fun t => { t with life := .parked (.fault 0), at_ := to_ }
    else
      let (n, s) := s.takeToken th.core
        { vf := vf, cls := cls, code := code, access := access, source := 0, unit := th.core, ctx := tm.ctx, token := 0, va := va
          pc := to_.key, gindex := BitVec.ofNat 64 th.gindex, extra := extra, dump := dump, behind := some (th.core, th.part, th.slot, 0) }
        fun tk => { tk with threads := tk.threads ++ [(th.core, th.part, th.slot)] }
      s.onThread th.core th.part th.slot fun t => { t with life := .parked (.fault n), at_ := to_ }

/-- A thread enters patch mode (R294, R297): it leaves its pack and waits for its flags; the save and the filing are
PATCH_MODE_ENTRY.  The routine is that of the image whose slot matched (R299). -/
def State.startPatch (s : State) (th : Thread) (a : TrapAt) (slotNo : Nat) (emu : DWord) : State :=
  (s.leavePack th.core th.part th.slot).onThread th.core th.part th.slot fun t =>
    { t with life := .inFlight, at_ := if a.header then resumeHeader a.pc 0 else resumeAt a.pc a.hdrAt a.hdr 0
             patch := some ⟨a.inst, a.pc, a.hdr, BitVec.ofNat 64 slotNo, true, emu, a.hdrAt, a.pipe, s.nib.serial + 1⟩ }

/-- The fault slot that acts on a trap or fault of a thread: its action, its number and its EMU (R287, R295). -/
def State.trapSlot (s : State) (ctx : Nat) (th : Thread) (cls op : Nat) (hdr : DWord) : Nat × Nat × DWord :=
  if th.slotted cls then s.faultSlot ctx (faultWord cls op) hdr else (0, 0, 0)

/-- Whether a user trap parks the thread instead: a fault slot sends it to the CCP (R295), or it is raised in patch mode (R298). -/
def State.trapParks (s : State) (ctx : Nat) (th : Thread) (cause op : Nat) (hdr : DWord) : Bool :=
  th.patched || (s.trapSlot ctx th cause op hdr).1 == 1

/-- A system fault of a thread at a word (R295, R320): a fault slot that emulates sends it to a routine, and every other action delivers
it as it would have gone without the slot. -/
def State.wordFault (s : State) (th : Thread) (cls code access : Nat) (va : DWord) (op : Nat) (a : TrapAt) (to_ : Target) : State :=
  match s.team? th.core th.team with
  | none => s
  | some tm =>
    let (act, n, emu) := s.trapSlot tm.ctx th cls op a.hdr
    if act = 3 then s.startPatch th a n emu else s.parkFault th cls code access va 0 none to_

/-- A system fault of a thread at a clause header: of the header's or the clause's fetch, with the header 0 (R107, R391), or of a flag that
the header waits for (R320).  Its fault word has OP 0 (R295). -/
def State.headerFault (s : State) (th : Thread) (cls code access : Nat) (va at_ hdr : DWord) (pipe : Nat) (to_ : Target) : State :=
  s.wordFault th cls code access va 0 ⟨at_, hdr, at_, hdr, false, true, pipe⟩ to_

/-- A user trap of a thread (R128, R295, R298): the context's handler, unless a fault slot takes it to the CCP or to a
routine; in patch mode it goes to the CCP, and the park sets PATCHFLT.  Filed at the trap vector 4 clocks after the word issues. -/
def State.userTrap (s : State) (th : Thread) (cause : Nat) (tval : DWord) (a : TrapAt) (op due : Nat) : State :=
  match s.team? th.core th.team with
  | none => s
  | some tm =>
    let here : Target := if a.header then resumeHeader a.pc th.codeImage else resumeAt a.pc a.hdrAt a.hdr th.codeImage
    if th.patched then s.parkFault th cause 0 0 a.pc 0 none here
    else
      let (act, n, emu) := s.trapSlot tm.ctx th cause op a.hdr
      if act = 1 then s.parkFault th cause 0 0 a.pc 0 none here
      else if act = 3 then s.startPatch th a n emu
      else
        let s := s.leavePack th.core th.part th.slot
        let s := s.onThread th.core th.part th.slot fun t => { t.takeTrap cause tval a with life := .inFlight }
        s.schedule th.core th.part ⟨th.slot, normalAt (s.ctx tm.ctx).trapvec 0, due, a.pipe, none, true, .no⟩

/-- Where `tret` MOD 0 and 1 resume (R130), from `tpc` and the resume record as they stand. -/
def Thread.retTarget (t : Thread) (skip : Bool) : Target :=
  let rank : BitVec 13 := t.tcause.extractLsb' 32 13
  let conv := bitAt t.tcause 45
  if bitAt t.tcause 47 then resumeHeader t.tpc 0
  else if !skip then ⟨t.tpc, true, t.thdr, rank, conv, 0⟩
  else if bitAt t.tcause 46 then normalAt (t.tpc + 8) 0
  else if t.tpc = t.thdr + BitVec.ofNat 64 (8 * t.tcnt) then resumeHeader (t.tpc + 8) 0
  else ⟨t.tpc + 8, true, t.thdr, rank, conv, 0⟩

/-- A thread's own next instruction after the word being issued (R36): the next word, the header that follows, or
after the last word of a clause with REFORM set the normal pod of its next address. -/
def nextTarget (cur : Cur) (t : Thread) : Target :=
  let h := readHeader cur.hdr
  let follow := cur.hdrAt + BitVec.ofNat 64 (8 * h.count + 8)
  if cur.pos + 1 < h.count then resumeAt (cur.pc + 8) cur.hdrAt cur.hdr cur.nib
  else if h.reform then normalAt (t.next.getD follow) cur.nib
  else resumeHeader follow cur.nib

/-- The word itself as a resume point (R36). -/
def sameTarget (cur : Cur) : Target := resumeAt cur.pc cur.hdrAt cur.hdr cur.nib

/-- The trap point of the word being issued. -/
def trapHere (cur : Cur) : TrapAt :=
  let h := readHeader cur.hdr
  ⟨cur.pc, cur.word, cur.hdrAt, cur.hdr, h.reform && cur.pos + 1 == h.count, false, cur.stream % 2⟩

/-- Park a thread at a point (R36): it leaves its pack. -/
def State.park (s : State) (th : Thread) (p : Park) (t : Target) (chk : Option Check) : State :=
  (s.leavePack th.core th.part th.slot).onThread th.core th.part th.slot fun x => { x with life := .parked p, at_ := t, chk := chk }

/-- The check of R32 that a thread's own next address carries when it is the fall-through of a clause with REFORM set. -/
def nextCheck (cur : Cur) : Option Check :=
  let h := readHeader cur.hdr
  if cur.pos + 1 < h.count ∨ !h.reform then none else some ⟨cur.pc, cur.word, cur.hdrAt, cur.hdr, true, true, false⟩

/-- Whether barrier `b` of a team may complete (R38, R132, R239): it holds no engine arrival, and every live thread has
arrived and counts, and is not parked in any way other than at `b`, nor standing at another barrier. -/
def State.barrierReady (s : State) (c tm b : Nat) : Bool :=
  match s.team? c tm with
  | none => false
  | some t =>
    let ths := (s.threadsOf c tm).filter fun x => x.live
    let ok (x : Thread) : Bool := bitAt x.arrived b && bitAt x.counted b && (x.atBar.all fun a => a.b == b) &&
      match x.life with
      | .parked (.barrier b') => b' == b
      | .parked _ => false
      | _ => true
    !(t.engArr.any fun e => e.1 == b) && !ths.isEmpty && ths.all ok

/-- The threads whose word at barrier `b` came in this clock and did not complete it park there, and the members of their sub-groups are
held with them (R37, R132). -/
def State.barrierParks (s : State) (c tm b : Nat) : State :=
  let here := ((s.threadsOf c tm).map s.again).filter fun t => t.team == tm && (t.atBar.map (·.b)) == some b
  let sg := ((s.team? c tm).map (·.sg)).getD 1
  let owners (t : Thread) : List Nat :=
    (here.filter fun x => (x.atBar.map (·.own)) == some true && x.part == t.part && x.tid / sg == t.tid / sg).map (·.slot)
  here.foldl (fun s t =>
    match t.atBar with
    | none => s
    | some a =>
      let x := { s.again t with atBar := none }
      let ps := owners t
      if a.own then ((s.setThread x).pull c t.part t.slot).park x (.barrier b) a.to_ a.chk
      else if ps.isEmpty then s.setThread x
      else ((s.setThread x).pull c t.part t.slot).park { x with hold37 := ps } .held a.to_ a.chk |>.onThread c t.part t.slot fun y =>
        { y with hold37 := ps }) s

/-- Barrier `b` completes (R132): every ARRIVED bit of it clears, every thread parked at it is released, and one whose word
completed it goes on. -/
def State.completeBarrier (s : State) (c tm b : Nat) : State :=
  (s.threadsOf c tm).foldl (fun s t =>
    match s.thread? c t.part t.slot with
    | none => s
    | some x =>
      let x' := { x with arrived := x.arrived &&& ~~~(1#16 <<< b), counted := x.counted &&& ~~~(1#16 <<< b)
                         atBar := if (x.atBar.map (·.b)) = some b then none else x.atBar }
      if x.life = .parked (.barrier b) then s.release x' x.at_ s.clock else s.setThread x') s

/-- A timeline of a team. -/
def Team.tl (t : Team) (k : Nat) : Timeline := t.tls.getD k .reset

/-- Values that complete in order move COMPLETED up (R231). -/
def Timeline.advance (t : Timeline) : Timeline :=
  let done := t.pending.takeWhile fun c => c.done
  { t with pending := t.pending.dropWhile fun c => c.done
           completed := (done.getLast?.map (·.val)).getD t.completed }

/-- A command takes the next value of a timeline (R231). -/
def Timeline.assign (t : Timeline) : Nat × Timeline :=
  (t.assigned + 1, { t with assigned := t.assigned + 1, pending := t.pending ++ [⟨t.assigned + 1, false⟩] })

/-- A value's own effects are complete (R231); a failed one raises FAILV (R232). -/
def Timeline.finish (t : Timeline) (v : Nat) (failed : Bool) : Timeline :=
  { t with pending := t.pending.map fun c => if c.val = v then { c with done := true } else c
           failv := if failed then max t.failv v else t.failv }

/-- Whether an operation is an acquire of more than thread scope (R102, R171, R290).  DESIGN CHOICE (log 57): the half that an encoded `acq_rel` adds to
`ld.fe` or `st.fe` has the encoded scope, so that at thread scope there is none; R171 can also be read as team scope. -/
def Op.acquires (o : Op) : Bool :=
  match o.kind with
  | .load | .atomic _ | .reduction _ | .localLoad | .fence _ | .result => o.order % 2 == 1 && o.scope != 0
  | .fullEmpty ld => ld || (o.order % 2 == 1 && o.scope != 0)
  | .ctlWr _ => true
  | _ => false

/-- Whether an operation reads global memory through L1's order of its line (R83, R100). -/
def Op.isLoad (o : Op) : Bool :=
  match o.kind with
  | .load | .refill | .prefetch | .patchLoad => true
  | _ => false

/-- A load in flight whose request has been sent. -/
def Op.filling (o : Op) : Bool := o.isLoad && o.stage != .queued

/-- Invalidate an L1 entirely (R102); fills requested before are not installed. -/
def Core.flash (c : Core) : Core :=
  { c with l1 := [], ops := c.ops.map fun o => if o.filling then { o with noInstall := true } else o }

/-- Release the threads that wait on a timeline of a team, and clear the tags and engine arrivals it covers (R233, R239,
R244). -/
def State.wakeTimeline (s : State) (c tm k : Nat) : State :=
  match s.team? c tm with
  | none => s
  | some t =>
    let n := (t.tl k).completed
    let open_ (g : Nat × Nat × Nat) : Bool := !(g.2.1 == k && decide (g.2.2 ≤ n))
    let s := s.setTeam { t with tags := t.tags.filter open_, engArr := t.engArr.filter open_ }
    (s.threadsOf c tm).foldl (fun s th =>
      match th.life with
      | .parked (.timeline k' v sc) =>
        if k' = k ∧ v ≤ n then
          (if 4 ≤ sc then s.onCore c Core.flash else s).release th th.at_ s.clock
        else s
      | .parked (.handle k' v) => if k' = k ∧ v ≤ n then s.release th th.at_ s.clock else s
      | _ => s) s

/-- A timeline of a team changed, its values completed in order, and its waiters released. -/
def State.onTimeline (s : State) (c tm k : Nat) (f : Timeline → Timeline) : State :=
  (s.onTeam c tm fun t => { t with tls := t.tls.set k (f (t.tl k)).advance }).wakeTimeline c tm k

end Sys2Proof.Machine
end

