-- ==== Sys2Proof/Machine/Issue.lean ====
section
/-! DEFINITION. What happens to every word that comes to execute (R46, R114, R122, R131, R135, R233): which threads it acts on, which trap, park or are held, and which carry out the effect. -/

namespace Sys2Proof.Machine

/-- The word being issued with its team, its pack, the threads of the pack in pack order (R26) and those whose guard holds. -/
structure Issue where
  cur  : Cur
  team : Team
  pack : Pack
  all  : List Thread
  act  : List Thread
deriving DecidableEq, Repr

/-- Why a thread parks at the word in its own right (R36): with its resume point after the word or at it, or on a
system fault at the word. -/
inductive ParkSpec where
  | at_ (p : Park) (after : Bool)
  | fault (cls code access : Nat) (va : DWord)
deriving DecidableEq, Repr

/-- What an instruction's entry adds to the common rules: the translations a thread's accesses need, the traps and
parks of its own, and its effect on the threads that carry it out. -/
structure Meaning where
  xl    : State → Issue → Thread → List (Acc × DWord)
  traps : State → Issue → Thread → Option (Nat × DWord)
  parks : State → Issue → Thread → Option ParkSpec
  run   : State → Issue → List Thread → State

/-- An instruction that neither translates, traps nor parks: only its effect. -/
def plain (run : State → Issue → List Thread → State) : Meaning :=
  ⟨fun _ _ _ => [], fun _ _ _ => none, fun _ _ _ => none, run⟩

/-- Whether a call pushes onto a full on-chip stack, or a return refills, in a thread (R126). -/
def Thread.spills (t : Thread) (op : Nat) : Bool :=
  ((op == 3 || op == 4) && t.rs.length == 4) || (op == 5 && t.rs.length == 1 && t.spilled != 0)

/-- The guards of a word's fields (R114). -/
def guardsOf (f : Fields) : Guard × Guard :=
  match f with
  | .r f => (f.g0, f.g1)
  | .i f => (f.g0, f.g1)
  | .l f => (f.g0, f.g1)
  | .b f => (f.g0, f.g1)
  | .e f => (f.g0, f.g1)
  | .u f => (f.g0, f.g1)

/-- The word being issued, with the threads of the pack's team in its slots (R25) and those its guards select (R114), but for those that a
rewrite passes over (R294); none when no word is being issued. -/
def State.issue (s : State) (g0 g1 : Guard) : Option Issue :=
  match s.cur with
  | none => none
  | some cur =>
    match ((s.part cur.core cur.part).stream cur.stream).pack with
    | none => none
    | some pk =>
      match s.team? cur.core pk.team with
      | none => none
      | some tm =>
        let all := (pk.slots.eraseDups.filterMap fun sl => s.thread? cur.core cur.part sl).filter fun t => t.team == pk.team
        some ⟨cur, tm, pk, all, all.filter fun t => holdsBoth g0 g1 t && !pk.skip.contains t.slot⟩

/-- The first 64-bit scalar field of the E and U forms that names an odd scalar (R46): fields with their positions. -/
def oddScalar (fs : List (Nat × Nat)) : Option DWord :=
  match fs.find? fun p => p.1 % 2 == 1 with
  | some p => some (badScalar p.1 p.2)
  | none => none

/-- 64-bit scalar fields of a U-form word of the uniform group with MOD `md` (R46, R162). -/
def uniPairs (f : UWord) (w d b : Nat) : List (Nat × Nat) :=
  (if d = 2 then [(f.d.toNat, 0)] else []) ++ (if w = 2 then [(f.a.toNat, 1)] else [])
    ++ (if b = 2 ∧ !f.bi then [(f.b.toNat, 2)] else [])

/-- Registers of A9, D9 and B9 of a uniform word (R162). -/
def uniShape (i : Instr) (f : UWord) : Nat × Nat × Nat :=
  let w := typeRegs f.md.toNat
  match i with
  | .uShl _ | .uShr _ | .uSar _ | .uBfe _ => (w, w, 1)
  | .uPopc _ | .uClz _ | .uCtz _ => (w, 1, 0)
  | .uNot _ => (w, w, 0)
  | .uMov _ => (if f.bi then 0 else w, w, 0)
  | .uLea _ => (2, 2, w)
  | _ => (w, w, w)

/-- The pairs that a word of form E or U names by 9-bit scalar numbers (R46). -/
def scalarPairs (i : Instr) : List (Nat × Nat) :=
  match i.fields with
  | some (_, .e f) => [(f.hnd.toNat, 0), (f.shp.toNat, 1)]
  | some (op, .u f) =>
    if 0x300 ≤ op then let (a, d, b) := uniShape i f; uniPairs f a d b
    else if op = 0x2C7 ∨ op = 0x2C8 then [(f.a.toNat, 1)]
    else if op = 0x2C9 then [(f.d.toNat, 0)]
    else []
  | _ => []

/-- Scalars from CRD that an engine command reads (R234). -/
def crdTop (i : Instr) : Nat :=
  match i with
  | .cp _ | .coll _ => 8
  | .cpRed f => if bitAt f.md 1 then 10 else if bitAt f.md 0 then 9 else 8
  | .cpGat _ => 9
  | _ => 0

/-- Scalars that a word of form E or U reads (R233). -/
def scalarReadsEU (i : Instr) : List Nat :=
  match i.fields with
  | some (_, .e f) => [f.shp.toNat, f.shp.toNat + 1] ++ (List.range (crdTop i)).map fun k => f.crd.toNat + k
  | some (op, .u f) =>
    if 0x300 ≤ op then
      let (a, _, b) := uniShape i f
      ((List.range a).map fun k => f.a.toNat + k) ++ (if f.bi then [] else (List.range b).map fun k => f.b.toNat + k)
    else []
  | _ => []

/-- The bad operand of a word, by R46. -/
def badOperand (frame : Nat) (i : Instr) : Option DWord :=
  match operandFault frame i with
  | some v => some v
  | none => oddScalar (scalarPairs i)

/-- The row registers that an `mmac` or `mdual` reads beside its first, by the shape word and the slot of its issuing thread (R206, R210,
R216). -/
def rowReads (is : Issue) (i : Instr) : List Nat :=
  let shape (f : RWord) : Nat := (is.act.head?.map fun t => natOfWords (readSrc is.pack.latches is.team t f.c 1)).getD 0
  let rows (f : RWord) (n : Nat) : List Nat := if isV f.a then (List.range n).map fun k => f.a.toNat + k else []
  match i with
  | .mmac f =>
    let fmt := ((is.team.fs.getD (f.x.extractLsb' 0 3).toNat 0).extractLsb' 0 4).toNat
    let keq := 16 * 2 ^ (shape f / 2 ^ 12 % 16)
    let k := keq * (if fmt = 4 then 2 else if fmt = 6 then 4 else 1)
    rows f (if isTwin fmt then k * twinBits fmt / 32 + ceilDiv k 64 else k / 2)
  | .mdual f => rows f (16 * (shape f / 2 ^ 8 % 16 + 1))
  | _ => []

/-- The park of a thread that reads a register whose entry of the store is poisoned (R320, R352): the manual gives no address for it, and
the record holds 0 (log 51). -/
def poisonRead (is : Issue) (i : Instr) (t : Thread) : Option ParkSpec :=
  if t.badRegs.isEmpty then none
  else if (vectorReads i ++ rowReads is i).any fun r => t.badRegs.contains r then some (.fault 0x12 0 0 0) else none

/-- The pending handle or grid handle that a thread's operands read (R135, R233), or the poison (R320). -/
def pendingRead (s : State) (is : Issue) (i : Instr) (t : Thread) : Option ParkSpec :=
  let reads := scalarReads i ++ scalarReadsEU i
  match is.team.tags.find? fun g => reads.any fun r => r / 2 * 2 == g.1 with
  | some g => some (.at_ (.handle g.2.1 g.2.2) false)
  | none =>
    let exempt := match i with
      | .lwait _ | .lwaitTest _ => true
      | _ => false
    if exempt then poisonRead is i t
    else
      match (vectorReads i ++ rowReads is i).find? fun r => bitAt t.gridpend (r / 2) with
      | some r =>
        let seq := (natOfWords (t.vregs (r / 2 * 2) 2)) % 2 ^ 56
        let g := (s.grids.find? fun g => g.ctx == is.team.ctx && g.launchid == seq).map (·.gid)
        some (.at_ (.grid (g.getD 0)) false)
      | none => poisonRead is i t

/-- Change the pack of the stream that issues. -/
def State.onPack (s : State) (cur : Cur) (f : Pack → Pack) : State :=
  s.onPart cur.core cur.part fun q =>
    let t := q.stream cur.stream
    match t.pack with
    | none => q
    | some k => q.setStream { t with pack := some (f k) }

/-- Apply a park (R36). -/
def applyPark (s : State) (is : Issue) (t : Thread) (p : ParkSpec) : State :=
  match p with
  | .at_ k after => if after then s.park t k (nextTarget is.cur t) (nextCheck is.cur) else s.park t k (sameTarget is.cur) none
  | .fault cls code access va => s.wordFault t cls code access va (opOf is.cur.word).toNat (trapHere is.cur) (sameTarget is.cur)

/-- Hold the other live members of the sub-groups of threads that parked or trapped at the word (R37, R131, R365).  Those held by a park
are held after the whole word, so within a rewrite after its last word (R294), and not before the word has executed for those it
acts on, which `done` says (R114). -/
def applyHolds (s : State) (cur : Cur) (tm : Team) (conv : Bool) (all : List Thread) (trapped : List Nat) (done : Bool) : State :=
  if !conv || tm.sg == 1 then s
  else
    let now (t : Thread) : Thread := (s.thread? cur.core cur.part t.slot).getD t
    let pack := ((s.part cur.core cur.part).stream cur.stream).pack
    let trapped := trapped.filter fun sl => all.any fun t => t.slot == sl && (!(now t).isParked || (now t).life == .parked (.fault 0))
    let parked := (all.filter fun t => (now t).isParked).map (·.slot) ++ (pack.map (·.stopped)).getD []
    let more := (pack.map fun k => !k.rewrite.isEmpty || (k.inRewrite && !k.skip.isEmpty)).getD false
    let s := s.onPack cur fun k => { k with stopped := parked }
    let sgOfSlot (sl : Nat) : Option Nat := (s.thread? cur.core cur.part sl).map fun t => tm.sgOf t
    let inPack (sl : Nat) : Bool := (pack.map fun k => k.slots.contains sl).getD false
    let sgs := ((all.map fun t => tm.sgOf t)).eraseDups
    sgs.foldl (fun s sg =>
      let ps := parked.filter fun sl => sgOfSlot sl == some sg && !trapped.contains sl
      let ts := trapped.filter fun sl => sgOfSlot sl == some sg
      let rest := all.filter fun t => tm.sgOf t == sg && !ps.contains t.slot && !ts.contains t.slot && inPack t.slot
      if !ts.isEmpty then
        let s := rest.foldl (fun s t =>
          (s.park (now t) .held (sameTarget cur) none).onThread cur.core cur.part t.slot fun x =>
            { x with hold131 := true, hold37 := ps }) s
        let nib := ts.filter fun sl => ((s.thread? cur.core cur.part sl).map fun t => t.life == .parked (.fault 0) || (!t.patched && t.patch.isSome)).getD false
        s.onPart cur.core cur.part fun q =>
          { q with groups := ⟨tm.slot, ts, nib, rest.map (·.slot), sameTarget cur⟩ :: q.groups }
      else if !ps.isEmpty && done && !more then
        rest.foldl (fun s t =>
          (s.park (now t) .held (nextTarget cur (now t)) (nextCheck cur)).onThread cur.core cur.part t.slot fun x => { x with hold37 := ps }) s
      else s) s

/-- The latch entry a HOLD field makes (R54): the selected `v` source of 32 or 64 bits, with every thread's value. -/
def heldSource (is : Issue) (i : Instr) : Option Latch :=
  let mk (o : Opd) (sel : BitVec 8) : Option Latch :=
    if o.isSrc ∧ isV sel ∧ (o.regs = 1 ∨ o.regs = 2) then
      some ⟨sel, o.regs, is.all.map fun t => (t.slot, readSrc is.pack.latches is.team t sel o.regs), 2⟩
    else none
  match i.fields, i.entry with
  | some (_, .r f), some e =>
    if f.hold = 1 then mk e.opds.a f.a else if f.hold = 2 then mk e.opds.b f.b else if f.hold = 3 then mk e.opds.c f.c else none
  | some (_, .i f), some e => if f.hold = 1 then mk e.opds.a f.a else none
  | _, _ => none

/-- The latch after an issue: entries live for the next two words, and the oldest is replaced when three are held (R54). -/
def ageLatches (ls : List Latch) (new : Option Latch) : List Latch :=
  let ls := (ls.map fun l => { l with left := l.left - 1 }).filter fun l => 0 < l.left
  match new with
  | none => ls
  | some l => (ls ++ [l]).drop (ls.length + 1 - 3)

/-- A latch entry after a fixed-latency write to a destination. -/
def Latch.write (l : Latch) (dw : Dest × Word) : Latch :=
  match dw.1 with
  | .v sl r => l.update sl r dw.2
  | _ => l

/-- A fixed-latency write of registers of a thread: visible to its next word, and to the latch (R30, R54). -/
def writeFixed (s : State) (is : Issue) (ds : List Dest) (ws : List Word) : State :=
  let s := s.writeDests is.cur.core is.cur.part ds ws
  s.onPack is.cur fun k => { k with latches := k.latches.map fun l => (List.zip ds ws).foldl Latch.write l }

/-- Mark the issuing stream as waiting for walks and ask for them (R95). -/
def askWalks (s : State) (is : Issue) (need : List (Acc × DWord)) : State :=
  let c := is.cur.core
  let s := need.foldl (fun s n => s.addWalk (dieOf c) is.team.ctx n.2 (.word c is.cur.part is.cur.stream) n.1) s
  s.onPart c is.cur.part fun q => q.setStream { q.stream is.cur.stream with walking := true }

/-- What stops a thread at a word (R46, R122, R135, R233): a bad operand, a pending handle that it waits for, or a trap of the
instruction's own. -/
def Meaning.fate (m : Meaning) (s : State) (is : Issue) (i : Instr) (t : Thread) : Option (Nat × DWord) × Option ParkSpec :=
  match badOperand is.team.frame i with
  | some v => (some (4, v), none)
  | none =>
    match pendingRead s is i t with
    | some p => (none, some p)
    | none => (m.traps s is t, none)

/-- A word that has passed R121 executes: the common rules, then the instruction's own (R46, R114, R122, R131). -/
def runWord (i : Instr) (m : Meaning) (s : State) : Res :=
  match i.fields with
  | none => .next s
  | some (_, f) =>
    match s.issue (guardsOf f).1 (guardsOf f).2 with
    | none => .next s
    | some is =>
      let tr := trapHere is.cur
      let op := (opOf is.cur.word).toNat
      let fates := is.act.map fun t => (t, m.fate s is i t)
      let clear := (fates.filter fun x => x.2.1.isNone && x.2.2.isNone).map (·.1)
      -- translations of the threads that go on
      let faults := ((s.part is.cur.core is.cur.part).stream is.cur.stream).faults
      let need := (clear.flatMap (m.xl s is)).filter fun n =>
        s.xlateCore is.cur.core is.team.ctx faults n.1 n.2 == .miss
      if !need.isEmpty then .next (askWalks s is need)
      else
        let own := clear.map fun t => (t, m.parks s is t)
        let trapped := (fates.filterMap fun x => x.2.1.map fun c => (x.1, c))
        let parks := (fates.filterMap fun x => x.2.2.map fun p => (x.1, p)) ++ (own.filterMap fun x => x.2.map fun p => (x.1, p))
        let trapSgs := (trapped.filter fun x => !s.trapParks is.team.ctx x.1 x.2.1 op is.cur.hdr).map fun x => is.team.sgOf x.1
        let stopSg (t : Thread) : Bool := is.pack.conv && is.team.sg != 1 && trapSgs.contains (is.team.sgOf t)
        let go := (own.filter fun x => x.2.isNone && !stopSg x.1).map (·.1)
        let s := s.onPack is.cur fun k => { k with latches := ageLatches k.latches (heldSource is i) }
        let s := trapped.foldl (fun s x => s.userTrap x.1 x.2.1 x.2.2 tr op (s.clock + 4)) s
        let s := parks.foldl (fun s x => applyPark s is x.1 x.2) s
        let s := if go.isEmpty then s else m.run s is go
        .next (applyHolds s is.cur is.team is.pack.conv is.all (trapped.map fun x => x.1.slot) true)

/-- A word that takes a trap in every guard-holding thread (R109, R121, R122): its guards are those of the word. -/
def trapWord (w : DWord) (cause : Nat) (tval : DWord) (s : State) : Res :=
  match s.issue (g0Of w) (g1Of w) with
  | none => .next s
  | some is =>
    let tr := trapHere is.cur
    let s := s.onPack is.cur fun k => { k with latches := ageLatches k.latches none }
    let s := is.act.foldl (fun s t => s.userTrap t cause tval tr (opOf is.cur.word).toNat (s.clock + 4)) s
    .next (applyHolds s is.cur is.team is.pack.conv is.all (is.act.map (·.slot)) true)

end Sys2Proof.Machine
end

