-- ==== Sys2Proof/Machine/Results.lean ====
section
/-! DEFINITION. How results reach their destinations: at once for a fixed latency (R30, R58), or as an operation in flight that clears a completion flag when it lands (R34, R139). -/

namespace Sys2Proof.Machine

/-- The registers a source gives a thread. -/
def Issue.src (is : Issue) (t : Thread) (sel : BitVec 8) (n : Nat) : List Word := readSrc is.pack.latches is.team t sel n

/-- A source as a number. -/
def Issue.val (is : Issue) (t : Thread) (sel : BitVec 8) (n : Nat) : Nat := natOfWords (is.src t sel n)

/-- A 64-bit source. -/
def Issue.pair (is : Issue) (t : Thread) (sel : BitVec 8) : DWord := BitVec.ofNat 64 (is.val t sel 2)

/-- The header of the clause that issues. -/
def Issue.hdr (is : Issue) : Header := readHeader is.cur.hdr

/-- The thread of lowest `tid` acts for the pack. -/
def Issue.leader (is : Issue) : Option Thread := is.act.head?

/-- What an instruction computes for a thread: its registers, low word first, and its predicates. -/
structure Out1 where
  vals  : List Word
  preds : List (Nat × Bool)
deriving DecidableEq, Repr

/-- The value a scalar destination takes from the executions of a pack (R58): theirs when they agree, and otherwise
the value of one of them, which one being a free value.  Between executions of different packs the model keeps the last: the manual leaves
open which stays. -/
def State.pickScalar (s : State) (ctx : Nat) (vs : List (List Word)) : List Word × State :=
  match vs with
  | [] => ([], s)
  | v :: rest =>
    if rest.all fun x => x == v then (v, s)
    else
      let (w, s) := s.freshWord ctx
      (vs.getD (w.toNat % vs.length) v, s)

/-- The predicates of a thread written at once; a write to `p7` is discarded (R45, R138). -/
def State.writePreds (s : State) (is : Issue) (t : Thread) (ps : List (Nat × Bool)) : State :=
  s.onThread is.cur.core is.cur.part t.slot fun x => ps.foldl (fun x p => x.setPred p.1 p.2) x

/-- A fixed-latency result for each thread (R30), and for a scalar destination once for the pack (R58).  Each execution writes the scalar in its
turn, so of different values written by different packs the last to execute stays: the model's choice (log 24). -/
def fixRun (dsel : BitVec 8) (n : Nat) (f : State → Issue → Thread → Out1) (s : State) (is : Issue) (go : List Thread) : State :=
  let outs := go.map fun t => (t, f s is t)
  let s := outs.foldl (fun s o => s.writePreds is o.1 o.2.preds) s
  if isS dsel then
    let (w, s) := s.pickScalar is.team.ctx (outs.map fun o => o.2.vals)
    match go with
    | [] => s
    | t :: _ => writeFixed s is (destsOf is.team t dsel n) w
  else outs.foldl (fun s o => writeFixed s is (destsOf is.team o.1 dsel n) o.2.vals) s

/-- An operation in flight with nothing to do, made in a clock. -/
def Op.blank (id word part slot team ctx : Nat) (kind : OpKind) (stage : Stage) (pc : DWord) (clock : Nat) : Op :=
  { id := id, word := word, part := part, slot := slot, team := team, ctx := ctx, kind := kind, stage := stage,
    xlated := true, pc := pc,
    va := 0, pa := 0, loc := 0, ink := false, size := 0, col := 0, data := [], data2 := [], order := 0, scope := 0,
    policy := 0, md := 0, dest := [], vals := [], preds := [], flag := none, line := [], noInstall := false,
    bypass := false, pins := [], poisoned := false, perf := 0, fault := none, also := [], stampAt := clock,
    since := clock, hops := List.replicate 8 0, sampled := false, gindex := 0, wakes := none }

/-- An operation put in flight on a core. -/
def State.addOp (s : State) (core : Nat) (o : Op) : State := s.onCore core fun c => { c with ops := c.ops ++ [o] }

/-- A new operation of the word being issued, for one thread; `f` completes it. -/
def State.newOp (s : State) (is : Issue) (word : Nat) (t : Thread) (kind : OpKind) (stage : Stage) (f : Op → Op) : State :=
  let (id, s) := s.newId
  s.addOp is.cur.core (f (Op.blank id word is.cur.part t.slot is.team.slot is.team.ctx kind stage is.cur.pc s.clock))

/-- Set a thread's completion flag (R34). -/
def State.raiseFlag (s : State) (is : Issue) (t : Thread) (n : Nat) : State :=
  s.onThread is.cur.core is.cur.part t.slot fun x => x.setFlag n

/-- A flagged result that is computed at issue: the flag is set, and an operation in flight carries the value to its
landing (R34, R139, R158). -/
def flagOne (is : Issue) (flag word : Nat) (dsel : BitVec 8) (n : Nat) (pins : List (Nat × Nat)) (s : State) (t : Thread) (o : Out1) : State :=
  (s.raiseFlag is t flag).newOp is word t .result .done fun op =>
    { op with dest := destsOf is.team t dsel n, vals := o.vals, preds := o.preds, flag := some flag, pins := pins }

/-- A flagged result for each thread; a scalar destination takes one value for the pack (R58). -/
def flagRun (fs : Bool) (dsel : BitVec 8) (n : Nat) (f : State → Issue → Thread → Out1) (s : State) (is : Issue) (go : List Thread) : State :=
  let flag := flagOf is.hdr fs
  let outs := go.map fun t => (t, f s is t)
  let (word, s) := s.newId
  if isS dsel then
    let (w, s) := s.pickScalar is.team.ctx (outs.map fun o => o.2.vals)
    outs.foldl (fun s o => flagOne is flag word dsel n [] s o.1 ⟨w, o.2.preds⟩) s
  else outs.foldl (fun s o => flagOne is flag word dsel n [] s o.1 o.2) s

/-- Whether something in flight has still to clear a flag of a thread (R30, R34): another result, a function load or an array word that set
the same flag. -/
def State.flagHeld (s : State) (c p sl n : Nat) : Bool :=
  (s.core c).ops.any (fun o => o.part == p && (o.slot :: o.also).contains sl && o.flag == some n)
    || (s.core c).loads.any (fun l => l.team.isNone && l.part == p && l.slots.contains sl && l.flag == n)
    || ((s.core c).array ++ (s.arrayOf c).array).any fun a => a.core == c && a.part == p && a.slots.contains sl && a.flag == n

/-- A completion flag clears once nothing in flight holds it (R34, R41): a draining thread whose last flag clears frees its slot. -/
def State.flagClears (s : State) (c p sl n : Nat) : State :=
  match (if s.flagHeld c p sl n then none else s.thread? c p sl) with
  | none => s
  | some t =>
    let t := t.clearFlag n
    if t.life = .draining ∧ t.flags = 0 then s.dropThread c p sl else s.setThread t

/-- A word whose packet or descriptor read has failed (R134, R185, R356): its flags clear, and its threads park at the word.
DESIGN CHOICE (log 57): a thread that has exited and is draining has no park, and R185 says only that threads park; its flag clears, and there is no
record of it. -/
def State.parkAtWord (s : State) (core part : Nat) (slots : List Nat) (flag cls code : Nat) (va : DWord) (at_ : TrapAt) (to_ : Target) : State :=
  slots.foldl (fun s sl =>
    match s.thread? core part sl with
    | none => s
    | some t =>
      let s := s.flagClears core part sl flag
      if t.life = .draining then s
      else
        let s := s.pull core part sl
        match s.thread? core part sl with
        | some t => s.wordFault { t with next := none } cls code 0 va (opOf at_.inst).toNat at_ to_
        | none => s) s

/-- Registers only. -/
def regs (ws : List Word) : Out1 := ⟨ws, []⟩

end Sys2Proof.Machine
end

