-- ==== Sys2Proof/Machine/Packet.lean ====
section
/-! DEFINITION. The launch packet's fields (R303), identifiers (R14), the spill area (R126) and Inkwell refresh (R88, R89). -/

namespace Sys2Proof.Machine

/-- KIDX of a packet (R303). -/
def pktKidx (p : List Byte) : Nat := fieldAt p 0 2
/-- MODE. -/
def pktMode (p : List Byte) : Nat := fieldAt p 2 1
/-- The pack width of MODE[1:0]. -/
def pktW (p : List Byte) : Nat := if pktMode p % 4 = 0 then 32 else if pktMode p % 4 = 1 then 64 else 128
/-- SGLOG. -/
def pktSgLog (p : List Byte) : Nat := bitsNat (pktMode p) 2 3
/-- PAIR. -/
def pktPair (p : List Byte) : Bool := (pktMode p).testBit 5
/-- FRAME. -/
def pktFrame (p : List Byte) : Nat := fieldAt p 3 1
/-- SCRATCH. -/
def pktScratch (p : List Byte) : Nat := fieldAt p 4 4
/-- GX, GY and GZ. -/
def pktG (p : List Byte) (k : Nat) : Nat := fieldAt p (8 + 4 * k) 4
/-- DX, DY and DZ. -/
def pktD (p : List Byte) (k : Nat) : Nat := fieldAt p (0x14 + 2 * k) 2
/-- ARGSIZE. -/
def pktArgSize (p : List Byte) : Nat := fieldAt p 0x1A 2
/-- NPRE. -/
def pktNpre (p : List Byte) : Nat := fieldAt p 0x1C 1
/-- NDEP. -/
def pktNdep (p : List Byte) : Nat := fieldAt p 0x1D 1
/-- COMPL. -/
def pktCompl (p : List Byte) : Nat := fieldAt p 0x1E 1
/-- ARGPTR. -/
def pktArgPtr (p : List Byte) : Nat := fieldAt p 0x20 8
/-- PREPTR. -/
def pktPrePtr (p : List Byte) : Nat := fieldAt p 0x28 8
/-- SPILLBASE. -/
def pktSpillBase (p : List Byte) : Nat := fieldAt p 0x30 8
/-- SPILLSTRIDE. -/
def pktSpillStride (p : List Byte) : Nat := fieldAt p 0x38 4
/-- Format slot `k`. -/
def pktFs (p : List Byte) (k : Nat) : Nat := fieldAt p (0x40 + 2 * k) 2
/-- Dependence `k`: SRC and VALUE. -/
def pktDep (p : List Byte) (k : Nat) : Nat × Nat := (fieldAt p (0x50 + 8 * k + 7) 1, fieldAt p (0x50 + 8 * k) 7)
/-- Threads of a team. -/
def pktSize (p : List Byte) : Nat := pktD p 0 * pktD p 1 * pktD p 2
/-- Teams of a grid. -/
def pktTeams (p : List Byte) : Nat := pktG p 0 * pktG p 1 * pktG p 2

/-- The packet of a team's grid. -/
def State.packetOf (s : State) (tm : Team) : List Byte := ((s.grid? tm.gid).map (·.packet)).getD []

/-- The address of a thread's return-stack slot `k` (R126). -/
def State.spillSlot (s : State) (tm : Team) (t : Thread) (k : Nat) : DWord :=
  let p := s.packetOf tm
  BitVec.ofNat 64 (pktSpillBase p + t.gindex * pktSpillStride p + 8 * k)

/-- The three coordinates of a linear index (R14). -/
def coord (idx dx dy k : Nat) : Nat :=
  if k = 0 then idx % dx else if k = 1 then idx / dx % dy else idx / dx / dy

/-- Clocks since the last start of a bank group's window, modulo the schedule's period (R88). -/
def refreshPhase (clock g : Nat) : Nat := (clock + 128000 - 10000 * (g % 12)) % 128000

/-- `ink.next` of a bank group (R89): 0 in a window, else the clocks until the next one. -/
def inkNext (clock g : Nat) : Nat := let r := refreshPhase clock g; if r < 640 then 0 else 128000 - r

end Sys2Proof.Machine
end

