-- ==== Sys2Proof/Machine/Control.lean ====
section
/-! DEFINITION. Control flow, calls, traps, barriers and launches (R124-R137). -/

namespace Sys2Proof.Machine

/-- NOP (R127). -/
def execNop (f : RWord) (s : State) : Res := runWord (.nop f) (plain fun s _ _ => s) s

/-- Each thread records its next address (R125). -/
def setNext (g : Issue → Thread → DWord) (s : State) (is : Issue) (go : List Thread) : State :=
  go.foldl (fun s t => s.onThread is.cur.core is.cur.part t.slot fun x => { x with next := some (g is t) }) s

/-- The target of a B-form word: P + 8 × OFF32 (R117). -/
def branchTarget (pc : DWord) (off : BitVec 32) : DWord := pc + 8 * off.signExtend 64

/-- BRA (R125). -/
def execBra (f : BWord) (s : State) : Res := runWord (.bra f) (plain (setNext fun is _ => branchTarget is.cur.pc f.off)) s

/-- JMP (R125). -/
def execJmp (f : RWord) (s : State) : Res := runWord (.jmp f) (plain (setNext fun is t => is.pair t f.a)) s

/-- The header that follows the clause of the word (R33). -/
def followHeader (cur : Cur) : DWord := cur.hdrAt + BitVec.ofNat 64 (8 * hdrCount cur.hdr + 8)

/-- The fault of a push (R126): beyond the spill stride, or on the spill store's translation. -/
def pushFault (s : State) (is : Issue) (t : Thread) : Option ParkSpec :=
  if t.rs.length < 4 then none
  else
    let va := s.spillSlot is.team t t.spilled
    if pktSpillStride (s.packetOf is.team) < 8 * (t.spilled + 1) then some (.fault 0x13 0 1 va)
    else
      match s.xlateCore is.cur.core is.team.ctx [] .write va with
      | .bad cls code => some (.fault cls code 1 va)
      | _ => none

/-- What a spilling or refilling word goes back to in a thread (R126). -/
def undoOf (is : Issue) (t : Thread) : Undo := ⟨sameTarget is.cur, trapHere is.cur, t.rs, t.spilled⟩

/-- The spill of an entry whose own refill has not landed (R275). -/
def Op.awaitsRefill (o : Op) (part slot : Nat) : Bool := o.of part slot && o.kind == .spill && o.data.isEmpty

/-- A spill store or refill load put in flight, with the translation the word found for it at issue: translated already, or waiting for a walk
that holds the thread's eligibility (R126, R274). -/
def spillOp (is : Issue) (word : Nat) (t : Thread) (kind : OpKind) (a : Acc) (xl : Xl) (va : DWord) (data : List Byte) (s : State) : State :=
  match xl with
  | .ok pa loc ink =>
    (s.touchTlb is.cur.core is.team.ctx va).newOp is word t kind .queued fun o => { o with gindex := t.gindex, va := va, pa := pa, loc := loc, ink := ink, size := 8, data := data }
  | _ =>
    let id := s.nextId
    let s := s.newOp is word t kind .queued fun o => { o with xlated := false, gindex := t.gindex, va := va, size := 8, data := data }
    let s := s.onThread is.cur.core is.cur.part t.slot fun x => { x with xlating := some (undoOf is t) }
    s.addWalk (dieOf is.cur.core) is.team.ctx va (.op is.cur.core id) a

/-- Push (R126): a full on-chip stack first moves its oldest entry to the spill area.  An oldest entry whose own
refill has not landed is stored when it lands; every later one has its value (R275). -/
def pushReturn (word : Nat) (is : Issue) (xl : Thread → Xl) (target : Thread → DWord) (s : State) (t : Thread) : State :=
  let put (x : Thread) : Thread :=
    let x := if x.rs.length = 4 then { x with rs := x.rs.drop 1, spilled := x.spilled + 1 } else x
    { x with rs := x.rs ++ [followHeader is.cur], next := some (target t) }
  let unlanded := t.refill && !(s.core is.cur.core).ops.any fun o => o.awaitsRefill is.cur.part t.slot
  let s := if t.rs.length = 4 then
      spillOp is word t .spill .write (xl t) (s.spillSlot is.team t t.spilled) (if unlanded then [] else bytesOf 8 (t.rs.getD 0 0).toNat) s
    else s
  s.onThread is.cur.core is.cur.part t.slot put

/-- The memory port held for W/32 clocks by a word in which some thread spills or refills (R29, R126). -/
def claimPort (is : Issue) (spills : Bool) (s : State) : State :=
  if spills then s.onPart is.cur.core is.cur.part fun q => { q with memBusy := s.clock + is.team.packW / 32 } else s

/-- A call to each thread's target (R125). -/
def callMeaning (target : Issue → Thread → DWord) : Meaning :=
  { xl := fun _ _ _ => [], traps := fun _ _ _ => none, parks := pushFault
    run := fun s is go =>
      let (word, s) := (claimPort is (go.any fun t => t.spills 3) s).newId
      go.foldl (pushReturn word is (fun t => s.xlateCore is.cur.core is.team.ctx [] .write (s.spillSlot is.team t t.spilled)) (target is)) s }

/-- CALL (R125). -/
def execCall (f : BWord) (s : State) : Res := runWord (.call f) (callMeaning fun is _ => branchTarget is.cur.pc f.off) s

/-- CALLI (R125). -/
def execCalli (f : RWord) (s : State) : Res := runWord (.calli f) (callMeaning fun is t => is.pair t f.a) s

/-- The fault of a refill load (R126, R320): on its translation, or on an entry that is poisoned. -/
def popFault (s : State) (is : Issue) (t : Thread) : Option ParkSpec :=
  if t.rs.length = 1 ∧ t.spilled ≠ 0 then
    let va := s.spillSlot is.team t (t.spilled - 1)
    match s.xlateCore is.cur.core is.team.ctx [] .read va with
    | .bad cls code => some (.fault cls code 0 va)
    | .ok pa loc _ => if loc = 0 ∧ s.readsPoison pa 8 then some (.fault 0x12 0 0 va) else none
    | _ => none
  else none

/-- Pop (R126): the last entry on chip; when spilled entries remain the newest is loaded as the only entry. -/
def popReturn (word : Nat) (is : Issue) (xl : Thread → Xl) (s : State) (t : Thread) : State :=
  let to_ := t.rs.getLast?.getD 0
  if t.rs.length = 1 ∧ t.spilled ≠ 0 then
    let s := spillOp is word t .refill .read (xl t) (s.spillSlot is.team t (t.spilled - 1)) [] s
    s.onThread is.cur.core is.cur.part t.slot fun x => { x with rs := [0], spilled := t.spilled - 1, refill := true, undo := some (undoOf is t), next := some to_ }
  else s.onThread is.cur.core is.cur.part t.slot fun x => { x with rs := x.rs.dropLast, next := some to_ }

/-- RET (R125, R126): an empty on-chip stack is a bad target. -/
def execRet (f : RWord) (s : State) : Res :=
  runWord (.ret f)
    { xl := fun _ _ _ => []
      traps := fun _ _ t => if t.rs.isEmpty then some (5, BitVec.allOnes 64) else none
      parks := popFault
      run := fun s is go =>
        let (word, s) := (claimPort is (go.any fun t => t.spills 5) s).newId
        go.foldl (popReturn word is fun t => s.xlateCore is.cur.core is.team.ctx [] .read (s.spillSlot is.team t (t.spilled - 1))) s } s

/-- EXIT (R41, R127). -/
def execExit (f : RWord) (s : State) : Res :=
  runWord (.exit f) (plain fun s _ go => go.foldl (fun s t => s.exitThread (s.again t)) s) s

/-- YIELD (R127): filed in the resume pod of the next word 4 clocks after issue. -/
def execYield (f : RWord) (s : State) : Res :=
  runWord (.yield f) (plain fun s is go => go.foldl (fun s t =>
    (s.leavePack t.core t.part t.slot).schedule t.core t.part
      ⟨t.slot, nextTarget is.cur t, s.clock + 4, is.cur.stream % 2, nextCheck is.cur, false, .no⟩) s) s

/-- TRAP (R128, R129). -/
def execTrap (f : IWord) (s : State) : Res :=
  runWord (.trap f) { plain (fun s _ _ => s) with traps := fun _ _ _ => some (7, f.imm.setWidth 64) } s

/-- BRK (R129). -/
def execBrk (f : IWord) (s : State) : Res :=
  runWord (.brk f) { plain (fun s _ _ => s) with traps := fun _ _ _ => some (8, f.imm.setWidth 64) } s

/-- The resume point `tret` chooses by MOD (R130). -/
def tretTarget (f : RWord) (is : Issue) (t : Thread) : Target :=
  if f.md = 2 then normalAt (is.pair t f.a) 0 else t.retTarget (f.md == 1)

/-- TRET (R130): filed 4 clocks after issue at the resume point, which is checked there. -/
def execTret (f : RWord) (s : State) : Res :=
  runWord (.tret f) (plain fun s is go => go.foldl (fun s t =>
    let to_ := tretTarget f is t
    let chk : Check := ⟨is.cur.pc, is.cur.word, is.cur.hdrAt, is.cur.hdr, !to_.resume, (trapHere is.cur).last, false⟩
    (s.leavePack t.core t.part t.slot).schedule t.core t.part
      ⟨t.slot, to_, s.clock + 4, is.cur.stream % 2, some chk, false, .tret f.md.toNat⟩) s) s

/-- Whether an operation is an access that a release waits for (R102). -/
def Op.isAccess (o : Op) : Bool :=
  match o.kind with
  | .load | .store | .atomic _ | .reduction _ | .localLoad | .localStore | .fullEmpty _ | .feSet _ | .spill | .refill | .launch _ | .patchSave
    | .patchLoad => true
  | _ => false

/-- Whether a thread has earlier accesses that have not been performed, returned or acknowledged (R102): those of its loads, stores and
atomics, the descriptor read of an `fnld` that has not returned (R266), and those of its array words that have not retired (R219). -/
def State.accessesOf (s : State) (core part slot before : Nat) : Bool :=
  let c := s.core core
  (c.ops.any fun o => o.of part slot && o.isAccess && decide (o.id < before))
    || (c.loads.any fun l => l.part == part && l.slots.head? == some slot && decide (l.id < before) && l.image.isNone)
    || (s.arrayOf core).array.any fun a => a.core == core && a.part == part && a.slot == slot && decide (a.id < before)

/-- A thread arrives at barrier `b` (R132): ARRIVED is set at issue, and the arrival counts once its release wait ends. -/
def arriveAt (b word : Nat) (is : Issue) (s : State) (t : Thread) : State :=
  if bitAt t.arrived b then s
  else
    let m : BitVec 16 := 1#16 <<< b
    let wait := s.accessesOf t.core t.part t.slot s.nextId
    let s := s.onThread t.core t.part t.slot fun x =>
      { x with arrived := x.arrived ||| m, counted := if wait then x.counted else x.counted ||| m }
    if wait then s.newOp is word t (.arrive b) .queued id else s

/-- A barrier word (R132): the arrivals of the pack, then the waits.  Whether a thread that waits parks is known at the clock's end, by
BARRIER_COMPLETE; until then it stands at the barrier, and so do the members that R37 would hold with it. -/
def barrierRun (arrives waits : Bool) (b : Nat) (s : State) (is : Issue) (go : List Thread) : State :=
  let (word, s) := s.newId
  let s := if arrives then go.foldl (arriveAt b word is) s else s
  let wait := if waits then (go.filter fun t => arrives || bitAt t.arrived b).map (·.slot) else []
  let held (t : Thread) : Bool := is.pack.conv && is.team.sg != 1 && is.all.any fun x => wait.contains x.slot && is.team.sgOf x == is.team.sgOf t
  (is.all.filter fun t => wait.contains t.slot || held t).foldl (fun s t =>
    s.onThread t.core t.part t.slot fun x => { x with atBar := some ⟨b, wait.contains t.slot, nextTarget is.cur t, nextCheck is.cur⟩ }) s

/-- The barrier an IMM16 names (R124). -/
abbrev barOf (f : IWord) : Nat := f.imm.toNat % 16

/-- BAR (R132). -/
def execBar (f : IWord) (s : State) : Res := runWord (.bar f) (plain (barrierRun true true (barOf f))) s
/-- BAR_ARR (R132). -/
def execBarArr (f : IWord) (s : State) : Res := runWord (.barArr f) (plain (barrierRun true false (barOf f))) s
/-- BAR_WAIT (R132). -/
def execBarWait (f : IWord) (s : State) : Res := runWord (.barWait f) (plain (barrierRun false true (barOf f))) s

/-- LAUNCH (R134): the flag is set at issue; after its release at system scope the operation reads the packet, and the
landing makes the checks.  A grid of depth 10 launches nothing and reads nothing. -/
def execLaunch (f : RWord) (s : State) : Res :=
  let deep (s : State) (is : Issue) : Bool := ((s.grid? is.team.gid).map fun g => decide (10 ≤ g.depth)).getD false
  runWord (.launch f)
    { xl := fun s is t => if deep s is then [] else [(.read, is.pair t f.a), (.read, is.pair t f.a + 127)]
      traps := fun _ _ _ => none
      parks := fun s is t =>
        if deep s is then none
        else
          let faults := ((s.part is.cur.core is.cur.part).stream is.cur.stream).faults
          firstSome ([is.pair t f.a, is.pair t f.a + 127].map fun va =>
            match s.xlateCore is.cur.core is.team.ctx faults .read va with
            | .bad cls code => some (.fault cls code 0 va)
            | _ => none)
      run := fun s is go =>
        let flag := flagOf is.hdr f.fs
        let (word, s) := s.newId
        go.foldl (fun s t =>
          (s.raiseFlag is t flag).newOp is word t (.launch (f.md.toNat % 8)) (if deep s is then .done else .queued) fun o =>
            { o with va := is.pair t f.a, size := 128, dest := destsOf is.team t f.d 2, flag := some flag, scope := 5
                     noInstall := deep s is, md := is.cur.nib
                     data := bytesOf 8 is.cur.hdrAt.toNat ++ bytesOf 8 is.cur.hdr.toNat ++ bytesOf 8 is.cur.word.toNat
                               ++ bytesOf 8 is.cur.stream }) s } s

/-- The grid that a thread's marked pair names (R135). -/
def State.gridOfPair (s : State) (is : Issue) (t : Thread) (sel : BitVec 8) : Option Nat :=
  if isV sel && bitAt t.gridpend (sel.toNat / 2) then
    let seq := is.val t sel 2 % 2 ^ 56
    some (((s.grids.find? fun g => g.ctx == is.team.ctx && g.launchid == seq).map (·.gid)).getD 0)
  else none

/-- LWAIT (R135): parks on a marked pair, and otherwise completes as an acquire at device scope. -/
def execLwait (f : RWord) (s : State) : Res :=
  runWord (.lwait f)
    { plain (fun s is _ => s.onCore is.cur.core Core.flash) with
      parks := fun s is t => (s.gridOfPair is t f.a).map fun g => .at_ (.grid g) false } s

/-- LWAIT_TEST (R135): 1 when the pair is not marked. -/
def execLwaitTest (f : RWord) (s : State) : Res :=
  runWord (.lwaitTest f) (plain (fixRun f.d 1 fun s is t => regs [if (s.gridOfPair is t f.a).isSome then 0 else 1])) s

/-- The value of a special register (R136, R137). -/
def sregValue (n : Nat) (s : State) (is : Issue) (t : Thread) : Nat :=
  let p := s.packetOf is.team
  if n = 0 then t.tid
  else if n ≤ 3 then coord t.tid (pktD p 0) (pktD p 1) (n - 1)
  else if n ≤ 6 then pktD p (n - 4)
  else if n ≤ 0xA then coord is.team.index (pktG p 0) (pktG p 1) (n - 8)
  else if n ≤ 0xE then pktG p (n - 0xC)
  else if n = 0x10 then t.tid % is.team.sg
  else if n = 0x11 then is.team.sg
  else if n = 0x12 then is.team.size
  else if n = 0x14 then t.gindex
  else if n = 0x18 then ((s.grid? is.team.gid).map (·.depth)).getD 0
  else if n = 0x19 then is.team.packW
  else if n = 0x1A then is.team.frame
  else if n = 0x20 then ((s.grid? is.team.gid).map (·.launchid)).getD 0
  else if n = 0x30 then (s.cycle is.cur.core).toNat
  else if n = 0x40 then t.tcause.toNat % 2 ^ 32
  else if n = 0x41 then t.tval.toNat
  else if n = 0x42 then t.tpc.toNat
  else if n = 0x43 then t.tinst.toNat
  else if n = 0x80 then is.cur.core
  else if n = 0x81 then is.cur.part
  else if n = 0x82 then dieOf is.cur.core
  else inkNext s.clock (n - 0x100)

/-- SREG (R136): read at issue. -/
def execSreg (f : IWord) (s : State) : Res :=
  let k := (sregRegs f.imm.toNat).getD 1
  runWord (.sreg f) (plain (fixRun f.d k fun s is t => regs (wordsOf k (sregValue f.imm.toNat s is t)))) s

end Sys2Proof.Machine
end

