-- ==== Sys2Proof/Machine/Banks.lean ====
section
/-! DEFINITION. The banks of the unified store that an instruction's register reads and write-backs claim, and the landings that take what is left (R48, R50, R52-R54). -/

namespace Sys2Proof.Machine

/-- The bank of `v`n in a lane column, within its partition (R50). -/
def bankOf (col n : Nat) : Nat := 4 * (col / 2) + (n + 2 * (col % 2)) % 4

/-- The banks of `k` registers from `v`n in some lane columns. -/
def banksOf (cols : List Nat) (n k : Nat) : List Nat :=
  (cols.flatMap fun c => (List.range k).map fun i => bankOf c (n + i)).eraseDups

/-- The lane columns of slots, in which more than `k` of the slots lie. -/
def columnsOf (slots : List Nat) (k : Nat) : List Nat :=
  (List.range 32).filter fun c => decide (k < (slots.filter fun s => s % 32 == c).length)

/-- The claims of one source that starts in a clock (R52); a source that the latch supplies claims no bank (R54). -/
def sourceBanks (latches : List Latch) (cols : List Nat) (o : Opd) (sel : BitVec 8) (clock : Nat) : List (Nat × Nat) :=
  if o.isSrc ∧ isV sel ∧ !(latches.any fun l => l.sel == sel && l.n == o.regs) then
    (banksOf cols sel.toNat o.regs).map fun b => (b, clock)
  else []

/-- The claims of a data source, two registers in a clock (R52); one that the latch supplies claims no bank (R54). -/
def dataBanks (latches : List Latch) (cols : List Nat) (o : Opd) (sel : BitVec 8) (clock : Nat) : List (Nat × Nat) :=
  if o.isSrc ∧ isV sel ∧ !(latches.any fun l => l.sel == sel && l.n == o.regs) then
    (List.range ((o.regs + 1) / 2)).flatMap fun j =>
      (banksOf cols (sel.toNat + 2 * j) (min 2 (o.regs - 2 * j))).map fun b => (b, clock + j)
  else []

/-- The claims of a fixed-latency result, pass by pass (R52). -/
def writeBanks (slots : List Nat) (width : Nat) (e : Entry) (o : Opd) (sel : BitVec 8) (clock : Nat) : List (Nat × Nat) :=
  if o.isDst ∧ isV sel ∧ !e.flagged then
    (List.range (width / 32)).flatMap fun k => (banksOf (columnsOf slots k) sel.toNat o.regs).map fun b => (b, clock + k)
  else []

/-- Every claim of a word whose sources start in a clock (R52): the bank and the clock of each. -/
def claimsOf (i : Instr) (latches : List Latch) (slots : List Nat) (width clock : Nat) : List (Nat × Nat) :=
  let cols := columnsOf slots 0
  match i.fields, i.entry with
  | some (_, .r f), some e =>
    sourceBanks latches cols e.opds.a f.a clock ++ sourceBanks latches cols e.opds.b f.b (clock + 1)
      ++ sourceBanks latches cols e.opds.c f.c (clock + 2) ++ dataBanks latches cols e.opds.d f.d (clock + 1)
      ++ writeBanks slots width e e.opds.d f.d (clock + 3)
  | some (_, .i f), some e =>
    sourceBanks latches cols e.opds.a f.a clock ++ dataBanks latches cols e.opds.d f.d (clock + 1)
      ++ writeBanks slots width e e.opds.d f.d (clock + 3)
  | some (_, .l f), some e => writeBanks slots width e e.opds.d f.d (clock + 3)
  | _, _ => []

/-- The claims of instructions that stand against a list of claims; what ports and landings take, they take after the instructions of
the clock (R53). -/
def Part.clashes (q : Part) (xs : List (Nat × Nat)) : List BankClaim :=
  q.claims.filter fun c => c.port.isNone && xs.any fun x => x.1 == c.bank && x.2 == c.at_

/-- Whether a list of claims names a bank that a waiting port access has reserved (R53). -/
def Part.meetsReserved (q : Part) (xs : List (Nat × Nat)) : Bool := xs.any fun x => q.reserved.contains x

/-- The claims with which a word may issue, if there are any (R53): an odd pipe's word that collides only with the even pipe's word of
the same clock takes the shifted schedule. -/
def Part.bankPlan (q : Part) (w : DWord) (latches : List Latch) (slots : List Nat) (width stream clock : Nat) : Option (List BankClaim) :=
  match decode w with
  | none => some []
  | some i =>
    let odd := stream % 2 == 1
    let mk (xs : List (Nat × Nat)) : List BankClaim := xs.map fun x => ⟨x.1, x.2, clock, odd, none⟩
    let plan (shift : Nat) : List (Nat × Nat) := claimsOf i latches slots width (clock + shift)
    let xs := plan (stream % 2)
    let ys := plan 2
    if q.meetsReserved xs then none
    else if (q.clashes xs).isEmpty then some (mk xs)
    else if odd && ((q.clashes xs).all fun c => c.issued == clock && !c.odd) && (q.clashes ys).isEmpty && !q.meetsReserved ys then some (mk ys)
    else none

/-- The banks that the landing of results in `v` registers of a partition writes (R50, R53). -/
def destBanks (part : Nat) (ds : List Dest) : List BankUse :=
  (ds.flatMap fun d =>
    match d with
    | .v slot n => [⟨part, bankOf (slot % 32) n, slot % 32 * 128 + n⟩]
    | _ => []).eraseDups

/-- The banks of a frame that `k` registers from `v`n of a slot use (R50, R56). -/
def frameBanks (part slot n k : Nat) : List BankUse :=
  (List.range k).map fun i => ⟨part, bankOf (slot % 32) (n + i), slot % 32 * 128 + (n + i)⟩

/-- The banks of a core's scratch that `n` bytes at an address of a team use (R51): entry e lies in core bank e mod 512, of which
partition p has banks 64p to 64p + 63. -/
def scratchBanks (a n : Nat) : List BankUse :=
  (List.range ((a + n - 1) / 32 + 1 - a / 32)).map fun i =>
    ⟨(a / 32 + i) % 512 / 64, (a / 32 + i) % 64, 4096 + (a / 32 + i)⟩

/-- Whether a bank is left unclaimed in a clock for an access (R51, R53): one access to an entry serves every thread of its word. -/
def Part.bankFree (q : Part) (word clock : Nat) (u : BankUse) : Bool :=
  q.claims.all fun c => c.bank != u.bank || c.at_ != clock || c.port == some (word, u.entry)

/-- What waits for a bank on a core. -/
def State.portWaits (s : State) (core : Nat) : List PortWait := (s.parts.filter fun q => q.core == core).flatMap (·.portWait)

/-- Whether something that arrived before an access waits for a bank that it uses (R53): what has waited longer, or as long and is older. -/
def State.passes (s : State) (core id : Nat) (u : BankUse) : Bool :=
  let ws := s.portWaits core
  let mine := (ws.find? fun w => w.id == id).map (·.waited)
  ws.any fun w => w.id != id && (w.uses.any fun v => v.part == u.part && v.bank == u.bank) &&
    match mine with
    | none => true
    | some n => decide (n < w.waited) || (w.waited == n && decide (w.id < id))

/-- Whether the banks of a port access or a landing are left unclaimed in a clock, and nothing that arrived before it waits for them (R53); an
access to an entry that its word has accessed in the clock is made with that one. -/
def State.banksFree (s : State) (core id word : Nat) (us : List BankUse) : Bool :=
  us.all fun u => let q := s.part core u.part
    q.bankFree word s.clock u && ((q.claims.any fun c => c.at_ == s.clock && c.port == some (word, u.entry)) || !s.passes core id u)

/-- A port access or a landing takes its banks for this clock, and no longer waits (R53). -/
def State.takeBanks (s : State) (core id part word : Nat) (us : List BankUse) : State :=
  let s := us.foldl (fun s u => s.onPart core u.part fun q =>
    { q with claims := q.claims ++ [⟨u.bank, s.clock, s.clock, true, some (word, u.entry)⟩] }) s
  s.onPart core part fun q => { q with portWait := q.portWait.filter fun w => w.id != id }

/-- A port access or a landing waits for its banks (R53). -/
def Part.landWaits (q : Part) (id : Nat) (us : List BankUse) : Part :=
  if q.portWait.any fun w => w.id == id then q else { q with portWait := q.portWait ++ [⟨id, 0, us⟩] }

/-- A port access made in a clock in which its banks are free, and otherwise put among those that wait (R53). -/
def State.withBanks (s : State) (core id part word : Nat) (us : List BankUse) (done : State → State) : State :=
  if s.banksFree core id word us then done (s.takeBanks core id part word us) else s.onPart core part fun q => q.landWaits id us

end Sys2Proof.Machine
end

