-- ==== Sys2Proof/Machine/Fetch.lean ====
section
/-! DEFINITION. A stream's turn (R27-R32, R43, R109, R121, R122, R294, R365): readiness, the debug test, the steps of R121, the word's meaning, and what follows the word. -/

namespace Sys2Proof.Machine

/-- Whether a word names `f64` in group 0x3 or on either side of group 0x4 (R120, R292). -/
def wordF64 (w : DWord) : Bool :=
  let op := (opOf w).toNat
  let md := (w.extractLsb' 42 4).toNat
  (op / 64 == 3 && md == 0xB) || (op / 64 == 4 && (md == 0xB || (w.extractLsb' 34 4).toNat == 0xB))

/-- The port the OP of a word needs (R29, R120, R122).  DESIGN CHOICE (log 57): the port column lists assigned OPs only, and an unassigned one waits for and
holds the unit of its group, V in the groups that have none. -/
def portOf (w : DWord) : Port :=
  let op := (opOf w).toNat
  let g := op / 64
  if op = 0x00D ∨ op = 0x00E then .e
  else if op = 0x048 ∨ op = 0x049 then .f
  else if g = 3 ∨ g = 4 then (if wordF64 w || op == 0x102 then .f else .v)
  else if op = 0x180 ∨ g = 8 ∨ g = 9 then .m
  else if g = 6 ∨ g = 7 ∨ g = 0xF then .f
  else if g = 0xA ∨ g = 0xB then .e
  else .v

/-- Clocks the function unit is held (R29, R139, R202); the applies set their own (R193). -/
def funClocks (w : DWord) (width : Nat) : Nat :=
  let op := (opOf w).toNat
  if op / 64 = 3 then width / 16
  else if op = 0x1C6 then 2 * (width / 8)
  else width / 8

/-- Whether the shared unit of a port is free (R28, R29). -/
def Part.unitFree (q : Part) (p : Port) (clock : Nat) : Bool :=
  match p with
  | .v => true
  | .m => decide (q.memBusy ≤ clock)
  | .f => decide (q.funBusy ≤ clock)
  | .e => decide (q.engBusy ≤ clock)

/-- The shared unit claimed from the issue of a word (R29). -/
def Part.claim (q : Part) (w : DWord) (width clock : Nat) : Part :=
  match portOf w with
  | .v => q
  | .m => { q with memBusy := clock + width / 32 }
  | .f => { q with funBusy := max q.funBusy (clock + funClocks w width) }
  | .e => { q with engBusy := clock + width / 32 }

/-- The line a request names: a row line, or a column line of its sector. -/
def Op.lineKey (o : Op) : Nat := 33 * (o.pa / 32) + (if o.col = 0 then 0 else o.pa % 32 + 1)

/-- Line requests that wait in a partition's line queue, one for each word and line (R168). -/
def Core.lineQueue (c : Core) (part : Nat) : List (Nat × Nat) :=
  ((c.ops.filter fun o => o.part == part && o.stage == .queued &&
      (match o.kind with
       | .load | .store | .atomic _ | .reduction _ | .prefetch => true
       | _ => false)).map fun o => (o.word, o.lineKey)).eraseDups

/-- The channel an engine word names (R92, R115); `fur` names a cluster, and posts through a queue of its core. -/
def chanOf (core ctx op : Nat) (f : EWord) : ChanKey :=
  if op = 0x2C4 then .core core ctx (4 + f.chan.toNat)
  else if f.bulk then .bulk (dieOf core) ctx f.chan.toNat else .core core ctx f.chan.toNat

/-- Whether a matrix word of a thread has not taken effect: a fault of it would park the thread there (R106, R221). -/
def State.unmadeArray (s : State) (core : Nat) (t : Thread) : Bool :=
  (s.arrayOf core).array.any fun a => a.core == core && a.part == t.part && a.slots.contains t.slot && !a.made

/-- The further conditions of readiness that entries state (R28): the flags `nret` waits for, the refill of a `ret`
(R275), the memory port of a spill (R126), the line queue (R168), the array queue (R209), the channel queues (R235), and for an apply the
acquires of its threads, whose later issues they hold (R104, R187).  A word that takes a value of a timeline also waits for the matrix words of
its threads to take effect, since none of it could be taken back if they fault (R106): the model's choice (log 27). -/
def State.entryReady (s : State) (c p : Nat) (w : DWord) (tm : Team) (ths : List Thread) : Bool :=
  let op := (opOf w).toNat
  let act := ths.filter (holdsBoth (g0Of w) (g1Of w))
  let q := s.part c p
  let core := s.core c
  if op = 0x3C0 then act.all fun t => t.flags == 0
  else if 3 ≤ op ∧ op ≤ 5 then
    (op != 5 || act.all fun t => !t.refill) && (!(act.any fun t => t.spills op) || q.unitFree .m s.clock)
  else if (0x180 < op ∧ op ≤ 0x183) ∨ op = 0x1C6 then !(act.any fun t => core.ops.any fun o => o.of p t.slot && o.acquires)
  else if op / 64 = 8 ∨ op / 64 = 9 then decide ((core.lineQueue p).length < 64)
  else if 0x282 ≤ op ∧ op ≤ 0x288 then decide (((s.arrayOf c).array.filter fun a => a.started.isNone).length < 2)
  else if 0x2C0 ≤ op ∧ op ≤ 0x2C6 ∧ (act.any fun t => s.unmadeArray c t) then false
  else if 0x2C0 ≤ op ∧ op ≤ 0x2C4 then
    match getE w with
    | some f => decide ((s.chan (chanOf c tm.ctx op f)).queue.length < (if f.bulk then 32 else 16))
    | none => true
  else true

/-- Whether an access of a thread to its own frame through a window is still to be performed (R56).  Its words wait for it: their register
accesses are accesses to the same locations, which keep the order of the program (R101; log 12). -/
def State.ownWindow (s : State) (core : Nat) (t : Thread) : Bool :=
  (s.core core).ops.any fun o => o.of t.part t.slot && o.stage == .queued && (o.kind == .localLoad || o.kind == .localStore)
    && ((decide (0x3000_0000 ≤ o.pa) && decide (o.pa < 0x4000_0000))
      || (decide (0x4000_0000 + t.tid * 512 ≤ o.pa) && decide (o.pa < 0x4000_0000 + t.tid * 512 + 512)))

/-- The image whose code a pack runs or whose slots a word meets (R293, R299). -/
def State.imageOf (s : State) (nib : Nat) : NibImage :=
  (s.nibOld.find? fun o => o.serial + 1 == nib).getD s.nib

/-- The OP values each bit of `featmask` masks (R292). -/
def maskedBy (w : DWord) (bit : Nat) : Bool :=
  let op := (opOf w).toNat
  match bit with
  | 0 => op == 0x00D || op == 0x00E
  | 1 => op == 0x102
  | 2 => 0x180 ≤ op && op ≤ 0x185
  | 3 => 0x1C0 ≤ op && op ≤ 0x1C6
  | 4 => op == 0x205 || op == 0x206
  | 5 => op == 0x2C3
  | 6 => op == 0x2C4
  | 7 => 0x240 ≤ op && op ≤ 0x243
  | 8 => 0x280 ≤ op && op ≤ 0x28A
  | 9 => (0x2C0 ≤ op && op ≤ 0x2C2) || (0x2C5 ≤ op && op ≤ 0x2CA)
  | 10 => wordF64 w
  | 11 => op / 64 == 0xD || op / 64 == 0xE
  | _ => false

/-- Whether a context's mask covers a word (R121 step 2, R292). -/
def masked (mask : DWord) (w : DWord) : Bool := (List.range 12).any fun b => bitAt mask b && maskedBy w b

/-- The word checks of R109: FS names a field that holds 15, the port is clear in PORTS, a branch is not the last word
of a clause with REFORM set, or a sub-group word stands in a clause with CONV clear. -/
def badPlace (i : Instr) (h : Header) (last rewrite : Bool) (sg : Nat) : Bool :=
  match i.fields, i.entry with
  | some (op, f), some e =>
    let port := match e.port with
      | .v => 3 | .m => 2 | .f => 1 | .e => 0
    (e.flagged && flagOf h f.fs == 15) || (!rewrite && !bitAt h.ports port)
      || (1 ≤ op && op ≤ 5 && !(last && h.reform)) || (op / 64 == 7 && !h.conv && sg != 1)
  | _, _ => false

/-- The lowest breakpoint that matches a thread at a word, or 0x20 for a step (R365). -/
def State.debugCode (s : State) (t : Thread) (ctx : Nat) (pc : DWord) : Option Nat :=
  let v := s.vf (vfOf ctx)
  let hit (k : Nat) : Bool :=
    let c := v.bpc.getD k 0
    bitAt c 63 && (c.extractLsb' 44 12).toNat == ctx && v.bpa.getD k 0 == pc
      && (!bitAt c 62 || (c.extractLsb' 0 44).toNat == t.gindex) && !t.dbgNobp
  match (List.range 8).find? hit with
  | some k => some k
  | none => if t.dbgStep then some 0x20 else none

/-- The decode slot that acts on a word of a pack (R121 step 1, R294): none when every thread of the pack bypasses the step. -/
def State.nibSlot (s : State) (ctx : Nat) (w hdr : DWord) (all : List Thread) : Option (Nat × NibSlot) :=
  if !all.isEmpty && all.all fun t => t.bypass then none else firstSlot s.nib.dec ctx w hdr

/-- The micro-store words of a rewrite (R294). -/
def State.rewriteOf (s : State) (x : NibSlot) : List DWord :=
  (s.nib.store.drop (x.ctl.extractLsb' 0 12).toNat).take ((x.ctl.extractLsb' 12 2).toNat + 1)

/-- The word whose readiness, banks and shared unit count at a turn (R28, R29, R111): the one that will execute, so the first word of a
rewrite in place of the word it rewrites.  The manual says only that a unit is claimed by the instruction that needs it, and
this is the model's choice (log 57). -/
def State.firstWord (s : State) (ctx : Nat) (w hdr : DWord) (all : List Thread) : DWord :=
  match s.nibSlot ctx w hdr all with
  | some (_, x) => if x.action = 2 then (s.rewriteOf x).headD w else w
  | none => w

/-- A debug stop (R365, R368): the thread parks at the word, behind its dump record when the dump ring is enabled. -/
def State.debugStop (s : State) (cur : Cur) (tm : Team) (t : Thread) (code : Nat) : State :=
  let vf := vfOf tm.ctx
  let v := s.vf vf
  let on := bitAt v.dump.ctl 0
  let here := sameTarget cur
  let extra : DWord := if on then BitVec.ofNat 64 v.dumpNum else BitVec.allOnes 64
  let s := s.parkFault t 0x18 code 0 cur.pc extra (if on then some v.dumpNum else none) here
  if on then
    let rec_ := ((s.thread? t.core t.part t.slot).getD t).record
    let lid := ((s.grid? tm.gid).map (·.launchid)).getD 0
    let head := dumpHead (BitVec.ofNat 64 t.gindex) (BitVec.ofNat 64 lid) tm.ctx code t.core (s.cycle t.core) cur.pc
    let bytes := head ++ rec_
    s.onVf vf fun v => { v with dumpNum := v.dumpNum + 1
                                dumps := v.dumps ++ [⟨v.dumpNum, bytes ++ List.replicate (768 - bytes.length) 0⟩] }
  else s

/-- The test of R365 for one thread of the pack. -/
def debugTest (cur : Cur) (tm : Team) (s : State) (t : Thread) : State :=
  if t.dbgSkip then s.onThread t.core t.part t.slot fun x => { x with dbgSkip := false }
  else
    match s.debugCode t tm.ctx cur.pc with
    | some code => (s.debugStop cur tm t code).onPack cur fun k => { k with stopped := k.stopped ++ [t.slot] }
    | none => s

/-- A thread put into a list that rises in slot index. -/
def slotInsert (t : Thread) : List Thread → List Thread
  | [] => [t]
  | u :: us => if t.slot ≤ u.slot then t :: u :: us else u :: slotInsert t us

/-- The threads of a pack in increasing slot index. -/
def slotsSorted (ths : List Thread) : List Thread := ths.foldr slotInsert []

/-- The debug test of a word, for every thread of the pack (R365).  The members it holds are held after the word, which takes its
effect for them (R37, R114). -/
def State.debugAll (s : State) (is : Issue) : State := (slotsSorted is.all).foldl (debugTest is.cur is.team) s

/-- A decode slot's trap, emulate or deny on the threads it takes (R294), with the holds of R131. -/
def slotAct (s : State) (is : Issue) (ths : List Thread) (n : Nat) (x : NibSlot) (w : DWord) : State :=
  let tr := trapHere is.cur
  let one (s : State) (t : Thread) : State :=
    if x.action = 1 then s.parkFault t 0x14 0 0 is.cur.pc 0 none (sameTarget is.cur)
    else if x.action = 3 then s.startPatch t tr n x.emu
    else s.userTrap t 1 0 tr (opOf w).toNat (s.clock + 4)
  applyHolds (ths.foldl one s) is.cur is.team is.pack.conv is.all (ths.map (·.slot)) false

/-- Step 1 of R121: the state after a decode slot has acted, and the word that goes on; none when the pack waits to
serialise. -/
def nibStep (s : State) (is : Issue) (w : DWord) : Option (State × DWord) :=
  match s.nibSlot is.team.ctx w is.cur.hdr is.all with
  | none => some (s, w)
  | some (n, x) =>
    let mine := is.act.filter fun t => !t.bypass
    if x.action = 2 then
      match s.rewriteOf x with
      | [] => some (s, w)
      | v :: rest => some (s.onPack is.cur fun k =>
          { k with rewrite := rest, inRewrite := true, skip := (is.all.filter (·.bypass)).map (·.slot) }, v)
    else if x.action = 4 then
      if mine.isEmpty then some (s, w) else none
    else some (slotAct s is mine n x w, w)

/-- Whether D of an `mmac` or `mst` is not what the format of its slot asks for (R205): a scale plane for a TwinScale format, and 0xFF for any
other. -/
def scaleMismatch (tm : Team) (i : Instr) : Bool :=
  match i with
  | .mmac f | .mst f => isTwin ((tm.fs.getD (f.x.extractLsb' 0 3).toNat 0).extractLsb' 0 4).toNat == isNone f.d
  | _ => false

/-- Steps 2 to 5 of R121 on a word (R122): the masked-feature, privilege and bad-clause traps, or its meaning. -/
def fate (run : Instr → State → Res) (tm : Team) (patch firmware : Bool) (cur : Cur) (w : DWord) (last rewrite : Bool) (s : State) : Res :=
  let op := (opOf w).toNat
  if !patch && !firmware && masked (s.ctx tm.ctx).featmask w then trapWord w 2 (BitVec.ofNat 64 (opOf cur.word).toNat) s
  else if op / 64 = 0xF ∧ !patch ∧ !firmware then trapWord w 3 0 s
  else
    match decode w with
    | none => run (.nonInstruction w) s
    | some i =>
      if (patch && (op == 3 || op == 4 || op == 5)) || scaleMismatch tm i then run (.nonInstruction w) s
      else if badPlace i (readHeader cur.hdr) last rewrite tm.sg then trapWord w 5 0 s
      else run i s

/-- The stream with its pack replaced. -/
def Stream.withPack (t : Stream) (k : Pack) : Stream := { t with pack := some k }

/-- A pack leaves its clause on a pre-emption request (R43): its threads are filed at a point at the end of the clock, with those of the
packs of its pipe (R42). -/
def State.packLeaves (s : State) (c p st : Nat) (k : Pack) (to_ : Target) : State :=
  let s := s.onPart c p fun q => q.setStream { q.stream st with pack := none, freeAt := s.clock + 1, walking := false, faults := [] }
  k.slots.foldl (fun s sl => s.schedule c p (filing sl to_ s.clock (st % 2))) s

/-- Where a pack whose header waits leaves its clause (R43): at the header, or at the word of a resume pod, whose RANK and CONV are those
of the clause. -/
def Pack.leavesAt (k : Pack) : Target :=
  if k.start = 0 then resumeHeader k.hdr k.nib
  else ⟨k.hdr + BitVec.ofNat 64 (8 * k.start + 8), true, k.hdr, k.rank, k.conv, k.nib⟩

/-- The end of a clause for the threads still in the pack (R31, R32, R43): with REFORM clear the pack goes on to the next
header, unless a pre-emption request has come, on which its threads wait there; otherwise every thread is filed at its next address 4
clocks after the word.  The CCP's one thread has no pods and goes on at its next address (R287). -/
def State.clauseEnd (s : State) (cur : Cur) (rank : Nat) : State :=
  let h := readHeader cur.hdr
  let follow := cur.hdrAt + BitVec.ofNat 64 (8 * h.count + 8)
  let q := s.part cur.core cur.part
  let t := q.stream cur.stream
  match t.pack with
  | none => s
  | some k =>
    if !h.reform && (s.core cur.core).halting then s.packLeaves cur.core cur.part cur.stream k (resumeHeader follow cur.nib)
    else if !h.reform then
      s.setPart (q.setStream (t.withPack
        { k with hdr := follow, clause := none, pos := none, start := 0, latches := [] }))
    else if isFirmware cur.part then
      let at_ := (k.slots.findSome? fun sl => (s.thread? cur.core cur.part sl).bind (·.next)).getD follow
      (s.setPart (q.setStream (t.withPack { k with hdr := at_, clause := none, pos := none, start := 0, latches := [] }))).onThread
        cur.core cur.part (k.slots.headD 0) fun x => { x with next := none }
    else
      let s := s.setPart (q.setStream { t with pack := none, freeAt := s.clock + 1 })
      k.slots.foldl (fun s sl =>
        match s.thread? cur.core cur.part sl with
        | none => s
        | some th =>
          let to_ := normalAt (th.next.getD follow) cur.nib
          let chk : Check := ⟨cur.pc, cur.word, cur.hdrAt, cur.hdr, true, true, false⟩
          (s.setThread { th with next := none }).schedule cur.core cur.part ⟨sl, to_, s.clock + 4, rank, some chk, false, .no⟩) s

/-- What follows a word that issued: the rest of a rewrite, the word itself for the threads with BYPASS that the rewrite passed over (R294),
the next word, or the end of the clause. -/
def State.afterWord (s : State) (cur : Cur) (rank : Nat) : State :=
  let q := s.part cur.core cur.part
  let t := q.stream cur.stream
  match t.pack with
  | none => s
  | some k =>
    if !k.rewrite.isEmpty then s
    else if k.inRewrite && k.slots.any k.skip.contains then
      s.setPart (q.setStream (t.withPack
        { k with inRewrite := false, serialDone := true, skip := k.slots.filter fun sl => !k.skip.contains sl }))
    else
      let h := readHeader cur.hdr
      let k := { k with inRewrite := false, skip := [], stopped := [], serial := false, serialDone := false }
      if cur.pos + 1 < h.count then s.setPart (q.setStream (t.withPack { k with pos := some (cur.pos + 1) }))
      else (s.setPart (q.setStream (t.withPack k))).clauseEnd cur rank

/-- The header-level trap of R109: every thread of the pack, with `tpc` at the header.  It comes at the pack's first turn after the
fetch, whatever flags and units the clause would wait for: the manual does not say which turn is that of a header that traps (R128),
and this is the model's choice (log 57). -/
def State.headerTrap (s : State) (c p st : Nat) (tm : Team) (k : Pack) (hdr : DWord) (ths : List Thread) : State :=
  let s := ths.foldl (fun s t => s.userTrap t 5 0 ⟨k.hdr, hdr, k.hdr, hdr, false, true, st % 2⟩ 0 (s.clock + 4)) s
  applyHolds s ⟨c, p, st, k.hdr, hdr, hdr, k.hdr, 0, k.nib, hdr⟩ tm k.conv ths (ths.map (·.slot)) true

/-- The word a pack issues next: the head of its rewrite, or the word at its position. -/
def Pack.word (k : Pack) (ws : List DWord) (pos : Nat) : DWord :=
  match k.rewrite with
  | v :: _ => v
  | [] => ws.getD pos 0

/-- A word that issues, once the stream is ready (R28, R121, R365): the debug test and step 1 come first, but not for
the later words of a rewrite, nor again after a serialise; patch mode has neither. -/
def State.issueWord (s : State) (run : Instr → State → Res) (cur : Cur) (tm : Team) (k : Pack) (w : DWord) (width : Nat)
    (banks : List BankClaim) (claimed : DWord) : Res :=
  let s0 := s
  let patch := k.nib != 0
  let firmware := isFirmware cur.part
  let skip := patch || firmware || !k.rewrite.isEmpty || k.serialDone
  let h := readHeader cur.hdr
  let last := cur.pos + 1 == h.count
  let later := !k.rewrite.isEmpty
  let s := { s with cur := some cur }
  let s := s.onPart cur.core cur.part fun q => { q.claim claimed width s.clock with claims := q.claims ++ banks }
  let s := if skip then s else
    match s.issue (g0Of w) (g1Of w) with
    | some is => s.debugAll is
    | none => s
  let s := if later then s.onPack cur fun k => { k with rewrite := k.rewrite.drop 1 } else s
  let pre : Option (State × DWord) :=
    if skip then some (s, w)
    else
      match s.issue (g0Of w) (g1Of w) with
      | some is => nibStep s is w
      | none => some (s, w)
  match pre with
  | none => .next { (s.onPack cur fun k => { k with serial := true }) with cur := none }
  | some (s, w) =>
    let rw := (((s.part cur.core cur.part).stream cur.stream).pack.map fun k => k.inRewrite).getD false
    let more := (((s.part cur.core cur.part).stream cur.stream).pack.map fun k => !k.rewrite.isEmpty).getD false
    let s := k.slots.foldl (fun s sl => s.onThread cur.core cur.part sl fun t => { t with bypass := false }) s
    let cur' := { cur with exec := w }
    let s := { s with cur := some cur' }
    match fate run tm patch firmware cur' w (last && !more) rw s with
    | .fault r => .fault r
    | .refused r => .refused r
    | .next s' =>
      let st := (s'.part cur.core cur.part).stream cur.stream
      if st.walking then
        -- the word has not issued: only its walks stay
        .next ({ s0 with walks := s'.walks }.onPart cur.core cur.part fun q =>
          q.setStream { q.stream cur.stream with walking := true })
      else
        let s' := s'.onPart cur.core cur.part fun q => q.setStream { q.stream cur.stream with faults := [] }
        .next { (s'.afterWord cur (cur.stream % 2)) with cur := none }

/-- The fault of a flag that a header waits for (R320, R356): the flag's number with its class, code, access and address. -/
def Thread.badWait (t : Thread) (h : Header) : Option (Nat × Nat × Nat × Nat × DWord) :=
  t.badFlags.find? fun b => decide (b.1 < 12) && bitAt h.wait b.1

/-- A thread parks on the token of its timed-out read, which is still in flight as a replay entry (R356); none when there is no such
read. -/
def State.joinReplay (s : State) (t : Thread) (flag : Nat) (to_ : Target) : Option State :=
  let mine (o : Op) : Bool := o.part == t.part && (o.slot :: o.also).contains t.slot && o.flag == some flag
  firstSome (((s.core t.core).ops.filter mine).map fun o =>
    match o.stage with
    | .replay n =>
      match s.token? n with
      | some tk =>
        let s := s.setToken { tk with threads := tk.threads ++ [(t.core, t.part, t.slot)] }
        let s := s.traceRec t.core tk.vf 5 2 tk.ctx t.gindex to_.key.toNat
        some ((s.leavePack t.core t.part t.slot).onThread t.core t.part t.slot fun x => { x with life := .parked (.fault n), at_ := to_ })
      | none => none
    | _ => none)

/-- A thread parks at a header on the fault of a flag it waits for (R320, R356), which is no longer found again. -/
def State.flagPark (s : State) (t : Thread) (b : Nat × Nat × Nat × Nat × DWord) (hdr : DWord) (pipe : Nat) (to_ : Target) : State :=
  let s := s.onThread t.core t.part t.slot fun x => { x with badFlags := x.badFlags.erase b }
  match s.joinReplay t b.1 to_ with
  | some s => s
  | none => s.headerFault (s.again t) b.2.1 b.2.2.1 b.2.2.2.1 b.2.2.2.2 to_.hdr hdr pipe to_

/-- The threads of a pack that wait at a header for a flag whose read failed park there, and the rest of their sub-groups is held
with them (R37, R320, R356). -/
def State.flagFaults (s : State) (c p st : Nat) (tm : Team) (k : Pack) (hdr : DWord) (ths : List Thread) (to_ : Target) : State :=
  let h := readHeader hdr
  let bad := ths.filter fun t => (t.badWait h).isSome
  let s := bad.foldl (fun s t => match t.badWait h with
    | some b => s.flagPark t b hdr (st % 2) to_
    | none => s) s
  if !k.conv || tm.sg == 1 then s
  else
    (ths.filter fun t => (t.badWait h).isNone).foldl (fun s t =>
      let ps := (bad.filter fun x => tm.sgOf x == tm.sgOf t).map (·.slot)
      if ps.isEmpty then s
      else (s.park (s.again t) .held to_ none).onThread c p t.slot fun x => { x with hold37 := ps }) s

/-- A stream's turn (R27, R28): a stream that is not ready leaves its turn empty, and on a pre-emption request leaves its clause (R43).  R43
speaks of a word of the clause, and of no word within a Nib rewrite: here the pack stays on its stream until the rewrite has ended, which is
the model's choice (log 57). -/
def State.issueTurn (s : State) (run : Instr → State → Res) (c p st : Nat) : Res :=
  let t := (s.part c p).stream st
  let core := s.core c
  match t.pack with
  | none => .next s
  | some k =>
    match s.team? c k.team with
    | none => .next s
    | some tm =>
      match k.clause with
      | none => .next (if core.halting then s.packLeaves c p st k k.leavesAt else s)
      | some (hdr, ws) =>
        let h := readHeader hdr
        let ths := k.slots.filterMap fun sl => s.thread? c p sl
        if s.quiet && k.rewrite.isEmpty && k.skip.isEmpty then .next s
        else if k.pos.isNone && h.bad then .next (s.headerTrap c p st tm k hdr ths)
        else if k.pos.isNone && ths.any fun x => (x.badWait h).isSome then
          .next (s.flagFaults c p st tm k hdr ths (resumeHeader k.hdr k.nib))
        else if k.pos.isNone && !(ths.all fun x => x.flags &&& h.wait == 0) then
          .next (if core.halting then s.packLeaves c p st k k.leavesAt else s)
        else
          let pos := k.pos.getD k.start
          let pc := k.hdr + BitVec.ofNat 64 (8 * pos + 8)
          let w := k.word ws pos
          let plainWord := k.nib != 0 || isFirmware p || !k.rewrite.isEmpty || k.serialDone
          let first := if plainWord then w else s.firstWord tm.ctx w hdr ths
          let ready := (s.part c p).unitFree (portOf first) s.clock && !t.walking && !(k.serial && !k.serialDone)
            && !(ths.any (s.ownWindow c)) && s.entryReady c p first tm (ths.filter fun t => !k.skip.contains t.slot)
          let plan := (s.part c p).bankPlan first k.latches k.slots tm.packW st s.clock
          match (if ready then plan else none) with
          | none => .next (if core.halting && k.rewrite.isEmpty && k.skip.isEmpty then s.packLeaves c p st k (resumeAt pc k.hdr hdr k.nib) else s)
          | some banks =>
            let s := s.onPart c p fun q => q.setStream { q.stream st with pack := some { k with pos := some pos } }
            s.issueWord run ⟨c, p, st, pc, ws.getD pos 0, hdr, k.hdr, pos, k.nib, w⟩ tm k w tm.packW banks first

end Sys2Proof.Machine
end

