-- ==== Sys2Proof/Machine/Privileged.lean ====
section
/-! DEFINITION. The privileged group and the fate of a word that is not an instruction (R121, R122, R287-R291, R297, R298). -/

namespace Sys2Proof.Machine

/-- NON_INSTRUCTION (R121 step 4, R122): the illegal-instruction trap in every guard-holding thread. -/
def execNonInstruction (w : DWord) (s : State) : Res := trapWord w 1 0 s

/-- The number of a control register: MOD × 128 + X (R290). -/
def ctlNum (f : RWord) : Nat := f.md.toNat * 128 + f.x.toNat

/-- `nibstat` (R288). -/
def nibStat (i : NibImage) : DWord :=
  BitVec.ofNat 64 (i.arv % 64 + (if bitAt i.flags 1 then 2 ^ 15 else 0) + 2 ^ 16 * natOf (i.digest.take 6))

/-- `ctxid` (R289). -/
def ctxId (ctx : Nat) : DWord := BitVec.ofNat 64 (vfOf ctx * 2 ^ 16 + ctx)

/-- The value of a control register of a context (R288): an unassigned number reads 0. -/
def ctlShared (s : State) (c : Ctx) (n : Nat) : DWord :=
  if n = 0 then ctxId c.num
  else if n = 1 then c.trapvec
  else if n = 2 then c.agelim.setWidth 64
  else if n = 3 then c.seed
  else if n = 4 then c.featmask
  else if n = 5 then c.psave
  else if n = 6 then c.ctxerr.setWidth 64
  else if n = 8 then nibStat s.nib
  else 0

/-- The value of a control register for a thread (R288): the patch registers are the thread's own. -/
def ctlValue (s : State) (is : Issue) (t : Thread) (n : Nat) : DWord :=
  let mine (g : Patch → DWord) : DWord := if t.patched then (t.patch.map g).getD 0 else 0
  if n = 0x40 then mine (·.pinst)
  else if n = 0x41 then mine (·.ppc)
  else if n = 0x42 then mine (·.phdr)
  else if n = 0x43 then mine (·.pslot)
  else ctlShared s (s.ctx is.team.ctx) n

/-- CTL_RD (R290). -/
def execCtlRd (f : RWord) (s : State) : Res :=
  runWord (.ctlRd f) (plain (flagRun f.fs f.d 2 fun s is t => regs (wordsOf 2 (ctlValue s is t (ctlNum f)).toNat))) s

/-- Whether firmware may write a control register (R288). -/
def ctlWritable (n : Nat) : Bool := n == 1 || n == 2 || n == 3 || n == 5 || n == 6

/-- A control register written (R288, R289). -/
def Ctx.writeCtl (c : Ctx) (n : Nat) (v : DWord) : Ctx :=
  if n = 1 then { c with trapvec := v &&& ~~~7 }
  else if n = 2 then { c with agelim := BitVec.ofNat 16 (max 64 (v.toNat % 2 ^ 16)) }
  else if n = 3 then { c with seed := v }
  else if n = 5 then { c with psave := v &&& ~~~63 }
  else if n = 6 then { c with ctxerr := c.ctxerr &&& ~~~(v.setWidth 3) }
  else c

/-- CTL_WR (R290, R291): once for the pack, after a release at system scope, with the pair of the first thread. -/
def execCtlWr (f : RWord) (s : State) : Res :=
  let n := ctlNum f
  runWord (.ctlWr f)
    { xl := fun _ _ _ => []
      traps := fun _ is _ =>
        if !isFirmware is.cur.part then some (3, 0) else if ctlWritable n then none else some (3, BitVec.ofNat 64 n)
      parks := fun _ _ _ => none
      run := fun s is go =>
        let flag := flagOf is.hdr f.fs
        let (word, s) := s.newId
        let lead (t : Thread) : Bool := go.head?.map (·.slot) == some t.slot
        go.foldl (fun s t =>
          (s.raiseFlag is t flag).newOp is word t (if lead t then .ctlWr n else .result) (if lead t then .queued else .done)
            fun o => { o with vals := is.src t f.a 2, flag := some flag, scope := 5 }) s } s

/-- The address of a thread's patch save record (R297). -/
def patchRecord (c : Ctx) (core part slot : Nat) : DWord := c.psave + BitVec.ofNat 64 (64 * (2048 * core + slot + 256 * part))

/-- The registers of a patch save record (R297, R298). -/
def Thread.loadRegs (t : Thread) (bs : List Byte) : Thread :=
  { t with regs := wordsOfBytes 8 bs ++ t.regs.drop 8, gridpend := t.gridpend &&& ~~~0xF }

/-- The predicates of a patch save record (R297, R298). -/
def Thread.loadPreds (t : Thread) (bs : List Byte) : Thread := { t with preds := (bs.getD 0 0) &&& 0x7F }

/-- A fault of the save (R288, R297): the thread parks at the emulated word and PSAVEFLT is set. -/
def State.saveFault (s : State) (th : Thread) (x : Patch) (ctx cls code : Nat) (va : DWord) : State :=
  let s := s.onThread th.core th.part th.slot fun t => { t with patch := none }
  let s := s.parkFault (s.again th) cls code 1 va 0 none (resumeAt x.ppc x.hdrAt x.phdr 0)
  s.onCtx ctx fun c => { c with ctxerr := c.ctxerr ||| 2 }

/-- The stores of a save, or the loads of a reload, that are left of an operation's thread are given up. -/
def State.dropPatchOps (s : State) (core : Nat) (o : Op) : State :=
  s.onCore core fun c => { c with ops := c.ops.filter fun x => !(x.of o.part o.slot && x.kind == o.kind) }

/-- A thread leaves patch mode by `nret` and is filed 4 clocks later (R298): after the emulated word, or at the header that an
emulated header-level trap names (R130), at an ENTRY header, or at the emulated word with the illegal-instruction trap. -/
def State.leavePatch (s : State) (t : Thread) (md : Nat) (to_ : DWord) (pc : DWord) (cur : Cur) : State :=
  match t.patch with
  | none => s
  | some p =>
    let s := s.onThread t.core t.part t.slot fun x => { x with patch := none, patched := false }
    let h := readHeader p.phdr
    let emu : Cur := { cur with pc := p.ppc, word := p.pinst, hdr := p.phdr, hdrAt := p.hdrAt, nib := 0
                                pos := ((p.ppc - p.hdrAt).toNat - 8) / 8 }
    let lastW := h.reform && emu.pos + 1 == h.count
    let header := p.ppc == p.hdrAt
    if md = 2 then
      s.userTrap (s.again t) 1 0 ⟨p.ppc, p.pinst, p.hdrAt, p.phdr, lastW && !header, header, cur.stream % 2⟩
        (if header then 0 else (opOf p.pinst).toNat) (s.clock + 4)
    else
      let target := if md = 1 then normalAt to_ 0 else if header then resumeHeader p.ppc 0 else nextTarget emu { t with next := none }
      let chk : Check := if md = 1 then ⟨pc, cur.word, cur.hdrAt, cur.hdr, true, false, false⟩
        else ⟨p.ppc, p.pinst, p.hdrAt, p.phdr, !target.resume, lastW, false⟩
      s.schedule t.core t.part ⟨t.slot, target, s.clock + 4, cur.stream % 2, some chk, false, .nret⟩

/-- The fault of a reload's translation (R298). -/
def reloadFault (s : State) (is : Issue) (t : Thread) : Option ParkSpec :=
  let va := patchRecord (s.ctx is.team.ctx) t.core t.part t.slot
  let faults := ((s.part is.cur.core is.cur.part).stream is.cur.stream).faults
  match s.xlateCore t.core is.team.ctx faults .read va with
  | .bad cls code => some (.fault cls code 0 va)
  | _ => none

/-- The reload (R298): a load of the record's registers and one of its predicates, on whose landing the thread goes on. -/
def nretRun (f : RWord) (s : State) (is : Issue) (go : List Thread) : State :=
  let (word, s) := s.newId
  let record (t : Thread) : DWord := patchRecord (s.ctx is.team.ctx) t.core t.part t.slot
  let xl (t : Thread) : Xl := s.xlateCore t.core is.team.ctx [] .read (record t)
  go.foldl (fun s t =>
    let va := record t
    let s := s.leavePack t.core t.part t.slot
    match xl t with
    | .ok pa loc _ =>
      let s := s.touchTlb t.core is.team.ctx va
      let load (s : State) (off n : Nat) : State := s.newOp is word t .patchLoad .queued fun o =>
        { o with va := va + BitVec.ofNat 64 off, pa := pa + off, loc := loc, size := n, md := f.md.toNat, vals := is.src t f.a 2
                 data := [is.cur.word, is.cur.hdrAt, is.cur.hdr, BitVec.ofNat 64 is.cur.stream, BitVec.ofNat 64 is.cur.nib].flatMap
                   fun w => bytesOf 8 w.toNat }
      load (load s 0 32) 32 1
    | _ => s) s

/-- NRET (R298). -/
def execNret (f : RWord) (s : State) : Res :=
  let bad := match s.issue f.g0 f.g1 with
    | some is =>
      let reads (t : Thread) : Bool := (badOperand is.team.frame (.nret f)).isNone && (pendingRead s is (.nret f) t).isNone
      if is.act.any fun t => reads t && (reloadFault s is t).isSome then some is.team.ctx else none
    | none => none
  let r := runWord (.nret f)
    { xl := fun s is t => [(.read, patchRecord (s.ctx is.team.ctx) t.core t.part t.slot)]
      traps := fun _ _ _ => none
      parks := reloadFault
      run := nretRun f } s
  match r, bad with
  | .next s', some ctx => .next (s'.onCtx ctx fun c => { c with ctxerr := c.ctxerr ||| 2 })
  | r, _ => r

end Sys2Proof.Machine
end

