-- ==== Sys2Proof/Machine/InFlight.lean ====
section
/-! DEFINITION. Operations in flight: what they wait for (R83, R100-R103), the local windows (R55-R57, R324, R366), full/empty words (R90, R91, R171), the L1 (R81-R83) and performing an access at its home (R99, R170). -/

namespace Sys2Proof.Machine

/-- Bytes of frames and scratch of the teams on a core (R49). -/
def State.storeUsed (s : State) (core : Nat) : Nat :=
  let ts := s.teamsOn core
  let f := ts.foldl (fun m t => max m t.frame) 0
  8192 * f + ts.foldl (fun n t => n + 16384 * ceilDiv t.scratchBytes 16384) 0

/-- The sets of a core's L1 (R49, R81). -/
def State.l1Sets (s : State) (core : Nat) : Nat := (2097152 - s.storeUsed core) / 32 / 8

/-- The lines of device memory that an access touches (R86). -/
def Op.lines (o : Op) : List Nat :=
  if o.col = 0 then [o.pa / 32] else (List.range (32 / o.col)).map fun j => o.pa / 32 + j

/-- A line found in L1. -/
def Core.l1Find (c : Core) (line : Nat) : Option L1Line := c.l1.find? fun l => l.line == line

/-- A line used, or installed: most recently used in its set of 8 ways (R81). -/
def Core.l1Put (c : Core) (sets line : Nat) (data : List Byte) : Core :=
  let rest := c.l1.filter fun l => l.line != line
  let inSet := rest.filter fun l => l.line % sets == line % sets
  let rest := if 8 ≤ inSet.length then
      match inSet.getLast? with
      | some v => rest.filter fun l => l.line != v.line
      | none => rest
    else rest
  { c with l1 := ⟨line, data⟩ :: rest }

/-- Lines leave L1, or are brought up to date by `keep`; fills of them that were requested before are not installed (R83). -/
def Core.dropLines (c : Core) (ls : List Nat) (keep : Bool) : Core :=
  { c with l1 := if keep then c.l1 else c.l1.filter fun l => !ls.contains l.line
           ops := c.ops.map fun o => if o.filling && (o.lines.any fun l => ls.contains l) then { o with noInstall := true } else o }

/-- The bytes of a line with bytes stored at an offset. -/
def patchBytes (line : List Byte) (off : Nat) (bs : List Byte) : List Byte := line.take off ++ bs ++ line.drop (off + bs.length)

/-- A store updates a present line when its acknowledgement returns (R81, R83). -/
def Core.l1Store (c : Core) (pa : Nat) (bs : List Byte) : Core :=
  { c with l1 := c.l1.map fun l => if l.line = pa / 32 then { l with data := patchBytes l.data (pa % 32) bs } else l }

/-- Whether an operation is a release of more than thread scope (R102, R104, R132, R171). -/
def Op.releases (o : Op) : Bool :=
  match o.kind with
  | .store | .atomic _ | .reduction _ | .localStore | .fence _ => decide (2 ≤ o.order) && o.scope != 0
  | .fullEmpty ld => !ld || (decide (2 ≤ o.order) && o.scope != 0)
  | .arrive _ | .engine | .ctlWr _ | .launch _ => true
  | _ => false

/-- Whether an operation reads memory for its thread (R103). -/
def Op.reads (o : Op) : Bool :=
  match o.kind with
  | .load | .atomic _ | .localLoad | .fullEmpty true | .refill | .launch _ | .patchLoad => true
  | _ => false

/-- Whether an operation holds the later memory accesses of its thread (R102, R103, R172): an acquire until it has completed, and a
release while its own wait lasts.  A sequentially consistent fence holds later loads at every scope. -/
def State.opHolds (s : State) (core : Nat) (x : Op) (loads : Bool) : Bool :=
  x.acquires || (x.releases && x.stage == .queued && s.accessesOf core x.part x.slot x.id) || (x.kind == .fence true && loads)

/-- Whether an operation is an access to global memory by a line request. -/
def Op.isGlobal (o : Op) : Bool :=
  match o.kind with
  | .load | .store | .atomic _ | .reduction _ | .spill | .refill | .patchSave | .patchLoad | .prefetch => true
  | _ => false

/-- Whether an operation is a store that a load of its line waits for (R83, R100). -/
def Op.isStore (o : Op) : Bool :=
  match o.kind with
  | .store | .spill | .patchSave | .reduction _ | .atomic _ => true
  | _ => false

/-- Whether two accesses touch one line, or one sector when either is a column line (R83). -/
def Op.sameLine (a b : Op) : Bool :=
  a.loc == b.loc && (if a.col != 0 || b.col != 0 then a.pa / 1024 == b.pa / 1024 else a.pa / 32 == b.pa / 32)

/-- Whether an operation accesses the local address space (R165). -/
def Op.isLocal (o : Op) : Bool :=
  match o.kind with
  | .localLoad | .localStore | .fullEmpty _ | .feSet _ => true
  | _ => false

/-- Whether two local accesses may touch one location (R55, R56): the frame windows are taken to meet one another. -/
def Op.meetsLocal (a b : Op) : Bool :=
  a.isLocal && b.isLocal &&
    ((decide (0x3000_0000 ≤ a.pa) && decide (0x3000_0000 ≤ b.pa)) || (decide (a.pa < b.pa + b.size) && decide (b.pa < a.pa + a.size)))

/-- Whether a store may meet a range of a packet or descriptor that its thread has still to read (R101): by the lines of their pages, which
translation leaves as they are. -/
def Op.meetsRead (o : Op) (va : DWord) (n : Nat) : Bool :=
  o.isStore && (o.col != 0 || decide ((o.va.toNat / 32 + 128 - va.toNat / 32 % 128) % 128 ≤ n / 32))

/-- Whether an operation waits for an `fnld` of its thread that has still to read its descriptor (R101, R103, R185): a store to it, or a
sequentially consistent fence. -/
def Op.waitsLoad (o : Op) (l : FnLoad) : Bool :=
  l.team.isNone && l.image.isNone && l.part == o.part && l.slots.head? == some o.slot && decide (l.id < o.id)
    && (o.kind == .fence true || o.meetsRead l.addr 1088)

/-- Whether an operation waits for another of its core (R83, R100-R103, R167): for an earlier one of its thread that holds it or touches its
line; a local access for one of its thread or its word to its location; a load for a store of its line, by any thread, that is
unacknowledged; and a sequentially consistent fence for the loads before it. -/
def State.waitsFor (s : State) (core : Nat) (o x : Op) : Bool :=
  let own := x.of o.part o.slot
  let before := decide (x.id < o.id)
  (before && own && (s.opHolds core x o.reads || (o.kind == .fence true && x.reads)))
    || (before && (own || x.word == o.word) && x.stage == .queued && x.meetsLocal o)
    || (before && own && o.isGlobal && x.isGlobal && x.xlated && x.sameLine o)
    || (before && own && x.stage != .done && (match x.kind with
        | .launch _ => o.meetsRead x.va 128
        | _ => false))
    || (o.isLoad && x.isStore && x.xlated && x.sameLine o && (before || x.stage != .queued) && x.id != o.id)

/-- Whether an operation must wait: as a release for every earlier access of its thread (R102), for another operation of its core, or for a
matrix word of its thread that has not taken effect, whose fault would park the thread before it (R106). -/
def State.waits (s : State) (core : Nat) (o : Op) : Bool :=
  (o.releases && s.accessesOf core o.part o.slot o.id) || ((s.core core).ops.any (s.waitsFor core o))
    || ((s.core core).loads.any o.waitsLoad)
    || (s.arrayOf core).array.any fun a => a.core == core && a.part == o.part && a.slots.contains o.slot && decide (a.id < o.id) && !a.made

/-- An operation of a core replaced. -/
def State.setOp (s : State) (core : Nat) (o : Op) : State :=
  s.onCore core fun c => { c with ops := c.ops.map fun x => if x.id = o.id then o else x }

/-- An operation of a core removed. -/
def State.dropOp (s : State) (core id : Nat) : State := s.onCore core fun c => { c with ops := c.ops.filter fun x => x.id != id }

/-- An operation of a core. -/
def Core.op? (c : Core) (id : Nat) : Option Op := c.ops.find? fun o => o.id == id

/-- An operation moves on, and the clocks of the hop it leaves are counted (R371). -/
def Op.enter (o : Op) (st : Stage) (hop clock : Nat) : Op :=
  { o with stage := st, since := clock, hops := o.hops.set hop (o.hops.getD hop 0 + (clock - o.since)) }

/-- Where a local address of a thread leads (R55, R324, R366). -/
inductive Win where
  | scratch (a : Nat)
  | frame (part slot n : Nat)
  | gone
  | record (part slot off : Nat)
  | debug (part slot off : Nat)
  | budget (off : Nat)
deriving DecidableEq, Repr

/-- The window of a local access of `n` bytes, if there is one (R55, R324, R366); `st` is a store.  R55 bounds the address of a scratch access
and not its end: one that ends beyond the team's scratch bytes lies in no window here, which is the model's choice (log 57). -/
def State.window (s : State) (tm : Team) (part slot a n : Nat) (st : Bool) : Option Win :=
  let reg := (n == 4 || n == 8) && a % n == 0
  let fw := isFirmware part
  if a + n ≤ tm.scratchBytes then some (.scratch a)
  else if 0x3000_0000 ≤ a ∧ a < 0x4000_0000 then
    let k := (a - 0x3000_0000) / 4
    if reg && k + n / 4 ≤ tm.frame then some (.frame part slot k) else none
  else if 0x4000_0000 ≤ a ∧ a < 0x4000_0000 + tm.size * 512 then
    let k := (a - 0x4000_0000) % 512 / 4
    if reg && k + n / 4 ≤ tm.frame then
      match (s.threadsOf tm.core tm.slot).find? fun x => x.tid == (a - 0x4000_0000) / 512 with
      | some x => some (.frame x.part x.slot k)
      | none => some .gone
    else none
  else if fw ∧ 0x6000_0000 ≤ a ∧ a < 0x6010_0000 then
    let b := a - 0x6000_0000
    let k := b % 0x200 / 4
    let f := match s.thread? tm.core (b / 0x2_0000) (b % 0x2_0000 / 0x200) with
      | some x => x.regs.length
      | none => 128
    if reg && decide (k + n / 4 ≤ f) then some (.frame (b / 0x2_0000) (b % 0x2_0000 / 0x200) k) else none
  else if fw ∧ 0x6010_0000 ≤ a ∧ a < 0x6020_0000 then
    let b := a - 0x6010_0000
    if b % 0x2_0000 < 0x8000 then some (.record (b / 0x2_0000) (b % 0x2_0000 / 0x80) (b % 0x80)) else none
  else if fw ∧ 0x6020_0000 ≤ a ∧ a < 0x6020_4000 then
    let b := a - 0x6020_0000
    some (.debug (b / 0x800) (b % 0x800 / 8) (b % 8))
  else if fw ∧ st ∧ 0x7002_0000 ≤ a ∧ a < 0x7002_0100 ∧ a % 8 = 0 ∧ (n = 4 ∨ n = 8) then some (.budget (a - 0x7002_0000))
  else none

/-- A scratch byte: one never written is a free value (R5, R47). -/
def Team.scratchByte (t : Team) (a : Nat) : Byte := assoc a (Config.freeByte t.ctx (t.scratchSeed + a)) t.scratch

/-- The debug word of a thread (R366). -/
def Thread.debugWord (t : Thread) : Nat := (if t.dbgStep then 1 else 0) + (if t.dbgNobp then 2 else 0) + (if t.dbgSkip then 4 else 0)

/-- The bytes a local load reads (R55-R57, R324, R366). -/
def State.localRead (s : State) (core team : Nat) (w : Win) (n : Nat) : List Byte :=
  match w with
  | .scratch a =>
    match s.team? core team with
    | some tm => (List.range n).map fun i => tm.scratchByte (a + i)
    | none => List.replicate n 0
  | .frame p sl k =>
    match s.thread? core p sl with
    | some x => (bytesOfWords (x.vregs k (n / 4))).take n
    | none => List.replicate n 0
  | .record p sl off =>
    match s.thread? core p sl with
    | some x => (x.record.drop off).take n
    | none => List.replicate n 0
  | .debug p sl off =>
    match s.thread? core p sl with
    | some x => ((bytesOf 8 x.debugWord).drop off).take n
    | none => List.replicate n 0
  | .gone | .budget _ => List.replicate n 0

/-- Whether a range of a team's scratch touches a poisoned entry (R320, R352). -/
def Team.scratchBad (t : Team) (a n : Nat) : Bool := t.badScratch.any fun e => decide (a / 32 ≤ e) && decide (32 * e < a + n)

/-- A range of scratch written: an entry that it covers whole is clean (R353). -/
def Team.cleanScratch (t : Team) (a n : Nat) : Team :=
  { t with badScratch := t.badScratch.filter fun e => !(decide (a ≤ 32 * e) && decide (32 * e + 32 ≤ a + n)) }

/-- Whether a local load reads a poisoned entry of the store (R320, R352). -/
def State.localBad (s : State) (core team : Nat) (w : Win) (n : Nat) : Bool :=
  match w with
  | .scratch a => ((s.team? core team).map fun t => t.scratchBad a n).getD false
  | .frame p sl k => ((s.thread? core p sl).map fun x => x.badRegs.any fun r => decide (k ≤ r) && decide (r < k + n / 4)).getD false
  | _ => false

/-- Whether a thread is parked on a fault. -/
def Thread.onFault (t : Thread) : Bool :=
  match t.life with
  | .parked (.fault _) => true
  | _ => false

/-- A thread record's writable fields taken from changed bytes (R324): RESUME, which acts when the thread is released (R323), PARKINFO [13:0]
and BYPASS. -/
def Thread.setRecord (t : Thread) (r : List Byte) : Thread :=
  let pk := fieldAt r 0x10 2
  let v : DWord := BitVec.ofNat 64 (fieldAt r 8 8)
  { t with bypass := (fieldAt r 0 1).testBit 4, moved := if v = t.at_.key then none else some v
           at_ := { t.at_ with rank := BitVec.ofNat 13 pk, conv := pk.testBit 13 } }

/-- MODE and SHARE that a write to a budget register stores, with the floors of R311: SCRIBE and REFRESH are always work-conserving. -/
def budgetFloor (p k : Nat) (v : DWord) : BitVec 10 :=
  let share := v.toNat % 512
  let share := if k = 7 then max share 2 else if k = 6 ∧ p = 1 then max share 8 else share
  let mode := bitAt v 9 || k == 7 || k == 6
  BitVec.ofNat 10 (share + if mode then 512 else 0)

/-- Whether a write to a budget register keeps the sum of its type's SHARE values within 256 (R311). -/
def State.budgetFits (s : State) (p k : Nat) (v : DWord) : Bool :=
  let new := budgetFloor p k v
  let sum := (List.range 8).foldl (fun n j => n + (if j = k then new else s.budget p j).toNat % 512) 0
  decide (sum ≤ 256)

/-- A local store (R55-R57, R311, R324, R366). -/
def State.localWrite (s : State) (core team : Nat) (fw : Bool) (w : Win) (bs : List Byte) : State :=
  match w with
  | .scratch a => s.onTeam core team fun tm =>
      { tm with scratch := (bs.zipIdx).foldl (fun m p => setAssoc (a + p.2) p.1 m) tm.scratch }
  | .frame p sl k => s.onThread core p sl fun x =>
      if fw && !x.onFault then x else ((wordsOfBytes (bs.length / 4) bs).zipIdx).foldl (fun x p => x.writeV (k + p.2) p.1) x
  | .record p sl off => s.onThread core p sl fun x =>
      if x.onFault then x.setRecord (patchBytes (x.record.take 128) off bs) else x
  | .debug p sl off => s.onThread core p sl fun x =>
      if x.isParked then
        let d := natOf (patchBytes (bytesOf 8 x.debugWord) off bs)
        { x with dbgStep := d.testBit 0, dbgNobp := d.testBit 1, dbgSkip := d.testBit 2 }
      else x
  | .budget off =>
      let p := off / 0x40
      let k := off % 0x40 / 8
      let v := BitVec.ofNat 64 (natOf bs)
      if s.budgetFits p k v then s.setBudget p k (budgetFloor p k v) else s
  | .gone => s

/-- Bytes of a size code (R164). -/
def codeBytes (md : Nat) : Nat :=
  if md = 6 ∨ md = 7 then 1 else if md = 4 ∨ md = 5 ∨ md = 9 ∨ md = 0xA then 2
  else if md = 2 ∨ md = 3 ∨ md = 0xB then 8 else if md = 0xE then 16 else 4

/-- How a loaded value is written (R164). -/
def codeWords (md : Nat) (bs : List Byte) : List Word := if md = 0xE then wordsOfBytes 4 bs else typeWrite md (natOf bs)

/-- The registers a load of a size in bytes writes: a size code, a 32-byte line or 8 bytes of a refill. -/
def Op.loaded (o : Op) (bs : List Byte) : List Word := if o.size = 32 then wordsOfBytes 8 bs else codeWords o.md bs

/-- The new value of an atomic operation (R119, R170). -/
def atomicNew (op w old b c : Nat) : Nat :=
  let s (x : Nat) : Int := sext w x
  if op = 0 then (old + b) % 2 ^ w
  else if op = 1 then (if s old ≤ s b then old else b)
  else if op = 2 then min old b
  else if op = 3 then (if s old ≤ s b then b else old)
  else if op = 4 then max old b
  else if op = 5 then old &&& b
  else if op = 6 then old ||| b
  else if op = 7 then old ^^^ b
  else if op = 8 then b
  else if op = 9 then (if old = b then c else old)
  else if op = 0xA then (if w = 32 then f32 else f64).fadd .rne old b
  else if b ≤ old then 0 else old + 1

/-- Whether the I/O complex carries an atomic as a PCI Express AtomicOp (R170): FetchAdd, Swap and CAS. -/
def atomicCarried (op : Nat) : Bool := op == 0 || op == 8 || op == 9

/-- An access performed at its home (R86, R99, R170): the operation with what it read, and memory with what it wrote.
A write homed on two fenced slices is discarded, and a poisoned read is marked (R353, R355). -/
def State.performGlobal (s : State) (core : Nat) (o : Op) : State :=
  let lost := isHbm o.pa && s.homeless o.pa
  match o.kind with
  | .load | .prefetch | .refill =>
    let bs := if o.col = 0 then s.bytes o.pa o.size else s.column o.pa o.col
    let bad := o.lines.any fun l => s.readsPoison (32 * l) 32
    let line := if o.col = 0 then s.bytes (o.pa / 32 * 32) 32 else bs
    let vals := if o.kind = .refill then wordsOfBytes 2 bs else o.loaded bs
    let (n, s) := s.newId
    s.setOp core { o with line := line, vals := vals, poisoned := bad, perf := n }
  | .patchLoad =>
    let bad := s.readsPoison o.pa o.size
    let (n, s) := s.newId
    s.setOp core { o with line := s.bytes (o.pa / 32 * 32) 32, data2 := s.bytes o.pa o.size, poisoned := bad, perf := n }
  | .store | .spill | .patchSave =>
    let s := if lost then s else if o.col = 0 then s.storeLine o.pa o.data else s.storeColumn o.pa o.col o.data
    let s := if o.col = 0 then s else s.onCore core fun c => c.dropLines o.lines false
    let (n, s) := s.newId
    s.setOp core { o with perf := n }
  | .atomic op | .reduction op =>
    let w := 8 * o.size
    let old := s.num o.pa o.size
    let new := atomicNew op w old (natOf o.data) (natOf o.data2)
    let s := if lost then s else s.store o.pa (bytesOf o.size new)
    let s := s.onCore core fun c => c.dropLines o.lines false
    s.setOp core { o with vals := wordsOf (w / 32) old, poisoned := s.readsPoison o.pa o.size }
  | _ => s.setOp core o

/-- A full/empty operation performed (R90, R91, R102, R171): the word and its bit change in one step, its reservation ends, and
the new state serves a waiter.  The acquire half of an `st.fe` completes with it. -/
def State.performFe (s : State) (core : Nat) (o : Op) (ld : Bool) : State :=
  match s.team? core o.team with
  | none => s.dropOp core o.id
  | some tm =>
    let w := tm.feWord o.pa
    let v := wordsOfBytes 1 ((List.range 4).map fun i => tm.scratchByte (o.pa + i))
    let tm := tm.setFe { w with full := !ld, reserved := none }
    let s := s.setTeam tm
    let s := if ld then s.setOp core { o with vals := v, poisoned := tm.scratchBad o.pa 4, stage := .done }
      else
        let s := (s.localWrite core o.team false (.scratch o.pa) o.data).dropOp core o.id
        if o.order % 2 = 1 ∧ 4 ≤ o.scope then s.onCore core Core.flash else s
    s.serveFe core o.team o.pa

/-- `fe.set` performed (R91, R171): the bit is forced, any reservation ends and the oldest waiter served is released. -/
def State.performFeSet (s : State) (core : Nat) (o : Op) (full : Bool) : State :=
  ((s.onTeam core o.team fun x => x.setFe { x.feWord o.pa with full := full, reserved := none }).dropOp core o.id).serveFe core o.team o.pa

/-- A control register written on every core of the context, with its word of the descriptor (R290, R291, R380). -/
def State.writeCtl (s : State) (ctx n : Nat) (v : DWord) : State :=
  let c' := (s.ctx ctx).writeCtl n v
  let s := s.setCtx c'
  let d := (s.vf (vfOf ctx)).ctxbase.toNat + 128 * (ctx % 256)
  let put (s : State) (off : Nat) (x : DWord) : State := if paOk (d + off) 8 then s.post (ccpAgent (vfOf ctx)) (d + off) (bytesOf 8 x.toNat) else s
  if n = 1 then put s 8 c'.trapvec
  else if n = 2 then put s 0x10 (c'.agelim.setWidth 64)
  else if n = 3 then put s 0x18 c'.seed
  else if n = 5 then put s 0x20 c'.psave
  else s

/-- The physical address of a kernel table entry (R337). -/
def Ctx.entryPa (c : Ctx) (kidx : Nat) : Nat := c.ktbase.toNat + 32 * kidx

/-- The entry of a kernel table with the object that owns it (R259, R337): none when it is not valid. -/
def State.entryOf (s : State) (c : Ctx) (kidx : Nat) : Option (List Byte × Nat) :=
  let pa := c.entryPa kidx
  if c.ktsize ≤ kidx ∨ !paOk pa 32 then none
  else
    let e := s.bytes pa 32
    if fieldAt e 0 8 = 0 then none
    else (c.owners.find? fun o => o.kidx == kidx).map fun o => (e, o.obj)

/-- The kernel table entry of a context. -/
def State.kernelEntry (s : State) (ctx kidx : Nat) : Option (List Byte × Nat) := s.entryOf (s.ctx ctx) kidx

/-- Whether a context's kernel table entry reads poison (R353). -/
def State.entryPoisoned (s : State) (ctx kidx : Nat) : Bool :=
  let c := s.ctx ctx
  decide (kidx < c.ktsize) && paOk (c.entryPa kidx) 32 && s.readsPoison (c.entryPa kidx) 32

/-- A launch whose packet has been read takes the kernel table entry as it stands then (R134, R341): its bytes, and the object that owns it. -/
def State.judged (s : State) (o : Op) : Op :=
  match o.kind with
  | .launch _ =>
    match s.kernelEntry o.ctx (pktKidx o.line) with
    | some (e, obj) => { o with data2 := e, vals := [BitVec.ofNat 32 obj], poisoned := o.poisoned || s.entryPoisoned o.ctx (pktKidx o.line) }
    | none => { o with data2 := [], poisoned := o.poisoned || s.entryPoisoned o.ctx (pktKidx o.line) }
  | _ => o

/-- The kernel table entry that a launch has taken. -/
def Op.entry (o : Op) : Option (List Byte × Nat) := if o.data2.isEmpty then none else some (o.data2, (o.vals.getD 0 0).toNat)

/-- The packet a launch reads once its release has completed (R84, R134); a fault is kept for its landing. -/
def State.readPacket (s : State) (core : Nat) (o : Op) : State :=
  let rs := [(o.va, 128)]
  let g := coreAgent o.id o.ctx core
  match s.xlateRanges g [(.read, o.va, 128)] with
  | (.bad cls code _ _, s) => (s.hostForget o.id).setOp core { o with fault := some (cls, code), stage := .done }
  | (.ok m, s) =>
    match pageFind m o.va with
    | some (pa, 0) =>
      if !s.mayServeVa g .row m rs then s.askVa g .row m rs
      else (s.hostForget o.id).setOp core
        (s.judged { o with pa := pa, line := s.readVa o.id m o.va 128, poisoned := (s.poisonVa m rs).isSome, stage := .done })
    | some (pa, _) => ((s.hostForget o.id).setOp core { o with stage := .host, pa := pa }).hostRead core o.id o.ctx o.va pa 128
    | none => s
  | (_, s) => s

/-- The banks of a local access (R50, R51). -/
def Win.banks (w : Win) (size : Nat) : List BankUse :=
  match w with
  | .scratch a => scratchBanks a size
  | .frame p sl k => frameBanks p sl k (ceilDiv size 4)
  | _ => []

/-- A local access whose waits have ended is performed in a clock in which its banks are left unclaimed (R51, R53). -/
def State.performLocal (s : State) (core : Nat) (o : Op) (st : Bool) : State :=
  let win := (s.team? core o.team).bind fun tm => s.window tm o.part o.slot o.pa o.size st
  s.withBanks core o.id o.part o.word ((win.map fun w => w.banks o.size).getD []) fun s =>
    if st then
      let s := s.dropOp core o.id
      match win with
      | some w => s.localWrite core o.team (isFirmware o.part) w o.data
      | none => s
    else
      let bs := (win.map fun w => s.localRead core o.team w o.size).getD (List.replicate o.size 0)
      s.setOp core { o with vals := o.loaded bs, poisoned := (win.map fun w => s.localBad core o.team w o.size).getD false, stage := .done }

/-- One operation whose waits have ended, if it needs no line request (R102-R104, R132, R171). -/
def settleOne (core : Nat) (s : State) (o : Op) : State :=
  if o.stage != .queued || s.waits core o then s
  else
    match o.kind with
    | .localLoad => s.performLocal core o false
    | .localStore => s.performLocal core o true
    | .fullEmpty ld => s.withBanks core o.id o.part o.word (scratchBanks o.pa 4) fun s => s.performFe core o ld
    | .feSet full => s.withBanks core o.id o.part o.word (scratchBanks o.pa 4) fun s => s.performFeSet core o full
    | .fence _ =>
      let s := s.dropOp core o.id
      if o.order % 2 = 1 ∧ 4 ≤ o.scope then s.onCore core Core.flash else s
    | .arrive b => (s.onThread core o.part o.slot fun t => { t with counted := t.counted ||| 1#16 <<< b }).dropOp core o.id
    | .engine => s.dropOp core o.id
    | .ctlWr _ => s.setOp core { o with stage := .done }
    | .launch _ => s.readPacket core o
    | _ => s

/-- Every operation of a core whose waits have ended, oldest first. -/
def State.settle (s : State) (core : Nat) : State := (s.core core).ops.foldl (settleOne core) s

end Sys2Proof.Machine
end

