-- ==== Sys2Proof/Machine/Matrix.lean ====
section
/-! DEFINITION. The words of the tensor array (R203-R223): reservations, the checks of R207, queueing, and max-magnitude registers. -/

namespace Sys2Proof.Machine

/-- A shape word's fields (R206). -/
structure Shape where
  pitch : Nat
  col   : Nat
  kf    : Nat
  nb    : Nat
  m     : Nat
deriving DecidableEq, Repr

/-- The fields of a shape word. -/
def shapeOf (w : Word) : Shape :=
  ⟨(w.extractLsb' 20 12).toNat, (w.extractLsb' 16 4).toNat, (w.extractLsb' 12 4).toNat, (w.extractLsb' 8 4).toNat,
   (w.extractLsb' 0 8).toNat + 1⟩

/-- N of a shape. -/
def Shape.n (h : Shape) : Nat := 32 * (h.nb + 1)
/-- Keq of an `mmac` (R206). -/
def Shape.keq (h : Shape) : Nat := 16 * 2 ^ h.kf
/-- K of an `mmac` under a format (R206). -/
def Shape.k (h : Shape) (fmt : Nat) : Nat := h.keq * (if fmt = 4 then 2 else if fmt = 6 then 4 else 1)
/-- K of an `mdual` (R206). -/
def Shape.kDual (h : Shape) : Nat := 32 * (h.kf + 1)

/-- A format slot's fields (R72). -/
abbrev slotFmtCode (v : DWord) : Nat := (v.extractLsb' 0 4).toNat
/-- D. -/
abbrev slotD (v : DWord) : Nat := (v.extractLsb' 4 4).toNat
/-- RND. -/
abbrev slotRnd (v : DWord) : RMode := RMode.ofCode (v.extractLsb' 8 2).toNat
/-- SAT. -/
abbrev slotSat (v : DWord) : Bool := bitAt v 10
/-- AMREG, when AMAX is set. -/
def slotAm (v : DWord) : Option Nat := if bitAt v 11 then some (v.extractLsb' 12 3).toNat else none

/-- Registers of a row of A: elements, and scales for TwinScale (R210). -/
def rowRegs (fmt k : Nat) : Nat :=
  if isTwin fmt then k * twinBits fmt / 32 + ceilDiv k 64 else k / 2

/-- A matrix word: which instruction it is. -/
inductive MatKind where
  | mmac | mdual | mzero | mld | mst | qcvt | dqcvt
deriving DecidableEq, Repr

/-- A matrix word as the checks and the array see it: the kind and the fields. -/
structure Mat where
  kind : MatKind
  f    : RWord
deriving DecidableEq, Repr

/-- PAIR, LOCAL, TRANS and REUSE of a word (R205). -/
def Mat.pair (x : Mat) : Bool :=
  match x.kind with
  | .mmac | .mzero | .mld | .mst => bitAt x.f.md 0
  | _ => false
/-- LOCAL. -/
def Mat.local_ (x : Mat) : Bool :=
  match x.kind with
  | .mmac | .mld | .mst => bitAt x.f.md 1
  | _ => false
/-- TRANS. -/
def Mat.trans (x : Mat) : Bool := x.kind == .mst && bitAt x.f.md 2
/-- REUSE. -/
def Mat.reuse (x : Mat) : Bool := x.kind == .mmac && bitAt x.f.x 3
/-- The format slot or `am` register X[34:32] names. -/
def matSlot (f : RWord) : Nat := (f.x.extractLsb' 0 3).toNat

/-- The formats a word's slot may name (R210, R216, R218, R220). -/
def Mat.fmtOk (x : Mat) (fmt : Nat) : Bool :=
  match x.kind with
  | .mmac => fmt == 1 || fmt == 2 || fmt == 4 || fmt == 6
  | .mdual => fmt == 1 || fmt == 2
  | .mzero => true
  | .mld | .dqcvt => fmt ≤ 2
  | .mst => !fmtReserved fmt
  | .qcvt => isTwin fmt

/-- The length of a memory row of `mld` and `mst` (R218). -/
def Mat.rowLen (x : Mat) (h : Shape) : Nat := if x.trans then h.m else h.n
/-- The memory rows of `mld` and `mst`. -/
def Mat.rows (x : Mat) (h : Shape) : Nat := if x.trans then h.n else h.m
/-- Bytes of `n` elements of a format in a row (R72, R218). -/
def rowBytes (fmt n : Nat) : Nat := if isTwin fmt then twinSize fmt * (n / 32) else if fmt = 0xA then n / 2 else n * fmtBytes fmt

/-- The word as an instruction. -/
def Mat.instr (x : Mat) : Instr :=
  match x.kind with
  | .mmac => .mmac x.f
  | .mdual => .mdual x.f
  | .mzero => .mzero x.f
  | .mld => .mld x.f
  | .mst => .mst x.f
  | .qcvt => .qcvt x.f
  | .dqcvt => .dqcvt x.f

/-- The limits of a word's shape (R206, R207, R210, R216, R218), for a team of a size. -/
def Mat.shapeOk (x : Mat) (h : Shape) (fmt size : Nat) : Bool :=
  let mMax := if x.pair then 256 else 128
  let common := decide (h.m ≤ mMax) && decide (h.m ≤ size) && decide (h.nb ≤ 11) && decide (h.col + h.n / 32 ≤ 12)
  match x.kind with
  | .mmac => common && decide (h.kf ≤ 2) && (isTwin fmt || decide (h.n / 16 ≤ h.pitch))
  | .mdual => common && decide (h.n ≤ 96) && decide (h.kf ≤ 5) && decide (32 * h.col + 2 * h.kDual ≤ 384)
  | .mzero => common
  | .mld => common && h.pitch != 0
  | .mst => common && h.pitch != 0 && (!isTwin fmt || x.rowLen h % 32 == 0) && (fmt != 0xA || x.rowLen h % 2 == 0)
  | .qcvt | .dqcvt => true

/-- What a matrix word reads at issue from its issuing thread: D, A and B as addresses and C (R205, R207). -/
structure MatArgs where
  d : DWord
  a : DWord
  b : DWord
  c : Word
deriving DecidableEq, Repr

/-- An address operand: a pair, or a 32-bit scratch address with LOCAL. -/
def matAddr (x : Mat) (is : Issue) (t : Thread) (sel : BitVec 8) : DWord :=
  if isNone sel then 0 else if x.local_ then BitVec.ofNat 64 (is.val t sel 1) else is.pair t sel

/-- The operand values of a matrix word. -/
def Mat.args (x : Mat) (is : Issue) (t : Thread) : MatArgs :=
  { d := matAddr x is t x.f.d
    a := (match x.kind with
      | .mmac | .mdual => 0
      | _ => matAddr x is t x.f.a)
    b := matAddr x is t x.f.b
    c := BitVec.ofNat 32 (is.val t x.f.c 1) }

/-- The memory ranges of a word (R211, R216-R218, R220): the access, the start and the length of each. -/
def Mat.ranges (x : Mat) (g : MatArgs) (fmt : Nat) : List (Acc × DWord × Nat) :=
  let h := shapeOf g.c
  let at_ (a : DWord) (n : Nat) : DWord := a + BitVec.ofNat 64 n
  let c := g.c.toNat
  match x.kind with
  | .mmac =>
    let k := h.k fmt
    if isTwin fmt then [(.mmacB, g.b, twinSize fmt * (h.n * (k / 32))), (.mmacB, g.d, 2 * (h.n * (k / 32)))]
    else (List.range k).map fun r => (.mmacB, at_ g.b (32 * h.pitch * r), 2 * h.n)
  | .mdual =>
    let tiles (r c : Nat) : Nat := 1024 * (ceilDiv r 32 * ceilDiv c 16)
    [(.read, g.d, tiles h.kDual h.n), (.read, g.b, tiles h.m h.kDual)]
  | .mzero => []
  | .mld => (List.range h.m).map fun r => (.read, at_ g.a (32 * h.pitch * r), rowBytes fmt h.n)
  | .mst =>
    ((List.range (x.rows h)).map fun r => (.write, at_ g.a (32 * h.pitch * r), rowBytes fmt (x.rowLen h)))
      ++ (if isTwin fmt then [(.write, g.d, 2 * (x.rows h * (x.rowLen h / 32)))] else [])
  | .qcvt =>
    [(.read, g.a, 32 * c * (if x.f.md = 8 then 4 else 2)), (.write, g.d, twinSize fmt * c), (.write, g.b, 2 * c)]
  | .dqcvt =>
    let src := 4 + x.f.md.toNat % 4
    [(.read, g.a, twinSize src * c), (.read, g.b, 2 * c), (.write, g.d, 32 * c * fmtBytes fmt)]

/-- The addresses that must be aligned, with the alignment (R207, R217).  DESIGN CHOICE (log 57): the first that is misaligned gives `tval`, in an order that
R207 does not give: W before X for `mdual`, and D, A, B for `qcvt` and `dqcvt`. -/
def Mat.aligned (x : Mat) (g : MatArgs) (fmt : Nat) : List (DWord × Nat) :=
  match x.kind with
  | .mmac => [(g.b, 32)] ++ (if isTwin fmt then [(g.d, 32)] else [])
  | .mdual => [(g.d, 1024), (g.b, 1024)]
  | .mzero => []
  | .mld => [(g.a, 32)]
  | .mst => [(g.a, 32)] ++ (if isTwin fmt then [(g.d, 32)] else [])
  | .qcvt | .dqcvt => [(g.d, 32), (g.a, 32), (g.b, 32)]

/-- A word of the array by its opcode (R205). -/
def matOf (w : DWord) : Option Mat :=
  match decode w with
  | some (.mmac f) => some ⟨.mmac, f⟩
  | some (.mdual f) => some ⟨.mdual, f⟩
  | some (.mzero f) => some ⟨.mzero, f⟩
  | some (.mld f) => some ⟨.mld, f⟩
  | some (.mst f) => some ⟨.mst, f⟩
  | some (.qcvt f) => some ⟨.qcvt, f⟩
  | some (.dqcvt f) => some ⟨.dqcvt, f⟩
  | _ => none

/-- What the reuse latch of a team will hold when the queued words before a new one have taken effect: M, K and FMT (R213). -/
def State.latchAt (s : State) (core : Nat) (tm : Team) : Option (Nat × Nat × Nat) :=
  (s.arrayOf core).array.foldl (fun l o =>
    if !o.made && o.core == core && o.team == tm.slot then
      match matOf o.word with
      | some x =>
        if x.kind = .mmac then
          let fmt := slotFmtCode (tm.fs.getD (matSlot x.f) 0)
          let h := shapeOf o.c
          if x.reuse then some (h.m, h.k fmt, fmt) else none
        else l
      | none => l
    else l) (tm.reuse.map fun r => (r.2.1, r.2.2.1, r.2.2.2))

/-- The reservation a team holds: pair or not (R203). -/
def State.holds (s : State) (core team : Nat) : Option Bool :=
  match (s.core core).resv with
  | some (t, p) => if t = team then some p else none
  | none => none

/-- The checks of R207 after R46, made by the issuing thread: the value of `tval` when one fails.  DESIGN CHOICE (log 57): for a LOCAL range that leaves the
scratch window it is the start of the first row or plane that leaves it, where R207 does not say which address it is. -/
def Mat.check (x : Mat) (s : State) (is : Issue) (e : Thread) : Option DWord :=
  let g := x.args is e
  let slotV := is.team.fs.getD (matSlot x.f) 0
  let fmt := slotFmtCode slotV
  let h := shapeOf g.c
  let region := x.kind != .qcvt && x.kind != .dqcvt
  let held := s.holds is.cur.core is.team.slot
  let rows := match x.kind with
    | .mmac => rowRegs fmt (h.k fmt)
    | .mdual => h.n / 2
    | _ => 0
  let latch := if x.kind = .mmac then s.latchAt is.cur.core is.team else none
  if region && (held.isNone || (x.pair && held != some true)) then some 0x4D01
  else if !x.fmtOk fmt then some (BitVec.ofNat 64 (matSlot x.f))
  else if !x.shapeOk h fmt is.team.size then some 0x4D02
  else if is.team.frame < x.f.a.toNat + rows && rows != 0 then some (badSel x.f.a 1)
  else if latch.isSome && latch != some (h.m, h.k fmt, fmt) then some 0x4D03
  else if !region && (g.c.toNat = 0 || 1024 < g.c.toNat) then some 0x4D05
  else
    match (x.aligned g fmt).find? fun p => p.1.toNat % p.2 != 0 with
    | some p => some p.1
    | none =>
      if x.local_ then ((x.ranges g fmt).find? fun r => is.team.scratchBytes < r.2.1.toNat + r.2.2).map fun r => r.2.1
      else none

/-- The thread that issues a matrix word (R207): of the guard-holding threads that no pending handle parks, the one of lowest `tid`. -/
def Mat.issuer (x : Mat) (s : State) (is : Issue) : Option Thread := is.act.find? fun t => (pendingRead s is x.instr t).isNone

/-- The place of an array word in its queue (R209): its clock of issue, then lower partition first, even pipe first, and for the cores of a
pair the even core first. -/
def ArrayOp.before (a b : ArrayOp) : Bool :=
  decide (a.issued < b.issued) || (a.issued == b.issued && (decide (2 * a.part + a.trap.pipe < 2 * b.part + b.trap.pipe)
    || (2 * a.part + a.trap.pipe == 2 * b.part + b.trap.pipe && decide (a.core ≤ b.core))))

/-- An array word put into a queue in issue order (R209). -/
def arrayInsert (o : ArrayOp) : List ArrayOp → List ArrayOp
  | [] => [o]
  | x :: xs => if x.started.isSome || x.before o then x :: arrayInsert o xs else o :: x :: xs

/-- A matrix word that queues on the array (R207, R209, R212): every guard-holding thread sets its flag. -/
def Mat.meaning (x : Mat) : Meaning :=
  { plain (fun s is go =>
      match go with
      | [] => s
      | e :: _ =>
        let flag := flagOf is.hdr x.f.fs
        let s := go.foldl (fun s t => s.raiseFlag is t flag) s
        let (id, s) := s.newId
        let g := x.args is e
        let op : ArrayOp :=
          { id := id, core := is.cur.core, word := is.cur.exec, at_ := sameTarget is.cur, trap := trapHere is.cur, issued := s.clock, ctx := is.team.ctx, team := is.team.slot,
            part := is.cur.part, slot := e.slot, slots := go.map (·.slot), flag := flag, d := g.d, a := g.a, b := g.b, c := g.c,
            started := none, made := false, dur := 0, counts := [], am := none, amNan := false, amMag := 0 }
        s.onCore (s.arrayOf is.cur.core).idx fun c => { c with array := arrayInsert op c.array }) with
    traps := fun s is _ =>
      match x.issuer s is with
      | some e => (x.check s is e).map fun v => (4, v)
      | none => none }

/-- MMAC (R210-R215). -/
def execMmac (f : RWord) (s : State) : Res := runWord (.mmac f) (Mat.meaning ⟨.mmac, f⟩) s
/-- MDUAL (R216, R217). -/
def execMdual (f : RWord) (s : State) : Res := runWord (.mdual f) (Mat.meaning ⟨.mdual, f⟩) s
/-- MZERO (R218). -/
def execMzero (f : RWord) (s : State) : Res := runWord (.mzero f) (Mat.meaning ⟨.mzero, f⟩) s
/-- MLD (R218). -/
def execMld (f : RWord) (s : State) : Res := runWord (.mld f) (Mat.meaning ⟨.mld, f⟩) s
/-- MST (R218, R219). -/
def execMst (f : RWord) (s : State) : Res := runWord (.mst f) (Mat.meaning ⟨.mst, f⟩) s
/-- QCVT (R220). -/
def execQcvt (f : RWord) (s : State) : Res := runWord (.qcvt f) (Mat.meaning ⟨.qcvt, f⟩) s
/-- DQCVT (R220). -/
def execDqcvt (f : RWord) (s : State) : Res := runWord (.dqcvt f) (Mat.meaning ⟨.dqcvt, f⟩) s

/-- Whether a core is free for a reservation of a team, or held by it (R203). -/
def State.arrayFree (s : State) (core team : Nat) : Bool :=
  let c := s.core core
  !c.follower && (c.resv.isNone || s.holds core team != none)

/-- The conditions of a pair reservation (R203). -/
def State.pairFree (s : State) (core : Nat) (tm : Team) : Bool :=
  core % 2 == 0 && s.arrayFree core tm.slot && (s.core (core + 1)).resv.isNone
    && (!(s.core (core + 1)).follower || s.holds core tm.slot == some true)
    && bitAt (s.vf (vfOf tm.ctx)).vcore (core + 1) && !bitAt s.fencedCores (core + 1)
    && (s.teamsOn (core + 1)).all fun t => t.ctx == tm.ctx

/-- The words of a core that have not started move to another queue of its pair, in issue order (R209). -/
def State.moveArray (s : State) (src dst : Nat) : State :=
  let mine (o : ArrayOp) : Bool := o.started.isNone && (o.core == src || o.core == dst) && (src % 2 == 1 || o.core == dst)
  let ws := (s.core src).array.filter mine
  (s.onCore src fun c => { c with array := c.array.filter fun o => !mine o }).onCore dst fun c =>
    { c with array := ws.foldl (fun q o => arrayInsert o q) c.array }

/-- A reservation granted (R203, R204): the buffer then holds free values of the team's context. -/
def State.grant (s : State) (core team : Nat) (pair : Bool) : State :=
  let ctx := ((s.team? core team).map (·.ctx)).getD 0
  let seed := s.freshOf ctx
  let s := s.drawn ctx (2 * 49152)
  let s := s.onCore core fun c => { c with resv := some (team, pair), acc := [], accSeed := (ctx, seed), accBad := [] }
  if pair then
    (s.onCore (core + 1) fun c => { c with follower := true, acc := [], accSeed := (ctx, seed + 49152), accBad := [] }).moveArray (core + 1) core
  else s

/-- A reservation ends (R203, R213): the reuse latch is invalidated. -/
def State.endReservation (s : State) (core team : Nat) : State :=
  match (s.core core).resv with
  | some (t, pair) =>
    if t = team then
      let s := s.onCore core fun c => { c with resv := none, releasing := none }
      let s := if pair then (s.onCore (core + 1) fun c => { c with follower := false }).moveArray core (core + 1) else s
      s.onTeam core team fun x => { x with reuse := none }
    else s
  | none => s

/-- MRES (R203): once for the pack; every guard-holding thread receives the status.  DESIGN CHOICE (log 57): between `mrel` and the release that it leaves
pending the team still holds the array, so the answer is true, and the release ends that reservation later. -/
def execMres (f : RWord) (s : State) : Res :=
  let pd := (f.md.extractLsb' 0 3).toNat
  runWord (.mres f) (plain fun s is go =>
    let c := is.cur.core
    let tm := is.team
    let ok := if bitAt f.md 3 then s.pairFree c tm else s.arrayFree c tm.slot
    let have_ := s.holds c tm.slot
    let s := if !ok then s
      else if bitAt f.md 3 then (if have_ = some true then s else s.grant c tm.slot true)
      else if have_.isSome then s else s.grant c tm.slot false
    go.foldl (fun s t => s.writePreds is t [(pd, ok)]) s) s

/-- MREL (R203): released once the team's earlier matrix instructions have retired. -/
def execMrel (f : RWord) (s : State) : Res :=
  runWord (.mrel f) (plain fun s is go =>
    let c := is.cur.core
    if go.isEmpty || (s.holds c is.team.slot).isNone then s
    else if (s.arrayOf c).array.any fun o => o.core == c && o.team == is.team.slot then
      s.onCore c fun k => { k with releasing := some (is.team.slot, s.nextId) }
    else s.endReservation c is.team.slot) s

/-- AMRD (R223): read at issue. -/
def execAmrd (f : RWord) (s : State) : Res :=
  runWord (.amrd f) (plain (fixRun f.d 1 fun _ is _ => regs [is.team.am.getD (matSlot f) 0])) s

/-- AMCLR (R223): the register is zero from the next clock on. -/
def execAmclr (f : RWord) (s : State) : Res :=
  runWord (.amclr f) (plain fun s is go =>
    if go.isEmpty then s
    else s.onTeam is.cur.core is.team.slot fun t => { t with amClear := t.amClear ++ [matSlot f] }) s

end Sys2Proof.Machine
end

