-- ==== Sys2Proof/Machine/Array.lean ====
section
/-! DEFINITION. The tensor array at work: starting and retiring its queued words (R76, R77, R208-R224, R387). -/

namespace Sys2Proof.Machine

/-- A word of an accumulation buffer: one never written since the grant is a free value (R204, R208). -/
def Core.accAt (c : Core) (row col : Nat) : Nat :=
  (assoc (row * 384 + col) (Config.freeWord c.accSeed.1 (c.accSeed.2 + row * 384 + col)) c.acc).toNat

/-- An element of the region of a reservation: rows from 128 up lie in the follower (R208). -/
def State.accGet (s : State) (core row col : Nat) : Nat := (s.core (core + row / 128)).accAt (row % 128) col

/-- Elements of the region written. -/
def State.accPut (s : State) (core : Nat) (es : List (Nat × Nat × Nat)) : State :=
  es.foldl (fun s e => s.onCore (core + e.1 / 128) fun c =>
    { c with acc := setAssoc (e.1 % 128 * 384 + e.2.1) (BitVec.ofNat 32 e.2.2) c.acc
             accBad := c.accBad.filter fun i => i != e.1 % 128 * 384 + e.2.1 }) s

/-- The registers of thread `i` of a team from a register up; a freed thread supplies zeros (R57, R214). -/
def State.rowOf (s : State) (core team i r n : Nat) : List Word :=
  match (s.threadsOf core team).find? fun t => t.tid == i with
  | some t => t.vregs r n
  | none => List.replicate n 0

/-- Element `k` of a row of 16-bit values, subnormals read as zero (R76, R210). -/
def row16 (fmt : Nat) (row : List Word) (k : Nat) : FVal :=
  (slotFmt fmt).readFlush (bitsNat (row.getD (k / 2) 0).toNat (16 * (k % 2)) 16)

/-- Element `k` of a row of TwinScale blocks with their scales after them (R210). -/
def rowTwin (fmt kLen : Nat) (row : List Word) (k : Nat) : FVal :=
  let e := kLen * twinBits fmt / 32
  let q := k / 32
  let block := bytesOfWords ((row.drop (q * twinBits fmt)).take (twinBits fmt))
  let scale := bitsNat (row.getD (e + q / 2) 0).toNat (16 * (q % 2)) 16
  twinVal fmt (twinElemAt fmt block (k % 32)) scale

/-- Element `k` of a row of A. -/
def rowElem (fmt kLen : Nat) (row : List Word) (k : Nat) : FVal :=
  if isTwin fmt then rowTwin fmt kLen row k else row16 fmt row k

/-- Prod (R76, R77): a zero TwinScale element gives +0. -/
def prodOf (twin : Bool) (a b : FVal) : FVal :=
  let p := a.mul b
  if twin && p.isZero then .fin false 0 0 else p

/-- One group of R76: the accumulator and whether FlushAcc flushed. -/
def accGroup (acc : Nat) (ps : List FVal) : Nat × Bool :=
  let x := f32.rne ((f32.read acc).add false (exactSum ps))
  (flush32 x, isSub32 x)

/-- The accumulation of R76 over products in increasing k, in groups of 16. -/
def accLoop (acc : Nat) (n : Nat) (prod : Nat → FVal) : Nat × Bool :=
  (List.range (ceilDiv n 16)).foldl (fun st g =>
    let (x, u) := accGroup st.1 ((List.range (min 16 (n - 16 * g))).map fun i => prod (16 * g + i))
    (x, st.2 || u)) (acc, false)

/-- The census counts of an accumulated element (R224): NaN, infinite, saturations, underflows. -/
def accCounts (before after : Nat) (flushed : Bool) : List Nat :=
  let b := f32.read before
  let a := f32.read after
  [if a.isNan && !b.isNan then 1 else 0, if a.isInf && !b.isNan && !b.isInf then 1 else 0, 0, if flushed then 1 else 0]

/-- Counts added. -/
def addCounts (a b : List Nat) : List Nat := List.zipWith (fun x y => x + y) a b

/-- The counts of a report. -/
def Report.counts (r : Report) : List Nat := [r.nan, r.inf, r.sat, r.under]

/-- What a matrix word computes: buffer elements, bytes to write, counts, and the max-magnitude report. -/
structure MatOut where
  acc    : List (Nat × Nat × Nat)
  writes : List (DWord × List Byte)
  counts : List Nat
  rep    : Report
deriving DecidableEq, Repr

/-- A little-endian number read through translated pages. -/
def State.numVa (s : State) (owner : Nat) (m : PageMap) (va : DWord) (n : Nat) : Nat := natOf (s.readVa owner m va n)

/-- Bytes of memory or of team scratch, by LOCAL. -/
def State.operand (s : State) (owner core team : Nat) (m : PageMap) (local_ : Bool) (va : DWord) (n : Nat) : List Byte :=
  if local_ then s.localRead core team (.scratch va.toNat) n else s.readVa owner m va n

/-- `base` plus an offset. -/
def plus (a : DWord) (n : Nat) : DWord := a + BitVec.ofNat 64 n

/-- The effect of an `mmac` on its region (R210-R212). -/
def mmacOut (h : Shape) (fmt : Nat) (rows : List (List Word)) (b : Nat → Nat → FVal) (acc : Nat → Nat → Nat) : MatOut :=
  let k := h.k fmt
  let twin := isTwin fmt
  let es := (List.range h.m).flatMap fun i => (List.range h.n).map fun j =>
    let old := acc i (32 * h.col + j)
    let row := rows.getD i []
    let (x, u) := accLoop old k fun l => prodOf twin (rowElem fmt k row l) (b l j)
    ((i, 32 * h.col + j, x), accCounts old x u)
  ⟨es.map (·.1), [], es.foldl (fun c e => addCounts c e.2) [0, 0, 0, 0], .zero⟩

/-- The byte of an element in the sector-tiled layout (R217). -/
def tiledAt (r c cols : Nat) : Nat := 1024 * (r / 32 * ceilDiv cols 16 + c / 16) + 32 * (r % 32) + 2 * (c % 16)

/-- The effect of an `mdual` (R216). -/
def mdualOut (h : Shape) (fmt : Nat) (rows : List (List Word)) (x w : Nat → Nat → FVal) (acc : Nat → Nat → Nat) : MatOut :=
  let k := h.kDual
  let c0 := 32 * h.col
  let dy (m n : Nat) : FVal := row16 fmt (rows.getD m []) n
  let one (r c : Nat) (n : Nat) (p : Nat → FVal) : (Nat × Nat × Nat) × List Nat :=
    let old := acc r c
    let (y, u) := accLoop old n p
    ((r, c, y), accCounts old y u)
  let dx := (List.range h.m).flatMap fun m => (List.range k).map fun j =>
    one m (c0 + j) h.n fun n => (dy m n).mul (w j n)
  let dw := (List.range h.n).flatMap fun n => (List.range k).map fun j =>
    one n (c0 + k + j) h.m fun m => (x m j).mul (dy m n)
  let es := dx ++ dw
  ⟨es.map (·.1), [], es.foldl (fun c e => addCounts c e.2) [0, 0, 0, 0], .zero⟩

/-- A row of values converted through a slot to its memory form (R218, R219): elements, scale bytes and report. -/
def rowOut (v : DWord) (xs : List FVal) : List Byte × List Byte × Report :=
  let fmt := slotFmtCode v
  if isTwin fmt then
    (List.range (xs.length / 32)).foldl (fun acc q =>
      let (e, sc, r) := toTwin fmt (slotD v) (slotSat v) ((xs.drop (32 * q)).take 32)
      (acc.1 ++ e, acc.2.1 ++ bytesOf 2 sc, acc.2.2.plus r)) ([], [], .zero)
  else
    let ys := xs.map fun x => fmtWrite fmt (slotRnd v) (slotSat v) x
    let r := ys.foldl (fun r y => r.plus y.2) Report.zero
    let bs := if fmt = 0xA then bytesOf (ys.length / 2) (ys.reverse.foldl (fun n y => n * 16 + y.1) 0)
      else ys.flatMap fun y => bytesOf (fmtBytes fmt) y.1
    (bs, [], r)

/-- The effect of an `mst` (R218, R219). -/
def mstOut (x : Mat) (h : Shape) (v : DWord) (g : MatArgs) (acc : Nat → Nat → Nat) : MatOut :=
  let fmt := slotFmtCode v
  let len := x.rowLen h
  let el (r c : Nat) : FVal := f32.read (if x.trans then acc c (32 * h.col + r) else acc r (32 * h.col + c))
  (List.range (x.rows h)).foldl (fun o r =>
    let xs := (List.range len).map fun c => el r c
    let (bs, sc, rep) := rowOut v xs
    { o with
      writes := o.writes ++ [(plus g.a (32 * h.pitch * r), bs)] ++ (if isTwin fmt then [(plus g.d (2 * (r * (len / 32))), sc)] else [])
      counts := addCounts o.counts rep.counts
      rep := o.rep.plus (magReport xs) }) ⟨[], [], [0, 0, 0, 0], .zero⟩

/-- The effect of a `qcvt` (R69, R220). -/
def qcvtOut (md : Nat) (v : DWord) (g : MatArgs) (src : DWord → Nat → List Byte) : MatOut :=
  let fmt := slotFmtCode v
  let f := floatOf md
  let e := f.width / 8
  (List.range g.c.toNat).foldl (fun o q =>
    let bs := src (plus g.a (32 * e * q)) (32 * e)
    let xs := (List.range 32).map fun i => f.read (fieldAt bs (e * i) e)
    let (el, sc, r) := toTwin fmt (slotD v) (slotSat v) xs
    { o with
      writes := o.writes ++ [(plus g.d (twinSize fmt * q), el), (plus g.b (2 * q), bytesOf 2 sc)]
      counts := addCounts o.counts [r.nan, 0, r.sat, r.under]
      rep := o.rep.plus (magReport xs) }) ⟨[], [], [0, 0, 0, 0], .zero⟩

/-- The effect of a `dqcvt` (R70, R220). -/
def dqcvtOut (md : Nat) (v : DWord) (g : MatArgs) (src : DWord → Nat → List Byte) : MatOut :=
  let fmt := slotFmtCode v
  let sf := 4 + md % 4
  (List.range g.c.toNat).foldl (fun o q =>
    let xs := fromTwin sf (src (plus g.a (twinSize sf * q)) (twinSize sf)) (natOf (src (plus g.b (2 * q)) 2))
    let (bs, _, r) := rowOut v xs
    { o with
      writes := o.writes ++ [(plus g.d (32 * fmtBytes fmt * q), bs)]
      counts := addCounts o.counts r.counts
      rep := o.rep.plus (magReport xs) }) ⟨[], [], [0, 0, 0, 0], .zero⟩

/-- The rows of A that an `mmac` or `mdual` takes (R213, R214). -/
def State.rowsOf (s : State) (o : ArrayOp) (x : Mat) (h : Shape) (fmt : Nat) : List (List Word) :=
  let n := if x.kind = .mdual then h.n / 2 else rowRegs fmt (h.k fmt)
  match x.kind, (s.team? o.core o.team).bind (·.reuse) with
  | .mmac, some r => r.1
  | _, _ => (List.range h.m).map fun i => s.rowOf o.core o.team i x.f.a.toNat n

/-- What a queued word computes from the state at its start. -/
def State.matOut (s : State) (o : ArrayOp) (x : Mat) (m : PageMap) (v : DWord) : MatOut :=
  let h := shapeOf o.c
  let fmt := slotFmtCode v
  let g : MatArgs := ⟨o.d, o.a, o.b, o.c⟩
  let rd (va : DWord) (n : Nat) : List Byte := s.operand o.id o.core o.team m x.local_ va n
  let acc (i j : Nat) : Nat := s.accGet o.core i j
  match x.kind with
  | .mmac =>
    let k := h.k fmt
    let b (l j : Nat) : FVal :=
      if isTwin fmt then
        let q := j * (k / 32) + l / 32
        twinVal fmt (twinElemAt fmt (rd (plus o.b (twinSize fmt * q)) (twinSize fmt)) (l % 32)) (natOf (rd (plus o.d (2 * q)) 2))
      else (slotFmt fmt).readFlush (natOf (rd (plus o.b (32 * h.pitch * l + 2 * j)) 2))
    mmacOut h fmt (s.rowsOf o x h fmt) b acc
  | .mdual =>
    let el (base : DWord) (cols r c : Nat) : FVal := (slotFmt fmt).readFlush (natOf (rd (plus base (tiledAt r c cols)) 2))
    mdualOut h fmt (s.rowsOf o x h fmt) (fun m j => el o.b h.kDual m j) (fun j n => el o.d h.n j n) acc
  | .mzero =>
    ⟨(List.range h.m).flatMap fun i => (List.range h.n).map fun j => (i, 32 * h.col + j, 0), [], [0, 0, 0, 0], .zero⟩
  | .mld =>
    ⟨(List.range h.m).flatMap fun i => (List.range h.n).map fun j =>
        (i, 32 * h.col + j, f32.rne (fmtRead fmt (natOf (rd (plus o.a (32 * h.pitch * i + fmtBytes fmt * j)) (fmtBytes fmt))))),
      [], [0, 0, 0, 0], .zero⟩
  | .mst => mstOut x h v g acc
  | .qcvt => qcvtOut x.f.md.toNat v g rd
  | .dqcvt => dqcvtOut x.f.md.toNat v g rd

/-- Latency of the farthest home of a word's operands (R96, R227): 250 when one lies on the other die. -/
def State.farL (s : State) (core : Nat) (m : PageMap) : Nat :=
  if m.any fun e => e.2.2 == 0 && s.dieAt e.2.1 != dieOf core then 250 else 160

/-- The duration of a word (R227).  What refresh windows and cross-axis reads add to it is the time that its operands are waited for: it retires no
sooner than its effect is made (log 27). -/
def State.matDur (s : State) (o : ArrayOp) (x : Mat) (m : PageMap) : Nat :=
  let h := shapeOf o.c
  let rows := if x.pair then min h.m 128 else h.m
  let base := match x.kind with
    | .mmac => ceilDiv h.n 96 * h.keq + 24
    | .mdual => ceilDiv h.kDual 96 * (h.n + h.m) + 24
    | .mzero => 8 + ceilDiv (rows * h.n) 1024
    | .mld | .mst => 24 + ceilDiv (rows * h.n) 256 + s.farL o.core m
    | .qcvt | .dqcvt => 24 + o.c.toNat + s.farL o.core m
  base + if x.pair then 8 else 0

/-- Whether an operation is one that a thread makes in its program's order and has not performed (R106): neither a result that it has, nor an
access of the return stack or of patch mode. -/
def Op.undone (o : Op) : Bool :=
  o.stage == .queued && match o.kind with
    | .result | .spill | .refill | .patchSave | .patchLoad | .engine => false
    | _ => true

/-- What the threads of a faulting array word have issued after it, and will execute again (R106, R221): their operations that are still to be
performed, descriptor loads that are still to be read, and later array words, each with its flags.  A later word of theirs that another thread issues
goes on without them. -/
def State.dropLater (s : State) (o : ArrayOp) : State :=
  let mine (part sl id : Nat) : Bool := part == o.part && o.slots.contains sl && decide (o.id < id)
  let c := s.core o.core
  let q := s.arrayOf o.core
  let ops := c.ops.filter fun x => mine x.part x.slot x.id && x.undone
  let loads := c.loads.filter fun l => l.team.isNone && l.image.isNone && mine l.part (l.slots.headD 0) l.id
  let words := q.array.filter fun a => a.core == o.core && mine a.part a.slot a.id
  let left := q.array.filter fun a => a.core == o.core && a.part == o.part && decide (o.id < a.id) && !o.slots.contains a.slot
  let s := s.onCore o.core fun c =>
    { c with ops := c.ops.filter (fun x => !ops.contains x), loads := c.loads.filter (fun l => !loads.contains l)
             releasing := c.releasing.filter fun r => !(r.1 == o.team && decide (o.id < r.2)) }
  let s := s.onCore q.idx fun c =>
    { c with array := (c.array.filter fun a => !words.contains a).map fun a =>
        if left.contains a then { a with slots := a.slots.filter fun sl => !o.slots.contains sl } else a }
  let flags : List (Nat × Nat) :=
    (ops.flatMap fun x => (x.slot :: x.also).filterMap fun sl => x.flag.map fun n => (sl, n)) ++ (loads.flatMap fun l => l.slots.map fun sl => (sl, l.flag))
      ++ (words.flatMap fun a => a.slots.map fun sl => (sl, a.flag)) ++ (left.flatMap fun a => (a.slots.filter o.slots.contains).map fun sl => (sl, a.flag))
  flags.foldl (fun s f => s.flagClears o.core o.part f.1 f.2) s

/-- An array word that leaves the queue with a fault (R221): the threads that set its flag park at the word, and the flag
clears, with those of what they have issued after it; a draining thread only loses its flag. -/
def State.arrayFault (s : State) (q : Nat) (o : ArrayOp) (cls code access : Nat) (va : DWord) : State :=
  let s := s.onCore q fun c => { c with array := c.array.filter fun x => x.id != o.id }
  let s : State := (s.hostForget o.id).dropLater o
  o.slots.foldl (fun s sl =>
    match s.thread? o.core o.part sl with
    | none => s
    | some t =>
      let s := s.flagClears o.core o.part sl o.flag
      if t.life = .draining then s
      else
        let s := s.pull o.core o.part sl
        match s.thread? o.core o.part sl with
        | some t => s.wordFault t cls code access va (opOf o.trap.inst).toNat o.trap o.at_
        | none => s) s

/-- The rectangles of the buffer that a word writes: rows, first column, columns (R208, R216, R218, R221). -/
def Mat.regions (x : Mat) (c : Word) : List (Nat × Nat × Nat) :=
  let h := shapeOf c
  match x.kind with
  | .mmac | .mzero | .mld => [(h.m, 32 * h.col, h.n)]
  | .mdual => [(h.m, 32 * h.col, h.kDual), (h.n, 32 * h.col + h.kDual, h.kDual)]
  | .mst | .qcvt | .dqcvt => []

/-- A rectangle of the buffer left with free values (R5, R221). -/
def State.freeRegion (s : State) (ctx core : Nat) (r : Nat × Nat × Nat) : State :=
  let n := s.freshOf ctx
  (s.drawn ctx (r.1 * r.2.2)).accPut core ((List.range (r.1 * r.2.2)).map fun i =>
    (i / r.2.2, r.2.1 + i % r.2.2, (Config.freeWord ctx (n + i)).toNat))

/-- LOC and line of the pieces of ranges. -/
def keysVa (m : PageMap) (rs : List (DWord × Nat)) : List (Nat × Nat) :=
  (rs.flatMap fun r => cutRange 32 r.1 r.2).filterMap fun p => (pageFind m p.1).map fun x => (x.2, x.1 / 32)

/-- Whether a word waits for earlier accesses of its issuing thread, whose relaxed loads and stores it makes (R98, R101, R219, R220, R225): an
acquire, an access to a line that it touches, a packet or descriptor that is still to be read before it writes, or with LOCAL an access of the
local address space.  Its loads wait as any do for the stores of a line, by any thread, that are unacknowledged (R100). -/
def State.arrayWaits (s : State) (o : ArrayOp) (local_ : Bool) (reads writes : List (Nat × Nat)) : Bool :=
  let touches (p : Op) (ks : List (Nat × Nat)) : Bool := p.isGlobal && p.xlated && p.lines.any fun l => ks.contains (p.loc, l)
  let unread (p : Op) : Bool := match p.kind with
    | .launch _ => p.stage != .done
    | _ => false
  ((s.core o.core).ops.any fun p =>
    (p.of o.part o.slot && decide (p.id < o.id)
      && (s.opHolds o.core p true || touches p (reads ++ writes) || (local_ && p.isLocal && p.stage == .queued) || (!writes.isEmpty && unread p)))
    || (p.isStore && p.stage != .queued && touches p reads))
    || (!writes.isEmpty && (s.core o.core).loads.any fun l =>
      l.team.isNone && l.image.isNone && l.part == o.part && l.slots.head? == some o.slot && decide (l.id < o.id))

/-- Whether a word reads a poisoned entry of the store or word of the buffer (R221, R352): the part of the buffer that it accumulates in or
stores, its rows of registers, or its scratch. -/
def State.arrayBad (s : State) (o : ArrayOp) (x : Mat) (fmt : Nat) : Bool :=
  let h := shapeOf o.c
  let buffer := match x.kind with
    | .mmac | .mdual => x.regions o.c
    | .mst => [(h.m, 32 * h.col, h.n)]
    | _ => []
  let held := x.kind == .mmac && ((s.team? o.core o.team).bind (·.reuse)).isSome
  let n := if x.kind = .mmac then rowRegs fmt (h.k fmt) else if x.kind = .mdual then h.n / 2 else 0
  let reads := ((x.ranges ⟨o.d, o.a, o.b, o.c⟩ fmt).filter fun r => !r.1.writes).map fun r => r.2
  (buffer.any fun r => (List.range r.1).any fun i => let c := s.core (o.core + i / 128)
    c.accBad.any fun w => decide (i % 128 * 384 + r.2.1 ≤ w) && decide (w < i % 128 * 384 + r.2.1 + r.2.2))
    || (!held && (s.threadsOf o.core o.team).any fun t => decide (t.tid < h.m) &&
      t.badRegs.any fun r => decide (x.f.a.toNat ≤ r) && decide (r < x.f.a.toNat + n))
    || (x.local_ && reads.any fun r => s.localBad o.core o.team (.scratch r.1.toNat) r.2)

/-- A trace record of an array word (R369). -/
def State.traceArray (s : State) (o : ArrayOp) (kind : Nat) (dur : Nat) : State :=
  s.traceRec o.core (vfOf o.ctx) kind 4 o.ctx o.at_.key.toNat dur

/-- A queued word replaced. -/
def State.setArrayOp (s : State) (q : Nat) (o : ArrayOp) : State :=
  s.onCore q fun c => { c with array := c.array.map fun y => if y.id = o.id then o else y }

/-- The effect of a word whose operands have been read (R209, R221, R222): the buffer and memory change, and what it reports waits for its
retirement. -/
def State.arrayEffect (s : State) (q : Nat) (o : ArrayOp) (x : Mat) (g : Agent) (m : PageMap) (lines : List Nat) : State :=
  let v := ((s.team? o.core o.team).map fun t => t.fs.getD (matSlot x.f) 0).getD 0
  let fmt := slotFmtCode v
  let r := s.matOut o x m v
  let h := shapeOf o.c
  let rows := if x.kind = .mmac then s.rowsOf o x h fmt else []
  let s := s.accPut o.core r.acc
  let s := r.writes.foldl (fun s w =>
    if x.local_ then (s.localWrite o.core o.team false (.scratch w.1.toNat) w.2).onTeam o.core o.team fun t => t.cleanScratch w.1.toNat w.2.length
    else s.writeVa g m w.1 w.2) s
  let s := s.onCore o.core fun c => c.dropLines lines false
  let s := if x.kind = .mmac then s.onTeam o.core o.team fun t =>
      { t with reuse := if x.reuse then some (rows, h.m, h.k fmt, fmt) else none } else s
  let s := s.hostForget o.id
  s.setArrayOp q { o with made := true, counts := r.counts, am := slotAm v, amNan := r.rep.anyNan, amMag := r.rep.mag }

/-- The pages of ranges as the tables have them. -/
def State.peekMap (s : State) (die ctx : Nat) (rs : List (Acc × DWord × Nat)) : PageMap :=
  (rs.flatMap fun r => (cutRange 4096 r.2.1 r.2.2).map (·.1)).eraseDups.filterMap fun va =>
    match s.walkRoot die ctx (va56 va) with
    | .leaf e _ _ => some (va.toNat / 4096, e.translate (va56 va) - va.toNat % 4096, leafLoc e.leaf)
    | _ => none

/-- The format in the slot of a word's team. -/
def State.matFmt (s : State) (o : ArrayOp) (x : Mat) : Nat :=
  slotFmtCode (((s.team? o.core o.team).map fun t => t.fs.getD (matSlot x.f) 0).getD 0)

/-- The memory ranges of a queued word: none with LOCAL. -/
def State.matRanges (s : State) (o : ArrayOp) (x : Mat) : List (Acc × DWord × Nat) :=
  if x.local_ then [] else x.ranges ⟨o.d, o.a, o.b, o.c⟩ (s.matFmt o x)

/-- A started word goes on (R209, R221): its pages are translated, its operands are read at their homes, and its effect is made. -/
def State.makeArray (s : State) (q : Nat) (o : ArrayOp) (x : Mat) : Res :=
  let fmt := s.matFmt o x
  let rs := s.matRanges o x
  let reads := (rs.filter fun r => !r.1.writes).map fun r => r.2
  let writes := (rs.filter fun r => r.1.writes).map fun r => r.2
  let g := coreAgent o.id o.ctx o.core
  let how : How := if x.kind = .mdual then .column else .row
  match s.xlateRanges g rs with
  | (.wait, s) => .next s
  | (.bad cls code access va, s) => .next (s.arrayFault q o cls code access va)
  | (.ok m, s) =>
    let (ready, s) := s.fetchHost g m reads
    if !ready || !s.mayServeVa g how m reads || !s.mayServeVa g .write m writes then .next ((s.askVa g how m reads).askVa g .write m writes)
    else
      match (s.poisonVa m reads).or (if s.arrayBad o x fmt then some 0 else none) with
      | some va =>
        let s := (x.regions o.c).foldl (fun s h => s.freeRegion o.ctx o.core h) s
        .next (s.arrayFault q o 0x12 0 0 va)
      | none => .next (s.arrayEffect q o x g m (linesVa m (rs.map fun r => r.2)))

/-- The arrays that a word runs on: its core's, and with PAIR the follower's (R215). -/
def ArrayOp.arrays (o : ArrayOp) (x : Mat) : List Nat := if x.pair then [o.core, o.core + 1] else [o.core]

/-- The word starts (R209, R387), unless it waits for earlier accesses of its thread or for the power governor.  Its pages and the homes of its
operands are those that the tables show now. -/
def State.startArray (s : State) (q : Nat) (o : ArrayOp) (x : Mat) : Res :=
  let rs := s.matRanges o x
  let m := s.peekMap (dieOf o.core) o.ctx rs
  let keys (w : Bool) : List (Nat × Nat) := keysVa m ((rs.filter fun r => r.1.writes == w).map fun r => r.2)
  let dur := s.matDur o x m
  if s.arrayWaits o x.local_ (keys false) (keys true) || (o.arrays x).any fun n => decide (16 * s.duty.toNat < (s.core n).busy + dur) then .next s
  else
    let o' := { o with started := some s.clock, dur := dur }
    ((s.setArrayOp q o').traceArray o' 7 dur).makeArray q o' x

/-- Whether an array that a core's next word needs is taken by a word in the queue of the other core of the pair (R209): one that started there
before a pair reservation was granted or ended. -/
def State.arrayTaken (s : State) (core : Nat) (o : ArrayOp) : Bool :=
  let pair := match (s.core (core / 2 * 2)).resv with
    | some (_, p) => p
    | none => false
  (s.core (core ^^^ 1)).array.any fun y => y.started.isSome && (pair || y.core == o.core)

/-- ARRAY_START (R209, R387): the first queued word starts, from the clock after its issue on, when the one before it has retired; and one that
has started goes on. -/
def execArrayStart (core : Nat) (s : State) : Res :=
  match (s.core core).array with
  | [] => .next s
  | o :: _ =>
    match matOf o.word with
    | none => .next s
    | some x =>
      if o.made then .next s
      else if o.started.isSome then s.makeArray core o x
      else if decide (s.clock ≤ o.issued) || ((s.core core).halting && (s.core core).drainAt != 0) || s.arrayTaken core o then .next s
      else s.startArray core o x

/-- A report commits to its `am` register (R222). -/
def commitAm (w : Word) (nan : Bool) (mag : Nat) : Word :=
  let m := max (w.toNat % 2 ^ 31) mag
  BitVec.ofNat 32 (m % 2 ^ 31 + if nan || w.toNat ≥ 2 ^ 31 then 2 ^ 31 else 0)

/-- A census count that saturates (R224). -/
def satAdd (a : BitVec 32) (n : Nat) : BitVec 32 := BitVec.ofNat 32 (min (a.toNat + n) (2 ^ 32 - 1))

/-- The counts of a site added (R224). -/
def Census.count (c : Census) (ns : List Nat) : Census :=
  { c with nan := satAdd c.nan (ns.getD 0 0), inf := satAdd c.inf (ns.getD 1 0), sat := satAdd c.sat (ns.getD 2 0)
           under := satAdd c.under (ns.getD 3 0) }

/-- Census counts of a word kept by its core (R224, R372). -/
def State.census (s : State) (core ctx : Nat) (site : DWord) (ns : List Nat) : State :=
  match (s.ctx ctx).objectAt site with
  | none => s
  | some obj =>
    s.onCore core fun c =>
      let k (x : Census) : Bool := x.ctx == ctx && x.obj == obj && x.site == site
      let old := (c.census.find? k).getD ⟨ctx, obj, site, 0, 0, 0, 0⟩
      { c with census := upsert k (old.count ns) c.census }

/-- ARRAY_RETIRE (R209, R222, R224): counts and report commit, the flags clear, and a waiting `mrel` may release. -/
def execArrayRetire (core : Nat) (s : State) : Res :=
  match (s.core core).array with
  | [] => .next s
  | o :: rest =>
    match o.started, matOf o.word with
    | some c0, some x =>
      if !o.made || decide (s.clock < c0 + o.dur) || s.hostBusy o.id then .next s
      else
        let s := s.onCore core fun c => { c with array := rest }
        let s := s.onTeam o.core o.team fun t =>
          match o.am with
          | some k => { t with am := t.am.set k (commitAm (t.am.getD k 0) o.amNan o.amMag) }
          | none => t
        let site := x.kind != .mzero && x.kind != .mld
        let s := if site then s.census o.core o.ctx o.at_.key o.counts else s
        let s := s.traceArray o 8 o.dur
        let s := o.slots.foldl (fun s sl => s.flagClears o.core o.part sl o.flag) s
        match (s.core core).releasing with
        | some (tm, id) =>
          .next (if rest.any fun y => y.core == core && y.team == tm && decide (y.id < id) then s else s.endReservation core tm)
        | none => .next s
    | _, _ => .next s

end Sys2Proof.Machine
end

