-- ==== Sys2Proof/Machine/LoadStore.lean ====
section
/-! DEFINITION. Loads, stores, atomics, fences and full/empty words (R163-R173). -/

namespace Sys2Proof.Machine

/-- The effective address of a global access with an offset (R165). -/
def globalEa (f : IWord) (is : Issue) (t : Thread) : DWord := is.pair t f.a + f.imm.signExtend 64

/-- The effective address of a local access (R165). -/
def localEa (f : IWord) (is : Issue) (t : Thread) : Nat := (is.val t f.a 1 + (f.imm.signExtend 32).toNat) % 2 ^ 32

/-- Whether a global access is misaligned (R86, R165). -/
def misaligned (a : DWord) (size col : Nat) : Bool := if col = 0 then a.toNat % size != 0 else !columnAligned a.toNat col

/-- The faults that walks have delivered to the word being issued (R320). -/
def Issue.faults (is : Issue) (s : State) : List (DWord × Nat × Nat × Nat) :=
  ((s.part is.cur.core is.cur.part).stream is.cur.stream).faults

/-- Translate an access of the word being issued. -/
def Issue.xlate (is : Issue) (s : State) (a : Acc) (va : DWord) : Xl := s.xlateCore is.cur.core is.team.ctx (is.faults s) a va

/-- A global access put in flight for a thread, with the translation the word found for it at issue. -/
def putGlobal (is : Issue) (word : Nat) (kind : OpKind) (xl : Xl) (va : DWord) (x : BitVec 7) (f : Op → Op) (s : State) (t : Thread) : State :=
  match xl with
  | .ok pa loc ink =>
    (s.touchTlb is.cur.core is.team.ctx va).newOp is word t kind .queued fun o =>
      f { o with va := va, pa := pa, loc := loc, ink := ink, order := xOrder x, scope := xScope x, policy := xPolicy x, gindex := t.gindex }
  | _ => s

/-- The common rules of a global access of each thread (R165): its alignment, its translation and its fault. -/
def globalMeaning (size col : Nat) (a : Acc) (ea : Issue → Thread → DWord) (run : State → Issue → List Thread → State) : Meaning :=
  { xl := fun _ is t => [(a, ea is t)]
    traps := fun _ is t => if misaligned (ea is t) size col then some (4, ea is t) else none
    parks := fun s is t =>
      match is.xlate s a (ea is t) with
      | .bad cls code => some (.fault cls code a.code (ea is t))
      | _ => none
    run := run }

/-- A flagged load of each thread (R167, R169). -/
def loadRun (f : IWord) (size col n : Nat) (s : State) (is : Issue) (go : List Thread) : State :=
  let flag := flagOf is.hdr f.fs
  let (word, s) := s.newId
  let xl (t : Thread) : Xl := is.xlate s .read (globalEa f is t)
  let s := go.foldl (fun s t => putGlobal is word .load (xl t) (globalEa f is t) f.x (fun o =>
    { o with size := size, col := col, md := f.md.toNat, dest := destsOf is.team t f.d n, flag := some flag }) (s.raiseFlag is t flag) t) s
  s.settle is.cur.core

/-- A store of each thread (R167, R169). -/
def storeRun (f : IWord) (size col n : Nat) (s : State) (is : Issue) (go : List Thread) : State :=
  let (word, s) := s.newId
  let xl (t : Thread) : Xl := is.xlate s .write (globalEa f is t)
  let s := go.foldl (fun s t => putGlobal is word .store (xl t) (globalEa f is t) f.x (fun o =>
    { o with size := size, col := col, data := (bytesOfWords (is.src t f.d n)).take size }) s t) s
  s.settle is.cur.core

/-- LD (R167). -/
def execLd (f : IWord) (s : State) : Res :=
  let n := codeBytes f.md.toNat
  runWord (.ld f) (globalMeaning n 0 .read (globalEa f) (loadRun f n 0 (sizeRegs f.md.toNat))) s
/-- ST (R167). -/
def execSt (f : IWord) (s : State) : Res :=
  let n := codeBytes f.md.toNat
  runWord (.st f) (globalMeaning n 0 .write (globalEa f) (storeRun f n 0 (sizeRegs f.md.toNat))) s

/-- Element size of a line word's MOD: 0 for a row line (R169). -/
def lineCol (f : IWord) : Nat := if f.md = 8 then 1 else if f.md = 9 then 2 else if f.md = 0xA then 4 else 0

/-- LDX (R169). -/
def execLdx (f : IWord) (s : State) : Res :=
  runWord (.ldx f) (globalMeaning 32 (lineCol f) .read (globalEa f) (loadRun f 32 (lineCol f) 8)) s
/-- STX (R169). -/
def execStx (f : IWord) (s : State) : Res :=
  runWord (.stx f) (globalMeaning 32 (lineCol f) .write (globalEa f) (storeRun f 32 (lineCol f) 8)) s

/-- The load of `lds` (R167): performed once for the pack by the guard-holding thread of lowest `tid`; its landing clears every flag. -/
def ldsRun (f : IWord) (s : State) (is : Issue) (go : List Thread) : State :=
  let flag := flagOf is.hdr f.fs
  let (word, s) := s.newId
  let s := go.foldl (fun s t => s.raiseFlag is t flag) s
  match go with
  | [] => s
  | t :: rest =>
    (putGlobal is word .load (is.xlate s .read (globalEa f is t)) (globalEa f is t) f.x (fun o =>
      { o with size := codeBytes f.md.toNat, md := f.md.toNat, dest := destsOf is.team t f.d (sizeRegs f.md.toNat), flag := some flag, also := rest.map (·.slot) }) s t).settle is.cur.core

/-- LDS (R167). -/
def execLds (f : IWord) (s : State) : Res :=
  runWord (.lds f) (globalMeaning (codeBytes f.md.toNat) 0 .read (globalEa f) (ldsRun f)) s

/-- The common rules of a local access (R165): its alignment and its window. -/
def localMeaning (f : IWord) (size : Nat) (st : Bool) (run : State → Issue → List Thread → State) : Meaning :=
  { plain run with
    traps := fun s is t =>
      let a := localEa f is t
      if a % size ≠ 0 ∨ (s.window is.team t.part t.slot a size st).isNone then some (4, BitVec.ofNat 64 a)
      else
        match s.window is.team t.part t.slot a size st with
        | some (.budget off) =>
          if s.budgetFits (off / 0x40) (off % 0x40 / 8) (BitVec.ofNat 64 (natOf ((bytesOfWords (is.src t f.d (sizeRegs f.md.toNat))).take size)))
          then none else some (3, BitVec.ofNat 64 (0x2_0000 + off))
        | _ => none }

/-- A local access put in flight (R102, R167). -/
def putLocal (is : Issue) (word : Nat) (kind : OpKind) (a : Nat) (x : BitVec 7) (f : Op → Op) (s : State) (t : Thread) : State :=
  s.newOp is word t kind .queued fun o => f { o with pa := a, order := xOrder x, scope := xScope x, stampAt := s.clock, since := s.clock }

/-- LDL (R167). -/
def execLdl (f : IWord) (s : State) : Res :=
  let n := codeBytes f.md.toNat
  runWord (.ldl f) (localMeaning f n false fun s is go =>
    let flag := flagOf is.hdr f.fs
    let (word, s) := s.newId
    (go.foldl (fun s t => putLocal is word .localLoad (localEa f is t) f.x (fun o =>
      { o with size := n, md := f.md.toNat, dest := destsOf is.team t f.d (sizeRegs f.md.toNat), flag := some flag })
      (s.raiseFlag is t flag) t) s).settle is.cur.core) s
/-- STL (R167). -/
def execStl (f : IWord) (s : State) : Res :=
  let n := codeBytes f.md.toNat
  runWord (.stl f) (localMeaning f n true fun s is go =>
    let (word, s) := s.newId
    (go.foldl (fun s t => putLocal is word .localStore (localEa f is t) f.x (fun o =>
      { o with size := n, data := (bytesOfWords (is.src t f.d (sizeRegs f.md.toNat))).take n }) s t) s).settle is.cur.core) s

/-- The trap of a full/empty word's address (R165): only 4-byte aligned addresses in team scratch. -/
def feTrap (f : IWord) (is : Issue) (t : Thread) : Option (Nat × DWord) :=
  let a := localEa f is t
  if a % 4 ≠ 0 ∨ is.team.scratchBytes < a + 4 then some (4, BitVec.ofNat 64 a) else none

/-- Whether a word is ready for a thread (R91, R171): full or empty as asked, and reserved for no other thread. -/
def FeWord.ready (w : FeWord) (t : Thread) (ld : Bool) : Bool :=
  w.full == ld && (w.reserved.isNone || w.reserved == some (t.part, t.slot))

/-- A blocking full/empty operation of one thread (R39, R90, R171): its test is made at issue; a ready word is reserved
until the change is performed, and otherwise the thread parks in the waiter table, or polls when the table is full. -/
def feOne (is : Issue) (word : Nat) (f : IWord) (ld : Bool) (put : Op → Op) (s : State) (t : Thread) : State :=
  let a := localEa f is t
  let c := is.cur.core
  match s.team? c is.team.slot with
  | none => s
  | some tm =>
    let w := tm.feWord a
    let busy := (s.core c).ops.any fun o => o.team == is.team.slot && o.pa == a &&
      (match o.kind with
       | .fullEmpty _ => o.stage == .queued
       | _ => false)
    if w.ready t ld && !busy then
      let s := s.setTeam (tm.setFe { w with reserved := some (t.part, t.slot) })
      let s := if ld then s.raiseFlag is t (flagOf is.hdr f.fs) else s
      (putLocal is word (.fullEmpty ld) a f.x put s t).settle c
    else
      let s := if w.reserved = some (t.part, t.slot) ∧ !busy then
          (s.setTeam (tm.setFe { w with reserved := none })).serveFe c is.team.slot a else s
      if s.waiterCount c < 512 then
        let s := s.onTeam c is.team.slot fun x => let w := x.feWord a; x.setFe { w with waiters := feInsert ⟨t.part, t.slot, ld, s.clock, t.tid⟩ w.waiters }
        s.park (s.again t) (.fullEmpty a ld) (sameTarget is.cur) none
      else s.park (s.again t) (.poll (s.clock + 64)) (sameTarget is.cur) none

/-- LD_FE (R171). -/
def execLdFe (f : IWord) (s : State) : Res :=
  runWord (.ldFe f) { plain (fun s is go =>
    let (word, s) := s.newId
    go.foldl (fun s t => feOne is word f true (fun o =>
      { o with size := 4, dest := destsOf is.team t f.d 1, flag := some (flagOf is.hdr f.fs) }) s t) s) with
    traps := fun _ is t => feTrap f is t } s
/-- ST_FE (R171). -/
def execStFe (f : IWord) (s : State) : Res :=
  runWord (.stFe f) { plain (fun s is go =>
    let (word, s) := s.newId
    go.foldl (fun s t => feOne is word f false (fun o =>
      { o with size := 4, data := bytesOfWords (is.src t f.d 1) }) s t) s) with
    traps := fun _ is t => feTrap f is t } s

/-- FE_SET (R91, R171): a write of the bit, which waits as a later access of its thread does. -/
def execFeSet (f : IWord) (s : State) : Res :=
  runWord (.feSet f) { plain (fun s is go =>
      let (word, s) := s.newId
      (go.foldl (fun s t => putLocal is word (.feSet (bitAt f.md 0)) (localEa f is t) 0 (fun o => { o with size := 4 }) s t) s).settle is.cur.core) with
    traps := fun _ is t => feTrap f is t } s

/-- FENCE (R103, R172): a relaxed fence has no effect, and one of thread scope only its sequentially consistent part. -/
def execFence (f : IWord) (s : State) : Res :=
  runWord (.fence f) (plain fun s is go =>
    if xOrder f.x = 0 then s
    else
      let (word, s) := s.newId
      (go.foldl (fun s t => putLocal is word (.fence (f.md == 1)) 0 f.x id s t) s).settle is.cur.core) s

/-- PRF (R173): dropped on a fault and on a host range. -/
def execPrf (f : IWord) (s : State) : Res :=
  runWord (.prf f) { plain (fun s is go =>
    let (word, s) := s.newId
    let xl (t : Thread) : Xl := is.xlate s .read (globalEa f is t)
    (go.foldl (fun s t =>
      match xl t with
      | .ok _ loc ink =>
        if loc ≠ 0 ∨ (ink ∧ f.md = 1) then s
        else putGlobal is word .prefetch (xl t) (globalEa f is t) 0 (fun o => { o with size := 1, noInstall := f.md == 1 }) s t
      | _ => s) s).settle is.cur.core) with
    xl := fun _ is t => [(.read, globalEa f is t)] } s

/-- CINV (R173): the whole L1, or one line; dropped when the line's translation faults. -/
def execCinv (f : IWord) (s : State) : Res :=
  runWord (.cinv f) { plain (fun s is go =>
    if f.md = 0 then (if go.isEmpty then s else s.onCore is.cur.core Core.flash)
    else
      let xl (t : Thread) : Xl := is.xlate s .read (globalEa f is t)
      go.foldl (fun s t =>
      match xl t with
      | .ok pa loc _ =>
        let s := s.touchTlb is.cur.core is.team.ctx (globalEa f is t)
        if loc = 0 then s.onCore is.cur.core fun c => c.dropLines [pa / 32] false else s
      | _ => s) s) with
    xl := fun _ is t => if f.md = 0 then [] else [(.read, globalEa f is t)] } s

/-- The operation of an atomic or reduction word (R170), completed. -/
def atomicFill (f : RWord) (k : Nat) (red : Bool) (is : Issue) (t : Thread) (o : Op) : Op :=
  let o := { o with size := 4 * k, col := 0, data := bytesOfWords (is.src t f.b k), data2 := bytesOfWords (is.src t f.c k) }
  if red then o else { o with dest := destsOf is.team t f.d k, flag := some (flagOf is.hdr f.fs) }

/-- Its operations put in flight. -/
def atomicRun (f : RWord) (k : Nat) (red : Bool) (s : State) (is : Issue) (go : List Thread) : State :=
  let op := f.md.toNat
  let (word, s) := s.newId
  let xl (t : Thread) : Xl := is.xlate s (.atomic (atomicCarried op)) (is.pair t f.a)
  let s := go.foldl (fun s t =>
    putGlobal is word (if red then .reduction op else .atomic op) (xl t) (is.pair t f.a) f.x (atomicFill f k red is t)
      (if red then s else s.raiseFlag is t (flagOf is.hdr f.fs)) t) s
  s.settle is.cur.core

/-- An atomic or reduction word (R170): `k` its width in registers. -/
def atomicMeaning (f : RWord) (k : Nat) (red : Bool) : Meaning :=
  globalMeaning (4 * k) 0 (.atomic (atomicCarried f.md.toNat)) (fun is t => is.pair t f.a) (atomicRun f k red)

/-- ATOM_B32 (R170). -/
def execAtomB32 (f : RWord) (s : State) : Res := runWord (.atomB32 f) (atomicMeaning f 1 false) s
/-- ATOM_B64 (R170). -/
def execAtomB64 (f : RWord) (s : State) : Res := runWord (.atomB64 f) (atomicMeaning f 2 false) s
/-- RED_B32 (R170). -/
def execRedB32 (f : RWord) (s : State) : Res := runWord (.redB32 f) (atomicMeaning f 1 true) s
/-- RED_B64 (R170). -/
def execRedB64 (f : RWord) (s : State) : Res := runWord (.redB64 f) (atomicMeaning f 2 true) s

end Sys2Proof.Machine
end

