-- ==== Sys2Proof/Machine/Code.lean ====
section
/-! DEFINITION. Fetching code (R32, R107, R113, R117, R391): clause headers and words through the TLBs and the L1 of a core, or from the code of a patch image (R297). -/

namespace Sys2Proof.Machine

/-- What fetching code gives. -/
inductive Code where
  | ok (bs : List Byte)
  | bad (cls code : Nat)
  | miss (va : DWord)
  /-- It waits for a line of memory (R87, R88, R94). -/
  | wait (pa : Nat)
deriving DecidableEq, Repr

/-- Bytes of one 32-byte line as a core's fetch sees them: its L1's line, or memory. -/
def State.codeLine (s : State) (core pa n : Nat) : List Byte :=
  match (s.core core).l1Find (pa / 32) with
  | some l => (l.data.drop (pa % 32)).take n
  | none => s.bytes pa n

/-- The pieces of a fetch, cut at 32-byte lines: the first that is not translated, faults, waits or is poisoned ends it. -/
def State.fetchPieces (s : State) (core ctx : Nat) : List (DWord × Nat) → List Byte → Code
  | [], acc => .ok acc
  | p :: rest, acc =>
    match s.xlateCore core ctx [] .fetch p.1 with
    | .ok pa _ _ =>
      let far := ((s.core core).l1Find (pa / 32)).isNone
      if far && !s.mayServe (fetchAgent core ctx) .row pa then .wait pa
      else if far && s.readsPoison pa p.2 then .bad 0x12 0
      else s.fetchPieces core ctx rest (acc ++ s.codeLine core pa p.2)
    | .bad cls code => .bad cls code
    | .miss => .miss p.1

/-- `n` bytes of code at an address (R107); an address in the code of a patch image counts from its base (R297). -/
def State.fetchCode (s : State) (core ctx nib : Nat) (a : DWord) (n : Nat) : Code :=
  if nib = 0 then s.fetchPieces core ctx (cutRange 32 a n) []
  else .ok ((List.range n).map fun i => ((s.imageOf nib).code).getD (a.toNat + i) 0)

/-- A fetched line enters L1, from its home when L1 does not hold it (R81, R84, R391). -/
def State.fetchTouch (s : State) (core ctx nib : Nat) (a : DWord) (n : Nat) : State :=
  if nib ≠ 0 then s
  else (cutRange 32 a n).foldl (fun s p =>
    match s.xlateCore core ctx [] .fetch p.1 with
    | .ok pa _ _ =>
      let s := s.touchTlb core ctx p.1
      let sets := s.l1Sets core
      match (s.core core).l1Find (pa / 32) with
      | some l => s.onCore core fun c => c.l1Put sets l.line l.data
      | none =>
        let g := fetchAgent core ctx
        let s : State := { s with granted := s.granted.filter fun x => !(x.owner == g.owner && x.line == pa / 32) }
        s.onCore core fun c => c.l1Put sets (pa / 32) (s.bytes (pa / 32 * 32) 32)
    | _ => s) s

/-- The clause header at an address as a filing sees it (R32, R117): whether it is an ENTRY header, or none when its
fetch would fault, which R391 leaves to the pod. -/
def State.entryAt (s : State) (core ctx nib : Nat) (a : DWord) : Option Bool :=
  if a.toNat % 8 ≠ 0 ∨ !canonical a then some false
  else if nib ≠ 0 then
    match s.fetchCode core ctx nib a 8 with
    | .ok bs => some (readHeader (BitVec.ofNat 64 (natOf bs))).isEntry
    | _ => none
  else
    match s.walkRoot (dieOf core) ctx (va56 a) with
    | .leaf e _ _ =>
      let pa := e.translate (va56 a)
      match s.permission ctx .fetch e pa with
      | some _ => none
      | none =>
        if ((s.core core).l1Find (pa / 32)).isNone && s.readsPoison pa 8 then none
        else some (readHeader (BitVec.ofNat 64 (natOf (s.codeLine core pa 8)))).isEntry
    | _ => none

end Sys2Proof.Machine
end

