-- ==== Sys2Proof/Machine/Integer.lean ====
section
/-! DEFINITION. Integer arithmetic (R140-R143). -/

namespace Sys2Proof.Machine

/-- A source read as the integer type of MOD (R59). -/
def Issue.int (is : Issue) (t : Thread) (md : Nat) (sel : BitVec 8) : Int := intRead md (is.val t sel (typeRegs md))

/-- A result wrapped to the type, or saturated to its range (R141). -/
def intResult (md : Nat) (sat : Bool) (r : Int) : List Word := intWrite md (if sat then satN r (intLo md) (intHi md) else r)

/-- A word of two register sources (R141). -/
def intRR (f : RWord) (sat : Bool) (op : Int → Int → Int) : Meaning :=
  let md := f.md.toNat
  plain (fixRun f.d (typeRegs md) fun _ is t => regs (intResult md sat (op (is.int t md f.a) (is.int t md f.b))))

/-- A word of a register and an immediate (R140, R141). -/
def intRI (f : IWord) (sat : Bool) (op : Int → Int → Int) : Meaning :=
  let md := f.md.toNat
  plain (fixRun f.d (typeRegs md) fun _ is t => regs (intResult md sat (op (is.int t md f.a) (immRead md f.imm))))

/-- ADD (R141). -/
def execAdd (f : RWord) (s : State) : Res := runWord (.add f) (intRR f (bitAt f.x 0) fun a b => a + b) s
/-- SUB (R141). -/
def execSub (f : RWord) (s : State) : Res := runWord (.sub f) (intRR f (bitAt f.x 0) fun a b => a - b) s
/-- MUL (R141). -/
def execMul (f : RWord) (s : State) : Res := runWord (.mul f) (intRR f false fun a b => a * b) s
/-- MULH (R141): the high half of the exact product. -/
def execMulh (f : RWord) (s : State) : Res :=
  runWord (.mulh f) (intRR f false fun a b => a * b / (2 ^ intWidth f.md.toNat : Nat)) s
/-- MIN (R141). -/
def execMin (f : RWord) (s : State) : Res := runWord (.min f) (intRR f false fun a b => if a ≤ b then a else b) s
/-- MAX (R141). -/
def execMax (f : RWord) (s : State) : Res := runWord (.max f) (intRR f false fun a b => if a ≤ b then b else a) s
/-- ABS (R141). -/
def execAbs (f : RWord) (s : State) : Res :=
  let md := f.md.toNat
  runWord (.abs f) (plain (fixRun f.d (typeRegs md) fun _ is t => regs (intResult md (bitAt f.x 0) (is.int t md f.a).natAbs))) s
/-- ADD, immediate (R141). -/
def execAddI (f : IWord) (s : State) : Res := runWord (.addI f) (intRI f (bitAt f.x 0) fun a b => a + b) s
/-- SUB, immediate (R141). -/
def execSubI (f : IWord) (s : State) : Res := runWord (.subI f) (intRI f (bitAt f.x 0) fun a b => a - b) s
/-- MUL, immediate (R141). -/
def execMulI (f : IWord) (s : State) : Res := runWord (.mulI f) (intRI f false fun a b => a * b) s
/-- MIN, immediate (R141). -/
def execMinI (f : IWord) (s : State) : Res := runWord (.minI f) (intRI f false fun a b => if a ≤ b then a else b) s
/-- MAX, immediate (R141). -/
def execMaxI (f : IWord) (s : State) : Res := runWord (.maxI f) (intRI f false fun a b => if a ≤ b then b else a) s

/-- MAD (R141). -/
def execMad (f : RWord) (s : State) : Res :=
  let md := f.md.toNat
  runWord (.mad f) (plain (fixRun f.d (typeRegs md) fun _ is t =>
    regs (intWrite md (is.int t md f.a * is.int t md f.b + is.int t md f.c)))) s
/-- MADW (R141): a 64-bit addend and result. -/
def execMadw (f : RWord) (s : State) : Res :=
  let md := f.md.toNat
  runWord (.madw f) (plain (fixRun f.d 2 fun _ is t =>
    regs (intWrite 3 (is.int t md f.a * is.int t md f.b + is.int t (md + 2) f.c)))) s

/-- The carry predicate of `addc` and `subb`, X[38:36] (R140). -/
abbrev carryPred (f : RWord) : Nat := (f.x.extractLsb' 4 3).toNat
/-- A truth value as an integer. -/
def boolInt (b : Bool) : Int := if b then 1 else 0

/-- ADDC (R141): unsigned, with the carry in and out through one predicate. -/
def execAddc (f : RWord) (s : State) : Res :=
  let md := f.md.toNat
  runWord (.addc f) (plain (fixRun f.d (typeRegs md) fun _ is t =>
    let r := is.int t md f.a + is.int t md f.b + boolInt (t.pred (carryPred f))
    ⟨intWrite md r, [(carryPred f, carryOut (intWidth md) r)]⟩)) s
/-- SUBB (R141). -/
def execSubb (f : RWord) (s : State) : Res :=
  let md := f.md.toNat
  runWord (.subb f) (plain (fixRun f.d (typeRegs md) fun _ is t =>
    let r := is.int t md f.a - is.int t md f.b - boolInt (t.pred (carryPred f))
    ⟨intWrite md r, [(carryPred f, borrowOut r)]⟩)) s

/-- The quotient truncated toward zero, with the limits of R142. -/
def divInt (a b : Int) : Int := if b = 0 then -1 else a.tdiv b
/-- The remainder with the dividend's sign, with the limits of R142. -/
def remInt (a b : Int) : Int := if b = 0 then a else a - a.tdiv b * b

/-- DIV (R142). -/
def execDiv (f : RWord) (s : State) : Res :=
  let md := f.md.toNat
  runWord (.div f) (plain (flagRun f.fs f.d (typeRegs md) fun _ is t => regs (intWrite md (divInt (is.int t md f.a) (is.int t md f.b))))) s
/-- REM (R142). -/
def execRem (f : RWord) (s : State) : Res :=
  let md := f.md.toNat
  runWord (.rem f) (plain (flagRun f.fs f.d (typeRegs md) fun _ is t => regs (intWrite md (remInt (is.int t md f.a) (is.int t md f.b))))) s

/-- The result of a comparison: `p`pd, and 1 or 0 in D (R143). -/
def cmpOut (pd : Nat) (b : Bool) : Out1 := ⟨[if b then 1 else 0], [(pd, b)]⟩

/-- CMP (R143). -/
def execCmp (f : RWord) (s : State) : Res :=
  let md := f.md.toNat
  runWord (.cmp f) (plain (fixRun f.d 1 fun _ is t =>
    cmpOut (f.x.extractLsb' 4 3).toNat (intCond (f.x.extractLsb' 1 3).toNat (is.int t md f.a) (is.int t md f.b)))) s
/-- CMP, immediate (R143). -/
def execCmpI (f : IWord) (s : State) : Res :=
  let md := f.md.toNat
  runWord (.cmpI f) (plain (fixRun f.d 1 fun _ is t =>
    cmpOut (f.x.extractLsb' 4 3).toNat (intCond (f.x.extractLsb' 1 3).toNat (is.int t md f.a) (immRead md f.imm)))) s

end Sys2Proof.Machine
end

