-- ==== Sys2Proof/Machine/Bitwise.lean ====
section
/-! DEFINITION. Bit and address operations (R144-R146). -/

namespace Sys2Proof.Machine

/-- All ones in `w` bits. -/
def ones (w : Nat) : Nat := 2 ^ w - 1

/-- A bit pattern of a 32-bit or 64-bit type as registers. -/
def bitsOut (md r : Nat) : Out1 := regs (wordsOf (typeRegs md) r)

/-- A word of two register sources, on bit patterns (R145). -/
def bitRR (f : RWord) (op : Nat → Nat → Nat → Nat) : Meaning :=
  let md := f.md.toNat
  plain (fixRun f.d (typeRegs md) fun _ is t => bitsOut md (op (intWidth md) (is.val t f.a (typeRegs md)) (is.val t f.b (typeRegs md))))

/-- A word of a register and a sign-extended immediate (R140, R145). -/
def bitRI (f : IWord) (op : Nat → Nat → Nat → Nat) : Meaning :=
  let md := f.md.toNat
  plain (fixRun f.d (typeRegs md) fun _ is t =>
    bitsOut md (op (intWidth md) (is.val t f.a (typeRegs md)) (wrapN (intWidth md) f.imm.toInt)))

/-- A word whose B is a 32-bit count or control (R144). -/
def bitRC (f : RWord) (op : Nat → Nat → Nat → Nat) : Meaning :=
  let md := f.md.toNat
  plain (fixRun f.d (typeRegs md) fun _ is t => bitsOut md (op (intWidth md) (is.val t f.a (typeRegs md)) (is.val t f.b 1)))

/-- The shifts and the rotate (R145): the count is taken modulo the width. -/
def shlBits (w a n : Nat) : Nat := (a <<< (n % w)) % 2 ^ w
/-- Logical right shift. -/
def shrBits (w a n : Nat) : Nat := a >>> (n % w)
/-- Arithmetic right shift. -/
def sarBits (w a n : Nat) : Nat := wrapN w (sext w a / (2 ^ (n % w) : Nat))
/-- Left rotate. -/
def rotBits (w a n : Nat) : Nat := (a <<< (n % w)) % 2 ^ w ||| a >>> (w - n % w)
/-- AND with the complement. -/
def andnBits (w a b : Nat) : Nat := a &&& (ones w ^^^ b)

/-- Bit-field extract under a control word (R145). -/
def bfeBits (signed : Bool) (w a ctl : Nat) : Nat :=
  let pos := ctl % 256
  let len := min (bitsNat ctl 8 8) w
  let ext : Int := if signed then sext w a else a
  let fld := wrapN len (ext / (2 ^ pos : Nat))
  if len = 0 then 0 else if signed then wrapN w (sext len fld) else fld

/-- Bit-field insert under a control word (R145). -/
def bfiBits (w a ctl base : Nat) : Nat :=
  let pos := ctl % 256
  let len := min (bitsNat ctl 8 8) w
  let mask := (ones len <<< pos) % 2 ^ w
  (andnBits w base mask) ||| ((a % 2 ^ len) <<< pos) % 2 ^ w

/-- Byte permutation (R145). -/
def permBits (a b c : Nat) : Nat :=
  let all := a + 2 ^ 32 * b
  natOf ((List.range 4).map fun i =>
    let n := bitsNat c (4 * i) 4
    let x := bitsNat all (8 * (n % 8)) 8
    BitVec.ofNat 8 (if n < 8 then x else if 128 ≤ x then 0xFF else 0))

/-- AND (R145). -/
def execAnd (f : RWord) (s : State) : Res := runWord (.and f) (bitRR f fun _ a b => a &&& b) s
/-- OR (R145). -/
def execOr (f : RWord) (s : State) : Res := runWord (.or f) (bitRR f fun _ a b => a ||| b) s
/-- XOR (R145). -/
def execXor (f : RWord) (s : State) : Res := runWord (.xor f) (bitRR f fun _ a b => a ^^^ b) s
/-- ANDN (R145). -/
def execAndn (f : RWord) (s : State) : Res := runWord (.andn f) (bitRR f andnBits) s
/-- SHL (R145). -/
def execShl (f : RWord) (s : State) : Res := runWord (.shl f) (bitRC f shlBits) s
/-- SHR (R145). -/
def execShr (f : RWord) (s : State) : Res := runWord (.shr f) (bitRC f shrBits) s
/-- SAR (R145). -/
def execSar (f : RWord) (s : State) : Res := runWord (.sar f) (bitRC f sarBits) s
/-- ROT (R145). -/
def execRot (f : RWord) (s : State) : Res := runWord (.rot f) (bitRC f rotBits) s
/-- BFE (R145). -/
def execBfe (f : RWord) (s : State) : Res := runWord (.bfe f) (bitRC f (bfeBits (intSigned f.md.toNat))) s
/-- AND, immediate (R145). -/
def execAndI (f : IWord) (s : State) : Res := runWord (.andI f) (bitRI f fun _ a b => a &&& b) s
/-- OR, immediate (R145). -/
def execOrI (f : IWord) (s : State) : Res := runWord (.orI f) (bitRI f fun _ a b => a ||| b) s
/-- XOR, immediate (R145). -/
def execXorI (f : IWord) (s : State) : Res := runWord (.xorI f) (bitRI f fun _ a b => a ^^^ b) s
/-- ANDN, immediate (R145). -/
def execAndnI (f : IWord) (s : State) : Res := runWord (.andnI f) (bitRI f andnBits) s
/-- SHL, immediate (R145): the count is IMM16 modulo the width. -/
def execShlI (f : IWord) (s : State) : Res := runWord (.shlI f) (bitRI f shlBits) s
/-- SHR, immediate (R145). -/
def execShrI (f : IWord) (s : State) : Res := runWord (.shrI f) (bitRI f shrBits) s
/-- SAR, immediate (R145). -/
def execSarI (f : IWord) (s : State) : Res := runWord (.sarI f) (bitRI f sarBits) s
/-- ROT, immediate (R145). -/
def execRotI (f : IWord) (s : State) : Res := runWord (.rotI f) (bitRI f rotBits) s

/-- A word of one register source of the type's width. -/
def bitR (f : RWord) (op : Nat → Nat → Nat) : Meaning :=
  let md := f.md.toNat
  plain (fixRun f.d (typeRegs md) fun _ is t => bitsOut md (op (intWidth md) (is.val t f.a (typeRegs md))))

/-- A word of one register source with a 32-bit result. -/
def countR (f : RWord) (op : Nat → Nat → Nat) : Meaning :=
  let md := f.md.toNat
  plain (fixRun f.d 1 fun _ is t => regs [BitVec.ofNat 32 (op (intWidth md) (is.val t f.a (typeRegs md)))])

/-- NOT (R145). -/
def execNot (f : RWord) (s : State) : Res := runWord (.not f) (bitR f fun w a => ones w ^^^ a) s
/-- BREV (R145). -/
def execBrev (f : RWord) (s : State) : Res := runWord (.brev f) (bitR f reverseBits) s
/-- POPC (R145). -/
def execPopc (f : RWord) (s : State) : Res := runWord (.popc f) (countR f popcount) s
/-- CLZ (R145). -/
def execClz (f : RWord) (s : State) : Res := runWord (.clz f) (countR f leadingZeros) s
/-- CTZ (R145). -/
def execCtz (f : RWord) (s : State) : Res := runWord (.ctz f) (countR f trailingZeros) s

/-- BFI (R145). -/
def execBfi (f : RWord) (s : State) : Res :=
  let md := f.md.toNat
  let n := typeRegs md
  runWord (.bfi f) (plain (fixRun f.d n fun _ is t => bitsOut md (bfiBits (intWidth md) (is.val t f.a n) (is.val t f.b 1) (is.val t f.c n)))) s
/-- PERM (R145). -/
def execPerm (f : RWord) (s : State) : Res :=
  runWord (.perm f) (plain (fixRun f.d 1 fun _ is t =>
    regs [BitVec.ofNat 32 (permBits (is.val t f.a 1) (is.val t f.b 1) (is.val t f.c 1))])) s

/-- A base and a shifted index modulo 2^64 (R145). -/
def leaSum (base : Nat) (x : Int) (sh : Nat) : List Word := wordsOf 2 (wrapN 64 (base + x * (2 ^ sh : Nat)))

/-- LEA (R145). -/
def execLea (f : RWord) (s : State) : Res :=
  let md := f.md.toNat
  runWord (.lea f) (plain (fixRun f.d 2 fun _ is t =>
    regs (leaSum (is.val t f.a 2) (is.int t md f.b) (f.x.extractLsb' 0 3).toNat))) s
/-- LEA, immediate (R145). -/
def execLeaI (f : IWord) (s : State) : Res :=
  runWord (.leaI f) (plain (fixRun f.d 2 fun _ is t => regs (leaSum (is.val t f.a 2) f.imm.toInt (f.x.extractLsb' 0 3).toNat))) s

/-- SEL (R145): a bit copy of A or B. -/
def execSel (f : RWord) (s : State) : Res :=
  let md := f.md.toNat
  let n := typeRegs md
  runWord (.sel f) (plain (fixRun f.d n fun _ is t =>
    let c := t.pred (f.x.extractLsb' 4 3).toNat ^^ bitAt f.x 3
    regs (typeWrite md (is.val t (if c then f.a else f.b) n)))) s
/-- MOV (R145): a bit copy. -/
def execMov (f : RWord) (s : State) : Res :=
  let md := f.md.toNat
  runWord (.mov f) (plain (fixRun f.d (typeRegs md) fun _ is t => regs (typeWrite md (is.val t f.a (typeRegs md))))) s

/-- The registers `movi` writes (R146): MOD6 3 writes the odd register alone. -/
def moviOut (md6 : Nat) (imm : BitVec 32) : Nat × Nat × List Word :=
  if md6 = 0 then (0, 1, [imm])
  else if md6 = 1 then (0, 2, wordsOf 2 (imm.signExtend 64).toNat)
  else if md6 = 2 then (0, 2, [imm, 0])
  else (1, 1, [imm])

/-- MOVI (R146). -/
def execMovi (f : LWord) (s : State) : Res :=
  let (off, n, ws) := moviOut f.md6.toNat f.imm
  runWord (.movi f) (plain (fixRun (f.d + BitVec.ofNat 8 off) n fun _ _ _ => regs ws)) s

end Sys2Proof.Machine
end

