-- ==== Sys2Proof/Machine/FloatOps.lean ====
section
/-! DEFINITION. Floating-point arithmetic (R147-R152). -/

namespace Sys2Proof.Machine

/-- At once, or flagged when the type is `f64` (R139). -/
def floatRun (f : RWord) (n : Nat) (g : State → Issue → Thread → Out1) : Meaning :=
  plain (if f.md.toNat = 0xB then flagRun f.fs f.d n g else fixRun f.d n g)

/-- The rounding mode of X[33:32] (R63, R147). -/
def rmOf (x : BitVec 7) : RMode := RMode.ofCode (x.extractLsb' 0 2).toNat

/-- A source of a float type as a bit pattern (R61). -/
def Issue.flt (is : Issue) (t : Thread) (md : Nat) (sel : BitVec 8) : Nat := floatOperand md (is.val t sel (typeRegs md))

/-- A word of two sources, per element for packed types (R62, R148). -/
def floatRR (f : RWord) (op : FFmt → Nat → Nat → Nat) : Meaning :=
  let md := f.md.toNat
  floatRun f (typeRegs md) fun _ is t => regs (typeWrite md (floatMap2 md op (is.flt t md f.a) (is.flt t md f.b)))

/-- FADD (R148). -/
def execFadd (f : RWord) (s : State) : Res := runWord (.fadd f) (floatRR f fun g a b => g.fadd (rmOf f.x) a b) s
/-- FSUB (R148). -/
def execFsub (f : RWord) (s : State) : Res := runWord (.fsub f) (floatRR f fun g a b => g.fsub (rmOf f.x) a b) s
/-- FMUL (R148). -/
def execFmul (f : RWord) (s : State) : Res := runWord (.fmul f) (floatRR f fun g a b => g.fmul (rmOf f.x) a b) s
/-- FMIN (R149). -/
def execFmin (f : RWord) (s : State) : Res := runWord (.fmin f) (floatRR f fun g a b => g.minmax false (bitAt f.x 2) a b) s
/-- FMAX (R149). -/
def execFmax (f : RWord) (s : State) : Res := runWord (.fmax f) (floatRR f fun g a b => g.minmax true (bitAt f.x 2) a b) s

/-- A fused multiply-add per element of a type. -/
def ffmaBits (md : Nat) (rm : RMode) (a b c : Nat) : Nat :=
  if md = 0xC ∨ md = 0xD then
    let g := packedOf md
    g.ffma rm (a % 2 ^ 16) (b % 2 ^ 16) (c % 2 ^ 16) + 2 ^ 16 * g.ffma rm (bitsNat a 16 16) (bitsNat b 16 16) (bitsNat c 16 16)
  else (floatOf md).ffma rm a b c

/-- FFMA (R148): one rounding. -/
def execFfma (f : RWord) (s : State) : Res :=
  let md := f.md.toNat
  runWord (.ffma f) (floatRun f (typeRegs md) fun _ is t =>
    regs (typeWrite md (ffmaBits md (rmOf f.x) (is.flt t md f.a) (is.flt t md f.b) (is.flt t md f.c)))) s

/-- FCMP (R150). -/
def execFcmp (f : RWord) (s : State) : Res :=
  let md := f.md.toNat
  let g := floatOf md
  runWord (.fcmp f) (floatRun f 1 fun _ is t =>
    cmpOut (f.x.extractLsb' 4 3).toNat (floatCond (f.x.extractLsb' 2 2).toNat (g.read (is.flt t md f.a)) (g.read (is.flt t md f.b)))) s
/-- FCLASS (R151). -/
def execFclass (f : RWord) (s : State) : Res :=
  let md := f.md.toNat
  runWord (.fclass f) (floatRun f 1 fun _ is t => regs [BitVec.ofNat 32 (2 ^ (floatOf md).fclass (is.flt t md f.a))]) s
/-- FRND (R151). -/
def execFrnd (f : RWord) (s : State) : Res :=
  let md := f.md.toNat
  runWord (.frnd f) (floatRun f (typeRegs md) fun _ is t =>
    let a := is.flt t md f.a
    regs (typeWrite md (floatMap2 md (fun g x _ => g.frnd (rmOf f.x) x) a a))) s

/-- FDOT2 (R152): two packed pairs and one f32 addend, rounded once. -/
def fdot2Bits (md : Nat) (rm : RMode) (a b c : Nat) : Nat :=
  let g := packedOf md
  let p0 := (g.read (a % 2 ^ 16)).mul (g.read (b % 2 ^ 16))
  let p1 := (g.read (bitsNat a 16 16)).mul (g.read (bitsNat b 16 16))
  f32.round rm false false (exactSum [p0, p1, f32.read c])

/-- FDOT2 (R152). -/
def execFdot2 (f : RWord) (s : State) : Res :=
  let md := f.md.toNat
  runWord (.fdot2 f) (floatRun f 1 fun _ is t =>
    regs [BitVec.ofNat 32 (fdot2Bits md (rmOf f.x) (is.val t f.a 1) (is.val t f.b 1) (is.val t f.c 1))]) s

end Sys2Proof.Machine
end

