-- ==== Sys2Proof/Machine/Convert.lean ====
section
/-! DEFINITION. Conversions (R153-R155), predicates (R156, R157) and random numbers (R159-R161). -/

namespace Sys2Proof.Machine

/-- `fcvt` on bit patterns: destination type, source type, SAT, mode, A and B (R153, R154). -/
def fcvtBits (dt st : Nat) (sat : Bool) (rm : RMode) (a b : Nat) : List Word :=
  if dt < 8 then intWrite dt (((floatOf st).read a).toInt rm (intLo dt) (intHi dt))
  else if dt = 0xC ∨ dt = 0xD then
    let g := packedOf dt
    let cv (v : FVal) : Nat := g.round rm sat false v
    if st = 8 then [BitVec.ofNat 32 (cv (f32.read a) + 2 ^ 16 * cv (f32.read b))]
    else
      let h := packedOf st
      [BitVec.ofNat 32 (cv (h.read (a % 2 ^ 16)) + 2 ^ 16 * cv (h.read (bitsNat a 16 16)))]
  else if st = 0xC ∨ st = 0xD then
    let h := packedOf st
    [BitVec.ofNat 32 (f32.rne (h.read (a % 2 ^ 16))), BitVec.ofNat 32 (f32.rne (h.read (bitsNat a 16 16)))]
  else
    let v := if st < 8 then FVal.ofInt (intRead st a) else (floatOf st).read a
    typeWrite dt ((floatOf dt).round rm sat false v)

/-- FCVT (R153, R154). -/
def execFcvt (f : RWord) (s : State) : Res :=
  let dt := f.md.toNat
  let st := cvtSrc f.x
  let n := if st = 0xC ∧ dt = 8 ∨ st = 0xD ∧ dt = 8 then 2 else typeRegs dt
  let g : State → Issue → Thread → Out1 := fun _ is t =>
    regs (fcvtBits dt st (bitAt f.x 6) (rmOf f.x) (floatOperand st (is.val t f.a (typeRegs st))) (is.val t f.b 1))
  runWord (.fcvt f) (plain (if dt = 0xB ∨ st = 0xB then flagRun f.fs f.d n g else fixRun f.d n g)) s

/-- ICVT (R155). -/
def execIcvt (f : RWord) (s : State) : Res :=
  let dt := f.md.toNat
  let st := cvtSrc f.x
  runWord (.icvt f) (plain (fixRun f.d (typeRegs dt) fun _ is t => regs (intResult dt (bitAt f.x 6) (is.int t st f.a)))) s

/-- PSET (R156): a truth table of `p`pa and the old `p`pd. -/
def execPset (f : RWord) (s : State) : Res :=
  let pd := (f.x.extractLsb' 4 3).toNat
  let pa := (f.x.extractLsb' 1 3).toNat
  runWord (.pset f) (plain (fixRun f.d 0 fun _ _ t =>
    ⟨[], [(pd, bitAt f.md (2 * (if t.pred pa then 1 else 0) + (if t.pred pd then 1 else 0)))]⟩)) s

/-- The predicates of a thread as a number; bit 7 is `p7` (R157). -/
def Thread.predBits (t : Thread) : Nat := t.preds.toNat % 128 + 128

/-- PMOV (R157). -/
def execPmov (f : RWord) (s : State) : Res :=
  runWord (.pmov f) (plain (if f.md = 0 then fixRun f.d 1 fun _ _ t => regs [BitVec.ofNat 32 t.predBits]
    else fixRun f.d 0 fun _ is t =>
      let v := is.val t f.a 1
      ⟨[], ((List.range 7).filter fun i => bitAt f.x i).map fun i => (i, v.testBit i)⟩)) s

/-- One of the ten rounds of the squash generator (R160). -/
def squashRound (k : List Word) (r : Nat) (x : Word × Word × Word × Word) : Word × Word × Word × Word :=
  let (x0, x1, x2, x3) := x
  let x0 := x0 + x1 + k.getD (r % 4) 0
  let x3 := (x3 ^^^ x0).rotateLeft 11
  let x2 := x2 + x3 + 0x51A39C07 * BitVec.ofNat 32 (r + 1)
  let x1 := (x1 ^^^ x2).rotateLeft 19
  let x0 := x0 + x1
  let x3 := (x3 ^^^ x0).rotateLeft 5
  let x2 := x2 + x3
  let x1 := (x1 ^^^ x2).rotateLeft 23
  (x1, x2, x3, x0)

/-- The low and high halves of a 64-bit value. -/
def lo32 (x : DWord) : Word := x.extractLsb' 0 32
/-- The high half. -/
def hi32 (x : DWord) : Word := x.extractLsb' 32 32

/-- The squash generator (R160). -/
def squash (seed lid g c : DWord) : DWord :=
  let k := [lo32 seed, hi32 seed, lo32 lid, hi32 lid]
  let (x0, x1, x2, x3) := (List.range 10).foldl (fun x r => squashRound k r x) (lo32 c, hi32 c, lo32 g, hi32 g)
  pairOf (x0 ^^^ x2) (x1 ^^^ x3)

/-- The registers of `rand` for a drawn value (R159). -/
def randOut (md : Nat) (y : DWord) : List Word :=
  if md = 1 then [lo32 y]
  else if md = 3 then wordsOf 2 y.toNat
  else [BitVec.ofNat 32 (f32.rne (.fin false (y.extractLsb' 8 24).toNat (-24)))]

/-- LaunchId of a team's grid (R136). -/
def State.launchOf (s : State) (tm : Team) : Nat := ((s.grid? tm.gid).map (·.launchid)).getD 0

/-- RAND (R159, R161): the counter advances at issue. -/
def execRand (f : RWord) (s : State) : Res :=
  let n := typeRegs f.md.toNat
  runWord (.rand f) (plain fun s is go =>
    let out := flagRun f.fs f.d n (fun s is t =>
      regs (randOut f.md.toNat (squash (s.ctx is.team.ctx).seed (BitVec.ofNat 64 (s.launchOf is.team)) (BitVec.ofNat 64 t.gindex) t.rand))) s is go
    go.foldl (fun s t => s.onThread is.cur.core is.cur.part t.slot fun x => { x with rand := x.rand + 1 }) out) s

end Sys2Proof.Machine
end

