-- ==== Sys2Proof/Machine/Uniform.lean ====
section
/-! DEFINITION. The uniform forms (R162): the R-form namesakes on scalars. -/

namespace Sys2Proof.Machine

/-- A scalar source as a number. -/
def Team.snum (t : Team) (r : BitVec 9) (n : Nat) : Nat := natOfWords (t.sregs r.toNat n)

/-- The signed 18-bit immediate of B9:C9 (R115). -/
def uniImm (f : UWord) : Int := (f.b ++ f.c).toInt

/-- Source B in a width: B9's scalars, or the immediate (R162). -/
def uniB (f : UWord) (tm : Team) (n : Nat) : Nat := if f.bi then wrapN (32 * n) (uniImm f) else tm.snum f.b n

/-- A write of scalars from D9, once for the pack (R58). -/
def uniWrite (f : UWord) (ws : List Word) (s : State) (is : Issue) : State :=
  writeFixed s is ((List.range ws.length).map fun i => .s is.team.slot (f.d.toNat + i)) ws

/-- A uniform word: what it computes from its scalars. -/
def uniRun (f : UWord) (g : Team → List Word) : Meaning := plain fun s is _ => uniWrite f (g is.team) s is

/-- An integer word of two sources. -/
def uniInt (f : UWord) (op : Int → Int → Int) : Meaning :=
  let md := f.md.toNat
  let n := typeRegs md
  uniRun f fun tm => intWrite md (op (intRead md (tm.snum f.a n)) (intRead md (uniB f tm n)))

/-- A bit word of two sources; `n` registers of B. -/
def uniBit (f : UWord) (n : Nat) (op : Nat → Nat → Nat → Nat) : Meaning :=
  let md := f.md.toNat
  uniRun f fun tm => wordsOf (typeRegs md) (op (intWidth md) (tm.snum f.a (typeRegs md)) (uniB f tm n))

/-- A count with a 32-bit result. -/
def uniCount (f : UWord) (op : Nat → Nat → Nat) : Meaning :=
  let md := f.md.toNat
  uniRun f fun tm => [BitVec.ofNat 32 (op (intWidth md) (tm.snum f.a (typeRegs md)))]

/-- UNIFORM_ADD (R162). -/
def execUAdd (f : UWord) (s : State) : Res := runWord (.uAdd f) (uniInt f fun a b => a + b) s
/-- UNIFORM_SUB (R162). -/
def execUSub (f : UWord) (s : State) : Res := runWord (.uSub f) (uniInt f fun a b => a - b) s
/-- UNIFORM_MUL (R162). -/
def execUMul (f : UWord) (s : State) : Res := runWord (.uMul f) (uniInt f fun a b => a * b) s
/-- UNIFORM_MIN (R162). -/
def execUMin (f : UWord) (s : State) : Res := runWord (.uMin f) (uniInt f fun a b => if a ≤ b then a else b) s
/-- UNIFORM_MAX (R162). -/
def execUMax (f : UWord) (s : State) : Res := runWord (.uMax f) (uniInt f fun a b => if a ≤ b then b else a) s
/-- UNIFORM_AND (R162). -/
def execUAnd (f : UWord) (s : State) : Res := runWord (.uAnd f) (uniBit f (typeRegs f.md.toNat) fun _ a b => a &&& b) s
/-- UNIFORM_OR (R162). -/
def execUOr (f : UWord) (s : State) : Res := runWord (.uOr f) (uniBit f (typeRegs f.md.toNat) fun _ a b => a ||| b) s
/-- UNIFORM_XOR (R162). -/
def execUXor (f : UWord) (s : State) : Res := runWord (.uXor f) (uniBit f (typeRegs f.md.toNat) fun _ a b => a ^^^ b) s
/-- UNIFORM_ANDN (R162). -/
def execUAndn (f : UWord) (s : State) : Res := runWord (.uAndn f) (uniBit f (typeRegs f.md.toNat) andnBits) s
/-- UNIFORM_NOT (R162). -/
def execUNot (f : UWord) (s : State) : Res := runWord (.uNot f) (uniBit f 0 fun w a _ => ones w ^^^ a) s
/-- UNIFORM_SHL (R162). -/
def execUShl (f : UWord) (s : State) : Res := runWord (.uShl f) (uniBit f 1 shlBits) s
/-- UNIFORM_SHR (R162). -/
def execUShr (f : UWord) (s : State) : Res := runWord (.uShr f) (uniBit f 1 shrBits) s
/-- UNIFORM_SAR (R162). -/
def execUSar (f : UWord) (s : State) : Res := runWord (.uSar f) (uniBit f 1 sarBits) s
/-- UNIFORM_BFE (R162). -/
def execUBfe (f : UWord) (s : State) : Res := runWord (.uBfe f) (uniBit f 1 (bfeBits (intSigned f.md.toNat))) s
/-- UNIFORM_POPC (R162). -/
def execUPopc (f : UWord) (s : State) : Res := runWord (.uPopc f) (uniCount f popcount) s
/-- UNIFORM_CLZ (R162). -/
def execUClz (f : UWord) (s : State) : Res := runWord (.uClz f) (uniCount f leadingZeros) s
/-- UNIFORM_CTZ (R162). -/
def execUCtz (f : UWord) (s : State) : Res := runWord (.uCtz f) (uniCount f trailingZeros) s

/-- UNIFORM_MOV (R162): A9, or the immediate. -/
def execUMov (f : UWord) (s : State) : Res :=
  let md := f.md.toNat
  let n := typeRegs md
  runWord (.uMov f) (uniRun f fun tm => if f.bi then wordsOf n (wrapN (32 * n) (uniImm f)) else tm.sregs f.a.toNat n) s

/-- UNIFORM_LEA (R162): the index type is MOD, the shift 0, and an immediate is a signed index. -/
def execULea (f : UWord) (s : State) : Res :=
  let md := f.md.toNat
  runWord (.uLea f) (uniRun f fun tm =>
    leaSum (tm.snum f.a 2) (if f.bi then (uniImm f) else intRead md (tm.snum f.b (typeRegs md))) 0) s

end Sys2Proof.Machine
end

