-- ==== Sys2Proof/Machine/Engine.lean ====
section
/-! DEFINITION. The words of the asynchronous engines and of timelines (R231-R235, R242-R244). -/

namespace Sys2Proof.Machine

/-- The number of a value that no timeline reaches (R231). -/
def tlEnd : Nat := 2 ^ 56

/-- A handle (R233): the tag, the timeline and the value. -/
def handleOf (k v : Nat) : Nat := 0b11100 * 2 ^ 59 + k * 2 ^ 56 + v

/-- The timeline and value of a handle; none when the tag is another (R233). -/
def readHandle (h : Nat) : Option (Nat × Nat) :=
  if bitsNat h 59 5 = 0b11100 then some (bitsNat h 56 3, bitsNat h 0 56) else none

/-- SOURCE and UNIT of a channel in a fault record (R322). -/
def unitOf (k : ChanKey) : Nat × Nat :=
  match k with
  | .core c _ n => (1, 4 * c + n % 4)
  | .bulk d _ n => (2, 16 * d + n)

/-- The trap of a word that would assign 2^56 (R231). -/
def tlFull (is : Issue) (k : Nat) : Option (Nat × DWord) :=
  if tlEnd ≤ (is.team.tl k).assigned + 1 then some (4, 0x4E07) else none

/-- The barrier that a `cp.red` with BAR adds an engine arrival to (R239). -/
def barArrival (op : Nat) (f : EWord) (crd : List Word) : Option Nat :=
  if op = 0x2C1 ∧ bitAt f.md 1 then some ((crd.getD 9 0).toNat % 16) else none

/-- A command word acts (R233, R235, R239): through the thread of lowest `tid` it assigns its value, writes its handle and
tags the pair, and joins its channel's queue behind its own release. -/
def engRun (i : Instr) (op : Nat) (f : EWord) (s : State) (is : Issue) (go : List Thread) : State :=
  match go with
  | [] => s
  | t :: _ =>
    let c := is.cur.core
    let k := f.tl.toNat
    let key := chanOf c is.team.ctx op f
    let (v, tl) := (is.team.tl k).assign
    let crd := is.team.sregs f.crd.toNat (crdTop i)
    let (word, s) := s.newId
    let relId := s.nextId
    let s := s.newOp is word t .engine .queued fun o => { o with order := 2, scope := 5, md := k, size := v }
    let (id, s) := s.newId
    let cmd : Command :=
      { id := id, core := c, team := is.team.slot, ctx := is.team.ctx, gid := is.team.gid, part := is.cur.part,
        slot := t.slot, relId := relId, word := is.cur.exec, tl := k, val := v,
        shp := BitVec.ofNat 64 (natOfWords (is.team.sregs f.shp.toNat 2)), crd := crd,
        fmtSlot := is.team.fs.getD f.slot.toNat 0, phase := 0, recs := [], pos := 0, unacked := 0, pollAt := 0,
        paused := none, pausing := false, failed := false, num := 0 }
    let s := s.onChan key fun ch => { ch with queue := ch.queue ++ [cmd] }
    let s := writeFixed s is [.s is.team.slot f.hnd.toNat, .s is.team.slot (f.hnd.toNat + 1)] (wordsOf 2 (handleOf k v))
    let s := s.onTeam c is.team.slot fun x =>
      { x with tls := x.tls.set k tl
               tags := x.tags ++ [(f.hnd.toNat, k, v)]
               engArr := match barArrival op f crd with
                 | some b => x.engArr ++ [(b, k, v)]
                 | none => x.engArr }
    let s := s.traceRec c (vfOf is.team.ctx) 3 1 is.team.ctx (unitOf key).2 (k * 2 ^ 56 + v)
    s.settle c

/-- The trap of a word whose format slot holds a format that it does not accept (R73, R230, R238): `cp.red` adds F32, BF16 or F16, and no
engine accepts I4. -/
def badEngSlot (op : Nat) (f : EWord) (is : Issue) : Option (Nat × DWord) :=
  let fmt := (is.team.fs.getD f.slot.toNat 0).toNat % 16
  if (op = 0x2C1 ∧ 2 < fmt) ∨ (op = 0x2C3 ∧ fmt = 0xA) then some (4, f.slot.setWidth 64) else none

/-- A command word (R231, R235). -/
def engMeaning (i : Instr) (op : Nat) (f : EWord) : Meaning :=
  { plain (engRun i op f) with traps := fun _ is _ => (badEngSlot op f is).or (tlFull is f.tl.toNat) }

/-- CP (R235, R237). -/
def execCp (f : EWord) (s : State) : Res := runWord (.cp f) (engMeaning (.cp f) 0x2C0 f) s
/-- CP_RED (R235, R238, R239). -/
def execCpRed (f : EWord) (s : State) : Res := runWord (.cpRed f) (engMeaning (.cpRed f) 0x2C1 f) s
/-- CP_GAT (R235, R237). -/
def execCpGat (f : EWord) (s : State) : Res := runWord (.cpGat f) (engMeaning (.cpGat f) 0x2C2 f) s
/-- COLL (R235, R240). -/
def execColl (f : EWord) (s : State) : Res := runWord (.coll f) (engMeaning (.coll f) 0x2C3 f) s
/-- FUR (R235, R241). -/
def execFur (f : EWord) (s : State) : Res := runWord (.fur f) (engMeaning (.fur f) 0x2C4 f) s

/-- The channel whose fill pointer `cp.fill` reads (R242). -/
def fillChan (f : RWord) (core ctx : Nat) : ChanKey :=
  if bitAt f.x 0 then .bulk (dieOf core) ctx f.md.toNat else .core core ctx f.md.toNat

/-- CP_FILL (R242): the pointer as it stands at issue, landing with the flag; with acquire order it is an acquire (R104). -/
def execCpFill (f : RWord) (s : State) : Res :=
  runWord (.cpFill f) (plain fun s is go =>
    let v := (s.chan (fillChan f is.cur.core is.team.ctx)).fill
    let flag := flagOf is.hdr f.fs
    let (word, s) := s.newId
    go.foldl (fun s t =>
      (s.raiseFlag is t flag).newOp is word t .result .done fun o =>
        { o with dest := destsOf is.team t f.d 2, vals := wordsOf 2 v.toNat, flag := some flag, order := xOrder f.x,
                 scope := xScope f.x }) s) s

/-- The value a `tl.wait` waits for (R243): the immediate of B and C, or a pair. -/
def waitValue (f : RWord) (is : Issue) (t : Thread) : Nat := if isNone f.a then (f.b ++ f.c).toNat else is.val t f.a 2

/-- TL_WAIT (R244): parks below its value; otherwise it continues as an acquire at its scope (R104). -/
def execTlWait (f : RWord) (s : State) : Res :=
  let k := f.md.toNat % 8
  runWord (.tlWait f)
    { plain (fun s is _ => if 4 ≤ xScope f.x then s.onCore is.cur.core Core.flash else s) with
      parks := fun _ is t =>
        let n := waitValue f is t
        if n ≤ (is.team.tl k).completed then none else some (.at_ (.timeline k n (xScope f.x)) true) } s

/-- Scalars written by a U-form timeline word, once for the pack (R58). -/
def tlWrite (f : UWord) (ws : List Word) (s : State) (is : Issue) : State := uniWrite f ws s is

/-- TL_TEST (R244): 1 for a complete handle and for any value that is no handle. -/
def execTlTest (f : UWord) (s : State) : Res :=
  runWord (.tlTest f) (plain fun s is _ =>
    let done := match readHandle (is.team.snum f.a 2) with
      | some (k, v) => decide (v ≤ (is.team.tl k).completed)
      | none => true
    tlWrite f [if done then 1 else 0] s is) s

/-- Whether a queued command has not started (R236, R244). -/
def Command.unstarted (c : Command) : Bool := c.phase == 0 || (c.phase == 1 && (opOf c.word).toNat == 0x2C1)

/-- The channel that holds a team's unstarted command of a timeline and value, if there is one. -/
def State.unstartedAt (s : State) (core team k v : Nat) : Option Chan :=
  s.chans.find? fun ch => ch.queue.any fun c => c.core == core && c.team == team && c.tl == k && c.val == v && c.unstarted

/-- TL_CANCEL (R244): an unstarted command leaves its queue, is complete by R231, and 1 is delivered; otherwise 0. -/
def execTlCancel (f : UWord) (s : State) : Res :=
  runWord (.tlCancel f) (plain fun s is go =>
    let c := is.cur.core
    let flag := flagOf is.hdr f.fs
    let found := (readHandle (is.team.snum f.a 2)).bind fun h => (s.unstartedAt c is.team.slot h.1 h.2).map fun ch => (ch, h)
    let s := match found with
      | some (ch, k, v) =>
        let s := s.setChan { ch with queue := ch.queue.filter fun x => !(x.core == c && x.team == is.team.slot && x.tl == k && x.val == v) }
        s.onTimeline c is.team.slot k fun t => t.finish v false
      | none => s
    let (word, s) := s.newId
    go.foldl (fun s t =>
      (s.raiseFlag is t flag).newOp is word t .result .done fun o =>
        { o with dest := [.s is.team.slot f.d.toNat], vals := [if found.isSome then 1 else 0], flag := some flag }) s) s

/-- TL_RD (R244): COMPLETED, or FAILV with MOD[3]. -/
def execTlRd (f : UWord) (s : State) : Res :=
  runWord (.tlRd f) (plain fun s is _ =>
    let t := is.team.tl (f.md.toNat % 8)
    tlWrite f (wordsOf 2 (if bitAt f.md 3 then t.failv else t.completed)) s is) s

/-- TL_SIG (R244): the next value, whose own effect is a release at system scope by every guard-holding thread. -/
def execTlSig (f : UWord) (s : State) : Res :=
  let k := f.md.toNat % 8
  runWord (.tlSig f)
    { plain (fun s is go =>
        let (v, tl) := (is.team.tl k).assign
        let s := s.onTeam is.cur.core is.team.slot fun x => { x with tls := x.tls.set k tl }
        let (word, s) := s.newId
        let s := go.foldl (fun s t => s.newOp is word t .engine .queued fun o => { o with order := 2, scope := 5, md := k, size := v }) s
        s.settle is.cur.core) with
      traps := fun _ is _ => tlFull is k } s

end Sys2Proof.Machine
end

