-- ==== Sys2Proof/Machine/Channel.lean ====
section
/-! DEFINITION. The copy channels at work (R92, R93, R228-R239, R245): tensor records, rejection, pausing, and delivering `cp`, `cp.gat` and `cp.red`. -/

namespace Sys2Proof.Machine

/-- A tensor record's fields (R228). -/
abbrev recBase (r : List Byte) : DWord := BitVec.ofNat 64 (fieldAt r 0 8)
/-- SCALE. -/
abbrev recScale (r : List Byte) : DWord := BitVec.ofNat 64 (fieldAt r 8 8)
/-- EXTENT of a dimension. -/
abbrev recExt (r : List Byte) (d : Nat) : Nat := fieldAt r (0x10 + 4 * d) 4
/-- STRIDE of dimensions 1 to 3, in bytes. -/
abbrev recStride (r : List Byte) (d : Nat) : Nat := 16 * fieldAt r (0x20 + 4 * (d - 1)) 4
/-- BOX of a dimension; 1 for a dimension that NDIM leaves out. -/
def recBox (r : List Byte) (d : Nat) : Nat := if d < fieldAt r 0x35 1 then fieldAt r (0x2C + 2 * d) 2 else 1
/-- FMT. -/
abbrev recFmt (r : List Byte) : Nat := fieldAt r 0x34 1
/-- NDIM. -/
abbrev recNdim (r : List Byte) : Nat := fieldAt r 0x35 1
/-- LOCAL. -/
abbrev recLocal (r : List Byte) : Bool := (fieldAt r 0x36 1).testBit 0
/-- SEQ. -/
abbrev recSeq (r : List Byte) : DWord := BitVec.ofNat 64 (fieldAt r 0x38 8)

/-- Coordinates are signed 32-bit scalars (R229). -/
def coordsOf (crd : List Word) (first : Nat) : List Int := (List.range 4).map fun d => (crd.getD (first + d) 0).toInt

/-- The byte offset of an element whose indices lie inside the extents; none when the element is outside (R229). -/
def recOffset (r : List Byte) (e : Nat) (idx : List Int) : Option Nat :=
  let n := recNdim r
  let i (d : Nat) : Int := if d < n then idx.getD d 0 else 0
  let inside (d : Nat) : Bool := decide (n ≤ d) || (decide (0 ≤ i d) && decide (i d < recExt r d))
  if (List.range 4).all inside then
    some (e * (i 0).toNat + ((List.range 3).map fun d => recStride r (d + 1) * (i (d + 1)).toNat).foldl (fun a b => a + b) 0)
  else none

/-- An address of a record (R228): that of a LOCAL tensor is a scratch address, in [31:0]. -/
def recPlace (r : List Byte) (a : DWord) : DWord := if recLocal r then a &&& 0xFFFF_FFFF else a

/-- The address of an element (R229). -/
def recAt (r : List Byte) (e : Nat) (idx : List Int) : Option DWord :=
  (recOffset r e idx).map fun o => recPlace r (recBase r) + BitVec.ofNat 64 o

/-- The bits of byte `i` of a TwinScale block that belong to elements inside the extent (R67, R229); the block's first element has an index. -/
def twinMask (f : Nat) (r : List Byte) (first : Int) (i : Nat) : Nat :=
  (List.range 8).foldl (fun m j =>
    let el := first + ((8 * i + j) / twinBits f : Nat)
    if 0 ≤ el ∧ el < recExt r 0 then m + 2 ^ j else m) 0

/-- The number of positions of a box (R229). -/
def boxCount (box : List Nat) : Nat := box.foldl (fun a b => a * b) 1

/-- The box offsets of a position, j0 innermost (R92, R229). -/
def boxIdx (box : List Nat) (pos : Nat) : List Int :=
  let b (d : Nat) : Nat := box.getD d 1
  [(pos % b 0 : Nat), (pos / b 0 % b 1 : Nat), (pos / (b 0 * b 1) % b 2 : Nat), (pos / (b 0 * b 1 * b 2) : Nat)]

/-- Coordinates plus box offsets, dimension by dimension. -/
def addIdx (a b : List Int) : List Int := List.zipWith (fun x y => x + y) a b

/-- The operation of a command. -/
abbrev Command.op (c : Command) : Nat := (opOf c.word).toNat
/-- MOD of a command word. -/
def Command.md (c : Command) : BitVec 4 := ((getE c.word).map (·.md)).getD 0
/-- ORD of a `cp.red` (R238). -/
def Command.ordered (c : Command) : Bool := c.op == 0x2C1 && bitAt c.md 0
/-- A record of a command. -/
def Command.record (c : Command) (i : Nat) : List Byte := c.recs.getD i []
/-- Source coordinates. -/
def Command.from_ (c : Command) : List Int := coordsOf c.crd 0
/-- Destination coordinates. -/
def Command.to_ (c : Command) : List Int := coordsOf c.crd 4

/-- The die of a channel's engine port (R93). -/
def chanDie (k : ChanKey) : Nat :=
  match k with
  | .core c _ _ => dieOf c
  | .bulk d _ _ => d

/-- The context of a channel. -/
def chanCtx (k : ChanKey) : Nat :=
  match k with
  | .core _ c _ => c
  | .bulk _ c _ => c

/-- Whether a channel is a bulk channel. -/
def chanBulk (k : ChanKey) : Bool :=
  match k with
  | .core _ _ _ => false
  | .bulk _ _ _ => true

/-- The lowest unfenced core of a die (R321). -/
def State.dieCcp (s : State) (die : Nat) : Nat := ((List.range 80).find? fun i => !bitAt s.fencedCores (80 * die + i)).getD 0 + 80 * die

/-- The source box of a command, or the box of the gathered rows (R229, R237). -/
def Command.box (c : Command) : List Nat :=
  let r := c.record 0
  if c.op = 0x2C2 then [recBox r 0, recBox (c.record 2) 0] else (List.range 4).map (recBox r)

/-- Destination bytes that one position counts: an element, or one byte of a TwinScale element plane (R92, R229). -/
def Command.unitBytes (c : Command) : Nat := if isTwin (recFmt (c.record 1)) then 1 else fmtBytes (recFmt (c.record 1))

/-- The positions of a command, in units of `unitBytes`. -/
def Command.positions (c : Command) : Nat :=
  let f := recFmt (c.record 0)
  if isTwin f ∧ c.op ≠ 0x2C3 then recBox (c.record 0) 0 / 32 * twinSize f else boxCount c.box

/-- The checks of R230 that a record meets alone; `box` says whether its BOX fields are used. -/
def recOk (r : List Byte) (box fmt : Bool) (c0 : Int) : Bool :=
  let n := recNdim r
  let f := recFmt r
  1 ≤ n && n ≤ 4 && ((List.range n).all fun d => (!box || recBox r d != 0) && recExt r d != 0)
    && fieldAt r 0x36 1 < 2 && fieldAt r 0x37 1 == 0
    && (if fmt then
          !fmtReserved f && f != 0xA
          && (if isTwin f then n == 1 && c0 % 32 == 0 && (!box || recBox r 0 % 32 == 0)
                && (recBase r).toNat % 32 == 0 && (recScale r).toNat % 32 == 0
              else (recBase r).toNat % fmtBytes f == 0)
        else (recBase r).toNat % 4 == 0)

/-- Where an element ends in its plane (R67, R229): `twin` for a TwinScale plane, whose elements are not whole bytes. -/
def recEnd (r : List Byte) (e : Nat) (twin : Bool) (idx : List Int) : Option Nat :=
  (recOffset r e idx).map fun o =>
    if twin then
      let f := recFmt r
      let i := (idx.getD 0 0).toNat
      i / 32 * twinSize f + (i % 32 * twinBits f + twinBits f + 7) / 8
    else o + e

/-- Whether a LOCAL tensor has a position of the box inside its extents that scratch does not hold (R230). -/
def recBeyond (r : List Byte) (e : Nat) (twin : Bool) (scratch : Nat) (idx : List Int) (box : List Nat) : Bool :=
  if !recLocal r then false
  else
    let n := recNdim r
    let top (d : Nat) : Int := if d < n then min (recExt r d : Int) (idx.getD d 0 + box.getD d 1) - 1 else 0
    let some_ := (List.range n).all fun d => decide (max 0 (idx.getD d 0) ≤ top d)
    match recEnd r e twin ((List.range 4).map top) with
    | some o => some_ && decide (scratch < (recPlace r (recBase r)).toNat + o)
    | none => false

/-- Whether a destination element of a `cp.red` lies in a host range (R238). -/
def State.redHost (s : State) (c : Command) : Bool :=
  (List.range (boxCount c.box)).any fun p =>
    match recAt (c.record 1) (fmtBytes (recFmt (c.record 1))) (addIdx c.to_ (boxIdx c.box p)) with
    | some va =>
      match s.walkRoot 0 c.ctx (va56 va) with
      | .leaf e _ _ => leafLoc e.leaf != 0
      | _ => false
    | none => false

/-- Whether a copy, gather or reduce-add is rejected (R230, R237, R238): a destination's BOX counts for a gather only, and positions of an
index list have no sign. -/
def State.rejects (s : State) (k : ChanKey) (c : Command) : Bool :=
  let src := c.record 0
  let dst := c.record 1
  let c0 (i : List Int) : Int := i.getD 0 0
  let sc := ((s.team? c.core c.team).map (·.scratchBytes)).getD 0
  let loc := recLocal src || recLocal dst || (c.op == 0x2C2 && recLocal (c.record 2))
  let slot := slotFmtCode c.fmtSlot
  !recOk src true true (c0 c.from_) || !recOk dst (c.op == 0x2C2) true (c0 c.to_) || (loc && chanBulk k)
    || recBeyond src (fmtBytes (recFmt src)) (isTwin (recFmt src)) sc c.from_ ((List.range 4).map (recBox src))
    || recBeyond dst (fmtBytes (recFmt dst)) (isTwin (recFmt dst)) sc c.to_ c.box
    || (if c.op = 0x2C0 then recNdim src != recNdim dst || recFmt src != recFmt dst
        else if c.op = 0x2C2 then
          recNdim src != 2 || recFmt src != recFmt dst || !recOk (c.record 2) true false 0
            || recBeyond (c.record 2) 4 false sc [((c.crd.getD 8 0).toNat : Int)] [recBox (c.record 2) 0]
        else
          loc || recFmt dst != slot || 2 < slot
            || !(recFmt src == 0 || recFmt src == 1 || recFmt src == 2 || recFmt src == 8 || recFmt src == 9)
            || (c.ordered && (recSeq dst == 0 || !canonical (recSeq dst) || (recSeq dst).toNat % 8 != 0))
            || s.redHost c)

/-- A command replaced where it stands in its channel. -/
def State.setCmd (s : State) (k : ChanKey) (c : Command) : State :=
  s.onChan k fun ch =>
    { ch with queue := ch.queue.map fun x => if x.id = c.id then c else x
              acking := ch.acking.map fun x => if x.id = c.id then c else x }

/-- A command removed from its channel. -/
def State.dropCmd (s : State) (k : ChanKey) (id : Nat) : State :=
  s.onChan k fun ch => { ch with queue := ch.queue.filter fun x => x.id != id, acking := ch.acking.filter fun x => x.id != id }

/-- A channel pauses before a faulting element (R320-R322): it takes a token of its own and posts a record. -/
def State.pauseChan (s : State) (k : ChanKey) (c : Command) (cls code access : Nat) (va : DWord) : State :=
  let (src, unit) := unitOf k
  let core := if chanBulk k then s.dieCcp (chanDie k) else c.core
  let (n, s) := s.takeToken core
    { vf := vfOf c.ctx, cls := cls, code := code, access := access, source := src, unit := unit, ctx := c.ctx, token := 0, va := va
      pc := 0, gindex := 0, extra := (s.chan k).fill, dump := none, behind := none }
    fun t => { t with chan := some k }
  (s.hostForget c.id).setCmd k { c with paused := some n }

/-- A value of a timeline is complete in its own effects (R231, R232). -/
def State.finishCmd (s : State) (k : ChanKey) (c : Command) (failed : Bool) : State :=
  let s := (s.dropCmd k c.id).hostForget c.id
  let s := s.traceRec c.core (vfOf c.ctx) 4 1 c.ctx (unitOf k).2 (c.tl * 2 ^ 56 + c.val)
  s.onTimeline c.core c.team c.tl fun t => t.finish c.val failed

/-- Whether no grid of a virtual function is resident on the die of an Inkwell page (R80). -/
def State.inkFree (s : State) (vf pa : Nat) : Bool :=
  !(s.teams.any fun t => vfOf t.ctx == vf && dieOf t.core == inkGroupOf pa / 12)

/-- Whether an engine may write the page of an address as R80 asks of an INK page. -/
def State.inkOk (s : State) (die ctx : Nat) (va : DWord) : Bool :=
  match s.walkRoot die ctx (va56 va) with
  | .leaf e _ _ => let pa := e.translate (va56 va); !isInk pa || s.inkFree (vfOf ctx) pa
  | _ => true

/-- One run of bytes that a turn writes: to scratch, or to a physical address of a LOC, with its virtual address. -/
structure Wr where
  local_ : Bool
  loc    : Nat
  va     : DWord
  pa     : Nat
  data   : List Byte
deriving DecidableEq, Repr

/-- Runs that follow one another within a 32-byte line are one write (R353). -/
def joinRuns (w : Wr) : List Wr → List Wr
  | [] => [w]
  | x :: rest =>
    if w.local_ = x.local_ ∧ w.loc = x.loc ∧ w.pa + w.data.length = x.pa ∧ x.pa % 32 ≠ 0
    then { w with data := w.data ++ x.data } :: rest else w :: x :: rest

/-- The agent of a command's accesses (R310): `cp`, `cp.red`, `cp.gat` and `coll` are class 1, and a job's post class 2. -/
def Command.agent (c : Command) (k : ChanKey) : Agent := ⟨c.id, c.ctx, chanDie k, if c.op = 0x2C4 then 2 else 1, .chan k c.id⟩

/-- A run written (R84, R105): the line leaves the L1 of the core that issued the command. -/
def State.writeRun (s : State) (k : ChanKey) (c : Command) (w : Wr) : State :=
  if w.local_ then (s.localWrite c.core c.team false (.scratch w.pa) w.data).onTeam c.core c.team fun t => t.cleanScratch w.pa w.data.length
  else if w.loc = 0 then
    let s := s.putPa w.pa w.data
    s.onCore c.core fun x => x.dropLines [w.pa / 32] false
  else s.agentHost (c.agent k) w.va fun id => .hostWrite id (vfOf c.ctx) w.pa w.data

/-- What reading or producing bytes for an engine gives. -/
inductive Got (α : Type) where
  | ok (x : α)
  | bad (cls code access : Nat) (va : DWord)
  | wait

/-- What comes after something that was produced. -/
def Got.andThen {α β : Type} (r : Got α × State) (f : α → State → Got β × State) : Got β × State :=
  match r with
  | (.ok x, s) => f x s
  | (.bad cls code access va, s) => (.bad cls code access va, s)
  | (.wait, s) => (.wait, s)

/-- What translating an engine's access gives, in the same form. -/
def gotXl (access : Nat) (va : DWord) (r : Xl × State) : Got (Nat × Nat) × State :=
  match r with
  | (.ok pa loc _, s) => (.ok (pa, loc), s)
  | (.bad cls code, s) => (.bad cls code access va, s)
  | (.miss, s) => (.wait, s)

/-- `n` bytes that an engine reads, within one page (R84, R88, R94, R236): scratch, device memory whose lines have been served at their homes,
or a host range. -/
def State.engRead (s : State) (k : ChanKey) (c : Command) (local_ : Bool) (va : DWord) (n : Nat) : Got (List Byte) × State :=
  if local_ then
    if s.localBad c.core c.team (.scratch va.toNat) n then (.bad 0x12 0 0 va, s) else (.ok (s.localRead c.core c.team (.scratch va.toNat) n), s)
  else
    let g := c.agent k
    Got.andThen (gotXl 0 va (s.xlateUnit g .read va)) fun x s =>
      let m : PageMap := [(va.toNat / 4096, x.1 - va.toNat % 4096, x.2)]
      if x.2 = 0 then
        if !s.mayServeVa g .row m [(va, n)] then (.wait, s.askVa g .row m [(va, n)])
        else if s.readsPoison x.1 n then (.bad 0x12 0 0 va, s)
        else (.ok (s.bytes x.1 n), s)
      else
        let (ready, s) := s.fetchHost g m [(va, n)]
        if ready then (.ok (s.readVa c.id m va n), s) else (.wait, s)

/-- An element read; an outside element is zero (R229). -/
def State.readElem (s : State) (k : ChanKey) (c : Command) (r : List Byte) (e : Nat) (idx : List Int) : Got (List Byte) × State :=
  match recAt r e idx with
  | none => (.ok (List.replicate e 0), s)
  | some va => s.engRead k c (recLocal r) va e

/-- The source bytes of a TwinScale copy (R67, R229): those of its blocks that lie inside the extent, and their scales. -/
def Command.twinSource (c : Command) (va : DWord) : Bool :=
  let src := c.record 0
  let f := recFmt src
  (List.range (recBox src 0 / 32)).any fun b =>
    let first := c.from_.getD 0 0 + 32 * (b : Nat)
    let q := (first / 32).toNat
    let at_ (base : DWord) (off n : Nat) : Bool :=
      let a := (recPlace src base + BitVec.ofNat 64 off).toNat
      decide (a ≤ va.toNat) && decide (va.toNat < a + n)
    decide (0 ≤ first) && decide (first < recExt src 0) && (at_ (recScale src) (2 * q) 2 ||
      (List.range (twinSize f)).any fun i => twinMask f src first i != 0 && at_ (recBase src) (q * twinSize f + i) 1)

/-- Whether an address is a source byte of its own command (R236): such a destination byte is a free value. -/
def Command.overlaps (c : Command) (va : DWord) : Bool :=
  let src := c.record 0
  let e := fmtBytes (recFmt src)
  let box := if c.op = 0x2C2 then [recBox src 0, recExt src 1] else c.box
  let first := if c.op = 0x2C2 then [c.from_.getD 0 0, 0, 0, 0] else c.from_
  recLocal src == recLocal (c.record 1) &&
    if isTwin (recFmt src) && (c.op == 0x2C0 || c.op == 0x2C3) then c.twinSource va
    else (List.range (boxCount box)).any fun p =>
      match recAt src e (addIdx first (boxIdx box p)) with
      | some a => decide (a.toNat ≤ va.toNat) && decide (va.toNat < a.toNat + e)
      | none => false

/-- Bytes to be written from an address, those that overlap the source being free values (R236). -/
def State.freeOverlap (s : State) (c : Command) (va : DWord) (bs : List Byte) : List Byte × State :=
  if (List.range bs.length).any fun i => c.overlaps (va + BitVec.ofNat 64 i) then
    (bs.zipIdx.map fun b => if c.overlaps (va + BitVec.ofNat 64 b.2) then Config.freeByte c.ctx (s.freshOf c.ctx + b.2) else b.1,
     s.drawn c.ctx bs.length)
  else (bs, s)

/-- Where a write of an engine goes (R80, R94, R105, R315), once its line has been served there; `red` is a `cp.red` destination, whose addition is
one read-modify-write (R170). -/
def State.engDest (s : State) (k : ChanKey) (c : Command) (red local_ : Bool) (va : DWord) (bs : List Byte) : Got Wr × State :=
  if local_ then (.ok ⟨true, 0, va, va.toNat, bs⟩, s)
  else
    let a : Acc := if red then .redDest else .engWrite (s.inkOk (chanDie k) c.ctx va)
    let g := c.agent k
    let how : How := if red then .rmw else .write
    Got.andThen (gotXl a.code va (s.xlateUnit g a va)) fun x s =>
      let s := if x.2 = 0 then s.ask g how x.1 else s
      if x.2 = 0 && !s.mayServe g how x.1 then (.wait, s) else (.ok ⟨false, x.2, va, x.1, bs⟩, s)

/-- The index of the first element of the block that holds a position of a TwinScale box, from the coordinate of the box (R229). -/
def twinFirst (f : Nat) (c0 : Int) (pos : Nat) : Int := c0 + 32 * (pos / twinSize f : Nat)

/-- The destination of a position: none when it is skipped (R229). -/
def Command.dest (c : Command) (pos : Nat) : Option DWord :=
  let r := c.record 1
  let f := recFmt r
  if isTwin f then
    let first := twinFirst f (c.to_.getD 0 0) pos
    if twinMask f r first (pos % twinSize f) = 0 then none
    else some (recPlace r (recBase r) + BitVec.ofNat 64 (first.toNat / 32 * twinSize f + pos % twinSize f))
  else recAt r (fmtBytes f) (addIdx c.to_ (boxIdx c.box pos))

/-- Bits of a byte by a mask: the new where it is set, and the old elsewhere. -/
def mergeBits (mask : Nat) (new old : Byte) : Byte :=
  let m := BitVec.ofNat 8 mask
  (new &&& m) ||| (old &&& ~~~m)

/-- A byte of a TwinScale element plane goes to its place (R229): bits of elements outside the extent keep what they hold. -/
def State.twinPut (s : State) (k : ChanKey) (c : Command) (mask : Nat) (dst : DWord) (bs : List Byte) : Got Wr × State :=
  let dl := recLocal (c.record 1)
  let old : Got (List Byte) × State := if mask = 255 then (.ok [0], s) else s.engRead k c dl dst 1
  Got.andThen old fun o s => s.engDest k c false dl dst [mergeBits mask (bs.getD 0 0) (o.getD 0 0)]

/-- A byte of a TwinScale copy, and the scale that goes before the first byte of its block (R229): elements outside the source read as
zero, and those outside the destination are skipped.  Where the destination overlaps the source the bytes are free values (R236). -/
def State.twinByte (s : State) (k : ChanKey) (c : Command) (pos : Nat) (dst : DWord) : Got (List Wr) × State :=
  let src := c.record 0
  let f := recFmt src
  let i := pos % twinSize f
  let first := twinFirst f (c.from_.getD 0 0) pos
  let q := first.toNat / 32
  let dfirst := twinFirst f (c.to_.getD 0 0) pos
  let dscale := recPlace (c.record 1) (recScale (c.record 1)) + BitVec.ofNat 64 (2 * (dfirst.toNat / 32))
  let get (inside : Bool) (va : DWord) (n : Nat) (s : State) : Got (List Byte) × State :=
    if inside then s.engRead k c (recLocal src) va n else (.ok (List.replicate n 0), s)
  let scale : Got (List Wr) × State :=
    if i ≠ 0 then (.ok [], s)
    else Got.andThen (get (0 ≤ first && first < recExt src 0) (recPlace src (recScale src) + BitVec.ofNat 64 (2 * q)) 2 s) fun bs s =>
      let (bs, s) := s.freeOverlap c dscale bs
      Got.andThen (s.engDest k c false (recLocal (c.record 1)) dscale bs) fun w s => (.ok [w], s)
  let mask := twinMask f src first i
  Got.andThen scale fun ws s =>
    Got.andThen (get (mask != 0) (recPlace src (recBase src) + BitVec.ofNat 64 (q * twinSize f + i)) 1 s) fun bs s =>
      let (bs, s) := s.freeOverlap c dst [mergeBits mask (bs.getD 0 0) 0]
      Got.andThen (s.twinPut k c (twinMask f (c.record 1) dfirst i) dst bs) fun w s => (.ok (ws ++ [w]), s)

/-- The source element of a position of a `cp`, `cp.gat` or `cp.red` (R237, R238). -/
def State.copySource (s : State) (k : ChanKey) (c : Command) (pos : Nat) : Got (List Byte) × State :=
  let src := c.record 0
  let e := fmtBytes (recFmt src)
  let j := boxIdx c.box pos
  if c.op = 0x2C2 then
    let list := c.record 2
    let p := (c.crd.getD 8 0).toNat + (j.getD 1 0).toNat
    let base := recPlace list (recBase list)
    let idx : Got (List Byte) × State :=
      if p < recExt list 0 then s.engRead k c (recLocal list) (base + BitVec.ofNat 64 (4 * p)) 4 else (.ok (List.replicate 4 0xFF), s)
    Got.andThen idx fun bs s => s.readElem k c src e [c.from_.getD 0 0 + j.getD 0 0, (natOf bs : Nat)]
  else s.readElem k c src e (addIdx c.from_ j)

/-- The sum that a `cp.red` stores at an element (R238). -/
def redSum (c : Command) (x old : Nat) : Nat :=
  let v := c.fmtSlot
  let fmt := slotFmtCode v
  (slotFmt fmt).fadd (slotRnd v) old (fmtWrite fmt (slotRnd v) (slotSat v) (fmtRead (recFmt (c.record 0)) x)).1

/-- What one position writes (R237, R238). -/
def State.produce (s : State) (k : ChanKey) (c : Command) (pos : Nat) (dst : DWord) : Got (List Wr) × State :=
  if isTwin (recFmt (c.record 1)) then s.twinByte k c pos dst
  else
    let red := c.op == 0x2C1
    Got.andThen (s.copySource k c pos) fun bs s =>
      Got.andThen (s.engDest k c red (recLocal (c.record 1)) dst bs) fun w s =>
        if red && s.readsPoison w.pa c.unitBytes then (.bad 0x12 0 2 dst, s)
        else
          let bs := if red then bytesOf c.unitBytes (redSum c (natOf bs) (s.num w.pa c.unitBytes)) else bs
          let (bs, s) := s.freeOverlap c dst bs
          (.ok [{ w with data := bs }], s)

/-- The source of a position of a `cp` or `cp.red`, with the scale before the first byte of its block (R229). -/
def Command.sourceRuns (c : Command) (pos : Nat) : List (DWord × Nat) :=
  let src := c.record 0
  let f := recFmt src
  match c.dest pos with
  | none => []
  | some _ =>
    if isTwin f then
      let first := twinFirst f (c.from_.getD 0 0) pos
      let i := pos % twinSize f
      let q := first.toNat / 32
      if first < 0 ∨ (recExt src 0 : Int) ≤ first then []
      else (if i = 0 then [(recPlace src (recScale src) + BitVec.ofNat 64 (2 * q), 2)] else [])
        ++ [(recPlace src (recBase src) + BitVec.ofNat 64 (q * twinSize f + i), 1)]
    else
      match recAt src (fmtBytes f) (addIdx c.from_ (boxIdx c.box pos)) with
      | some va => [(va, fmtBytes f)]
      | none => []

/-- A run joined to the one before it when it follows it within a page. -/
def joinSource (acc : List (DWord × Nat)) (r : DWord × Nat) : List (DWord × Nat) :=
  match acc with
  | [] => [r]
  | (v, n) :: rest => if v + BitVec.ofNat 64 n = r.1 ∧ r.1.toNat % 4096 ≠ 0 then (v, n + r.2) :: rest else r :: acc

/-- The source of the coming positions of a `cp` or `cp.red`. -/
def Command.comingSource (c : Command) (positions : Nat) : List (DWord × Nat) :=
  (((List.range (min 1024 (positions - c.pos))).flatMap fun i => c.sourceRuns (c.pos + i)).foldl joinSource []).reverse

/-- A source in a host range is read for many positions at once, when the first of them has not come (R390). -/
def State.readAhead (s : State) (k : ChanKey) (c : Command) : State :=
  let src := c.record 0
  if recLocal src || !(c.op == 0x2C0 || c.op == 0x2C1) then s
  else
    let runs := c.comingSource c.positions
    let page (va : DWord) : Option (Nat × Nat × Nat) :=
      match s.walkRoot (chanDie k) c.ctx (va56 va) with
      | .leaf e _ _ =>
        if leafLoc e.leaf = 0 then none else some (va.toNat / 4096, e.translate (va56 va) - va.toNat % 4096, leafLoc e.leaf)
      | _ => none
    match runs with
    | [] => s
    | (va, _) :: _ =>
      match page va with
      | some (v, base, loc) =>
        if s.hostHolds c.id (base + va.toNat % 4096) (if isTwin (recFmt src) then 1 else fmtBytes (recFmt src)) then s
        else ((s.hostForget c.id).fetchHost (c.agent k) ((v, base, loc) :: runs.filterMap fun r => page r.1) runs).2
      | none => s

/-- How a turn ends: it goes on with the next turn, or meets a fault before an element. -/
inductive TurnEnd where
  | more
  | bad (cls code access : Nat) (va : DWord)

/-- The positions of one turn (R93, R229): up to 64 destination bytes are written, and skipped positions are passed with the
byte before them.  `stop` ends the turn where the pointer reaches a 4 KiB boundary (R245); the fuel bounds the positions.  Each addition of a
`cp.red` is made before the next position reads (R105, R238). -/
def turnLoop (k : ChanKey) (prod : State → Command → Nat → DWord → Got (List Wr) × State) (dest : Command → Nat → Option DWord)
    (stop : Bool) (fill : Nat) : Nat → State → Command → List Wr → Nat → TurnEnd × State × Command × List Wr
  | 0, s, c, ws, _ => (.more, s, c, ws)
  | n + 1, s, c, ws, room =>
    let u := c.unitBytes
    let at_ := fill + c.unacked
    if stop ∧ at_ / 4096 ≠ fill / 4096 then (.more, s, { c with pausing := true }, ws)
    else
      match dest c c.pos with
      | none => turnLoop k prod dest stop fill n s { c with pos := c.pos + 1, unacked := c.unacked + u } ws room
      | some va =>
        if room < u then (.more, s, c, ws)
        else
          match prod s c c.pos va with
          | (.ok w, s) =>
            let c' := { c with pos := c.pos + 1, unacked := c.unacked + u }
            if c.op = 0x2C1 then turnLoop k prod dest stop fill n (w.foldl (fun s w => s.writeRun k c w) s) c' ws (room - u)
            else turnLoop k prod dest stop fill n s c' (ws ++ w) (room - u)
          | (.bad a b d v, s) => (.bad a b d v, s, c, ws)
          | (.wait, s) => (.more, s, c, ws)

/-- A turn of a command (R92, R93): its writes are performed, and the pointer passes them when no host write is outstanding. -/
def State.turn (s : State) (k : ChanKey) (c : Command) (positions : Nat) (stop : Bool)
    (prod : State → Command → Nat → DWord → Got (List Wr) × State) (dest : Command → Nat → Option DWord) : Res :=
  let c0 := c.pos
  let (e, s, c, ws) := turnLoop k prod dest stop (s.chan k).fill.toNat (positions - c.pos) s c [] 64
  let s := (ws.foldr joinRuns []).foldl (fun s w => s.writeRun k c w) s
  let s := if c.pos = c0 then s else s.dropGrants c.id
  let pass := !s.hostBusy c.id
  let s := if pass then s.onChan k fun ch => { ch with fill := ch.fill + BitVec.ofNat 64 c.unacked } else s
  let c := if pass then { c with unacked := 0 } else c
  let s := s.setCmd k c
  match e with
  | .bad a b d va => .next (s.pauseChan k c a b d va)
  | _ =>
    if positions ≤ c.pos then
      .next (s.onChan k fun ch =>
        { ch with queue := ch.queue.filter fun x => x.id != c.id, acking := ch.acking ++ [{ c with phase := 3 }] })
    else .next s

end Sys2Proof.Machine
end

