-- ==== Sys2Proof/Machine/Collective.lean ====
section
/-! DEFINITION. Collectives (R78, R240, R381-R383): the group, what a rank sends, the reduction in rank order, and failing. -/

namespace Sys2Proof.Machine

/-- KIND of a `coll` (R240). -/
def Command.kind (c : Command) : Nat := c.md.toNat % 4
/-- OP of a `coll` (R240). -/
def Command.redOp (c : Command) : Nat := c.md.toNat / 4
/-- GROUP. -/
def Command.group (c : Command) : Nat := fieldAt (c.record 2) 0 4
/-- NRANKS. -/
def Command.nranks (c : Command) : Nat := fieldAt (c.record 2) 4 2
/-- RANK. -/
def Command.rank (c : Command) : Nat := fieldAt (c.record 2) 6 2
/-- E: the element count of the source box (R240). -/
def Command.count (c : Command) : Nat := boxCount c.box

/-- The module and context of each rank of a group, from its table entry (R381): none when no group is configured, an
address when the table lies where no memory is. -/
def State.groupRanks (s : State) (vf group : Nat) : Except Nat (Option (Nat × List (Nat × Nat))) :=
  let base := (s.vf vf).grpbase.toNat
  if base = 0 ∨ 4096 ≤ group then .ok none
  else
    let e := base + 16 * group
    if !paOk e 16 then .error e
    else
      let n := s.num (e + 2) 2
      let list := s.num (e + 8) 8
      if !paOk list (4 * n) ∧ n ≠ 0 then .error list
      else .ok (some (s.num e 2, (List.range n).map fun i => let w := s.num (list + 4 * i) 4; (w % 2 ^ 16, bitsNat w 16 12)))

/-- Whether a command's group is configured for its context with the issuing module at its rank only (R381). -/
def configured (quillid : Nat) (c : Command) (g : Option (Nat × List (Nat × Nat))) : Bool :=
  match g with
  | none => false
  | some (ctx, rs) =>
    ctx == c.ctx && rs.length == c.nranks
      && (rs.zipIdx.filter fun r => r.1.1 == quillid).map (·.2) == [c.rank]

/-- The port a transfer from one rank to another uses (R382). -/
def State.portTo (s : State) (vf : Nat) (rs : List (Nat × Nat)) (a b : Nat) : Option Nat :=
  let m := assoc (rs.getD b (0, 0)).1 0#18 s.routes
  let ps := (List.range 18).filter fun p => bitAt m p && bitAt (s.vf vf).quill p && !bitAt s.fencedPorts p
  if ps.isEmpty then none else ps[(a ^^^ b) % ps.length]?

/-- A flit from a die goes to its port (R7, R383): ports 0 to 8 are served through die 0 and 9 to 17 through die 1, and a flit of the other
die crosses the link in the class of collectives. -/
def State.sendFlit (s : State) (die port : Nat) (f : Flit) : State :=
  if port / 9 = die then s.queueFlit port f else { s with linkQ := s.linkQ ++ [⟨die, 1, .quill port f, 0⟩] }

/-- The checks of R240 that a rank makes alone. -/
def collOk (c : Command) : Bool :=
  let src := c.record 0
  let dst := c.record 1
  let g := c.record 2
  let f := recFmt src
  let n := c.nranks
  recOk src true true (c.from_.getD 0 0) && recOk dst true true (c.to_.getD 0 0)
    && !recLocal src && !recLocal dst && ((g.drop 8).all fun b => b == 0)
    && 2 ≤ n && n ≤ 4096 && c.rank < n && recFmt dst == slotFmtCode c.fmtSlot
    && (!isTwin f || (c.redOp == 0 && n ≤ 256))
    && (c.kind != 1 || c.count % (if isTwin f then 32 * n else n) == 0)

/-- The parameters that every rank must agree on (R240), behind a status byte: 0 ready, 1 rejected, 2 failed.  Their form
on the link is the model's own. -/
def collParams (c : Command) (status : Nat) : List Byte :=
  [BitVec.ofNat 8 status, BitVec.ofNat 8 c.md.toNat, BitVec.ofNat 8 (recFmt (c.record 0))] ++ bytesOf 8 c.count ++ bytesOf 8 c.fmtSlot.toNat

/-- The ranks other than its own. -/
def Command.others (c : Command) : List Nat := (List.range c.nranks).filter fun r => r != c.rank

/-- A control flit to every rank that can be reached (R383). -/
def State.sendStatus (s : State) (k : ChanKey) (c : Command) (rs : List (Nat × Nat)) (status : Nat) : State :=
  c.others.foldl (fun s b =>
    match s.portTo (vfOf c.ctx) rs c.rank b with
    | some p => s.sendFlit (chanDie k) p ⟨1, c.group, c.num, c.rank, 0, collParams c status⟩
    | none => s) s

/-- A rank's source bytes to every other rank, in flits of up to 256 bytes (R383). -/
def State.sendData (s : State) (k : ChanKey) (c : Command) (rs : List (Nat × Nat)) (bs : List Byte) : State :=
  c.others.foldl (fun s b =>
    match s.portTo (vfOf c.ctx) rs c.rank b with
    | some p => (List.range (ceilDiv bs.length 256)).foldl (fun s i =>
        s.sendFlit (chanDie k) p ⟨0, c.group, c.num, c.rank, 256 * i, (bs.drop (256 * i)).take 256⟩) s
    | none => s) s

/-- What a rank has sent, kept until the collective ends. -/
def State.keepRank (s : State) (c : Command) (ctl : Bool) (bs : List Byte) : State :=
  { s with ranks := s.ranks ++ [⟨vfOf c.ctx, c.group, c.num, c.rank, ctl, 0, bs⟩] }

/-- The data of a collective let go. -/
def State.dropRanks (s : State) (c : Command) : State :=
  { s with ranks := s.ranks.filter fun r => !(r.vf == vfOf c.ctx && r.group == c.group && r.num == c.num) }

/-- The source of a rank (R240): elements in walk order, or a TwinScale element plane, in which elements outside the extent are zero, and its
scales (R229). -/
def State.collSource (s : State) (k : ChanKey) (c : Command) : Got (List Byte) × State :=
  let src := c.record 0
  let f := recFmt src
  let c0 := c.from_.getD 0 0
  let parts : List (Option DWord × Nat × Nat) :=
    if isTwin f then
      let n := c.count / 32
      let q (b : Nat) : Nat := (c0 + 32 * (b : Nat)).toNat / 32
      ((List.range (n * twinSize f)).map fun p =>
        let mask := twinMask f src (twinFirst f c0 p) (p % twinSize f)
        (if mask = 0 then none else some (recBase src + BitVec.ofNat 64 (q (p / twinSize f) * twinSize f + p % twinSize f)), 1, mask))
      ++ ((List.range n).map fun b =>
        let first := c0 + 32 * (b : Nat)
        (if 0 ≤ first ∧ first < recExt src 0 then some (recScale src + BitVec.ofNat 64 (2 * q b)) else none, 2, 255))
    else (List.range c.count).map fun p => (recAt src (fmtBytes f) (addIdx c.from_ (boxIdx c.box p)), fmtBytes f, 255)
  parts.foldl (fun acc p => Got.andThen acc fun bs t =>
    match p.1 with
    | none => (.ok (bs ++ List.replicate p.2.1 0), t)
    | some va => Got.andThen (t.engRead k c false va p.2.1) fun x t =>
      (.ok (bs ++ (if p.2.2 = 255 then x else x.map fun b => mergeBits p.2.2 b 0)), t)) (.ok [], s)

/-- Bytes of a rank's source, once they have come. -/
def State.rankBytes (s : State) (c : Command) (rank off n : Nat) : Option (List Byte) :=
  let mine := s.ranks.filter fun r => r.vf == vfOf c.ctx && r.group == c.group && r.num == c.num && r.rank == rank && !r.ctl
  (List.range n).mapM fun i =>
    (mine.find? fun r => decide (r.off ≤ off + i) && decide (off + i < r.off + r.data.length)).map fun r => r.data.getD (off + i - r.off) 0

/-- The parameters that a rank has sent last. -/
def State.rankParams (s : State) (c : Command) (rank : Nat) : Option (List Byte) :=
  (s.ranks.reverse.find? fun r => r.vf == vfOf c.ctx && r.group == c.group && r.num == c.num && r.rank == rank && r.ctl).map (·.data)

/-- The reduction of one IEEE or integer element in rank order (R240). -/
def reduceElem (fmt op : Nat) (xs : List Nat) : FVal :=
  match xs with
  | [] => .nan
  | x :: rest =>
    if fmt = 8 ∨ fmt = 9 then
      let v (y : Nat) : Int := if fmt = 8 then sext 8 y else (y % 256 : Nat)
      let step (a b : Int) : Int := if op = 0 then (if fmt = 8 then sext 32 (wrapN 32 (a + b)) else (wrapN 32 (a + b) : Nat))
        else if op = 1 then max a b else min a b
      FVal.ofInt (rest.foldl (fun a y => step a (v y)) (v x))
    else
      let g := if fmt = 3 then f64 else f32
      let w (y : Nat) : Nat := g.rne ((slotFmt fmt).read y)
      let step (a b : Nat) : Nat := if op = 0 then g.fadd .rne a b else g.minmax (op == 1) false a b
      g.read (rest.foldl (fun a y => step a (w y)) (w x))

/-- The exact sum of one TwinScale block over the ranks (R78): whether it is a NaN block, and its 32 values. -/
def reduceTwin (fmt d : Nat) (blocks : List (List Byte × Nat)) : Bool × List FVal :=
  let eh : Nat := blocks.foldl (fun (m : Nat) b => max m (b.2 / 256)) 0
  let el : Int := max 0 ((eh : Int) - d)
  let f : Int := twinF fmt
  let term (v : FVal) : Int := let n : Int := twinRound v.abs (127 + f - el); if v.sign then -n else n
  let one (i : Nat) : FVal :=
    let vs := blocks.map fun b => twinVal fmt (twinElemAt fmt b.1 i) b.2
    if vs.any FVal.isNan then .nan
    else
      let q := vs.foldl (fun a v => a + term v) (0 : Int)
      .fin (decide (q < 0)) q.natAbs (el - 127 - f)
  (blocks.any fun b => b.2 / 256 == 255, (List.range 32).map one)

/-- A rank's TwinScale block `b`. -/
def State.rankBlock (s : State) (c : Command) (rank b : Nat) : Option (List Byte × Nat) :=
  let f := recFmt (c.record 0)
  (s.rankBytes c rank (twinSize f * b) (twinSize f)).bind fun e =>
    (s.rankBytes c rank (twinSize f * (c.count / 32) + 2 * b) 2).map fun x => (e, natOf x)

/-- Element `i` of the result of this rank, as a value, and whether it lies in a NaN block of a sum (R78, R240): a block that is copied is
formed anew from its elements, NaNs where its own is a NaN block (R69, log 57). -/
def State.collElem (s : State) (c : Command) (i : Nat) : Option (Bool × FVal) :=
  let f := recFmt (c.record 0)
  let e := fmtBytes f
  let n := c.nranks
  let j := if c.kind = 1 then c.rank * (c.count / n) + i else if c.kind = 2 then i % c.count else i
  let from_ := if c.kind = 2 then [i / c.count] else if c.kind = 3 then [0] else List.range n
  if isTwin f then
    (from_.mapM fun r => s.rankBlock c r (j / 32)).map fun bs =>
      if 2 ≤ c.kind then
        let b := bs.getD 0 ([], 0)
        (false, twinVal f (twinElemAt f b.1 (j % 32)) b.2)
      else let (nan, vs) := reduceTwin f (slotD c.fmtSlot) bs; (nan, vs.getD (j % 32) .nan)
  else
    (from_.mapM fun r => (s.rankBytes c r (e * j) e).map natOf).map fun xs =>
      (false, if 2 ≤ c.kind then fmtRead f (xs.getD 0 0) else reduceElem f c.redOp xs)

/-- Elements a rank receives (R240). -/
def Command.outCount (c : Command) : Nat :=
  if c.kind = 1 then c.count / c.nranks else if c.kind = 2 then c.nranks * c.count else c.count

/-- Positions of a collective's destination. -/
def Command.outPositions (c : Command) : Nat :=
  let f := recFmt (c.record 1)
  if isTwin f then ceilDiv c.outCount 32 * twinSize f else c.outCount

/-- The destination of a position of a collective: the destination record's own box is walked. -/
def collDest (c : Command) (pos : Nat) : Option DWord :=
  let r := c.record 1
  let f := recFmt r
  let box := (List.range 4).map (recBox r)
  if isTwin f then c.dest pos
  else if pos < boxCount box then recAt r (fmtBytes f) (addIdx c.to_ (boxIdx box pos)) else none

/-- The rounding of a collective's conversions (R65, R78, R240): RNE for the sum of a TwinScale source in an IEEE format, and otherwise RND
of the slot. -/
def Command.collRnd (c : Command) : RMode :=
  let o := slotFmtCode c.fmtSlot
  if isTwin (recFmt (c.record 0)) && decide (c.kind < 2) && o != 8 && o != 9 then .rne else slotRnd c.fmtSlot

/-- The elements of block `b` of a collective's TwinScale output.  A last block that the elements do not fill goes on with +0: the manual does
not say what stands there (R69), and this is the model's choice (log 57). -/
def State.collBlock (s : State) (c : Command) (b : Nat) : Option (List (Bool × FVal)) :=
  (List.range 32).mapM fun i => if 32 * b + i < c.outCount then s.collElem c (32 * b + i) else some (false, .fin false 0 0)

/-- What one position of a collective writes (R64, R69, R78, R240, R393): the result, reduced or copied, converted once to the slot format,
with its SAT, and a NaN as the canonical one.  DESIGN CHOICE (log 57): a result in TwinScale takes the exact value of a source element, an F64 or an
integer among them, with no rounding to f32 on the way, where R69 names f32, bf16 and f16 inputs only.  The manual gives a NaN block its E_hi alone:
its E_lo and its element bytes are free values (log 57). -/
def State.collProduce (s : State) (k : ChanKey) (c : Command) (pos : Nat) (dst : DWord) : Got (List Wr) × State :=
  let v := c.fmtSlot
  let o := slotFmtCode v
  let put (va : DWord) (bs : List Byte) (s : State) : Got Wr × State :=
    let (bs, s) := s.freeOverlap c va bs
    s.engDest k c false false va bs
  if isTwin o then
    let b := pos / twinSize o
    match s.collBlock c b with
    | none => (.wait, s)
    | some xs =>
      let nan := xs.any fun x => x.1
      let (el, sc, _) := toTwin o (slotD v) (slotSat v) (xs.map fun x => x.2)
      let n := s.freshOf c.ctx
      let el := if nan then (List.range (twinSize o)).map fun i => Config.freeByte c.ctx (n + i) else el
      let sc := if nan then 0xFF00 + (Config.freeByte c.ctx (n + 40)).toNat else sc
      let s := if nan ∧ pos % twinSize o + 1 = twinSize o then s.drawn c.ctx 41 else s
      let first := twinFirst o (c.to_.getD 0 0) pos
      let dq := first.toNat / 32
      let scale : Got (List Wr) × State :=
        if pos % twinSize o ≠ 0 then (.ok [], s)
        else Got.andThen (put (recScale (c.record 1) + BitVec.ofNat 64 (2 * dq)) (bytesOf 2 sc) s) fun w s => (.ok [w], s)
      Got.andThen scale fun ws s =>
        let (bs, s) := s.freeOverlap c dst [el.getD (pos % twinSize o) 0]
        Got.andThen (s.twinPut k c (twinMask o (c.record 1) first (pos % twinSize o)) dst bs) fun w s => (.ok (ws ++ [w]), s)
  else
    match s.collElem c pos with
    | none => (.wait, s)
    | some (_, x) =>
      Got.andThen (put dst (bytesOf (fmtBytes o) (fmtWrite o c.collRnd (slotSat v) x).1) s) fun w s => (.ok [w], s)

/-- The physical address of a destination byte that a failed collective may not write any more, found in the tables as they stand. -/
def State.failPlace (s : State) (k : ChanKey) (ctx : Nat) (va : DWord) : Option (Nat × Nat) :=
  match s.walkRoot (chanDie k) ctx (va56 va) with
  | .leaf e _ _ =>
    let pa := e.translate (va56 va)
    if (s.permission ctx (.engWrite (s.inkOk (chanDie k) ctx va)) e pa).isNone then some (pa, leafLoc e.leaf) else none
  | _ => none

/-- Bytes from an address left with free values (R5, R240). -/
def State.freeAt (s : State) (k : ChanKey) (c : Command) (va : DWord) (n : Nat) : State :=
  match s.failPlace k c.ctx va with
  | some (pa, loc) =>
    let bs := (List.range n).map fun j => Config.freeByte c.ctx (s.freshOf c.ctx + j)
    (s.drawn c.ctx n).writeRun k c ⟨false, loc, va, pa, bs⟩
  | none => s

/-- A collective fails (R240): destination bytes not yet written, TwinScale scales among them, are free values, and the ranks that can still
be reached fail.  It is complete once its writes to host ranges are acknowledged (R105, R231). -/
def State.failColl (s : State) (k : ChanKey) (c : Command) : State :=
  let rs := match s.groupRanks (vfOf c.ctx) c.group with
    | .ok (some g) => g.2
    | _ => []
  let left := c.outPositions - c.pos
  let o := recFmt (c.record 1)
  let s := (List.range left).foldl (fun s i =>
    let pos := c.pos + i
    match collDest c pos with
    | none => s
    | some va =>
      let s := if isTwin o ∧ pos % twinSize o = 0 then
          s.freeAt k c (recScale (c.record 1) + BitVec.ofNat 64 (2 * ((twinFirst o (c.to_.getD 0 0) pos).toNat / 32))) 2
        else s
      s.freeAt k c va c.unitBytes) s
  let s := (s.sendStatus k c rs 2).dropRanks c
  if s.hostBusy c.id then
    s.onChan k fun ch =>
      { ch with queue := ch.queue.filter fun x => x.id != c.id, acking := ch.acking ++ [{ c with phase := 3, failed := true }] }
  else s.finishCmd k c true

/-- A collective at the head of its channel (R240): its own checks, its number in the group, and what it sends.  One that is rejected tells
the other ranks; a group that no table configures names no rank to tell. -/
def State.startColl (s : State) (k : ChanKey) (c : Command) : Res :=
  match s.groupRanks (vfOf c.ctx) c.group with
  | .error pa => .fault (.absentPhysical pa)
  | .ok g =>
    let rs := (g.map (·.2)).getD []
    let num := assoc c.group 0 (s.ctx c.ctx).colls
    let c := { c with num := num }
    let s0 := s.onCtx c.ctx fun x => { x with colls := setAssoc c.group (num + 1) x.colls }
    if g.isNone then .next (s.finishCmd k c true)
    else
      if !configured s.quillid.toNat c g || !collOk c then .next ((s0.sendStatus k c rs 1).finishCmd k c true)
      else if c.others.any fun b => (s.portTo (vfOf c.ctx) rs c.rank b).isNone then .next ((s0.setCmd k c).failColl k c)
      else
        match s.collSource k c with
        | (.bad a b d va, s) => .next (s.pauseChan k { c with num := 0 } a b d va)
        | (.wait, s) => .next s
        | (.ok bs, s) =>
          let s := s.onCtx c.ctx fun x => { x with colls := setAssoc c.group (num + 1) x.colls }
          let s := ((s.keepRank c true (collParams c 0)).keepRank c false bs).sendStatus k c rs 0
          .next (((s.hostForget c.id).sendData k c rs bs).setCmd k { c with phase := 1 })

/-- Whether a rank has said that it failed mid-way (R240). -/
def State.peerFailed (s : State) (c : Command) : Bool :=
  c.others.any fun r => (s.rankParams c r).any fun p => fieldAt p 0 1 == 2

/-- What the ranks have said in a collective, by rank. -/
def State.rankWords (s : State) (c : Command) : List (Nat × List Byte) :=
  (s.ranks.filter fun r => r.vf == vfOf c.ctx && r.group == c.group && r.num == c.num && r.ctl).map fun r => (r.rank, r.data)

/-- Whether what has come shows that a collective is to be rejected (R240): other parameters, a rejection elsewhere, or two ranks of one number. -/
def State.disagrees (s : State) (c : Command) : Bool :=
  let ps := (s.rankWords c).filter fun p => fieldAt p.2 0 1 != 2
  (ps.any fun p => p.2 != collParams c 0) || (ps.map (·.1)).eraseDups.length != ps.length

/-- A collective that waits for the parameters of the other ranks (R240): it is rejected as soon as what has come shows it, and fails as soon as
another rank says that it has failed; it starts when all have come and agree. -/
def State.agreeColl (s : State) (k : ChanKey) (c : Command) : State :=
  if s.disagrees c then
    let rs := match s.groupRanks (vfOf c.ctx) c.group with
      | .ok (some g) => g.2
      | _ => []
    ((s.sendStatus k c rs 1).dropRanks c).finishCmd k c true
  else if s.peerFailed c then s.failColl k c
  else if (List.range c.nranks).all fun r => (s.rankParams c r).isSome then s.setCmd k { c with phase := 2 }
  else s

end Sys2Proof.Machine
end

