-- ==== Sys2Proof/Machine/Marrow.lean ====
section
/-! DEFINITION. The Marrow clusters (R241, R352, R357-R363): posting a job, starting it, its chunks and its end. -/

namespace Sys2Proof.Machine

/-- `n` bytes that an engine reads over any number of pages. -/
def State.engReadAll (s : State) (k : ChanKey) (c : Command) (va : DWord) (n : Nat) : Got (List Byte) × State :=
  (cutRange 4096 va n).foldl (fun acc p => Got.andThen acc fun bs s =>
    Got.andThen (s.engRead k c false p.1 p.2) fun x s => (.ok (bs ++ x), s)) (.ok [], s)

/-- KIND of a job (R358). -/
def Job.kind (j : Job) : Nat := fieldAt j.rec_ 0 1
/-- A window of a job: BASE and SIZE (R358). -/
def Job.win (j : Job) (w : Nat) : Nat × DWord := (fieldAt j.rec_ (0x40 + 16 * w) 8, BitVec.ofNat 64 (fieldAt j.rec_ (0x48 + 16 * w) 8))
/-- Bytes of a window. -/
def winSize (v : DWord) : Nat := (v.extractLsb' 0 48).toNat
/-- The windows of a job. -/
def Job.wins (j : Job) : List (Nat × DWord) := (List.range (fieldAt j.rec_ 1 1)).map j.win
/-- Whether a window holds a range; `w` asks for WRITE (R359). -/
def Job.holds (j : Job) (w : Bool) (a n : Nat) : Bool :=
  j.wins.any fun x => decide (x.1 ≤ a) && decide (a + n ≤ x.1 + winSize x.2) && (!w || bitAt x.2 63)

/-- A word of a KIND 1 parameter block (R361). -/
def parAt (p : List Byte) (off n : Nat) : Nat := fieldAt p off n
/-- Chunks of a fused update (R361). -/
def parChunks (p : List Byte) : Nat := ceilDiv (parAt p 0x20 8) 1024

/-- The limits of a job record that R358 checks before its parameters. -/
def Job.badRecord (j : Job) : Bool :=
  let r := j.rec_
  let n := fieldAt r 1 1
  !((r.drop 2).take 6).all (fun b => b == 0) || fieldAt r 0x38 8 != 0 || n == 0 || decide (4 < n) || decide (1 < j.kind)
    || (j.wins.any fun w => w.1 % 64 != 0 || winSize w.2 % 64 != 0 || (w.2.extractLsb' 48 14) != 0)
    || (j.kind == 0 && (fieldAt r 0x18 8 == 0 || decide (2 ^ 32 < fieldAt r 0x18 8)))

/-- The limits of R361, and the windows its arrays must lie in. -/
def Job.badParams (j : Job) (p : List Byte) : Bool :=
  let n := parAt p 0x20 8
  n == 0 || decide (2 ^ 40 < n) || parAt p 0x4C 4 != 0
    || ([0, 8, 0x10, 0x18].any fun o => parAt p o 8 % 64 != 0 || !j.holds (o != 0x18) (parAt p o 8) (4 * n))

/-- A record of a Marrow fault (R322, R359): no token waits. -/
def State.marrowRecord (s : State) (j : Job) (marrow cls code access : Nat) (va : DWord) (chunk : Nat) : State :=
  let n := s.nextId + 1
  { s with nextId := n }.postRecord
    { vf := vfOf j.ctx, cls := cls, code := code, access := access, source := 3, unit := marrow, ctx := j.ctx, token := n,
      va := va, pc := 0, gindex := 0, extra := BitVec.ofNat 64 chunk, dump := none, behind := none }

/-- `fur` at the head of its posting queue (R241, R357): rejected, held while the FIFO is full, or posted. -/
def State.startFur (s : State) (k : ChanKey) (c : Command) : Res :=
  let n := ((getE c.word).map (·.chan.toNat)).getD 0
  let cl := s.cluster n
  let fenced := (List.range 8).all fun i => bitAt s.fencedMarrow (8 * n + i)
  if !bitAt (s.vf (vfOf c.ctx)).clusters n || fenced then .next (s.finishCmd k c true)
  else if 32 ≤ cl.fifo.length then .next s
  else
    match Got.andThen (s.engReadAll k c c.shp 64) fun r s =>
        Got.andThen (s.engReadAll k c (c.shp + 64) (16 * min 4 (fieldAt r 1 1))) fun w s => (.ok (r ++ w), s) with
    | (.bad a b d va, s) => .next (s.pauseChan k c a b d va)
    | (.wait, s) => .next s
    | (.ok r, s) =>
      let j : Job := { cmd := c.id, chan := k, ctx := c.ctx, core := c.core, team := c.team, tl := c.tl, val := c.val,
                       addr := c.shp, rec_ := r, nchunk := 0, next := 0, bad := [], ended := 0, rejected := false }
      let s := (s.hostForget c.id).setCluster { cl with fifo := cl.fifo ++ [j] }
      .next (s.onChan k fun ch =>
        { ch with queue := ch.queue.filter fun x => x.id != c.id, acking := ch.acking ++ [{ c with phase := 2 }] })

/-- The agent of a job's accesses by a Marrow core (R7, R310). -/
def Job.agent (j : Job) (marrow : Nat) : Agent := dieAgent j.cmd j.ctx (marrow / 32) 2

/-- Whether a job's accesses of ranges may be made now (R9, R87, R94, R318): none of their pages waits for the walker, and each line has been
served at its home; what is missing is asked for. -/
def State.marrowMay (s : State) (g : Agent) (writes : Bool) (rs : List (DWord × Nat)) : Bool × State :=
  let how : How := if writes then .write else .row
  rs.foldl (fun x r =>
    match x.2.xlateRanges g [(if writes then .write else .read, r.1, r.2)] with
    | (.ok m, s) => (x.1 && s.mayServeVa g how m [r], s.askVa g how m [r])
    | (.wait, s) => (false, s)
    | (.bad _ _ _ _, s) => (x.1, s)) (true, s)

/-- Bytes that a cluster writes through the page tables of a job; a fault on them is recorded and they are not written. -/
def State.marrowWrite (s : State) (j : Job) (marrow : Nat) (va : DWord) (bs : List Byte) : State :=
  let g := j.agent marrow
  match s.xlateRanges g [(.write, va, bs.length)] with
  | (.ok m, s) =>
    (s.writeVa g m va bs).onCore j.core fun c => c.dropLines (linesVa m [(va, bs.length)]) false
  | (.bad cls code access va, s) => s.marrowRecord j marrow cls code access va j.nchunk
  | (.wait, s) => s

/-- What a job that is done writes (R363): RESULT, and unless it was rejected FIRSTBAD and BADMAP. -/
def Job.results (j : Job) : List (DWord × List Byte) :=
  let bad := j.bad.length
  let map := fieldAt j.rec_ 0x30 8
  (j.addr + 0x20, bytesOf 8 (min bad (2 ^ 32 - 1) + 2 ^ 32 + (if j.rejected then 2 ^ 33 else 0))) ::
    if j.rejected then []
    else (j.addr + 0x28, bytesOf 8 (j.bad.foldl min (2 ^ 64 - 1))) ::
      if map = 0 then []
      else [(BitVec.ofNat 64 map, (List.range (ceilDiv j.nchunk 8)).map fun i =>
        BitVec.ofNat 8 ((List.range 8).foldl (fun v b => v + if j.bad.contains (8 * i + b) then 2 ^ b else 0) 0))]

/-- Whether a job has nothing left to do but its results. -/
def Job.over (j : Job) : Bool := j.rejected || (j.nchunk != 0 && j.ended == j.nchunk)

/-- A job is done (R363): its results are written, and its command waits for their acknowledgement.  Until they may be written it stays at the
head of the FIFO. -/
def State.jobDone (s : State) (n : Nat) (j : Job) : State :=
  let m := 8 * n
  let cl := s.cluster n
  let (may, s) := s.marrowMay (j.agent m) true (j.results.map fun w => (w.1, w.2.length))
  if !may then s.setCluster { cl with fifo := j :: cl.fifo.drop 1, running := true, chunks := [] }
  else
    let s := j.results.foldl (fun s w => s.marrowWrite j m w.1 w.2) s
    let s := (s.hostForget j.cmd).setCluster { cl with fifo := cl.fifo.drop 1, running := false, chunks := [] }
    s.onChan j.chan fun ch => { ch with acking := ch.acking.map fun c =>
      if c.id = j.cmd then { c with phase := 3, failed := j.rejected || !j.bad.isEmpty } else c }

/-- MARROW_JOB_START (R357, R358, R363): the head of the FIFO starts, or is rejected; one that only waits to write its results does so. -/
def execMarrowJobStart (n : Nat) (s : State) : Res :=
  let cl := s.cluster n
  match cl.fifo with
  | [] => .next s
  | j :: rest =>
    if cl.running then .next (if j.over then s.jobDone n j else s)
    else if j.badRecord then .next (s.jobDone n { j with rejected := true })
    else if j.kind = 0 then
      .next (s.setCluster { cl with running := true, fifo := { j with nchunk := fieldAt j.rec_ 0x18 8 } :: rest })
    else
      let arg : DWord := BitVec.ofNat 64 (fieldAt j.rec_ 0x10 8)
      let g := j.agent (8 * n)
      match s.xlateRanges g [(.read, arg, 0x50)] with
      | (.wait, s) => .next s
      | (.bad cls code access va, s) =>
        .next (((s.hostForget j.cmd).marrowRecord j (8 * n) cls code access va 0).jobDone n { j with rejected := true })
      | (.ok m, s) =>
        let (ready, s) := s.fetchHost g m [(arg, 0x50)]
        if !ready || !s.mayServeVa g .row m [(arg, 0x50)] then .next (s.askVa g .row m [(arg, 0x50)])
        else
          match s.poisonVa m [(arg, 0x50)] with
          | some va => .next ((s.marrowRecord j (8 * n) 0x12 0 0 va 0).jobDone n { j with rejected := true })
          | none =>
            let p := s.readVa j.cmd m arg 0x50
            let s := s.hostForget j.cmd
            if arg.toNat % 16 ≠ 0 ∨ j.badParams p then .next (s.jobDone n { j with rejected := true })
            else
              let r := j.rec_.take (64 + 16 * fieldAt j.rec_ 1 1) ++ p
              .next (s.setCluster { cl with running := true, fifo := { j with nchunk := parChunks p, rec_ := r } :: rest })

/-- Where the local memory of a Marrow core begins (R359). -/
def localBase : Nat := 0xFFFF_FFFF_FFFC_0000

/-- Whether an address is one of a Marrow core's local memory (R359). -/
def marrowLocal (va : DWord) : Bool := decide (localBase ≤ va.toNat)

/-- ENTRY of a KIND 0 job (R358). -/
def Job.entry (j : Job) : DWord := BitVec.ofNat 64 (fieldAt j.rec_ 8 8)

/-- The registers with which a KIND 0 chunk starts on a core of a cluster (R360): the top of local memory is the address after its last byte, which is
2^64 and so reads as 0 (log 13). -/
def Job.regs (j : Job) (cluster core : Nat) : MarrowRegs :=
  ⟨core, j.entry, BitVec.ofNat 64 (fieldAt j.rec_ 0x10 8), BitVec.ofNat 64 j.next, BitVec.ofNat 64 core, BitVec.ofNat 64 (localBase + 2 ^ 18),
   Config.marrowReturn cluster⟩

/-- MARROW_CHUNK_START (R357, R360): the lowest free live core takes the lowest chunk not yet started; a KIND 0 chunk sets its registers. -/
def execMarrowChunkStart (n : Nat) (s : State) : Res :=
  let cl := s.cluster n
  match cl.fifo with
  | [] => .next s
  | j :: rest =>
    let free := (List.range 8).find? fun i => !bitAt s.fencedMarrow (8 * n + i) && !(cl.chunks.any fun c => c.1 == i)
    match free with
    | some i =>
      if cl.running && decide (j.next < j.nchunk) then
        let regs := if j.kind = 0 then cl.regs.filter (fun r => r.core != i) ++ [j.regs n i] else cl.regs
        .next (s.setCluster { cl with chunks := cl.chunks ++ [(i, j.next)], regs := regs, fifo := { j with next := j.next + 1 } :: rest })
      else .next s
    | none => .next s

/-- Whether an EXEC window of a job holds a range (R358). -/
def Job.runsAt (j : Job) (a n : Nat) : Bool := j.wins.any fun x => decide (x.1 ≤ a) && decide (a + n ≤ x.1 + winSize x.2) && bitAt x.2 62

/-- What stops an access of a KIND 0 chunk (R359): no window holds it, its translation or permission fails, or it reads poison.  No code of R315
names an access outside a window: the record has 4 for a write, 5 for a fetch and 0 for a read (log 64). -/
def State.marrowAccess (s : State) (marrow : Nat) (j : Job) (a : Acc) (va : DWord) (n : Nat) : Got Unit × State :=
  let inside := match a with
    | .write => j.holds true va.toNat n
    | .fetch => j.runsAt va.toNat n
    | _ => j.holds false va.toNat n
  if marrowLocal va ∧ va.toNat + n ≤ 2 ^ 64 ∧ a ≠ .fetch then (.ok (), s)
  else if !inside then (.bad 0x11 (if a = .write then 4 else if a = .fetch then 5 else 0) a.code va, s)
  else
    match s.xlateRanges (j.agent marrow) [(a, va, n)] with
    | (.wait, s) => (.wait, s)
    | (.bad cls code access va, s) => (.bad cls code access va, s)
    | (.ok m, s) => if a ≠ .write ∧ (s.poisonVa m [(va, n)]).isSome then (.bad 0x12 0 a.code va, s) else (.ok (), s)

/-- A byte written to the local memory of a Marrow core (R359). -/
def State.marrowStore (s : State) (marrow : Nat) (va : DWord) (b : Byte) : State :=
  let cl := s.cluster (marrow / 8)
  s.setCluster { cl with local_ := memSet cl.local_ (2 ^ 18 * (marrow % 8) + (va.toNat - localBase)) b }

/-- The writes of a KIND 0 chunk in order (R359, R360): one outside a WRITE window, or one that faults, aborts the chunk and
stops them.  Its own local memory takes any. -/
def kind0Writes (marrow k : Nat) (j : Job) : List (DWord × Byte) → State → Bool × State
  | [], s => (false, s)
  | (va, b) :: rest, s =>
    if marrowLocal va then kind0Writes marrow k j rest (s.marrowStore marrow va b)
    else if !j.holds true va.toNat 1 then (true, s.marrowRecord j marrow 0x11 4 1 va k)
    else
      match s.xlateRanges (j.agent marrow) [(.write, va, 1)] with
      | (.ok m, s) =>
        kind0Writes marrow k j rest ((s.writeVa (j.agent marrow) m va [b]).onCore j.core fun c => c.dropLines (linesVa m [(va, 1)]) false)
      | (.bad cls code access va, s) => (true, s.marrowRecord j marrow cls code access va k)
      | (_, s) => (true, s)

/-- A KIND 0 chunk that ends as supplied (R359, R360): aborted at its first fetch where ENTRY cannot be fetched; or with the writes it made, by its
return, by an exception, by an access that fails, or by a word of memory that is bad.  None while an access of it waits, or for an access that does
not fail. -/
def State.kind0Chunk (s : State) (marrow k : Nat) (j : Job) (e : ChunkEnd) : Option Bool × State :=
  let stop (cls code access : Nat) (va : DWord) (s : State) : Option Bool × State := (some true, s.marrowRecord j marrow cls code access va k)
  let writes (ws : List (DWord × Byte)) (f : Bool × State → Option Bool × State) : Option Bool × State :=
    let (may, s) := s.marrowMay (j.agent marrow) true ((ws.filter fun w => !marrowLocal w.1).map fun w => (w.1, 1))
    if may then f (kind0Writes marrow k j ws s) else (none, s)
  match s.marrowAccess marrow j .fetch j.entry 2 with
  | (.wait, s) => (none, s)
  | (.bad cls code access va, s) => stop cls code access va s
  | (.ok _, s) =>
    match e with
    | .returned a0 ws => writes ws fun x => (some (x.1 || a0 != 0), x.2)
    | .exception ws => writes ws fun x => (some true, x.2)
    | .badWord va => if marrowLocal va then (some true, s) else stop 0x12 0 0 va s
    | .access a va ws =>
      match s.marrowAccess marrow j (if a = 1 then .write else if a = 3 then .fetch else .read) va 1 with
      | (.bad cls code access va, _) => writes ws fun x => if x.1 then (some true, x.2) else stop cls code access va x.2
      | (_, s) => (none, s)

/-- The parameter block kept with a running KIND 1 job. -/
def Job.params (j : Job) : List Byte := j.rec_.drop (64 + 16 * fieldAt j.rec_ 1 1)

/-- One element of a fused update (R361): the new w, m and v. -/
def fusedElem (p : List Byte) (w m v g : Nat) : Nat × Nat × Nat :=
  let c (i : Nat) : Nat := parAt p (0x28 + 4 * i) 4
  let fma := f32.ffma .rne
  let mul := f32.fmul .rne
  let m2 := fma (c 1) m (mul (c 2) g)
  let v2 := fma (c 3) v (mul (c 4) (mul g g))
  let d := f32.fadd .rne (f32.rne (f32.read (mul v2 (c 6))).sqrt) (c 7)
  let u := fma (c 8) w (f32.fdiv .rne (mul m2 (c 5)) d)
  (fma (c 0 ^^^ 0x8000_0000) u w, m2, v2)

/-- The ranges of W, M, V and G of a chunk (R361). -/
def Job.arrays (j : Job) (k : Nat) : List (DWord × Nat) :=
  let p := j.params
  let n := min (parAt p 0x20 8) (1024 * k + 1024) - 1024 * k
  [0, 8, 0x10, 0x18].map fun o => (BitVec.ofNat 64 (parAt p o 8 + 4096 * k), 4 * n)

/-- The 64-byte group of a bad word is poisoned (R362). -/
def State.poisonGroup (s : State) (m : PageMap) (va : DWord) : State :=
  match pageFind m (va &&& ~~~63) with
  | some (pa, loc) => if loc = 0 then s.addPoison pa 64 else s
  | none => s

/-- A KIND 1 chunk (R361, R362): aborted with its arrays untouched, or committed whole; none while host bytes are missing or its accesses may
not be made. -/
def State.fusedChunk (s : State) (marrow k : Nat) (j : Job) (badWord : Option DWord) : Option Bool × State :=
  let ar := j.arrays k
  let wr := ar.take 3
  let g := j.agent marrow
  match s.xlateRanges g ((ar.map fun r => (Acc.read, r.1, r.2)) ++ wr.map fun r => (Acc.write, r.1, r.2)) with
  | (.wait, s) => (none, s)
  | (.bad cls code access va, s) => (some true, s.marrowRecord j marrow cls code access va k)
  | (.ok m, s) =>
    let (ready, s) := s.fetchHost g m ar
    if !ready || !s.mayServeVa g .row m ar || !s.mayServeVa g .write m wr then (none, (s.askVa g .row m ar).askVa g .write m wr)
    else
      let bad := match badWord with
        | some va => if ar.any fun r => decide (r.1.toNat ≤ va.toNat) && decide (va.toNat < r.1.toNat + r.2) then some va else none
        | none => none
      match bad.or (s.poisonVa m ar) with
      | some va => (some true, (s.poisonGroup m va).marrowRecord j marrow 0x12 0 0 va k)
      | none =>
        if badWord.isSome then (some true, s)
        else
          let rd (i e : Nat) : Nat := natOf (s.readVa j.cmd m ((ar.getD i (0, 0)).1 + BitVec.ofNat 64 (4 * e)) 4)
          let outs := (List.range ((ar.getD 0 (0, 0)).2 / 4)).map fun e => fusedElem j.params (rd 0 e) (rd 1 e) (rd 2 e) (rd 3 e)
          let put (s : State) (i : Nat) (f : Nat × Nat × Nat → Nat) : State :=
            s.writeVa g m (ar.getD i (0, 0)).1 (outs.flatMap fun o => bytesOf 4 (f o))
          let s := put (put (put s 0 (·.1)) 1 (·.2.1)) 2 (·.2.2)
          (some false, s.onCore j.core fun c => c.dropLines (linesVa m wr) false)

/-- A chunk ends (R357, R363): the last one completes the job. -/
def State.chunkEnded (s : State) (n core k : Nat) (aborted : Bool) : State :=
  let cl := s.cluster n
  match cl.fifo with
  | [] => s
  | j :: rest =>
    let j := { j with ended := j.ended + 1, bad := if aborted then j.bad ++ [k] else j.bad }
    let s := s.setCluster { cl with chunks := cl.chunks.filter (fun c => c.1 != core), fifo := j :: rest }
    if j.ended = j.nchunk then s.jobDone n j else s

/-- An abort that a soft error of the core's own memory causes: the third within 2^20 clocks fences the core (R352). -/
def State.marrowSoft (s : State) (n core : Nat) : State :=
  let cl := s.cluster n
  let mine := ((core, s.clock) :: cl.aborts).filter fun a => decide (s.clock < a.2 + 2 ^ 20)
  let s := s.setCluster { cl with aborts := mine }
  if 3 ≤ (mine.filter fun a => a.1 == core).length then { s with fencedMarrow := s.fencedMarrow ||| 1#64 <<< (8 * n + core) } else s

/-- MARROW_CHUNK_END (R9, R360, R362): the chunk of a Marrow core ends as supplied, or as its fused update comes out, in a clock in which its
accesses may be made. -/
def execMarrowChunkEnd (marrow : Nat) (e : ChunkEnd) (s : State) : Res :=
  let n := marrow / 8
  let core := marrow % 8
  let cl := s.cluster n
  match cl.fifo.head?, cl.chunks.find? fun c => c.1 == core with
  | some j, some (_, k) =>
    let soft := match e with
      | .badWord va => marrowLocal va
      | _ => false
    let r : Option Bool × State :=
      if j.kind = 1 then
        s.fusedChunk marrow k j (match e with
          | .badWord va => some va
          | _ => none)
      else s.kind0Chunk marrow k j e
    match r with
    | (some aborted, s) => .next ((if soft then (s.hostForget j.cmd).marrowSoft n core else s.hostForget j.cmd).chunkEnded n core k aborted)
    | (none, s) => .next s
  | _, _ => .next s

end Sys2Proof.Machine
end

