-- ==== Sys2Proof/Machine/Commands.lean ====
section
/-! DEFINITION. The events of the channels (R93, R105, R230-R241, R245): a command at the head, its sequence word, its turns of delivery and its completion. -/

namespace Sys2Proof.Machine

/-- Whether a context is being pre-empted (R328). -/
def State.preempting (s : State) (ctx : Nat) : Bool :=
  match (s.vf (vfOf ctx)).preempt with
  | some p => p.ctx == ctx
  | none => false

/-- The cores that hold teams of a context (R326). -/
def State.coresOf (s : State) (ctx : Nat) : List Nat := ((s.teams.filter fun t => t.ctx == ctx).map (·.core)).eraseDups

/-- Whether every core of a context that is being pre-empted has halted (R328, R330). -/
def State.allHalted (s : State) (ctx : Nat) : Bool := s.preempting ctx && (s.coresOf ctx).all fun c => (s.core c).halted

/-- Whether a channel is paused on a fault of a command that has delivered: its later commands wait (R238, R320). -/
def Chan.ackPaused (ch : Chan) : Bool := ch.acking.any fun c => c.paused.isSome

/-- Records that a command names (R234). -/
def recordsOf (op : Nat) : Nat := if op = 0x2C2 ∨ op = 0x2C3 then 3 else 2

/-- Whether the release of a command's issue is still outstanding (R104, R235). -/
def State.relWaits (s : State) (c : Command) : Bool := (s.core c.core).ops.any fun o => o.id == c.relId

/-- A command that has its records: rejected, or started (R230, R236); an ordered `cp.red` first holds for its sequence word. -/
def State.startCopy (s : State) (k : ChanKey) (c : Command) : State :=
  if s.rejects k c then s.finishCmd k c true
  else (s.hostForget c.id).setCmd k { c with phase := if c.ordered then 1 else 2, pollAt := 0 }

/-- COMMAND_HEAD (R236, R240, R241): the first command of a queue reads its records and starts.  It waits for its own
release, and none starts while its context is being pre-empted. -/
def execCommandHead (k : ChanKey) (s : State) : Res :=
  match (s.chan k).queue with
  | [] => .next s
  | c :: _ =>
    if c.paused.isSome || (s.chan k).ackPaused || s.relWaits c then .next s
    else if c.phase = 1 ∧ c.op = 0x2C3 then .next (s.agreeColl k c)
    else if c.phase ≠ 0 ∨ s.preempting c.ctx then .next s
    else if c.op = 0x2C4 then s.startFur k c
    else
      let n := recordsOf c.op
      match s.engReadAll k c c.shp (64 * n) with
      | (.bad a b d va, s) => .next (s.pauseChan k c a b d va)
      | (.wait, s) => .next s
      | (.ok r, s) =>
        let c := { c with recs := (List.range n).map fun i => (r.drop (64 * i)).take 64 }
        if c.op = 0x2C3 then (s.setCmd k c).startColl k c else .next (s.startCopy k c)

/-- SEQUENCE_WORD_READ (R238): a read of the sequence word returns; the command starts when it finds its number. -/
def execSequenceWordRead (k : ChanKey) (s : State) : Res :=
  match (s.chan k).queue with
  | [] => .next s
  | c :: _ =>
    if c.phase ≠ 1 ∨ !c.ordered ∨ c.pollAt ≠ 0 ∨ c.paused.isSome then .next s
    else
      match s.engRead k c false (recSeq (c.record 1)) 8 with
      | (.bad a b d va, s) => .next (s.pauseChan k c a b d va)
      | (.wait, s) => .next s
      | (.ok bs, s) =>
        if natOf bs = (c.crd.getD 8 0).toNat then .next ((s.hostForget c.id).setCmd k { c with phase := 2 })
        else .next ((s.hostForget c.id).setCmd k { c with pollAt := s.clock + 64 })

/-- SEQUENCE_WORD_POLL (R238): 64 clocks after a read that did not match, the word is read again. -/
def execSequenceWordPoll (k : ChanKey) (s : State) : Res :=
  match (s.chan k).queue with
  | [] => .next s
  | c :: _ =>
    if c.phase = 1 ∧ c.ordered ∧ c.pollAt ≠ 0 ∧ c.pollAt ≤ s.clock ∧ c.paused.isNone then .next (s.setCmd k { c with pollAt := 0 })
    else .next s

/-- The number of an arbitration port for the turns of R93: a core's engine port, or a die's. -/
def portOfChan (k : ChanKey) : Nat :=
  match k with
  | .core c _ _ => c
  | .bulk d _ _ => 1000 + d

/-- Whether the first command of a channel may take a turn of delivery (R93, R105, R320): it has started, and neither a fault, nor the host, nor
the writes of the command before it hold it. -/
def State.mayDeliver (s : State) (ch : Chan) : Bool :=
  match ch.queue with
  | [] => false
  | c :: _ => c.phase == 2 && c.paused.isNone && !c.pausing && !ch.ackPaused && !s.hostBusy c.id && ch.acking.all fun x => x.unacked == 0

/-- The state as a channel's turn begins (R92, R93): the bytes of its last turn are acknowledged, and its port's next turn is another channel's. -/
def State.turnState (s : State) (k : ChanKey) (c : Command) : State :=
  let s := s.onChan k fun ch => { ch with fill := ch.fill + BitVec.ofNat 64 c.unacked }
  { s.setCmd k { c with unacked := 0 } with turns := setAssoc (portOfChan k) k s.turns }

/-- DELIVERY_TURN (R92, R93, R245): one turn of the command that has started.  A pre-empted channel stops at a 4 KiB
boundary of its delivery stream once the cores of its context have halted. -/
def execDeliveryTurn (k : ChanKey) (s : State) : Res :=
  let ch := s.chan k
  match ch.queue with
  | [] => .next s
  | c :: _ =>
    if !s.mayDeliver ch then .next s
    else
      let s := s.turnState k c
      let c := { c with unacked := 0 }
      let stop := s.allHalted c.ctx
      if stop ∧ (s.chan k).fill.toNat % 4096 = 0 then .next ((s.hostForget c.id).setCmd k { c with pausing := true })
      else if c.op = 0x2C3 then
        if s.peerFailed c then .next (s.failColl k c)
        else s.turn k c c.outPositions stop (fun s c p d => s.collProduce k c p d) collDest
      else
        let s := s.readAhead k c
        if s.hostBusy c.id then .next s else s.turn k c c.positions stop (fun s c p d => s.produce k c p d) Command.dest

/-- The increment of the sequence word after an ordered `cp.red` (R238): done, or a fault that pauses the channel. -/
def State.bumpSequence (s : State) (k : ChanKey) (c : Command) : Res :=
  let va := recSeq (c.record 1)
  let g := c.agent k
  match s.xlateUnit g (.atomic true) va with
  | (.bad cls code, s) => .next (s.pauseChan k c cls code 2 va)
  | (.miss, s) => .next s
  | (.ok pa loc _, s) =>
    if loc = 0 then
      if !s.mayServe g .rmw pa then .next (s.ask g .rmw pa)
      else if s.readsPoison pa 8 then .next (s.pauseChan k c 0x12 0 2 va)
      else .next ((s.writeRun k c ⟨false, 0, va, pa, bytesOf 8 (s.num pa 8 + 1)⟩).finishCmd k c false)
    else if c.pollAt = 1 then .next (s.finishCmd k c false)
    else
      let s := s.agentHost (c.agent k) va fun id => .hostAtomic id (vfOf c.ctx) pa 0 (bytesOf 8 1) []
      .next (s.setCmd k { c with pollAt := 1 })

/-- A delivered command completes once its writes have been acknowledged (R105, R231, R238, R363). -/
def State.completeCmd (s : State) (k : ChanKey) (c : Command) : Res :=
  if c.phase ≠ 3 ∨ c.paused.isSome ∨ s.hostBusy c.id then .next s
  else
    let s := s.onChan k fun ch => { ch with fill := ch.fill + BitVec.ofNat 64 c.unacked }
    let s := s.setCmd k { c with unacked := 0 }
    let c := { c with unacked := 0 }
    if c.ordered ∧ !c.failed then s.bumpSequence k c
    else .next ((if c.op = 0x2C3 then s.dropRanks c else s).finishCmd k c c.failed)

/-- The signals of a timeline whose releases have completed (R104, R244): a value that no command holds and no release waits for. -/
def State.completeSigs (s : State) (core team k : Nat) : State :=
  match s.team? core team with
  | none => s
  | some tm =>
    let held (v : Nat) : Bool :=
      (s.chans.any fun ch => (ch.queue ++ ch.acking).any fun c => c.core == core && c.team == team && c.tl == k && c.val == v)
        || (s.grids.any fun g => g.compl == .team core team k v)
        || (s.core core).ops.any fun o => o.kind == .engine && o.team == team && o.md == k && o.size == v
    let open_ := (tm.tl k).pending.filter fun c => !c.done && !held c.val
    open_.foldl (fun s c => s.onTimeline core team k fun t => t.finish c.val false) s

/-- The commands of a timeline that have delivered, with their channels. -/
def State.deliveredOf (s : State) (core team tl : Nat) : List (ChanKey × Command) :=
  s.chans.flatMap fun ch => (ch.acking.filter fun c => c.core == core && c.team == team && c.tl == tl).map fun c => (ch.key, c)

/-- Commands completed one by one. -/
def completeAll : List (ChanKey × Command) → State → Res
  | [], s => .next s
  | (k, c) :: rest, s =>
    match s.completeCmd k c with
    | .next s => completeAll rest s
    | r => r

/-- COMMAND_COMPLETE (R105, R231): the delivered commands of a timeline whose effects are acknowledged complete, and so do its
signals; the timeline moves on in order of value. -/
def execCommandComplete (core team tl : Nat) (s : State) : Res :=
  match completeAll (s.deliveredOf core team tl) s with
  | .next s => .next (s.completeSigs core team tl)
  | r => r

end Sys2Proof.Machine
end

