-- ==== Sys2Proof/Machine/Function.lean ====
section
/-! DEFINITION. Function registers and their application (R175-R193). -/

namespace Sys2Proof.Machine

/-- An f32 pattern of a descriptor. -/
def fnWord (d : List Byte) (off : Nat) : Nat := fieldAt d off 4
/-- A byte of a descriptor. -/
def fnByte (d : List Byte) (off : Nat) : Nat := (d.getD off 0).toNat
/-- Profile G2 (R176). -/
def fnG2 (d : List Byte) : Bool := (fnByte d 3).testBit 1
/-- DERIV (R176). -/
def fnDeriv (d : List Byte) : Bool := (fnByte d 3).testBit 0
/-- Breakpoint `j`. -/
def fnBreak (d : List Byte) (j : Nat) : Nat := fnWord d (0x40 + 32 * j)
/-- Coefficient `c`k of segment `j`; 4 to 6 are d0 to d2. -/
def fnCoef (d : List Byte) (j k : Nat) : Nat := fnWord d (0x44 + 32 * j + 4 * k)

/-- An input of a step: under G2 a subnormal reads as zero of its sign (R184). -/
def fnIn (g2 : Bool) (x : Nat) : FVal := f32.read (if g2 then flush32 x else x)
/-- The result of a step: one rounding, and under G2 a subnormal is written as zero of its sign (R179, R184, R392). -/
def fnOut (g2 : Bool) (v : FVal) : Nat := let x := f32.rne v; if g2 then flush32 x else x
/-- A product step. -/
def fnMul (g2 : Bool) (a b : Nat) : Nat := fnOut g2 ((fnIn g2 a).mul (fnIn g2 b))
/-- A multiply-add step: fused, or under G2 a multiply and an add (R182, R184). -/
def fnFma (g2 : Bool) (a b c : Nat) : Nat :=
  if g2 then fnOut true ((fnIn true (fnMul true a b)).add false (fnIn true c))
  else f32.rne (((f32.read a).mul (f32.read b)).add false (f32.read c))
/-- The canonical f32 NaN. -/
def nan32 : Nat := f32.canonNan
/-- An exact power of two. -/
def twoTo (k : Int) : FVal := .fin false 1 k

/-- Poly (R182): value and derivative of segment `j` at `v`. -/
def fnPoly (d : List Byte) (j : Nat) (v : FVal) : Nat × Nat :=
  let g := fnG2 d
  let u := fnOut g (v.add false (fnIn g (fnBreak d j)).neg)
  let y := fnFma g (fnFma g (fnFma g (fnCoef d j 3) u (fnCoef d j 2)) u (fnCoef d j 1)) u (fnCoef d j 0)
  let dy := fnFma g (fnFma g (fnCoef d j 6) u (fnCoef d j 5)) u (fnCoef d j 4)
  (y, dy)

/-- a ≤ b. -/
def FVal.le (a b : FVal) : Bool :=
  match a.cmp b with
  | some .gt | none => false
  | _ => true

/-- The segment of a value from LO to HI (R182), whose inputs a G2 generation reads as R184 says. -/
def fnSegment (d : List Byte) (v : FVal) : Nat :=
  let g := fnG2 d
  let nseg := fnByte d 0
  let js := (List.range nseg).filter fun j => (fnIn g (fnBreak d j)).le v
  let j := js.getLast?.getD 0
  let j := if v.cmp (fnIn g (fnBreak d j)) = some .eq ∧ 1 ≤ j ∧ (fnWord d 8).testBit j then j - 1 else j
  if v.cmp (fnIn g (fnWord d 0x1C)) = some .eq then nseg - 1 else j

/-- Piece (R182). -/
def fnPiece (d : List Byte) (v : FVal) : Nat × Nat :=
  let g := fnG2 d
  let nseg := fnByte d 0
  let lo := fnIn g (fnWord d 0x18)
  let hi := fnIn g (fnWord d 0x1C)
  let out (rule kw end_ : Nat) (at_ : FVal) : Nat × Nat :=
    if rule = 2 then (fnWord d kw, 0)
    else if rule = 3 then (nan32, nan32)
    else if rule = 0 then ((fnPoly d (fnSegment d at_) at_).1, 0)
    else fnPoly d end_ v
  if v.lt lo then out (fnByte d 4) 0x20 0 lo
  else if hi.lt v then out (fnByte d 5) 0x24 (nseg - 1) hi
  else fnPoly d (fnSegment d v) v

/-- The integer below or at a finite value. -/
def floorInt (s : Bool) (m : Nat) (e : Int) : Int :=
  let x : Int := if s then -(m : Int) else m
  if 0 ≤ e then x * (2 ^ e.toNat : Nat) else x / (2 ^ (-e).toNat : Nat)

/-- Special (R181): the pair that bypasses reduction and evaluation, as f32 patterns. -/
def fnSpecial (red : Nat) (t : FVal) : Option (Nat × Nat) :=
  let pinf := f32.infBits false
  let ninf := f32.infBits true
  let nz := f32.signed true 0
  match t with
  | .nan => none
  | .inf s =>
    if red = 1 then some (if s then (0, 0) else (pinf, pinf))
    else if red = 2 then some (if s then (nan32, nan32) else (pinf, 0))
    else if red = 3 then some (if s then (nz, nz) else (0, nz))
    else if red = 4 then some (if s then (nan32, nan32) else (0, nz))
    else none
  | .fin s m _ =>
    if red = 2 then (if m = 0 then some (ninf, pinf) else if s then some (nan32, nan32) else none)
    else if red = 3 then (if m = 0 then some (if s then ninf else pinf, ninf) else none)
    else if red = 4 then (if m = 0 then some (if s then ninf else pinf, ninf) else if s then some (nan32, nan32) else none)
    else none

/-- Clamp an exponent beyond which every f32 result is a zero or an infinity already. -/
def clampExp (k : Int) : Int := satN k (-600) 600

/-- Reduce (R180) and Undo: the reduced variable, the exact factor or addend that undoes it, and Rfac. -/
def fnReduce (red : Nat) (t : FVal) : FVal × (Nat → FVal) × FVal :=
  match t with
  | .fin s m e =>
    if red = 1 then
      let k := floorInt s m e
      let v := t.add false (FVal.ofInt k).neg
      (v, fun y => (f32.read y).mul (twoTo (clampExp k)), twoTo (clampExp k))
    else if red = 2 then
      let ex := e + Nat.log2 m
      (.fin false m (-(Nat.log2 m : Int)), fun y => (f32.read y).add false (FVal.ofInt ex), twoTo (-ex))
    else if red = 3 then
      let ex := e + Nat.log2 m
      (.fin false m (-(Nat.log2 m : Int)), fun y => (f32.read y).mul (.fin s 1 (-ex)), twoTo (-2 * ex))
    else if red = 4 then
      let top := e + Nat.log2 m
      let ex := top / 2
      (.fin false m (e - 2 * ex), fun y => (f32.read y).mul (twoTo (-ex)), twoTo (-3 * ex))
    else (t, f32.read, twoTo 0)
  | _ => (t, f32.read, twoTo 0)

/-- Stage (R179) on an f32 pattern: value and derivative. -/
def fnStage (d : List Byte) (x : Nat) : Nat × Nat :=
  let g := fnG2 d
  if (f32.read x).isNan then (if (fnByte d 3).testBit 2 then (fnWord d 0x28, 0) else (nan32, nan32))
  else
    let red := fnByte d 1
    let sym := fnByte d 2
    let p := fnWord d 0x10
    let q := fnWord d 0x14
    let t := fnMul g p x
    if (f32.read t).isNan then (nan32, nan32)
    else
      let neg := if sym = 1 then t.testBit 31 else if sym = 2 then (f32.read t).lt (.fin false 0 0) else false
      let tv := if sym = 0 then f32.read t else (f32.read t).abs
      let (y, dy) :=
        match fnSpecial red tv with
        | some r => r
        | none =>
          let (v, undo, rfac) := fnReduce red tv
          let (yp, dp) := fnPiece d v
          (if red = 0 then yp else fnOut g (undo (if g then flush32 yp else yp)), fnOut g ((fnIn g dp).mul rfac))
      let y := fnMul g y q
      let dy := fnMul g (fnMul g dy q) p
      let y := if neg then
          (if sym = 1 then f32.rne (f32.read y).neg else fnOut g ((fnIn g (fnWord d 0x0C)).add false (fnIn g y).neg))
        else y
      (y, dy)

/-- An apply (R179, R183): both stages, with every derivative a NaN when a stage carries none. -/
def fnApply (d : List Byte) (second : Option (List Byte)) (x : Nat) : Nat × Nat :=
  let (y, dy) := fnStage d x
  match second with
  | none => (y, if fnDeriv d then dy else nan32)
  | some h =>
    let (y2, dy2) := fnStage h y
    let dd := f32.rne ((f32.read dy2).mul (f32.read dy))
    (y2, if fnDeriv d && fnDeriv h then dd else nan32)

/-- An f32 result rounded to MOD; at f32 the pattern is delivered as it is, KN included (R179). -/
def fnFinal (md y : Nat) : Nat := if md = 8 then y else (floatOf md).rne (f32.read y)

/-- Every byte of a list from an offset on is zero. -/
def zerosAt (d : List Byte) (off n : Nat) : Bool := ((d.drop off).take n).all fun b => b == 0

/-- Whether an f32 pattern is finite. -/
def finite32 (x : Nat) : Bool := bitsNat x 23 8 != 255

/-- The check of a descriptor (R177): 0 when valid, else the first failing code. -/
def fnCheck (reg : Nat) (d : List Byte) : Nat :=
  let n := fnByte d 0
  let rd (off : Nat) : FVal := f32.read (fnWord d off)
  let chain := fnByte d 6
  let lo := rd 0x18
  let hi := rd 0x1C
  let one : FVal := .fin false 1 0
  let zero : FVal := .fin false 0 0
  let c1 := 1 ≤ n && n ≤ 32 && fnByte d 1 ≤ 4 && fnByte d 2 ≤ 2 && fnByte d 4 ≤ 3 && fnByte d 5 ≤ 3
    && (chain == 0xFF || (chain ≤ 15 && chain != reg)) && fnByte d 3 < 8 && fnByte d 7 == 0 && zerosAt d 0x2C 20
  let bs := (List.range n).map fun j => f32.read (fnBreak d j)
  let own := fnWord d 8
  let c2 := ((bs.head?.map fun b => b.cmp lo == some .eq).getD false)
    && ((List.range (n - 1)).all fun j => (bs.getD j .nan).lt (bs.getD (j + 1) .nan)) && (bs.getLast?.getD .nan).lt hi
    && !own.testBit 0 && own / 2 ^ n == 0
  let red := fnByte d 1
  let c3 := lo.lt hi && (if red = 1 then zero.le lo && hi.le one
    else if red = 2 ∨ red = 3 then one.le lo && hi.le (.fin false 2 0)
    else if red = 4 then one.le lo && hi.le (.fin false 4 0) else true)
  let c4 := ([0x0C, 0x10, 0x14, 0x18, 0x1C, 0x20, 0x24].all fun o => finite32 (fnWord d o))
    && (List.range n).all fun j => finite32 (fnBreak d j) && ((List.range 4).all fun k => finite32 (fnCoef d j k))
      && (!fnDeriv d || (List.range 3).all fun k => finite32 (fnCoef d j (4 + k)))
  if !c1 then 1 else if !c2 then 2 else if !c3 then 3 else if !c4 then 4 else 0

/-- The active copy of a register. -/
def FnReg.cur (r : FnReg) : FnCopy := if r.active then r.copy1 else r.copy0
/-- The inactive copy of a register. -/
def FnReg.old (r : FnReg) : FnCopy := if r.active then r.copy0 else r.copy1
/-- A function register of a core. -/
def Core.fn (c : Core) (k : Nat) : FnReg := c.fns.getD k .empty
/-- Whether an operation pins a generation of a register (R186). -/
def Core.pinned (c : Core) (k : Nat) (gen : BitVec 32) : Bool :=
  gen != 0 && c.ops.any fun o => o.pins.contains (k, gen.toNat)

/-- A descriptor written to the inactive copy and made active as the next generation (R185 steps 3 and 4). -/
def FnReg.switch (r : FnReg) (k : Nat) (d : List Byte) : FnReg :=
  let code := fnCheck k d
  let gen : BitVec 32 := if r.cur.gen = 0xFFFFFFFF then 1 else r.cur.gen + 1
  let c : FnCopy := ⟨d, gen, code, code == 0⟩
  if r.active then { r with copy0 := c, active := false } else { r with copy1 := c, active := true }

/-- Bytes of a descriptor, from its NSEG byte (R185). -/
def fnSize (nseg : Nat) : Nat := 64 + 32 * min nseg 32

/-- The register a function word names, X[35:32] (R178). -/
abbrev fnReg (x : BitVec 7) : Nat := x.toNat % 16

/-- Why an apply is fn-invalid (R183, R190): `tval`. -/
def fnInvalid (s : State) (is : Issue) (k : Nat) : Option DWord :=
  let c := s.core is.cur.core
  let g := (c.fn k).cur
  let bad (n : Nat) : Option DWord := some (BitVec.ofNat 64 n)
  if !g.valid then bad k
  else
    let ch := fnByte g.image 6
    if ch = 0xFF then none
    else
      let h := (c.fn ch).cur
      if !h.valid || fnByte h.image 6 != 0xFF then bad ch else none

/-- The generations an apply pins, and its stages (R183, R186). -/
def fnPins (s : State) (is : Issue) (k : Nat) : List (Nat × Nat) × List Byte × Option (List Byte) :=
  let c := s.core is.cur.core
  let g := (c.fn k).cur
  let ch := fnByte g.image 6
  if ch = 0xFF then ([(k, g.gen.toNat)], g.image, none)
  else
    let h := (c.fn ch).cur
    ([(k, g.gen.toNat), (ch, h.gen.toNat)], g.image, some h.image)

/-- An apply (R179): `out` picks what is delivered; `dbl` doubles the function unit's occupancy (R193). -/
def fnMeaning (f : RWord) (n : Nat) (dbl : Nat) (out : Nat × Nat → List Nat) : Meaning :=
  let k := fnReg f.x
  let md := f.md.toNat
  { xl := fun _ _ _ => []
    traps := fun s is _ => (fnInvalid s is k).map fun v => (6, v)
    parks := fun _ _ _ => none
    run := fun s is go =>
      let (pins, g, h) := fnPins s is k
      let stages := if h.isSome then 2 else 1
      let s := s.onPart is.cur.core is.cur.part fun q => { q with funBusy := s.clock + dbl * stages * (is.team.packW / 8) }
      let flag := flagOf is.hdr f.fs
      let (word, s) := s.newId
      go.foldl (fun s t =>
        let x := f32.rne ((floatOf md).read (is.flt t md f.a))
        let x := if md = 8 then is.flt t md f.a else x
        let ws := (out (fnApply g h x)).map fun y => BitVec.ofNat 32 (fnFinal md y)
        flagOne is flag word f.d n pins s t (regs ws)) s }

/-- FAPP (R179). -/
def execFapp (f : RWord) (s : State) : Res := runWord (.fapp f) (fnMeaning f 1 1 fun p => [p.1]) s
/-- FAPPD (R179). -/
def execFappd (f : RWord) (s : State) : Res := runWord (.fappd f) (fnMeaning f 1 1 fun p => [p.2]) s
/-- FAPP2 (R179). -/
def execFapp2 (f : RWord) (s : State) : Res := runWord (.fapp2 f) (fnMeaning f 2 2 fun p => [p.1, p.2]) s

/-- The addresses at which the header of a descriptor is translated: its first byte in each page. -/
def fnPages (va : DWord) : List DWord :=
  let last := va + 63
  if last >>> 12 = va >>> 12 then [va] else [va, last &&& ~~~0xFFF#64]

/-- The address of an `fnld` (R185): that of the guard-holding thread of lowest `tid`, of those that no pending handle parks. -/
def fnldAddr (f : RWord) (s : State) (is : Issue) : DWord :=
  match is.act.find? fun t => (pendingRead s is (.fnld f) t).isNone with
  | some t => is.pair t f.a
  | none => 0

/-- FNLD (R185): once for the pack; a fault on its descriptor parks every guard-holding thread.  The header is translated here, and the whole
descriptor when it is read. -/
def execFnld (f : RWord) (s : State) : Res :=
  let k := fnReg f.x
  runWord (.fnld f)
    { xl := fun s is _ => (fnPages (fnldAddr f s is)).map fun a => (.read, a)
      traps := fun _ _ _ => none
      parks := fun s is _ =>
        let faults := ((s.part is.cur.core is.cur.part).stream is.cur.stream).faults
        firstSome ((fnPages (fnldAddr f s is)).map fun a =>
          match s.xlateCore is.cur.core is.team.ctx faults .read a with
          | .bad cls code => some (.fault cls code 0 a)
          | _ => none)
      run := fun s is go =>
        let flag := flagOf is.hdr f.fs
        let addr := fnldAddr f s is
        let s := go.foldl (fun s t => s.raiseFlag is t flag) s
        let (id, s) := s.newId
        s.onCore is.cur.core fun c => { c with loads := c.loads ++
          [⟨id, k, is.team.ctx, addr, [], is.cur.part, go.map (·.slot), flag, none, none, none, sameTarget is.cur, trapHere is.cur⟩] } } s

/-- FNSYNC (R188): the flag clears at FNSYNC_CLEAR. -/
def execFnsync (f : RWord) (s : State) : Res :=
  runWord (.fnsync f) (plain fun s is go =>
    let flag := flagOf is.hdr f.fs
    let (word, s) := s.newId
    go.foldl (fun s t => (s.raiseFlag is t flag).newOp is word t (.fnsync (fnReg f.x)) .queued fun o => { o with flag := some flag }) s) s

/-- The status word of a function register (R189). -/
def fnStatus (c : Core) (k : Nat) : Nat :=
  let r := c.fn k
  let g := r.cur
  let b (x : Bool) (n : Nat) : Nat := if x then 2 ^ n else 0
  b g.valid 31 + b (g.gen != 0 && fnDeriv g.image) 30 + b (g.gen != 0 && fnG2 g.image) 29
    + b (c.loads.any fun l => l.reg == k) 28 + b (c.pinned k r.old.gen) 27
    + 2 ^ 24 * (if g.valid || g.gen == 0 then 0 else g.code % 8) + g.gen.toNat % 2 ^ 24

/-- FNQ (R189). -/
def execFnq (f : RWord) (s : State) : Res :=
  runWord (.fnq f) (plain (fixRun f.d 1 fun s is _ => regs [BitVec.ofNat 32 (fnStatus (s.core is.cur.core) (fnReg f.x))])) s

/-- FNSYNC_CLEAR (R188). -/
def execFnsyncClear (core id : Nat) (s : State) : Res :=
  let c := s.core core
  match c.ops.find? fun o => o.id == id with
  | some o =>
    match o.kind, o.flag with
    | .fnsync k, some n =>
      if (c.loads.any fun l => l.reg == k && decide (l.id < id)) || c.pinned k (c.fn k).old.gen then .next s
      else .next ((s.onCore core fun c => { c with ops := c.ops.filter fun x => x.id != id }).flagClears core o.part o.slot n)
    | _, _ => .next s
  | none => .next s

end Sys2Proof.Machine
end

