-- ==== Sys2Proof/Machine/Launch.lean ====
section
/-! DEFINITION. Launch packets and grids (R12, R13, R47, R73, R134, R259, R300-R306, R341, R380): the checks of a packet, reading what it names, and creating and ending a grid. -/

namespace Sys2Proof.Machine

/-- Whether every byte of a field is zero. -/
def zeroField (p : List Byte) (off n : Nat) : Bool := fieldAt p off n == 0

/-- The 32-byte units of a core's unified store that a team needs beyond L1's share, in bytes (R49, R306). -/
def storeNeed (frame scratch : Nat) : Nat := 16384 * ceilDiv scratch 16384 + 8192 * frame + 262144

/-- Whether a format slot of a packet is faulty (R73). -/
def badSlot (v : Nat) : Bool := v.testBit 15 || fmtReserved (v % 16) || (isTwin (v % 16) && v / 16 % 16 == 0)

/-- Whether a packet's SRC value is one that R303 leaves unassigned. -/
def badSrc (n : Nat) : Bool := 0x40 ≤ n && !(0x80 ≤ n && n ≤ 0x87)

/-- The dependences that a packet uses. -/
def pktDeps (p : List Byte) : List (Nat × Nat) := (List.range (min 4 (pktNdep p))).map (pktDep p)

/-- Whether an unfenced core is assigned to a virtual function (R308, R346). -/
def State.coreFree (s : State) (vf core : Nat) : Bool :=
  decide (core < 160) && bitAt (s.vf vf).vcore core && !bitAt s.fencedCores core

/-- The first code of R306 that a packet's own bytes show beside the kernel table entry that it names, and 0 for a packet that passes; `host` is
a packet of a launch queue (R134, R306, R380). -/
def State.packetCode (s : State) (ctx : Nat) (host : Bool) (e : Option (List Byte × Nat)) (p : List Byte) : Nat :=
  let vf := vfOf ctx
  let g := (List.range 3).map (pktG p)
  let d := (List.range 3).map (pktD p)
  let deps := pktDeps p
  let compl := pktCompl p
  let f := pktFrame p
  let cores := (List.range 160).filter fun c => bitAt (s.vf vf).vcore c
  if pktMode p / 64 ≠ 0 ∨ pktMode p % 4 = 3 ∨ 5 < pktSgLog p ∨ !zeroField p 0x1F 1 ∨ !zeroField p 0x3C 4 ∨ !zeroField p 0x70 16
      ∨ (deps.any fun x => badSrc x.1) ∨ (!host ∧ compl ≠ 0 ∧ (compl < 0x80 ∨ 0x87 < compl)) then 1
  else if e.isNone then 2
  else if (g.contains 0) ∨ (d.contains 0) ∨ 2048 < pktSize p ∨ 2 ^ 32 - 1 < pktTeams p then 3
  else if f < 16 ∨ 128 < f ∨ f % 8 ≠ 0 ∨ f < ((e.map fun x => fieldAt x.1 0x1C 1).getD 0) then 4
  else if 2097152 < storeNeed f (pktScratch p) then 5
  else if 1024 < pktArgSize p then 6
  else if (List.range 8).any fun k => badSlot (pktFs p k) then 7
  else if 16 < pktNpre p ∨ (pktNpre p ≠ 0 ∧ pktPrePtr p % 16 ≠ 0) then 8
  else if pktSpillStride p % 64 ≠ 0 ∨ pktSpillBase p % 8 ≠ 0 ∨ !canonical (BitVec.ofNat 64 (pktSpillBase p)) then 9
  else if 4 < pktNdep p ∨ (deps.any fun x => decide (x.1 < 0x40) && (s.queue x.1).ctx != ctx)
      ∨ (host ∧ (deps.any fun x => decide (0x80 ≤ x.1))) ∨ (host ∧ compl ≠ 0) ∨ (host ∧ !(s.ctx ctx).valid) then 10
  else if (pktPair p ∧ !((List.range 80).any fun k => s.coreFree vf (2 * k) && s.coreFree vf (2 * k + 1)))
      ∨ (cores.all fun c => bitAt s.fencedCores c) then 12
  else 0

/-- A context's registers taken from its descriptor (R288, R289, R380). -/
def Ctx.load (c : Ctx) (d : List Byte) : Ctx :=
  let w (off : Nat) : DWord := BitVec.ofNat 64 (fieldAt d off 8)
  let c := (((c.writeCtl 1 (w 8)).writeCtl 2 (w 0x10)).writeCtl 3 (w 0x18)).writeCtl 5 (w 0x20)
  { c with ptbase := w 0, fnsave := w 0x28, cnsdir := w 0x30, ktbase := w 0x38, ktsize := fieldAt d 0x40 4
           valid := (fieldAt d 0x44 4).testBit 0, lost := false }

/-- The physical address of a context's descriptor (R380). -/
def State.descriptorAt (s : State) (ctx : Nat) : Nat := (s.vf (vfOf ctx)).ctxbase.toNat + 128 * (ctx % 256)

/-- The state with a context's descriptor read again (R380). -/
def State.readDescriptor (s : State) (ctx : Nat) : State :=
  s.onCtx ctx fun c => c.load (s.bytes (s.descriptorAt ctx) 128)

/-- Whether a context has an accepted grid (R380). -/
def State.active (s : State) (ctx : Nat) : Bool := s.grids.any fun g => g.ctx == ctx && g.accepted && !g.finished

/-- `n` bytes that a dispatcher reads (R94, R95, R307, R320): as from a core of its die. -/
def State.dispRead (s : State) (g : Agent) (va : DWord) (n : Nat) : Got (List Byte) × State :=
  match s.xlateRanges g [(.read, va, n)] with
  | (.bad cls code access v, s) => (.bad cls code access v, s)
  | (.wait, s) => (.wait, s)
  | (.ok m, s) =>
    if !s.mayServeVa g .row m [(va, n)] then (.wait, s.askVa g .row m [(va, n)])
    else
      match s.poisonVa m [(va, n)] with
      | some v => (.bad 0x12 0 0 v, s)
      | none =>
        let (ready, s) := s.fetchHost g m [(va, n)]
        if ready then (.ok (s.readVa g.owner m va n), s) else (.wait, s)

/-- The agent that reads a queue's packet: the dispatcher of die 0 (R307, R310). -/
def queueAgent (q ctx : Nat) : Agent := dieAgent (2 ^ 64 + q) ctx 0 0

/-- The die whose dispatcher serves a grid (R307). -/
def Grid.dispatcher (g : Grid) : Nat := g.die.getD 0

/-- The agent that reads a grid's data (R307, R310). -/
def Grid.agent (g : Grid) : Agent := dieAgent g.gid g.ctx g.dispatcher 0

/-- A virtual function's MSI-X vector fires (R379). -/
def State.raise (s : State) (vf vector : Nat) : State := { s with out := .msix vf vector :: s.out }
/-- The vector of the fault queue. -/
def vecFault : Nat := 0
/-- The vector of the code ring. -/
def vecCode : Nat := 1
/-- The vector of pre-emption. -/
def vecPreempt : Nat := 2
/-- The vector of the dump ring. -/
def vecDump : Nat := 3

/-- A value of a queue's timeline completes (R305), and its vector fires when COMPLETED moves (R379). -/
def State.finishQueue (s : State) (q v : Nat) : State :=
  let x := s.queue q
  let tl := (x.tl.finish v false).advance
  let s := s.setQueue { x with tl := tl }
  if tl.completed = x.tl.completed then s else s.raise x.vf (4 + q % 60)

/-- A rejected packet recorded in `qerr`, if it is clear (R300, R304). -/
def Queue.reject (x : Queue) (n code : Nat) : Queue := if x.qerr = 0 then { x with qerr := BitVec.ofNat 64 (n % 2 ^ 56 * 256 + code) } else x

/-- The mark that a grid's handle leaves in its launching team's threads clears, and its waiters are released (R13, R135). -/
def State.clearHandle (s : State) (g : Grid) : State :=
  match g.parent with
  | none => s
  | some (c, tm) =>
    let s := s.onTeam c tm fun t => { t with children := t.children.filter fun x => x != g.gid }
    let h := 0xFE * 2 ^ 56 + g.launchid
    (s.threadsOf c tm).foldl (fun s t =>
      let mine (k : Nat) : Bool := bitAt t.gridpend k && natOfWords (t.vregs (2 * k) 2) == h
      let t' := { t with gridpend := (List.range 64).foldl (fun m k => if mine k then m &&& ~~~(1#64 <<< k) else m) t.gridpend }
      let s := s.setThread t'
      if t.life = .parked (.grid g.gid) then s.release t' t'.at_ s.clock else s) s

/-- A grid's completion value completes (R305, R134); it fails when the grid was rejected late. -/
def State.completeGrid (s : State) (g : Grid) (failed : Bool) : State :=
  match g.compl with
  | .none => s
  | .queue q v => s.finishQueue q v
  | .team c tm k v => s.onTimeline c tm k fun t => t.finish v failed

/-- A grid has left the device: its value completes, its handle is no longer pending, and nothing more of it is kept (R13). -/
def State.dropGrid (s : State) (g : Grid) (failed : Bool) : State :=
  let s := (s.completeGrid g failed).clearHandle g
  { s.hostForget g.gid with grids := s.grids.filter fun x => x.gid != g.gid }

/-- The record of a dispatcher's fault (R134, R320-R322). -/
def State.dispatchRecord (s : State) (ctx die cls code access : Nat) (va : DWord) : State :=
  let n := s.nextId + 1
  { s with nextId := n }.postRecord
    { vf := vfOf ctx, cls := cls, code := code, access := access, source := 4, unit := die, ctx := ctx, token := n, va := va,
      pc := 0, gindex := 0, extra := 0, dump := none, behind := none }

/-- A packet that has been read is rejected (R134, R304, R306): a host packet in `qerr`, a device-side one late. -/
def State.rejectGrid (s : State) (g : Grid) (code cls access : Nat) (va : DWord) : State :=
  match g.queue, g.compl with
  | some q, .queue _ v => (s.onQueue q fun x => x.reject (v - 1) code).dropGrid g false
  | _, _ => (s.dispatchRecord g.ctx g.dispatcher cls code access va).dropGrid g true

/-- A packet whose data meet a fault is rejected with code 0x0B (R306, R320).  The fault is recorded (R321): that of a host packet with the
code of R322, and that of a device-side one with 0x0B, as R134 gives. -/
def State.faultGrid (s : State) (g : Grid) (cls code access : Nat) (va : DWord) : State :=
  let s := if g.queue.isSome then s.dispatchRecord g.ctx g.dispatcher cls code access va else s
  s.rejectGrid g 0xB cls access va

/-- Whether a dependence of a grid is met (R304 step 3). -/
def State.depMet (s : State) (g : Grid) (d : Nat × Nat) : Bool :=
  if d.1 < 0x40 then decide (d.2 ≤ (s.queue d.1).tl.completed)
  else
    match g.parent with
    | some (c, tm) => decide (d.2 ≤ (((s.team? c tm).map fun t => (t.tl (d.1 - 0x80)).completed).getD 0))
    | none => true

/-- The preload entries of a list (R303). -/
def preEntries (n : Nat) (bs : List Byte) : List (Nat × DWord) :=
  (List.range n).map fun i => (fieldAt bs (16 * i) 1, BitVec.ofNat 64 (fieldAt bs (16 * i + 8) 8))

/-- The code that a preload list records (R306): a reserved byte that is nonzero, or a REG above 15. -/
def preCode (n : Nat) (bs : List Byte) : Nat :=
  if (List.range n).any fun i => fieldAt bs (16 * i + 1) 7 != 0 then 1
  else if (List.range n).any fun i => decide (15 < fieldAt bs (16 * i) 1) then 8
  else 0

/-- Every preload descriptor read (R304 step 4): its header, then its segments. -/
def State.readDescriptors (s : State) (g : Agent) : List (Nat × DWord) → Got Unit × State
  | [] => (.ok (), s)
  | p :: rest =>
    match s.dispRead g p.2 64 with
    | (.ok h, s) =>
      match s.dispRead g p.2 (fnSize (fnByte h 0)) with
      | (.ok _, s) => s.readDescriptors g rest
      | (.bad a b c v, s) => (.bad a b c v, s)
      | (.wait, s) => (.wait, s)
    | (.bad a b c v, s) => (.bad a b c v, s)
    | (.wait, s) => (.wait, s)

/-- `n` bytes, and none to be read when `n` is zero. -/
def State.dispReadOpt (s : State) (g : Agent) (va n : Nat) : Got (List Byte) × State :=
  if n = 0 then (.ok [], s) else s.dispRead g (BitVec.ofNat 64 va) n

/-- The data of a packet fetched (R304 step 4): the argument block and the preload list, with the descriptors read. -/
def State.fetchGrid (s : State) (g : Grid) : Got (List Byte × List Byte) × State :=
  let p := g.packet
  Got.andThen (s.dispReadOpt g.agent (pktArgPtr p) (pktArgSize p)) fun args s =>
    Got.andThen (s.dispReadOpt g.agent (pktPrePtr p) (16 * pktNpre p)) fun pre s =>
      if preCode (pktNpre p) pre ≠ 0 then (.ok (args, pre), s)
      else Got.andThen (s.readDescriptors g.agent (preEntries (pktNpre p) pre)) fun _ s => (.ok (args, pre), s)

/-- The kernel table entry that a grid is accepted with (R341): a device-side grid's was taken by its launch, and a host grid's is read once
between steps 3 and 4 of R304.  None when it is not valid. -/
def State.gridEntry (s : State) (g : Grid) : Got (Option (List Byte × Nat)) × State :=
  if g.queue.isNone then (.ok (some (g.entry, g.obj)), s)
  else
    let c := s.ctx g.ctx
    let k := pktKidx g.packet
    if c.ktsize ≤ k ∨ !paOk (c.entryPa k) 32 then (.ok none, s)
    else if !s.mayServePa g.agent .row (c.entryPa k) 32 then (.wait, s.askPa g.agent .row (c.entryPa k) 32)
    else if s.entryPoisoned g.ctx k then (.bad 0x12 0 0 0, s)
    else (.ok (s.kernelEntry g.ctx k), s)

/-- Acceptance from step 3 on (R304, R341): the dependences, the kernel table entry, which must be valid and accept the packet's frame (R259),
the data, and the grid's number. -/
def State.acceptGrid (s : State) (g : Grid) : Res :=
  if !((pktDeps g.packet).all (s.depMet g)) then .next s
  else
    match s.gridEntry g with
    | (.wait, s) => .next s
    | (.bad cls code access va, s) => .next (s.faultGrid g cls code access va)
    | (.ok none, s) => .next (s.rejectGrid g 2 0x11 0 0)
    | (.ok (some (e, obj)), s) =>
      if pktFrame g.packet < fieldAt e 0x1C 1 then .next (s.rejectGrid g 4 0x11 0 0)
      else
      match s.fetchGrid g with
      | (.wait, s) => .next s
      | (.bad cls code access va, s) => .next (s.faultGrid g cls code access va)
      | (.ok (args, pre), s) =>
        let n := pktNpre g.packet
        let code := preCode n pre
        if code ≠ 0 then .next (s.rejectGrid g code 0x11 0 (BitVec.ofNat 64 (pktPrePtr g.packet)))
        else
          let c := s.ctx g.ctx
          let s := if g.queue.isSome then s.setCtx { c with seq := c.seq + 1 } else s
          let g := { g with accepted := true, entry := e, obj := obj, args := args, preload := preEntries n pre
                            launchid := if g.queue.isSome then c.seq else g.launchid }
          .next ((s.setGrid g).hostForget g.gid)

/-- A grid as its packet is read. -/
def Grid.fromPacket (gid ctx prio : Nat) (p : List Byte) (compl : Compl) : Grid :=
  { gid := gid, ctx := ctx, launchid := 0, depth := 0, prio := prio, packet := p, parent := none, queue := none, die := none,
    compl := compl, accepted := false, entry := [], obj := 0, args := [], preload := [], nextTeam := 0, teams := [],
    preCores := [], retired := 0, finished := false }

/-- Whether a grid still has a team to place (R304). -/
def Grid.placing (g : Grid) : Bool := !g.finished && decide (g.nextTeam < pktTeams g.packet)

/-- A packet of a queue is taken (R304 step 1, R305): the read pointer passes it, and it has the next value of the queue's timeline. -/
def State.takePacket (s : State) (x : Queue) : Nat × State :=
  let (v, tl) := x.tl.assign
  (v, s.setQueue { x with rptr := x.rptr + 1, tl := tl })

/-- A packet that has been taken is rejected (R304): it runs nothing, and its value completes. -/
def State.dropPacket (s : State) (x : Queue) (v code : Nat) : State :=
  (s.onQueue x.idx fun y => y.reject x.rptr code).finishQueue x.idx v

/-- The read of a queue's packet meets a fault (R306, R320, R321): a context that is not valid comes first in the order of the checks. -/
def State.packetFault (s : State) (x : Queue) (cls code access : Nat) (va : DWord) : State :=
  let (v, s) := s.takePacket x
  (s.dispatchRecord x.ctx 0 cls code access va).dropPacket x v (if (s.ctx x.ctx).valid then 0xB else 0xA)

/-- The head packet of a queue read and checked (R301, R304 steps 1 and 2, R305).  A context that has no accepted grid first reads its
descriptor (R380).  DESIGN CHOICE (log 57): the checks of step 2 are made without the kernel table entry, which R341 reads after step 3, so a
packet that names no valid entry and fails a check of a higher code too records the higher code. -/
def State.readQueue (s : State) (x : Queue) : Res :=
  let g := queueAgent x.idx x.ctx
  let d := s.descriptorAt x.ctx
  if !(s.active x.ctx) && !paOk d 128 then .fault (.absentPhysical d)
  else if !(s.active x.ctx) && !s.mayServePa g .row d 128 then .next (s.askPa g .row d 128)
  else if !(s.active x.ctx) && s.readsPoison d 128 then .next ((s.hostForget g.owner).packetFault x 0x12 0 0 0)
  else
    let s := if s.active x.ctx then s else s.readDescriptor x.ctx
    let at_ := x.qbase + BitVec.ofNat 64 (128 * (x.rptr % 2 ^ (x.log2n + 4)))
    match s.dispRead g at_ 128 with
    | (.wait, s) => .next s
    | (.bad cls code access va, s) => .next ((s.hostForget g.owner).packetFault x cls code access va)
    | (.ok p, s) =>
      let (v, s) := (s.hostForget g.owner).takePacket x
      let code := s.packetCode x.ctx true (some ([], 0)) p
      if code ≠ 0 then .next (s.dropPacket x v code)
      else
        let (gid, s) := s.newId
        let g := { Grid.fromPacket gid x.ctx x.prio p (.queue x.idx v) with queue := some x.idx }
        (s.setGrid g).acceptGrid g

/-- Whether an assignment of a virtual function waits (R347, R348). -/
def State.assignPending (s : State) (vf : Nat) : Bool :=
  (s.vf vf).pend.isSome || s.regPend.any fun r => r.2 == some vf || (s.regions.any fun x => x.1 == r.1 && x.2.1 == vf)

/-- Whether no packet of a context may be accepted now (R328, R335, R347), the clock of a switch of its kernel table among them (R339). -/
def State.closed (s : State) (ctx : Nat) : Bool :=
  s.preempting ctx || (s.ctx ctx).saved || s.assignPending (vfOf ctx) || (s.ctx ctx).switchAt == some s.clock

/-- PACKET_ACCEPT (R304): the head of a launch queue, once the queue's previous grid has placed its teams, or a device-side grid
that waits in its launch buffer.  Nothing is accepted for a context that is being pre-empted (R328), nor while an assignment waits
(R347), nor from a queue that is not enabled (R300). -/
def execPacketAccept (src : AcceptSrc) (s : State) : Res :=
  match src with
  | .queue q =>
    let x := s.queue q
    match s.grids.find? fun g => g.queue == some q && !g.accepted with
    | some g => if s.closed g.ctx || !x.enable then .next s else s.acceptGrid g
    | none =>
      if !x.enable || decide (x.wptr ≤ x.rptr) || (s.grids.any fun g => g.queue == some q && g.placing) || s.closed x.ctx then .next s
      else s.readQueue x
  | .device gid =>
    match s.grid? gid with
    | some g => if g.accepted || s.closed g.ctx then .next s else s.acceptGrid g
    | none => .next s

/-- The child grid of a `launch` whose packet passes (R12, R134, R305): its number and handle, its value on a team timeline,
and its place in the launch buffer of its die. -/
def State.launchChild (s : State) (core : Nat) (tm : Team) (p : List Byte) (entry : Option (List Byte × Nat)) : Nat × State :=
  let c := s.ctx tm.ctx
  let s := s.setCtx { c with seq := c.seq + 1 }
  let (gid, s) := s.newId
  let depth := ((s.grid? tm.gid).map (·.depth)).getD 0
  let prio := ((s.grid? tm.gid).map (·.prio)).getD 0
  let k := pktCompl p % 8
  let (v, tl) := (tm.tl k).assign
  let compl : Compl := if pktCompl p = 0 then .none else .team core tm.slot k v
  let s := s.onTeam core tm.slot fun t =>
    { t with children := t.children ++ [gid], tls := if pktCompl p = 0 then t.tls else t.tls.set k tl }
  let (e, obj) := entry.getD ([], 0)
  let g := { Grid.fromPacket gid tm.ctx prio p compl with
    launchid := c.seq, depth := depth + 1, parent := some (core, tm.slot), die := some (dieOf core), entry := e, obj := obj }
  (c.seq, s.setGrid g)

/-- Whether a launch buffer has a free entry (R134). -/
def State.bufferFree (s : State) (die : Nat) : Bool :=
  decide ((s.grids.filter fun g => g.die == some die && g.placing).length < 256)

/-- What a `launch` finds when its packet has come (R134): its handle, and the child that it starts. -/
def State.launchNow (s : State) (core : Nat) (o : Op) : Option Nat × State :=
  match s.team? core o.team with
  | none => (none, s)
  | some tm =>
    if o.noInstall ∨ s.packetCode tm.ctx false o.entry o.line ≠ 0 ∨ !s.bufferFree (dieOf core) then (none, s)
    else
      let (seq, s) := s.launchChild core tm o.line o.entry
      (some (0xFE * 2 ^ 56 + seq), s)

end Sys2Proof.Machine
end

