-- ==== Sys2Proof/Machine/Resume.lean ====
section
/-! DEFINITION. Where a parked thread goes on when firmware, a driver's response or the landing of its access releases it (R36, R91, R294, R323, R325, R356). -/

namespace Sys2Proof.Machine

/-- Bytes of a context's memory as firmware reads its code, and the device to number census sites. -/
def State.peek (s : State) (ctx : Nat) (va : DWord) (n : Nat) : List Byte :=
  (cutRange 4096 va n).flatMap fun p =>
    match s.walkRoot 0 ctx (va56 p.1) with
    | .leaf e _ _ => s.bytes (e.translate (va56 p.1)) p.2
    | _ => List.replicate p.2 0

/-- A word of a thread's code, as firmware reads it. -/
def State.codeWordAt (s : State) (t : Thread) (a : DWord) : DWord :=
  let bs := if t.at_.nib = 0 then s.peek (((s.team? t.core t.team).map (·.ctx)).getD 0) a 8
    else (List.range 8).map fun i => (s.imageOf t.at_.nib).code.getD (a.toNat + i) 0
  BitVec.ofNat 64 (natOf bs)

/-- A parked thread goes on where firmware says (R36, R294, R323): at its word with BYPASS set; at the next word, by MOD 1 of R130; or at an
ENTRY header, which is checked by R32 and at which the members held with it go on too, in a resume pod (R325).  One that was parked on a
Nib slot ends its run in its trap group so (R294), and one that goes on at another point than its instruction gives up its reservation (R91). -/
def State.resumeAt (s : State) (t : Thread) (p : ResumePoint) : State :=
  let w := s.codeWordAt t t.at_.key
  let h := s.codeWordAt t t.at_.hdr
  let header := t.at_.key == t.at_.hdr
  let last := t.at_.key == t.at_.hdr + BitVec.ofNat 64 (8 * hdrCount h)
  let chk (entry : Bool) : Check := ⟨t.at_.key, w, t.at_.hdr, h, entry, last && (readHeader h).reform, false⟩
  let by_ : Leave := if t.life = .parked (.fault 0) then .nret else .no
  let go (t : Thread) (to_ : Target) (entry : Bool) (all : Bool) : State :=
    let s := if to_ = t.at_ then s else s.endReservations t.core t.team t.part t.slot
    ((s.setThread { t with life := .inFlight, at_ := to_, moved := none }).schedule t.core t.part
      ⟨t.slot, to_, s.clock, 2, some (chk entry), false, by_⟩).unholdTo t.core t.part t.slot s.clock
        (if all then some (to_, chk entry) else none)
  match p with
  | .wordBypass => go { t with bypass := true } t.at_ false false
  | .nextWord =>
    if header then go t t.at_ false false
    else if !last then go t { t.at_ with key := t.at_.key + 8 } false false
    else if (readHeader h).reform then go { t with next := none } (normalAt (t.next.getD (t.at_.key + 8)) t.at_.nib) true false
    else go t (resumeHeader (t.at_.key + 8) t.at_.nib) false false
  | .entry a => go t (resumeHeader a 0) true true

/-- A thread that is parked on a token is released to its resume point, or to the one that firmware has set (R323, R325). -/
def State.releaseParked (s : State) (n : Nat) (x : Nat × Nat × Nat) (f : Thread → Thread) : State :=
  match s.thread? x.1 x.2.1 x.2.2 with
  | some t =>
    if t.life = .parked (.fault n) then
      let t := f t
      match t.moved with
      | none => s.release t t.at_ s.clock
      | some v => s.resumeAt t (if v = t.at_.key + 8 then .nextWord else .entry v)
    else s
  | none => s

end Sys2Proof.Machine
end

