-- ==== Sys2Proof/Machine/Schedule.lean ====
section
/-! DEFINITION. The turns of a partition's streams (R27, R29, R42), and the state in which a given word issues next. -/

namespace Sys2Proof.Machine

/-- Whether a clock is a turn of a stream under pack width W (R27). -/
def isTurn (w stream clock : Nat) : Bool :=
  clock % 4 == (if w = 32 then stream / 2 else if w = 64 then 2 * (stream / 2) else 0)

/-- Streams of a partition under pack width W (R27). -/
def streamCount (w : Nat) : Nat := if w = 32 then 8 else if w = 64 then 4 else 2

/-- The streams of a partition whose turn it is, even pipe first (R29, R42). -/
def State.turnsOf (s : State) (q : Part) : List Act :=
  let due := q.streams.filter fun t =>
    match t.pack with
    | some k => isTurn (((s.team? q.core k.team).map (·.packW)).getD 32) t.idx s.clock
    | none => false
  let acts (par : Nat) : List Act := (due.filter fun t => t.idx % 2 == par).map fun t => .issue q.core q.idx t.idx
  acts 0 ++ acts 1

/-- The team that `withFetchWord` places: one thread on core 0, with a frame of 128 registers. -/
def fetchTeam : Team :=
  { core := 0, slot := 0, slots := [(0, 0)], ctx := 0, gid := 0, index := 0, size := 1, sgLog := 0, frame := 128, packW := 32,
    scratchBytes := 0, scalars := List.replicate 512 0, fs := List.replicate 8 0, am := List.replicate 8 0, amClear := [], scratch := [],
    scratchSeed := 0, badScratch := [], fe := [], tls := List.replicate 8 .reset, tags := [], engArr := [], started := 1, startAt := 0,
    preloads := [], heldTok := none, children := [], reuse := none, pair := false }

/-- A thread as TEAM_START leaves it (R129, R309). -/
def freshThread (core part slot team tid gindex frame : Nat) : Thread :=
  { core := core, part := part, slot := slot, team := team, tid := tid, gindex := gindex, regs := List.replicate frame 0,
    preds := 0, flags := 0, rs := [], spilled := 0, refill := false, undo := none, xlating := none, tcause := 0, tval := 0, tpc := 0,
    tinst := 0, thdr := 0, tcnt := 0, rand := 0, gridpend := 0, arrived := 0, counted := 0, atBar := none, life := .inFlight,
    next := none, at_ := normalAt 0 0, chk := none, moved := none, hold37 := [], hold131 := false, bypass := false, patch := none, patched := false,
    dbgSkip := false, dbgNobp := false, dbgStep := false, badFlags := [], badRegs := [] }

/-- A one-word clause header with ENTRY, REFORM and CONV set, SETA 0, SETB 1 and every port (R108). -/
def fetchHeader : DWord := 0xD000_010F_E000_0000

/-- A pack of one thread whose fetched clause holds one word. -/
def fetchPack (w : DWord) : Pack :=
  { team := 0, slots := [0], conv := true, rank := 0, nib := 0, hdr := 0x1000, clause := some (fetchHeader, [w]), pos := none,
    start := 0, latches := [], rewrite := [], stopped := [], inRewrite := false, skip := [], serial := false, serialDone := false, formed := 0 }

/-- The state with a word in the stream that issues next. -/
def State.placeWord (s : State) (w : DWord) : State :=
  { s with agenda := [.issue 0 0 0], cur := none
           teams := [fetchTeam], threads := [freshThread 0 0 0 0 0 0 128]
           parts := [{ Part.init 0 0 with streams := [(Stream.init 0).withPack (fetchPack w)] }] }

end Sys2Proof.Machine
end

