-- ==== Sys2Proof/Machine/Placement.lean ====
section
/-! DEFINITION. Placing, starting and retiring teams and grids (R13, R16, R47, R49, R191, R259, R307-R309, R326, R340), and the census at a grid's end (R372-R374). -/

namespace Sys2Proof.Machine

/-- The thread slots that the teams of a core keep until they retire, as partition and slot (R13, R41). -/
def State.slotsOn (s : State) (core : Nat) : List (Nat × Nat) := (s.teamsOn core).flatMap (·.slots)

/-- Occupied rows of a column of a partition (R16, R41). -/
def State.rowsUsed (s : State) (core p col : Nat) : Nat :=
  ((s.slotsOn core).filter fun x => x.1 == p && x.2 % 32 == col).length

/-- Rows that a team of `n` threads needs in the column of `tid` `k` < 256 (R16). -/
def rowsNeeded (n k : Nat) : Nat := (n + 255 - k) / 256

/-- Whether a team's rows are free on a core (R16). -/
def State.rowsFit (s : State) (core n : Nat) : Bool :=
  (List.range 256).all fun k => decide (s.rowsUsed core (k / 32) (k % 32) + rowsNeeded n k ≤ 8)

/-- The partitions of a core that a team of `n` threads uses (R16). -/
def partsUsed (n : Nat) : List Nat := (List.range 8).filter fun p => decide (32 * p < n)

/-- Whether the unified store holds a further team (R49). -/
def State.storeFits (s : State) (core frame scratch : Nat) : Bool :=
  let ts := s.teamsOn core
  let f := ts.foldl (fun m t => max m t.frame) frame
  let g := ts.foldl (fun n t => n + 16384 * ceilDiv t.scratchBytes 16384) (16384 * ceilDiv scratch 16384)
  decide (8192 * f + g + 262144 ≤ 2097152)

/-- Whether a core may take the next team of a grid (R308). -/
def State.eligibleCore (s : State) (g : Grid) (core : Nat) : Bool :=
  let vf := vfOf g.ctx
  let p := g.packet
  let n := pktSize p
  let ts := s.teamsOn core
  let other (c : Nat) : Bool := (s.teamsOn c).any fun t => t.ctx != g.ctx
  let follows := (s.core core).follower && other (core - 1)
  let w := pktW p
  let partOk (q : Nat) : Bool := (ts.filter fun t => t.slots.any fun x => x.1 == q).all fun t => t.packW == w
  s.coreFree vf core && (match g.die with | some d => dieOf core == d | none => true)
    && !other core && !follows && decide (ts.length < 32) && (partsUsed n).all partOk
    && s.rowsFit core n && s.storeFits core (pktFrame p) (pktScratch p)
    && (!pktPair p || (core % 2 == 0 && s.coreFree vf (core + 1) && !(ts.any fun t => t.pair)))

/-- Occupied slots that a core counts for a grid (R41, R308). -/
def State.load (s : State) (g : Grid) (core : Nat) : Nat :=
  (s.slotsOn core).length + if pktPair g.packet then (s.slotsOn (core + 1)).length else 0

/-- The core that takes a grid's next team: the fewest occupied slots, then the lowest number (R308). -/
def State.coreFor (s : State) (g : Grid) : Option Nat :=
  firstMin (s.load g) ((List.range 160).filter (s.eligibleCore g))
where
  /-- The first element of least weight. -/
  firstMin (f : Nat → Nat) : List Nat → Option Nat
    | [] => none
    | x :: rest =>
      match firstMin f rest with
      | none => some x
      | some y => if f y < f x then some y else some x

/-- Whether a dispatcher may place a team of a grid now (R292, R307, R328). -/
def State.mayPlace (s : State) (g : Grid) : Bool :=
  g.accepted && g.placing && !s.preempting g.ctx && !(s.ctx g.ctx).saved && !(s.ctx g.ctx).lost && (s.ctx g.ctx).featPend.isNone

/-- Whether grid `a` is served before grid `b` (R307): the higher priority, then device-side grids in buffer order, then host
grids by queue number from the one after `last`. -/
def servedBefore (last : Nat) (a b : Grid) : Bool :=
  let turn (g : Grid) : Nat := match g.queue with
    | some q => (q + 63 - last) % 64
    | none => 0
  if a.prio ≠ b.prio then decide (b.prio < a.prio)
  else
    match a.queue.isSome, b.queue.isSome with
    | false, true => true
    | true, false => false
    | false, false => decide (a.gid < b.gid)
    | true, true => decide (turn a < turn b)

/-- The best of the grids that a dispatcher may serve, with the core for its next team. -/
def State.pickGrid (s : State) (last : Nat) : List Grid → Option (Grid × Nat)
  | [] => none
  | g :: rest =>
    let tail := s.pickGrid last rest
    match (if s.mayPlace g then s.coreFor g else none) with
    | none => tail
    | some c =>
      match tail with
      | none => some (g, c)
      | some (h, d) => if servedBefore last h g then some (h, d) else some (g, c)

/-- The lowest free row of a column beside the slots that are taken, as a slot (R16). -/
def freeSlot (taken : List (Nat × Nat)) (p col : Nat) : Nat :=
  32 * ((List.range 8).find? fun r => !taken.contains (p, 32 * r + col)).getD 0 + col

/-- The slots of `n` threads from `tid` on, in increasing `tid`, beside those that are taken (R16). -/
def newRows (taken : List (Nat × Nat)) : Nat → Nat → List (Nat × Nat)
  | 0, _ => []
  | n + 1, tid =>
    let x := (tid / 32 % 8, freeSlot taken (tid / 32 % 8) (tid % 32))
    x :: newRows (x :: taken) n (tid + 1)

/-- The threads of a placed team, in the order of its slots (R16). -/
def State.placeThreads (s : State) (tm : Team) : State :=
  tm.slots.zipIdx.foldl (fun s x =>
    s.setThread (freshThread tm.core x.1.1 x.1.2 tm.slot x.2 (tm.index * tm.size + x.2) tm.frame)) s

/-- A function register's save record (R326): the active copy and its generation, then both copies. -/
def FnReg.save (r : FnReg) : List Byte :=
  let copy (c : FnCopy) : List Byte :=
    (c.image ++ List.replicate (1088 - c.image.length) 0).take 1088 ++ bytesOf 8 c.gen.toNat ++ bytesOf 8 (c.code + if c.valid then 256 else 0)
  bytesOf 8 (if r.active then 1 else 0) ++ bytesOf 8 r.cur.gen.toNat ++ List.replicate 16 0 ++ copy r.copy0 ++ copy r.copy1

/-- A function register from its save record; an empty record is a register that holds no load (R326). -/
def FnReg.restore (bs : List Byte) : FnReg :=
  let copy (off : Nat) : FnCopy :=
    ⟨(bs.drop off).take 1088, BitVec.ofNat 32 (fieldAt bs (off + 1088) 8), fieldAt bs (off + 1096) 1, (fieldAt bs (off + 1097) 1).testBit 0⟩
  if bs.all fun b => b == 0 then .empty else ⟨copy 32, copy 1136, fieldAt bs 0 8 == 1⟩

/-- The registers of the last context are saved and those of the new one loaded (R326). -/
def State.switchFns (s : State) (core ctx : Nat) : State :=
  let c := s.core core
  if c.lastCtx = some ctx then s
  else
    let s := match c.lastCtx with
      | some old => s.post (ccpAgent (vfOf old)) ((s.ctx old).fnsave.toNat + 35840 * core) (c.fns.flatMap FnReg.save)
      | none => s
    let base := (s.ctx ctx).fnsave.toNat + 35840 * core
    let fns := (List.range 16).map fun k => FnReg.restore (s.bytes (base + 2240 * k) 2240)
    s.onCore core fun c => { c with fns := fns, lastCtx := some ctx }

/-- The first address of a function save area that does not exist (R326). -/
def State.fnsMissing (s : State) (core ctx : Nat) : Option Nat :=
  let at_ (c : Nat) : Nat := (s.ctx c).fnsave.toNat + 35840 * core
  let need := if (s.core core).lastCtx = some ctx then [] else at_ ctx :: ((s.core core).lastCtx.map at_).toList
  need.find? fun a => !paOk a 35840

/-- The scalars that a team starts with (R47, R259). -/
def teamScalars (g : Grid) (index : Nat) : List Word :=
  let p := g.packet
  let e := g.entry
  let stride := fieldAt e 0x18 4
  let tls := fieldAt e 0x10 8 + index * pktSize p * stride
  wordsOfBytes 256 g.args ++ List.replicate 244 0 ++ wordsOf 2 (fieldAt e 8 8) ++ wordsOf 2 tls ++ wordsOf 2 (pktSpillBase p)
    ++ wordsOf 1 stride ++ wordsOf 1 (pktKidx p) ++ wordsOf 2 (pktArgPtr p) ++ [0, 0]

/-- A team as it is placed (R309). -/
def teamOf (g : Grid) (core slot seed clock : Nat) (slots : List (Nat × Nat)) (preloads : List (Nat × DWord)) : Team :=
  let p := g.packet
  { core := core, slot := slot, slots := slots, ctx := g.ctx, gid := g.gid, index := g.nextTeam, size := pktSize p, sgLog := pktSgLog p,
    frame := pktFrame p, packW := pktW p, scratchBytes := pktScratch p, scalars := teamScalars g g.nextTeam,
    fs := (List.range 8).map fun k => BitVec.ofNat 64 (pktFs p k), am := List.replicate 8 0, amClear := [], scratch := [],
    scratchSeed := seed, badScratch := [], fe := [], tls := List.replicate 8 .reset, tags := [], engArr := [], started := 0,
    startAt := clock + 24, preloads := preloads, heldTok := none, children := [], reuse := none, pair := pktPair p }

/-- L1 is invalidated when its size changes (R49, R81). -/
def State.resizeL1 (s : State) (core before : Nat) : State :=
  if s.l1Sets core = before then s else s.onCore core Core.flash

/-- A team placed on a core (R307-R309, R326).  Its start is ordered after the acquires of its packet's acceptance (R302, R304), so that
the core's L1 is invalidated. -/
def State.placeTeam (s : State) (g : Grid) (core : Nat) : State :=
  let s := s.switchFns core g.ctx
  let slot := ((List.range 32).find? fun i => (s.team? core i).isNone).getD 0
  let pre := if g.preCores.contains core then [] else g.preload
  let t := teamOf g core slot (s.freshOf g.ctx) s.clock (newRows (s.slotsOn core) (pktSize g.packet) 0) pre
  let s := ((s.drawn g.ctx t.scratchBytes).setTeam t).placeThreads t
  let s := s.setGrid { g with nextTeam := g.nextTeam + 1, teams := g.teams ++ [(core, slot)]
                              preCores := if g.preCores.contains core then g.preCores else g.preCores ++ [core] }
  let s := s.onCore core fun c => { c with ctx := some g.ctx }.flash
  s.traceRec core (vfOf g.ctx) 1 0 g.ctx t.index g.launchid

/-- PLACEMENT_STEP (R307): every 8 clocks at most one team. -/
def execPlacementStep (die : Nat) (s : State) : Res :=
  if s.clock % 8 ≠ 0 then .next s
  else
    let last := assoc die 63 s.dispLast
    match s.pickGrid last (s.grids.filter fun g => g.dispatcher == die) with
    | none => .next s
    | some (g, core) =>
      match s.fnsMissing core g.ctx with
      | some pa => .fault (.absentPhysical pa)
      | none =>
        let s := match g.queue with
          | some q => { s with dispLast := setAssoc die q s.dispLast }
          | none => s
        .next (s.placeTeam g core)

/-- A fault of a per-core preload (R306, R320, R321): the start is held on a token. -/
def State.holdStart (s : State) (tm : Team) (cls code access : Nat) (va : DWord) : State :=
  let die := dieOf tm.core
  let (n, s) := s.takeToken (s.dieCcp die)
    { vf := vfOf tm.ctx, cls := cls, code := code, access := access, source := 4, unit := die, ctx := tm.ctx, token := 0, va := va
      pc := 0, gindex := 0, extra := 0, dump := none, behind := none }
    fun t => { t with starts := t.starts ++ [(tm.core, tm.slot)] }
  s.setTeam { tm with heldTok := some n }

/-- A preload of a team put in flight (R185, R191): an `fnld` of the dispatcher, of no thread. -/
def State.preloadOne (s : State) (tm : Team) (k : Nat) (va : DWord) : State :=
  let (id, s) := s.newId
  let load : FnLoad := ⟨id, k, tm.ctx, va, [], 0, [], 0, none, none, some tm.slot, normalAt 0 0, ⟨0, 0, 0, 0, false, false, 0⟩⟩
  (s.onCore tm.core fun c => { c with loads := c.loads ++ [load] }).setTeam { tm with preloads := tm.preloads.drop 1 }

/-- Whether preloads of a team's grid are still to switch on its core (R191). -/
def State.preloading (s : State) (tm : Team) : Bool :=
  let mine := (s.teamsOn tm.core).filter fun t => t.gid == tm.gid
  (mine.any fun t => !t.preloads.isEmpty) || (s.core tm.core).loads.any fun l => mine.any fun t => l.team == some t.slot

/-- TEAM_START (R191, R309): the preloads of the team, and then its threads, 32 in a clock, the first of them in the clock after that of the last
switch, which comes before TEAM_START in its clock. -/
def execTeamStart (core team : Nat) (s : State) : Res :=
  match s.team? core team with
  | none => .next s
  | some tm =>
    if tm.heldTok.isSome || decide (tm.size ≤ tm.started) then .next s
    else
      match tm.preloads with
      | (k, va) :: _ => .next (s.preloadOne { tm with startAt := max tm.startAt (s.clock + 2) } k va)
      | [] =>
        if s.preloading tm then .next (s.setTeam { tm with startAt := max tm.startAt (s.clock + 2) })
        else if s.clock < tm.startAt then .next s
        else
          let entry : DWord := BitVec.ofNat 64 (fieldAt (((s.grid? tm.gid).map (·.entry)).getD []) 0 8)
          let ths := (s.threadsOf core team).filter fun t => decide (tm.started ≤ t.tid) && decide (t.tid < tm.started + 32)
          let s := s.setTeam { tm with started := min tm.size (tm.started + 32) }
          .next (ths.foldl (fun s t => s.fileThread core t.part t.slot (normalAt entry 0)) s)

/-- Whether a team has finished, and every grid that its threads launched has retired (R13).  What it covers has been performed: none of
its accesses is outstanding (R271, R304, R305). -/
def State.teamDone (s : State) (tm : Team) : Bool :=
  decide (tm.size ≤ tm.started) && (s.threadsOf tm.core tm.slot).isEmpty && tm.children.isEmpty
    && (tm.tls.all fun t => t.pending.isEmpty)
    && !(s.chans.any fun ch => (ch.queue ++ ch.acking).any fun c => c.core == tm.core && c.team == tm.slot)
    && !(s.cores.any fun c => c.array.any fun a => a.core == tm.core && a.team == tm.slot)
    && !((s.core tm.core).loads.any fun l => l.team == some tm.slot)
    && !((s.core tm.core).ops.any fun o => o.team == tm.slot && o.kind != .prefetch)

/-- TEAM_RETIRE (R13, R49, R203): the team's frames, scratch, uniform file, timelines and reservation are released. -/
def execTeamRetire (core team : Nat) (s : State) : Res :=
  match s.team? core team with
  | none => .next s
  | some tm =>
    if !s.teamDone tm then .next s
    else
      let sets := s.l1Sets core
      let lid := ((s.grid? tm.gid).map (·.launchid)).getD 0
      let s := s.endReservation core team
      let s : State := { s with teams := s.teams.filter fun t => !(t.core == core && t.slot == team) }
      let s := s.onCore core fun c => { c with ctx := if (s.teamsOn core).isEmpty then none else c.ctx }
      let s := s.onGrid tm.gid fun g => { g with retired := g.retired + 1, teams := g.teams.filter fun x => x != (core, team) }
      .next ((s.resizeL1 core sets).traceRec core (vfOf tm.ctx) 2 0 tm.ctx tm.index lid)

/-- The census sites of code, in address order (R224, R257): clause by clause, at most `fuel` clauses. -/
def State.sites (s : State) (ctx : Nat) : Nat → Nat → Nat → List DWord
  | 0, _, _ => []
  | fuel + 1, a, end_ =>
    if end_ ≤ a then []
    else
      let n := hdrCount (BitVec.ofNat 64 (natOf (s.peek ctx (BitVec.ofNat 64 a) 8)))
      let mine := (List.range n).filterMap fun i =>
        let at_ : DWord := BitVec.ofNat 64 (a + 8 + 8 * i)
        let op := (opOf (BitVec.ofNat 64 (natOf (s.peek ctx at_ 8)))).toNat
        if op = 0x282 ∨ op = 0x283 ∨ op = 0x286 ∨ op = 0x287 ∨ op = 0x288 then some at_ else none
      mine ++ s.sites ctx fuel (a + 8 * n + 8) end_

/-- The sites of an object (R257, R337). -/
def State.objectSites (s : State) (ctx obj : Nat) : List DWord :=
  match (s.ctx ctx).objs.find? fun o => o.1 == obj with
  | some (_, .loaded b n) => s.sites ctx (n / 8) b (b + n)
  | some (_, .retiring b n _ _) => s.sites ctx (n / 8) b (b + n)
  | none => []

/-- The census directory's entry of an object (R372): the table's address and CMP; none when the census is off.  Reserved bits of the entry
are ignored (R3). -/
def State.censusDir (s : State) (ctx obj : Nat) : Option (Nat × Bool) :=
  let pa := (s.ctx ctx).cnsdir.toNat + 8 * obj
  if (s.ctx ctx).cnsdir = 0 then none
  else
    let table := s.num pa 8 / 16 % 2 ^ 52 * 16
    let cmp := (s.num pa 8).testBit 0
    if table = 0 && !cmp then none else some (table, cmp)

/-- The four counts of a site in a table (R372). -/
def State.siteCounts (s : State) (table i : Nat) : List Nat := (List.range 4).map fun k => s.num (table + 16 * i + 4 * k) 4

/-- Which counts of a site exceed the reference's, as a mask (R374). -/
def State.siteDiff (s : State) (table nsites i : Nat) : Nat :=
  let a := s.siteCounts table i
  let b := s.siteCounts (table + 16 * nsites) i
  (List.range 4).foldl (fun m k => if b.getD k 0 < a.getD k 0 then m + 2 ^ k else m) 0

/-- The counts of an object added into its table, each add saturating (R373); the flush is of class 3 (R310). -/
def State.addCounts (s : State) (table : Nat) (sites : List DWord) (xs : List Census) : State :=
  xs.foldl (fun s x =>
    match sites.findIdx? fun a => a == x.site with
    | none => s
    | some i =>
      [(0, x.nan), (1, x.inf), (2, x.sat), (3, x.under)].foldl (fun s kv =>
        let pa := table + 16 * i + 4 * kv.1
        s.putPa pa (bytesOf 4 (min (2 ^ 32 - 1) (s.num pa 4 + kv.2.toNat)))) s) s

/-- A divergence event (R374). -/
def State.divergence (s : State) (ctx mask i : Nat) (site : DWord) : State :=
  s.postRecord
    { vf := vfOf ctx, cls := 0x19, code := mask, access := 0, source := 6, unit := 0, ctx := ctx, token := 0, va := site, pc := 0,
      gindex := 0, extra := BitVec.ofNat 64 i, dump := none, behind := none }

/-- The cores' counts of an object flushed at a grid's end, and the comparison after it (R373, R374). -/
def State.flushCensus (s : State) (ctx obj : Nat) : State :=
  let mine (x : Census) : Bool := x.ctx == ctx && x.obj == obj
  let xs := s.cores.flatMap fun c => c.census.filter mine
  let clear (s : State) : State := { s with cores := s.cores.map fun c => { c with census := c.census.filter fun x => !mine x } }
  if xs.isEmpty then s
  else
    match s.censusDir ctx obj with
    | none => clear s
    | some (table, cmp) =>
      let sites := s.objectSites ctx obj
      let n := sites.length
      let before := (List.range n).map (s.siteDiff table n)
      let s := clear (s.addCounts table sites xs)
      if !cmp then s
      else
        match (List.range n).find? fun i => before.getD i 0 == 0 && s.siteDiff table n i != 0 with
        | some i => s.divergence ctx (s.siteDiff table n i) i (sites.getD i 0)
        | none => s

/-- The reference counts of RETIRING objects go down by one for each grid of their context that ends; an object whose count
reaches zero becomes FREE, and its command's STATUS 0x03 (R340). -/
def State.dropRefs (s : State) (ctx : Nat) : State :=
  (s.ctx ctx).objs.foldl (fun s o =>
    match o.2 with
    | .retiring b n k cmd =>
      if 2 ≤ k then s.onCtx ctx fun c => { c with objs := c.objs.map fun x => if x.1 = o.1 then (x.1, .retiring b n (k - 1) cmd) else x }
      else
        let s := s.onCtx ctx fun c => { c with objs := c.objs.filter fun x => x.1 != o.1 }
        (s.post (ccpAgent (vfOf ctx)) (cmd + 0x38) (bytesOf 8 3)).raise (vfOf ctx) vecCode
    | .loaded _ _ => s) s

/-- A census table, with its reference when `cmp` is set, that does not exist (R372). -/
def State.censusMissing (s : State) (ctx obj : Nat) : Option Nat :=
  match s.censusDir ctx obj with
  | none => none
  | some (table, cmp) =>
    let n := 16 * (s.objectSites ctx obj).length * (if cmp then 2 else 1)
    if n = 0 ∨ paOk table n then none else some table

/-- The agent of a grid's census flush, which is of class 3 (R310, R373). -/
def flushAgent (g : Grid) : Agent := dieAgent g.gid g.ctx 0 3

/-- The range of the table that a flush adds to (R372, R373). -/
def State.flushRange (s : State) (ctx obj : Nat) : Nat × Nat :=
  match s.censusDir ctx obj with
  | some (table, _) => (table, 16 * (s.objectSites ctx obj).length)
  | none => (0, 0)

/-- GRID_RETIRE (R13, R305, R340, R373): every team has retired; the census is flushed, the objects' counts go down, and the
completion value and the handle complete. -/
def execGridRetire (gid : Nat) (s : State) : Res :=
  match s.grid? gid with
  | none => .next s
  | some g =>
    if !g.accepted || g.placing || !g.teams.isEmpty then .next s
    else
      match s.censusMissing g.ctx g.obj with
      | some pa => .fault (.absentPhysical pa)
      | none =>
        let (table, n) := s.flushRange g.ctx g.obj
        if !s.mayServePa (flushAgent g) .rmw table n then .next (s.askPa (flushAgent g) .rmw table n)
        else .next (((s.flushCensus g.ctx g.obj).dropRefs g.ctx).dropGrid g false)

end Sys2Proof.Machine
end

