-- ==== Sys2Proof/Machine/Rings.lean ====
section
/-! DEFINITION. Launch queues' registers, and the rings of fault, dump and trace records (R300, R301, R322, R336, R364, R368-R370). -/

namespace Sys2Proof.Machine

/-- Entries of a ring (R300, R322, R336): 2^(LOG2N + 4). -/
def ringSize (log2n : Nat) : Nat := 2 ^ (log2n + 4)

/-- Whether a doorbell's value may take effect (R301). -/
def doorbellOk (rptr wptr size v : Nat) : Bool := decide (rptr ≤ v) && decide (v ≤ rptr + size) && decide (wptr ≤ v)

/-- WPTR_DOORBELL (R301): any other value is ignored, and recorded in `qerr` if that is clear. -/
def execWptrDoorbell (q : Nat) (v : DWord) (s : State) : Res :=
  let x := s.queue q
  if doorbellOk x.rptr x.wptr (ringSize x.log2n) v.toNat then .next (s.setQueue { x with wptr := v.toNat })
  else .next (s.setQueue (x.reject x.wptr 0x10))

/-- CTX of a `qctl` value (R300). -/
abbrev qctlCtx (v : DWord) : Nat := (v.extractLsb' 16 12).toNat
/-- VF of a `qctl` value. -/
abbrev qctlVf (v : DWord) : Nat := (v.extractLsb' 32 4).toNat
/-- PRIO of a `qctl` value. -/
abbrev qctlPrio (v : DWord) : Nat := (v.extractLsb' 8 3).toNat
/-- LOG2N of a `qctl` or ring control value. -/
abbrev ctlLog2n (v : DWord) : Nat := (v.extractLsb' 4 4).toNat

/-- A grid of an earlier life of a queue: one not yet accepted is dropped with the pointers, and the completion value of another is no
value of the new timeline. -/
def State.forgetQueue (s : State) (q : Nat) : State :=
  { s with grids := (s.grids.filter fun g => !(g.queue == some q && !g.accepted)).map fun g =>
      match g.compl with
      | .queue k _ => if k = q then { g with compl := .none } else g
      | _ => g }

/-- A `qctl` write with ENABLE set, of a queue of virtual function `vf` (R300).  It is ignored when CTX belongs to another virtual function,
or when it would change CTX or LOG2N of a queue that is enabled; setting ENABLE zeroes the pointers and the timeline. -/
def State.enableQueue (s : State) (q vf : Nat) (v : DWord) : State :=
  let x := s.queue q
  if vfOf (qctlCtx v) ≠ vf then s
  else if x.enable then
    (if qctlCtx v ≠ x.ctx ∨ ctlLog2n v ≠ x.log2n then s else s.setQueue { x with vf := vf, prio := qctlPrio v })
  else
    let y := { x with vf := vf, ctx := qctlCtx v, prio := qctlPrio v, log2n := ctlLog2n v, enable := true, wptr := 0, rptr := 0, tl := .reset }
    (s.forgetQueue q).setQueue y

/-- QUEUE_ENABLE (R300): a `qctl` write with ENABLE set, in the owner's window. -/
def execQueueEnable (q : Nat) (v : DWord) (s : State) : Res := .next (s.enableQueue q (s.queue q).vf v)

/-- QUEUE_DISABLE (R300): no further packet is accepted; accepted grids run on. -/
def execQueueDisable (q : Nat) (s : State) : Res := .next (s.onQueue q fun x => { x with enable := false })

/-- QERR_CLEAR (R4, R300): each 1 written clears its bit. -/
def execQerrClear (q : Nat) (v : DWord) (s : State) : Res := .next (s.onQueue q fun x => { x with qerr := x.qerr &&& ~~~v })

/-- A ring's control register written (R322, R336, R364): setting ENABLE zeroes the pointers. -/
def Ring.writeCtl (r : Ring) (v : DWord) : Ring :=
  let r' := { r with ctl := v &&& 0xF1 }
  if bitAt v 0 && !bitAt r.ctl 0 then { r' with wptr := 0, rptr := 0 } else r'

/-- A ring's base register written (R322, R336): a 4 KiB aligned physical address. -/
def Ring.writeBase (r : Ring) (v : DWord) : Ring := { r with base := v &&& 0x000F_FFFF_FFFF_F000 }

/-- Entries of a ring. -/
def Ring.size (r : Ring) : Nat := ringSize (ctlLog2n r.ctl)

/-- Whether the device may write a record: the ring is enabled and not full (R322). -/
def Ring.room (r : Ring) : Bool := bitAt r.ctl 0 && r.wptr - r.rptr != r.size

/-- A read pointer written by software (R322): a value below the old one or above the write pointer is ignored. -/
def Ring.writeRptr (r : Ring) (v : DWord) : Ring := if r.rptr ≤ v.toNat ∧ v.toNat ≤ r.wptr then { r with rptr := v.toNat } else r

/-- The physical address of entry `n` of a ring of `k`-byte records (R322). -/
def Ring.slotAt (r : Ring) (k n : Nat) : Nat := r.base.toNat + k * (n % r.size)

/-- The number under which the physical function's own fault queue is addressed; virtual functions are 0 to 15. -/
def pfIndex : Nat := 16

/-- The fault queue of a function. -/
def State.faultRing (s : State) (vf : Nat) : Ring := if vf = pfIndex then s.pfRing else (s.vf vf).fault
/-- The state with a function's fault queue changed. -/
def State.onFaultRing (s : State) (vf : Nat) (f : Ring → Ring) : State :=
  if vf = pfIndex then { s with pfRing := f s.pfRing } else s.onVf vf fun v => { v with fault := f v.fault }
/-- The records that wait for a function's fault queue. -/
def State.heldRecs (s : State) (vf : Nat) : List FaultRec := if vf = pfIndex then s.pfHeld else (s.vf vf).held
/-- The state with the waiting records of a function replaced. -/
def State.setHeld (s : State) (vf : Nat) (rs : List FaultRec) : State :=
  if vf = pfIndex then { s with pfHeld := rs } else s.onVf vf fun v => { v with held := rs }

/-- FAULT_QUEUE_ENABLE (R322). -/
def execFaultQueueEnable (vf : Nat) (v : DWord) (s : State) : Res := .next (s.onFaultRing vf fun r => r.writeCtl v)

/-- FAULT_QUEUE_READ_POINTER (R322). -/
def execFaultQueueReadPointer (vf : Nat) (v : DWord) (s : State) : Res := .next (s.onFaultRing vf fun r => r.writeRptr v)

/-- COUNT of a record (R322, R356): the threads parked on the token now, and at least 1 for a read kept as a replay entry. -/
def State.recCount (s : State) (r : FaultRec) : Nat :=
  if r.source ≠ 0 then 0
  else
    match s.token? r.token with
    | some t => if t.replays.isEmpty then t.threads.length else max 1 t.threads.length
    | none => 0

/-- The bytes of a fault record (R322). -/
def State.recBytes (s : State) (r : FaultRec) : List Byte :=
  bytesOf 8 r.va.toNat ++ bytesOf 1 r.cls ++ bytesOf 1 r.code ++ bytesOf 1 r.access ++ bytesOf 1 r.source ++ bytesOf 2 r.unit
    ++ bytesOf 2 (s.recCount r) ++ bytesOf 4 (r.ctx % 4096) ++ bytesOf 4 r.token ++ bytesOf 8 r.pc.toNat ++ bytesOf 8 r.gindex.toNat
    ++ bytesOf 8 r.extra.toNat ++ List.replicate 16 0

/-- Waiting dump records written while the dump ring has room (R368), and the pointer where the next one would go when that address does
not exist. -/
def State.flushDumps (vf : Nat) : List Dump → State → Res
  | [], s => .next (s.onVf vf fun v => { v with dumps := [] })
  | d :: rest, s =>
    let r := (s.vf vf).dump
    if !r.room then .next (s.onVf vf fun v => { v with dumps := d :: rest })
    else
      let pa := r.slotAt 768 r.wptr
      if !paOk pa 768 then .fault (.absentPhysical pa)
      else State.flushDumps vf rest (((s.post (ccpAgent vf) pa (padBytes 768 d.bytes)).onVf vf fun v => { v with dump := { v.dump with wptr := v.dump.wptr + 1 } }).raise vf vecDump)
where
  /-- Bytes with zeros after them. -/
  padBytes (n : Nat) (bs : List Byte) : List Byte := (bs ++ List.replicate (n - bs.length) 0).take n

/-- Whether a thread whose fault is recorded has accesses before the faulting one that have not been performed (R106).  A read kept as a
replay entry, and what waits for it, hold no record back. -/
def State.behindOpen (s : State) (b : Nat × Nat × Nat × Nat) : Bool :=
  let mine := (s.core b.1).ops.filter fun o => o.of b.2.1 b.2.2.1 && o.isAccess && decide (o.id < b.2.2.2)
  let kept (o : Op) : Bool := match o.stage with
    | .replay _ => true
    | _ => false
  mine.any (fun o => o.stage != .done) && !mine.any kept

/-- The waiting records that may be written: one behind a dump record that still waits is held back (R368), and one of a thread whose
earlier accesses have not been performed (R106). -/
def State.writable (s : State) (vf : Nat) (r : FaultRec) : Bool :=
  !(r.behind.any s.behindOpen) && match r.dump with
    | some n => !((s.vf vf).dumps.any fun d => d.num == n)
    | none => true

/-- One fault record written, released and signalled (R322). -/
def State.writeRecord (s : State) (vf : Nat) : Res :=
  let r := s.faultRing vf
  match (s.heldRecs vf).find? (s.writable vf) with
  | none => .next s
  | some x =>
    if !r.room then .next s
    else
      let pa := r.slotAt 64 r.wptr
      if !paOk pa 64 then .fault (.absentPhysical pa)
      else
        let s := (s.post (ccpAgent vf) pa (s.recBytes x)).setHeld vf ((s.heldRecs vf).erase x)
        .next ((s.onFaultRing vf fun r => { r with wptr := r.wptr + 1 }).raise vf vecFault)

/-- FAULT_RECORD_WRITE (R322, R368): dump records come before the fault records that name them. -/
def execFaultRecordWrite (vf : Nat) (s : State) : Res :=
  if vf = pfIndex then s.writeRecord vf
  else
    match State.flushDumps vf (s.vf vf).dumps s with
    | .next s => s.writeRecord vf
    | r => r

/-- DUMP_RING_ENABLE (R364). -/
def execDumpRingEnable (vf : Nat) (v : DWord) (s : State) : Res := .next (s.onVf vf fun x => { x with dump := x.dump.writeCtl v })

/-- Fault records written one by one, at most as many as wait. -/
def writeRecords (vf : Nat) : Nat → State → Res
  | 0, s => .next s
  | n + 1, s =>
    match s.writeRecord vf with
    | .next s => writeRecords vf n s
    | r => r

/-- DUMP_RING_READ_POINTER (R368): the entries freed let held dump records be written, and the fault records behind them. -/
def execDumpRingReadPointer (vf : Nat) (v : DWord) (s : State) : Res :=
  let s := s.onVf vf fun x => { x with dump := x.dump.writeRptr v }
  match State.flushDumps vf (s.vf vf).dumps s with
  | .next s => writeRecords vf (s.vf vf).held.length s
  | r => r

/-- `trctl` as it is stored (R369): SEGLOG above 12 is stored as 12. -/
def traceCtl (v : DWord) : DWord :=
  (v &&& 0xFF03) ||| BitVec.ofNat 64 (16 * min 12 (v.extractLsb' 4 4).toNat)

/-- `jrctl` as it is stored (R370): K outside 6 to 16 is stored as the nearer limit. -/
def journeyCtl (v : DWord) : DWord :=
  (v &&& 0x1) ||| BitVec.ofNat 64 (16 * max 6 (min 16 (v.extractLsb' 4 5).toNat)) ||| BitVec.ofNat 64 (4096 * min 12 (v.extractLsb' 12 4).toNat)

/-- The segments of a buffer whose counts are to be written when EN is set: those of the function's cores (R369). -/
def Vf.allHeads (v : Vf) (journey : Bool) : List (Bool × Nat) :=
  v.headPend.filter (fun x => x.1 != journey) ++ ((List.range 160).filter fun c => bitAt v.vcore c).map fun c => (journey, c)

/-- TRACE_BUFFER_ENABLE (R369, R370): setting EN restarts each segment's WRITTEN, in the segment's first bytes too. -/
def execTraceBufferEnable (vf : Nat) (journey : Bool) (v : DWord) (s : State) : Res :=
  .next (s.onVf vf fun x =>
    if journey then
      let on := bitAt v 0 && !bitAt x.jrctl 0
      let segs := if on then x.jrWritten.map fun t => (t.1, 0, t.2.2) else x.jrWritten
      { x with jrctl := journeyCtl v, jrWritten := segs, headPend := if on then x.allHeads true else x.headPend }
    else
      let on := bitAt v 0 && !bitAt x.trctl 0
      let segs := if on then x.trWritten.map fun t => (t.1, 0, t.2.2) else x.trWritten
      { x with trctl := traceCtl v, trWritten := segs, headPend := if on then x.allHeads false else x.headPend })

/-- The control register of a breakpoint as it is stored (R364, R385): a context of another function, or the debug-disable fuse, clears
EN. -/
def State.bpcValue (s : State) (vf : Nat) (v : DWord) : DWord :=
  let v := v &&& ~~~(0x3F00_0000_0000_0000)
  if vfOf (v.extractLsb' 44 12).toNat ≠ vf ∨ s.fuses.debugDisable then v &&& ~~~(1#64 <<< 63) else v

/-- BREAKPOINT_CONTROL_WRITE (R364). -/
def execBreakpointControlWrite (vf k : Nat) (v : DWord) (s : State) : Res :=
  .next (s.onVf vf fun x => { x with bpc := x.bpc.set k (s.bpcValue vf v) })

end Sys2Proof.Machine
end

