-- ==== Sys2Proof/Machine/CodeRing.lean ====
section
/-! DEFINITION. The code command ring: loading, replacing and unloading code (R259, R336-R340). -/

namespace Sys2Proof.Machine

/-- CODE_RING_ENABLE (R336). -/
def execCodeRingEnable (vf : Nat) (v : DWord) (s : State) : Res := .next (s.onVf vf fun x => { x with code := x.code.writeCtl v })

/-- CODE_RING_DOORBELL (R301, R336): a value that R301 would not accept is ignored. -/
def execCodeRingDoorbell (vf : Nat) (v : DWord) (s : State) : Res :=
  .next (s.onVf vf fun x =>
    if doorbellOk x.code.rptr x.code.wptr x.code.size v.toNat then { x with code := { x.code with wptr := v.toNat } } else x)

/-- OPC of a code command (R337). -/
abbrev cmdOpc (c : List Byte) : Nat := fieldAt c 0 1
/-- OBJ. -/
abbrev cmdObj (c : List Byte) : Nat := fieldAt c 2 2
/-- CTX. -/
abbrev cmdCtx (c : List Byte) : Nat := fieldAt c 4 2
/-- KCOUNT. -/
abbrev cmdKcount (c : List Byte) : Nat := fieldAt c 6 2
/-- CODEBASE. -/
abbrev cmdBase (c : List Byte) : Nat := fieldAt c 8 8
/-- CODESIZE. -/
abbrev cmdSize (c : List Byte) : Nat := fieldAt c 0x10 8
/-- LIST. -/
abbrev cmdList (c : List Byte) : Nat := fieldAt c 0x18 8

/-- The records of a list (R337): KIDX and the 32-byte entry. -/
def listRecords (n : Nat) (bs : List Byte) : List (Nat × List Byte) :=
  (List.range n).map fun i => (fieldAt bs (40 * i) 2, (bs.drop (40 * i + 8)).take 32)

/-- STATUS 0x81 by the command's own bytes (R337). -/
def cmdReserved (c : List Byte) : Bool :=
  let opc := cmdOpc c
  !(1 ≤ opc && opc ≤ 3) || fieldAt c 1 1 != 0 || decide (4096 ≤ cmdCtx c) || decide (1024 < cmdKcount c) || fieldAt c 0x20 24 != 0
    || (opc == 3 && cmdKcount c != 0)
    || (opc == 1 && (cmdBase c % 8 != 0 || cmdSize c % 8 != 0 || decide (cmdSize c < 8)))

/-- Whether an object slot is in the state that the command needs (R338-R340). -/
def objReady (c : Ctx) (opc obj : Nat) : Bool :=
  match c.objs.find? fun o => o.1 == obj with
  | none => opc == 1 && decide (obj < 1024)
  | some (_, .loaded _ _) => opc == 2 || opc == 3
  | some (_, .retiring _ _ _ _) => false

/-- Whether an entry breaks R259. -/
def badEntry (e : List Byte) : Bool :=
  fieldAt e 0x18 4 % 16 != 0 || decide (2 ^ 20 < fieldAt e 0x18 4) || fieldAt e 0x1D 3 != 0

/-- The agent that reads a command's list: the dispatcher of die 0, which changes the kernel tables (R337, R339). -/
def codeAgent (vf ctx : Nat) : Agent := dieAgent (2 ^ 65 + vf) ctx 0 0

/-- Whether an address of code holds an ENTRY header in the range of an object (R108, R337). -/
def State.entryIn (s : State) (ctx base size : Nat) (m : PageMap) (code : Nat) : Bool :=
  decide (base ≤ code) && decide (code + 8 ≤ base + size) && code % 8 == 0
    && (match pageFind m (BitVec.ofNat 64 code) with
        | some _ => (readHeader (BitVec.ofNat 64 (natOf (s.readVa 0 m (BitVec.ofNat 64 code) 8)))).isEntry
        | none => (readHeader (BitVec.ofNat 64 (natOf (s.peek ctx (BitVec.ofNat 64 code) 8)))).isEntry)

/-- The STATUS of the checks on the records of LIST (R337-R339): 0x85, 0x86 or 0x87, and 0 when they pass. -/
def State.listStatus (s : State) (c : Ctx) (opc base size : Nat) (m : PageMap) (rs : List (Nat × List Byte)) : Nat :=
  let valid (k : Nat) : Bool := (s.entryOf c k).isSome
  let ks := rs.map (·.1)
  if ks.any (fun k => decide (c.ktsize ≤ k)) || decide (ks.eraseDups.length ≠ ks.length)
      || ks.any (fun k => if opc = 1 then valid k else !valid k) then 0x85
  else if rs.any fun r => !s.entryIn c.num base size m (fieldAt r.2 0 8) then 0x86
  else if rs.any fun r => badEntry r.2 then 0x87
  else 0

/-- The command that the ring gives next, with its physical address. -/
def State.codeCommand (s : State) (vf : Nat) : Option (Nat × List Byte) :=
  let r := (s.vf vf).code
  if bitAt r.ctl 0 && decide (r.rptr < r.wptr) then
    let pa := r.slotAt 64 r.rptr
    some (pa, s.bytes pa 64)
  else none

/-- A command is over (R337): its STATUS is written, and the ring's vector fires. -/
def State.endCommand (s : State) (vf pa status : Nat) : State :=
  ((s.post (ccpAgent vf) (pa + 0x38) (bytesOf 8 status)).onVf vf fun x => { x with code := { x.code with rptr := x.code.rptr + 1 } }).raise vf vecCode

/-- The host's part of a command's list cannot be read (R337): the command fails with STATUS 0x84. -/
def State.listFails (s : State) (vf : Nat) : State :=
  match s.codeCommand vf with
  | some (pa, _) => (s.hostForget (codeAgent vf 0).owner).endCommand vf pa 0x84
  | none => s

/-- The new entries of a switch (R339), in a table at an address: each is written as one unit, and the object that owns it is kept. -/
def State.writeEntries (s : State) (ctx table obj : Nat) (rs : List (Nat × List Byte)) : State :=
  rs.foldl (fun s r =>
    (s.post (ccpAgent (vfOf ctx)) (table + 32 * r.1) r.2).onCtx ctx fun c =>
      { c with owners := upsert (fun o => o.kidx == r.1) ⟨r.1, obj⟩ c.owners, switchAt := some s.clock }) s

/-- The fetched code of a virtual function's cores dropped (R338): L1, and every clause whose execution has not begun. -/
def State.dropFetched (s : State) (vf : Nat) : State :=
  let mine (c : Nat) : Bool := bitAt (s.vf vf).vcore c
  let clear (t : Stream) : Stream :=
    match t.pack with
    | some k => if k.pos.isNone && k.nib == 0 then { t with pack := some { k with clause := none } } else t
    | none => t
  { s with cores := s.cores.map fun c => if mine c.idx then c.flash else c
           parts := s.parts.map fun q => if mine q.core then { q with streams := q.streams.map clear } else q }

/-- A context as a command sees it (R337, R380): with the registers of its descriptor when it has no accepted grid; none when the descriptor
lies where no memory is. -/
def State.codeCtx (s : State) (ctx : Nat) : Option Ctx :=
  if s.active ctx then some (s.ctx ctx)
  else if paOk (s.descriptorAt ctx) 128 then some ((s.ctx ctx).load (s.bytes (s.descriptorAt ctx) 128))
  else none

/-- A LOAD or a REPLACE that passes: the object, and the switch (R338, R339). -/
def State.loadDone (s : State) (vf : Nat) (c : Ctx) (opc obj base size : Nat) (rs : List (Nat × List Byte)) : State :=
  let s := if opc = 1 then (s.dropFetched vf).onCtx c.num fun c => { c with objs := c.objs ++ [(obj, .loaded base size)] } else s
  (s.writeEntries c.num c.ktbase.toNat obj rs).onCtx c.num fun c => { c with switchAt := some s.clock }

/-- A LOAD or a REPLACE with its list (R337-R339); one that fails changes nothing. -/
def State.loadCommand (s : State) (vf pa : Nat) (cmd : List Byte) : Res :=
  let opc := cmdOpc cmd
  let ctx := cmdCtx cmd
  let obj := cmdObj cmd
  let n := cmdKcount cmd
  let g := codeAgent vf ctx
  let done (s : State) (st : Nat) : Res :=
    .next (((s.hostForget g.owner).onCtx ctx fun c => { c with cmdRoot := none }).endCommand vf pa st)
  if !objReady (s.ctx ctx) opc obj then .next (s.endCommand vf pa 0x82)
  else if vfOf ctx ≠ vf then .next (s.endCommand vf pa 0x83)
  else
    match s.codeCtx ctx with
    | none => .fault (.absentPhysical (s.descriptorAt ctx))
    | some c =>
      let s := if s.active ctx then s else s.onCtx ctx fun x => { x with cmdRoot := some c.ptbase }
      let (base, size) := match c.objs.find? fun o => o.1 == obj with
        | some (_, .loaded b k) => (b, k)
        | _ => (cmdBase cmd, cmdSize cmd)
      match s.xlateRanges g (if opc = 1 then [(.fetch, BitVec.ofNat 64 base, size)] else []) with
      | (.bad _ _ _ _, s) => done s 0x84
      | (.wait, s) => .next s
      | (.ok m, s) =>
        match s.dispReadOpt g (cmdList cmd) (40 * n) with
        | (.wait, s) => .next s
        | (.bad _ _ _ _, s) => done s 0x84
        | (.ok bs, s) =>
          let rs := listRecords n bs
          let reserved := (List.range n).any fun i => fieldAt bs (40 * i + 2) 6 != 0
          let st := if reserved then 0x81 else s.listStatus c opc base size m rs
          if st ≠ 0 then done s st
          else
            match (rs.map fun r => c.entryPa r.1).find? fun a => !paOk a 32 with
            | some a => .fault (.absentPhysical a)
            | none => done (s.loadDone vf c opc obj base size rs) 1

/-- An UNLOAD (R340). -/
def State.unloadCommand (s : State) (vf pa : Nat) (cmd : List Byte) : Res :=
  let ctx := cmdCtx cmd
  let obj := cmdObj cmd
  if !objReady (s.ctx ctx) 3 obj then .next (s.endCommand vf pa 0x82)
  else if vfOf ctx ≠ vf then .next (s.endCommand vf pa 0x83)
  else
    match s.codeCtx ctx with
    | none => .fault (.absentPhysical (s.descriptorAt ctx))
    | some c =>
      let mine := c.owners.filter fun o => o.obj == obj
      let s := mine.foldl (fun s o => s.post (ccpAgent vf) (c.entryPa o.kidx) (List.replicate 32 0)) s
      let n := (s.grids.filter fun g => g.ctx == ctx && g.accepted && !g.finished).length
      let retire (o : Nat × ObjState) : Nat × ObjState :=
        match o.2 with
        | .loaded b k => if o.1 = obj then (o.1, .retiring b k n pa) else o
        | _ => o
      let objs := if n = 0 then c.objs.filter fun o => o.1 != obj else c.objs.map retire
      let s := s.onCtx ctx fun c => { c with owners := c.owners.filter fun o => o.obj != obj, objs := objs, switchAt := some s.clock }
      .next (s.endCommand vf pa (if n = 0 then 3 else 2))

/-- The next command of a ring, if it is one that the row takes (R336, R337). -/
def State.takeCommand (s : State) (vf : Nat) (takes : Nat → Bool) (run : Nat → List Byte → State → Res) : Res :=
  match s.codeCommand vf with
  | none => .next s
  | some (pa, cmd) =>
    if !paOk pa 64 then .fault (.absentPhysical pa)
    else if !takes (cmdOpc cmd) then .next s
    else if cmdReserved cmd then .next (s.endCommand vf pa 0x81)
    else run pa cmd s

/-- LOAD (R337, R338); a command with a reserved OPC is ended here, with STATUS 0x81. -/
def execCodeLoad (vf : Nat) (s : State) : Res :=
  s.takeCommand vf (fun o => o != 2 && o != 3) fun pa cmd s => s.loadCommand vf pa cmd

/-- REPLACE (R339). -/
def execCodeReplace (vf : Nat) (s : State) : Res := s.takeCommand vf (fun o => o == 2) fun pa cmd s => s.loadCommand vf pa cmd

/-- UNLOAD (R340). -/
def execCodeUnload (vf : Nat) (s : State) : Res := s.takeCommand vf (fun o => o == 3) fun pa cmd s => s.unloadCommand vf pa cmd

end Sys2Proof.Machine
end

