-- ==== Sys2Proof/Machine/FnLoads.lean ====
section
/-! DEFINITION. Function register loads at work (R101, R102, R185, R191, R353, R356): reading a descriptor, a read that fails, and the switch. -/

namespace Sys2Proof.Machine

/-- Whether the older accesses that a load's reader has in flight, its matrix words among them, allow its read (R101, R102, R106). -/
def State.loadReady (s : State) (core : Nat) (l : FnLoad) : Bool :=
  match l.slots with
  | [] => true
  | sl :: _ => !((s.core core).ops.any fun o => o.of l.part sl && decide (o.id < l.id) && (s.opHolds core o true || o.isStore))
    && !((s.arrayOf core).array.any fun a => a.core == core && a.part == l.part && a.slots.contains sl && decide (a.id < l.id) && !a.made)

/-- A load of a core replaced. -/
def State.setLoad (s : State) (core : Nat) (l : FnLoad) : State :=
  s.onCore core fun c => { c with loads := c.loads.map fun x => if x.id = l.id then l else x }

/-- A load of a core removed. -/
def State.dropLoad (s : State) (core id : Nat) : State := s.onCore core fun c => { c with loads := c.loads.filter fun x => x.id != id }

/-- The address that a descriptor's read has come to, which its fault names (R322). -/
def FnLoad.next (l : FnLoad) : DWord := l.addr + BitVec.ofNat 64 l.got.length

/-- A descriptor read that has failed (R185, R191, R353, R356): the issuing threads park at the word, or the team's start is held. -/
def State.loadFails (s : State) (core : Nat) (l : FnLoad) (cls code : Nat) : State :=
  let s := s.dropLoad core l.id
  match l.team with
  | none => s.parkAtWord core l.part l.slots l.flag cls code l.next l.trap l.at_
  | some t =>
    match s.team? core t with
    | some tm => s.holdStart { tm with preloads := (l.reg, l.addr) :: tm.preloads } cls code 0 l.next
    | none => s

/-- The bytes of a descriptor to read next: 64 of header, and then the segments that its NSEG names (R185). -/
def FnLoad.want (l : FnLoad) : Nat := if l.got.length < 64 then 64 else fnSize (fnByte l.got 0)

/-- One piece of a descriptor's read, within a page (R185 step 1): a fault, the load as it then stands, and the state.  A host range is
read by a request whose completion brings the piece. -/
def State.readPiece (s : State) (core : Nat) (l : FnLoad) : Option (Nat × Nat) × FnLoad × State :=
  if l.want ≤ l.got.length then (none, { l with image := some l.got }, s)
  else
    let va := l.next
    let n := min (l.want - l.got.length) (4096 - va.toNat % 4096)
    let g := coreAgent l.id l.ctx core
    match s.xlateUnit g .read va with
    | (.bad cls code, s) => (some (cls, code), l, s.hostForget l.id)
    | (.miss, s) => (none, l, s)
    | (.ok pa loc _, s) =>
      let m : PageMap := [(va.toNat / 4096, pa - va.toNat % 4096, loc)]
      if loc ≠ 0 then
        if s.hostOut.any fun r => r.owner.isNone && r.core == core && r.op == l.id then (none, l, s)
        else
          let (id, s) := s.newId
          (none, l, s.hostRequest ⟨id, core, l.id, none, .hostRead id (vfOf l.ctx) pa n, s.clock, .none, va⟩)
      else if !s.mayServeVa g .row m [(va, n)] then (none, l, s.askVa g .row m [(va, n)])
      else
        let s := s.hostForget l.id
        if (s.poisonVa m [(va, n)]).isSome then (some (0x12, 0), l, s) else (none, { l with got := l.got ++ s.bytes pa n }, s)

/-- A descriptor's read, as far as it goes in a step: at most two pieces of the header, two of the segments, and its end. -/
def State.readLoad (s : State) (core : Nat) (l : FnLoad) : Option (Nat × Nat) × FnLoad × State :=
  (List.range 5).foldl (fun r _ => if r.1.isSome || r.2.1.image.isSome then r else r.2.2.readPiece core r.2.1) (none, l, s)

/-- The loads of a register that have not read their descriptors read them, in issue order (R185 step 1). -/
def State.readLoads (s : State) (core reg : Nat) : State :=
  ((s.core core).loads.filter fun l => l.reg == reg && l.image.isNone).foldl (fun s l =>
    if !s.loadReady core l then s
    else
      match s.readLoad core l with
      | (some (cls, code), l, s) => s.loadFails core l cls code
      | (none, l, s) => s.setLoad core l) s

/-- FNLD_SWITCH (R185): loads of a register read their descriptors as soon as they may.  The oldest writes the inactive copy, when no apply
pins it, during 2 + min(NSEG, 32) clocks, and switches it active in the last of them; the flags clear in that clock. -/
def execFnldSwitch (core reg : Nat) (s : State) : Res :=
  let late := (s.core core).halting && (s.core core).drainAt != 0 && decide ((s.core core).drainAt ≤ s.clock)
  if late then .next s
  else
    let s := s.readLoads core reg
    let c := s.core core
    match c.loads.find? fun l => l.reg == reg with
    | none => .next (s.settle core)
    | some l =>
      match l.image, l.since with
      | none, _ => .next s
      | some _, none =>
        if c.pinned reg (c.fn reg).old.gen then .next (s.settle core) else .next ((s.setLoad core { l with since := some s.clock }).settle core)
      | some image, some t =>
        if s.clock < t + 1 + min (fnByte image 0) 32 then .next s
        else
          let s := (s.dropLoad core l.id).onCore core fun c => { c with fns := c.fns.set reg ((c.fn reg).switch reg image) }
          .next ((l.slots.foldl (fun s sl => s.flagClears core l.part sl l.flag) s).settle core)

end Sys2Proof.Machine
end

