-- ==== Sys2Proof/Machine/Shared.lean ====
section
/-! DEFINITION. The shared points of the memory system (R53, R81-R94, R99, R168, R310-R312, R370): line requests, the die-to-die link, the LLC slices, the controllers and Inkwell. -/

namespace Sys2Proof.Machine

/-- BUDGET_WINDOW_START (R310, R311). -/
def execBudgetWindowStart (pt : Point) (s : State) : Res :=
  let ps := s.point pt
  if ps.next ≤ s.clock then .next (s.setPoint { ps with used := List.replicate 8 0, next := ps.next + 4096 }) else .next s

/-- Whether a request is that of an access in flight (R168): one of its word to its line of device memory. -/
def Req.carries (r : Req) (o : Op) : Bool := r.by_.isNone && !r.wb && o.word == r.word && o.lineKey == r.line && o.loc == 0 && o.isGlobal

/-- The operations of a core that one request carries, oldest first, at a stage. -/
def Core.carried (c : Core) (r : Req) (at_ : Stage → Bool) : List Op := c.ops.filter fun o => r.carries o && at_ o.stage

/-- The operations that a request carries move on. -/
def State.moveReq (s : State) (r : Req) (at_ : Stage → Bool) (to_ : Stage) (hop : Nat) : State :=
  s.onCore r.core fun c => { c with ops := c.ops.map fun o => if r.carries o && at_ o.stage then o.enter to_ hop s.clock else o }

/-- The physical address that a request names. -/
def Req.pa (r : Req) : Nat := r.line / 33 * 32

/-- The request of an agent is served: the agent may use its line (R94); nothing waits for a posted write. -/
def State.grantTo (s : State) (a : Asker) (r : Req) : State :=
  if a.how = .posted then s else { s with granted := s.granted ++ [⟨a.owner, r.line / 33, a.how⟩] }

/-- Whether a load may be served by L1 (R82, R83, R102). -/
def Op.usesL1 (o : Op) : Bool :=
  o.isLoad && o.policy == 0 && o.col == 0 && o.loc == 0 && !(o.order % 2 == 1 && decide (4 ≤ o.scope))

/-- Whether a line request counts for the journey records (R370). -/
def Op.counted (o : Op) : Bool :=
  match o.kind with
  | .load | .store | .atomic _ | .reduction _ | .spill | .refill => true
  | _ => false

/-- The bytes of a host range that an access of a column or of a row touches, as one read. -/
def Op.hostSpan (o : Op) : Nat := if o.col = 0 then o.size else 32 * (32 / o.col - 1) + o.col

/-- What an access of a host range sends on the host link (R377, R390). -/
def State.sendAccess (s : State) (core : Nat) (o : Op) : State :=
  let vf := vfOf o.ctx
  let put (s : State) (mk : Nat → Out) : State :=
    let (id, s) := s.newId
    s.hostRequest ⟨id, core, o.id, none, mk id, s.clock, .none, o.va⟩
  match o.kind with
  | .load | .refill | .patchLoad => put s fun id => .hostRead id vf o.pa o.hostSpan
  | .store | .spill | .patchSave =>
    if o.col = 0 then put s fun id => .hostWrite id vf o.pa o.data
    else (List.range (32 / o.col)).foldl (fun s j =>
      put s fun id => .hostWrite id vf (o.pa + 32 * j) ((o.data.drop (o.col * j)).take o.col)) s
  | .atomic op | .reduction op => put s fun id => .hostAtomic id vf o.pa op o.data o.data2
  | _ => s

/-- Whether two accesses share a line request (R168): those of one word to one line. -/
def Op.shares (a b : Op) : Bool := a.word == b.word && a.lineKey == b.lineKey && a.loc == b.loc

/-- The translated accesses of a partition that wait for their line requests. -/
def Core.unsent (c : Core) (part : Nat) : List Op :=
  c.ops.filter fun o => o.part == part && o.stage == .queued && o.isGlobal && o.xlated

/-- Whether nothing keeps an access from its line request: what it waits for, or the value that a spill stores (R275). -/
def State.mayGo (s : State) (core : Nat) (o : Op) : Bool := !s.waits core o && !(o.kind == .spill && o.data.isEmpty)

/-- The accesses of a partition whose line requests may be sent (R26, R168): a request goes once every access that shares it may go, so
that the accesses of a pack to one location are performed in pack order. -/
def State.sendable (s : State) (core part : Nat) : List Op :=
  let all := (s.core core).unsent part
  all.filter fun o => all.all fun x => !x.shares o || s.mayGo core x

/-- The oldest word first, and within a word the lowest slot (R168). -/
def Op.sendsBefore (a b : Op) : Bool := decide (a.word < b.word) || (a.word == b.word && decide (a.slot < b.slot))

/-- The first of a list by an order. -/
def firstBy {α : Type} (before : α → α → Bool) : List α → Option α
  | [] => none
  | x :: rest =>
    match firstBy before rest with
    | none => some x
    | some y => if before y x then some y else some x

/-- Sample a request (R370): the count reaches a multiple of 2^K, and the thread of lowest slot takes the sample. -/
def State.sample (s : State) (core : Nat) (o : Op) : State :=
  if !o.counted then s
  else
    let n := (s.core core).journey + 1
    let s := s.onCore core fun c => { c with journey := n }
    let j := (s.vf (vfOf o.ctx)).jrctl
    if bitAt j 0 && n % 2 ^ (j.extractLsb' 4 5).toNat == 0 then s.setOp core { o with sampled := true } else s

/-- Accesses that share a request move on. -/
def State.moveOps (s : State) (core : Nat) (os : List Op) (st : Stage) (hop : Nat) : State :=
  let ids := os.map (·.id)
  s.onCore core fun c => { c with ops := c.ops.map fun x => if ids.contains x.id then x.enter st hop s.clock else x }

/-- Loads served by a line of L1 (R81). -/
def State.serveL1 (s : State) (core : Nat) (os : List Op) (l : L1Line) : State :=
  let sets := s.l1Sets core
  let s := s.onCore core fun c => c.l1Put sets l.line l.data
  os.foldl (fun s x =>
    match (s.core core).op? x.id with
    | some x =>
      let bs := (l.data.drop (x.pa % 32)).take x.size
      let x := if x.kind = OpKind.patchLoad then { x with data2 := bs }
        else { x with vals := if x.kind = OpKind.refill then wordsOfBytes 2 bs else x.loaded bs }
      s.setOp core (x.enter .done 0 s.clock)
    | none => s) s

/-- The place where a request is served on its die: its home slice, or its Inkwell bank group (R84, R88), which an agent's request meets no
queue at (log 15). -/
def State.arrive (s : State) (r : Req) (at_ : Stage → Bool) (hop : Nat) : State :=
  if isInk r.pa then
    match r.by_ with
    | some a => s.grantTo a r
    | none => s.moveReq r at_ (.inkwell (inkGroupOf r.pa)) hop
  else (s.moveReq r at_ (.slice (s.home r.pa)) hop).toSlice (s.home r.pa) r

/-- One line request sent (R81, R82, R84, R94, R168).  A prefetch is not served by L1: it brings its line into the LLC (R173). -/
def State.sendOne (s : State) (core part : Nat) : State :=
  let cand := s.sendable core part
  match firstBy Op.sendsBefore cand with
  | none => s
  | some o =>
    let r : Req := ⟨0, core, o.word, o.lineKey, 0, false, none⟩
    let mine := cand.filter fun x => x.shares o
    let s := s.sample core o
    if o.loc ≠ 0 then mine.foldl (fun s x => s.sendAccess core x) (s.moveOps core mine .host 0)
    else
      match (if o.usesL1 && o.kind != .prefetch then (s.core core).l1Find (o.pa / 32) else none) with
      | some l => s.serveL1 core mine l
      | none =>
        if isHbm o.pa && s.homeless o.pa then mine.foldl (fun s x => s.performGlobal core (x.enter .done 0 s.clock)) s
        else if s.dieAt o.pa = dieOf core then s.arrive r (fun st => st == .queued) 0
        else
          let s := s.moveOps core mine (.link (dieOf core)) 0
          { s with linkQ := s.linkQ ++ [⟨dieOf core, 0, .slice (s.home o.pa) r, 0⟩] }

/-- LINE_REQUEST_SEND (R102, R168): what waits on the core and needs no line request is done if it may be, and at most two requests go in a
clock. -/
def execLineRequestSend (core part : Nat) (s : State) : Res := .next (((s.settle core).sendOne core part).sendOne core part)

/-- The 64-byte beats of what crosses the die-to-die link (R94, R383): four of a Quill flit, and one of any other. -/
def LinkTo.beats (l : LinkTo) : Nat :=
  match l with
  | .quill _ _ => 4
  | _ => 1

/-- DIE_TO_DIE_LINK_BEAT (R7, R94): one beat of a direction; with its last, what crosses comes to what is now its home, to the host link or to
a Quill port. -/
def execDieToDieLinkBeat (dir : Nat) (s : State) : Res :=
  let q := s.linkQ.filter fun l => l.dir == dir
  match s.chooseClass (.link dir) (q.map (·.cls)) with
  | none => .next s
  | some k =>
    match q.find? fun l => l.cls == k with
    | none => .next s
    | some l =>
      let s := s.countGrant (.link dir) k
      if l.sent + 1 < l.to_.beats then .next { s with linkQ := s.linkQ.map fun x => if x = l then { x with sent := x.sent + 1 } else x }
      else
      let s : State := { s with linkQ := s.linkQ.erase l, ports := s.ports.map fun x => if x.idx = 18 then { x with retries := 0 } else x }
      match l.to_ with
      | .slice _ r => .next (s.arrive r (fun st => st == .link dir) 4)
      | .host r => .next (s.hostAsk r)
      | .quill p f => .next (s.queueFlit p f)

/-- A line request performed: the bytes of its accesses, in the order of their ages (R99), or an agent's line granted. -/
def State.performReq (s : State) (r : Req) (at_ : Stage → Bool) (hop : Nat) : State :=
  match r.by_ with
  | some a => s.grantTo a r
  | none => ((s.core r.core).carried r at_).foldl (fun s o =>
    let s := s.performGlobal r.core o
    match (s.core r.core).op? o.id with
    | some o => s.setOp r.core (o.enter .done hop s.clock)
    | none => s) s

/-- Whether a request writes. -/
def State.reqWrites (s : State) (r : Req) : Bool :=
  match r.by_ with
  | some a => a.how.writes
  | none => (s.core r.core).ops.any fun o => r.carries o && o.isStore

/-- Whether a request is a column access (R86, R87). -/
def Req.column (r : Req) : Bool := r.line % 33 != 0

/-- Whether a request for a sector waits at its memory (R170, R94): a later one does not pass it. -/
def State.sectorPending (s : State) (sec : Nat) : Bool :=
  s.memctls.any fun m => (m.queue ++ m.filled).any fun r => !r.wb && r.pa / 1024 == sec

/-- Whether a request must wait for an agent's read-modify-write that arrived before it and is still to be made (R170): a thread's, or another
read-modify-write, to its line. -/
def State.rmwBefore (s : State) (r : Req) : Bool :=
  let waits := match r.by_ with
    | some a => a.how == .rmw
    | none => true
  waits && s.granted.any fun x => x.how == .rmw && r.by_.map (·.owner) != some x.owner
    && (if r.column then x.line / 32 == r.pa / 1024 else x.line == r.pa / 32)

/-- SLICE_SERVICE (R85, R87, R94, R99): one request of the class whose turn it is, passing over a sector that is being
rewritten; a hit is performed, and a miss goes to the sector's controller. -/
def execSliceService (n : Nat) (s : State) : Res :=
  let x := s.slice n
  let free := x.queue.filter fun r => !x.isRewriting (r.pa / 1024) && !s.rmwBefore r
  match s.chooseClass (.slice n) (free.map (·.cls)) with
  | none => .next s
  | some k =>
    match free.find? fun r => r.cls == k with
    | none => .next s
    | some r =>
      let s := s.countGrant (.slice n) k
      let here (st : Stage) : Bool := st == .slice n
      match (if s.sectorPending (r.pa / 1024) then none else x.sectors.find? fun y => y.addr == r.pa / 1024) with
      | some sec =>
        let s := s.setSlice ({ x with queue := x.queue.erase r }.touch sec r.column (s.reqWrites r) s.clock)
        .next (s.performReq r here 2)
      | none =>
        let pc := s.pcOf r.pa
        let s := s.setSlice { x with queue := x.queue.erase r }
        let m := s.memctl pc
        .next ((s.setMemctl { m with queue := m.queue ++ [{ r with passed := 0 }] }).moveReq r here (.memory pc false) 2)

/-- SECTOR_REORIENT_END (R87): the rewrites of a slice that have taken their 32 clocks. -/
def execSectorReorientEnd (n : Nat) (s : State) : Res :=
  let x := s.slice n
  let ended (a : Nat) : Bool := x.rewriting.any fun r => r.1 == a && decide (r.2 ≤ s.clock)
  .next (s.setSlice { x with rewriting := x.rewriting.filter fun r => decide (s.clock < r.2)
                             sectors := x.sectors.map fun y => if ended y.addr then { y with column := !y.column, cross := 0 } else y })

/-- The row of a request in its pseudo-channel: one 4 KiB unit. -/
def Req.row (r : Req) : Nat := r.pa / 4096

/-- The request of a class that a controller serves (R94): one that 64 younger ones have passed, a row-buffer hit, or the oldest. -/
def MemCtl.pick (m : MemCtl) (k : Nat) : Option Req :=
  let q := m.queue.filter fun r => r.cls == k
  match q.find? fun r => decide (64 ≤ r.passed) with
  | some r => some r
  | none =>
    match q.find? fun r => m.openRow == some r.row with
    | some r => some r
    | none => q.head?

/-- Older requests of a class that a younger one passes (R94). -/
def passOver (r : Req) : List Req → List Req
  | [] => []
  | x :: rest => if x = r then rest else (if x.cls = r.cls then { x with passed := x.passed + 1 } else x) :: passOver r rest

/-- A refresh of HBM4 that asks for a grant of its controller, in class 6 (R310).  DESIGN CHOICE (log 15): the spec gives the refreshes no
schedule, so `Config.refreshAsks` says when one comes. -/
def MemCtl.refreshed (m : MemCtl) (clock : Nat) : MemCtl :=
  if Config.refreshAsks m.idx clock then { m with queue := m.queue ++ [⟨6, 0, 0, 0, 0, true, none⟩] } else m

/-- MEMORY_CONTROLLER_SERVICE (R85, R94, R310): the read of a missing sector, the write-back of an evicted one, or a refresh. -/
def execMemoryControllerService (pc : Nat) (s : State) : Res :=
  let m := (s.memctl pc).refreshed s.clock
  match s.chooseClass (.controller pc) (m.queue.map (·.cls)) with
  | none => .next (s.setMemctl m)
  | some k =>
    match m.pick k with
    | none => .next (s.setMemctl m)
    | some r =>
      let s := s.countGrant (.controller pc) k
      let s := s.setMemctl { m with queue := passOver r m.queue, openRow := if r.cls = 6 then m.openRow else some r.row, filled := if r.wb then m.filled else m.filled ++ [r] }
      .next (if r.wb then s else s.moveReq r (fun st => st == .memory pc false) (.memory pc true) 5)

/-- The way mask and the policy of a request's accesses (R82, R85, R346).  DESIGN CHOICE (log 57): the spec gives policy 0b00 to the reads of
page tables (R95) and of matrix words (R219), and none to the misses of copy engines, Marrow cores, dispatchers and the CCP, which have it
here too. -/
def State.reqPolicy (s : State) (r : Req) : BitVec 16 × Nat :=
  match r.by_ with
  | some a => ((s.vf a.vf).wayMask, 0)
  | none =>
    match (s.core r.core).ops.find? r.carries with
    | some o => ((s.vf (vfOf o.ctx)).wayMask, o.policy)
    | none => (0, 3)

/-- A request whose sector has come back from its stack: the sector is allocated by the policy, and the request performed (R82,
R85, R99). -/
def State.fillReq (s : State) (n : Nat) (r : Req) : State :=
  let (mask, pol) := s.reqPolicy r
  let w := s.reqWrites r
  let s := match (s.slice n).sectors.find? fun y => y.addr == r.pa / 1024 with
    | some sec => s.setSlice ((s.slice n).touch sec r.column w s.clock)
    | none => if pol = 3 then s else s.bringIn n (r.pa / 1024) mask r.cls w r.column (pol == 2)
  s.performReq r (fun st => match st with | .memory _ true => true | _ => false) 6

/-- One request that waits for its sector served from it, unless a rewrite of the sector has begun or an earlier read-modify-write holds its
line (R87, R170). -/
def State.fillOne (n : Nat) (s : State) (x : Nat × Req) : State :=
  if (s.slice n).isRewriting (x.2.pa / 1024) || s.rmwBefore x.2 then s
  else
    let m := s.memctl x.1
    (s.setMemctl { m with filled := m.filled.erase x.2 }).fillReq n x.2

/-- SECTOR_FILL (R85, R87, R99): every request that waits for a sector is served from it, oldest first. -/
def execSectorFill (n sector : Nat) (s : State) : Res :=
  let mine (r : Req) : Bool := r.pa / 1024 == sector && s.home r.pa == n
  .next ((s.memctls.flatMap fun m => (m.filled.filter mine).map fun r => (m.idx, r)).foldl (State.fillOne n) s)

/-- The oldest access that waits at an Inkwell bank group, with its core. -/
def State.inkFirst (s : State) (g : Nat) : Option (Nat × Op) :=
  let all := s.cores.flatMap fun c => (c.ops.filter fun o => o.stage == .inkwell g).map fun o => (c.idx, o)
  firstBy (fun a b => decide (a.2.id < b.2.id)) all

/-- INKWELL_SERVICE (R88, R99): the oldest request of a bank group, outside its refresh window. -/
def execInkwellService (g : Nat) (s : State) : Res :=
  if s.refreshing.contains g then .next s
  else
    match s.inkFirst g with
    | none => .next s
    | some (core, o) => .next (s.performReq ⟨0, core, o.word, o.lineKey, 0, false, none⟩ (fun st => st == .inkwell g) 6)

/-- INKWELL_REFRESH_START (R88). -/
def execInkwellRefreshStart (g : Nat) (s : State) : Res :=
  if refreshPhase s.clock g < 640 ∧ !s.refreshing.contains g then .next { s with refreshing := s.refreshing ++ [g] } else .next s

/-- INKWELL_REFRESH_END (R88). -/
def execInkwellRefreshEnd (g : Nat) (s : State) : Res :=
  if 640 ≤ refreshPhase s.clock g then .next { s with refreshing := s.refreshing.filter fun x => x != g } else .next s

/-- BANK_RESERVATION (R53): what has waited 8 clocks, in any partition of the core, reserves its banks of this one for the next clock. -/
def execBankReservation (core part : Nat) (s : State) : Res :=
  let uses := ((s.portWaits core).filter fun w => decide (8 ≤ w.waited)).flatMap (·.uses)
  let banks := (uses.filter fun u => u.part == part).map (·.bank)
  .next (s.onPart core part fun q => { q with reserved := banks.eraseDups.map fun b => (b, s.clock + 1) })

end Sys2Proof.Machine
end

