-- ==== Sys2Proof/Machine/Landing.lean ====
section
/-! DEFINITION. Results that land and stores that are acknowledged (R34, R81, R83, R96, R102, R134, R275, R298, R353, R371). -/

namespace Sys2Proof.Machine

/-- A journey record's ACCESS code (R371). -/
def Op.accessCode (o : Op) : Nat :=
  if o.col ≠ 0 then 3
  else
    match o.kind with
    | .store | .spill | .patchSave => 1
    | .atomic _ | .reduction _ => 2
    | _ => 0

/-- The ACCESS code of a fault record (R322). -/
def Op.faultAccess (o : Op) : Nat :=
  match o.kind with
  | .store | .spill | .patchSave => 1
  | .atomic _ | .reduction _ => 2
  | _ => 0

/-- HOME of a journey record (R371): the home slice, or 0xFF for Inkwell, a host range or an L1 hit, which brings no line. -/
def State.journeyHome (s : State) (o : Op) : Nat :=
  if o.loc ≠ 0 ∨ isInk o.pa ∨ (o.isLoad && o.line.isEmpty) then 0xFF else s.home o.pa

/-- A journey record (R371), written when a sampled request lands.  The crossbar and the slice's own service take no clocks here, so their hops
stay 0 (log 4). -/
def State.journeyRec (s : State) (core : Nat) (o : Op) : State :=
  if !o.sampled then s
  else
    let o := o.enter .done 7 s.clock
    let sat16 (n : Nat) : Nat := min 65535 n
    let stamp := (s.cycle core).toNat - (s.clock - o.stampAt)
    let r := bytesOf 8 o.gindex ++ bytesOf 8 o.pc.toNat ++ bytesOf 8 o.va.toNat ++ bytesOf 8 stamp ++ bytesOf 2 o.ctx
      ++ bytesOf 1 o.accessCode ++ bytesOf 1 (s.journeyHome o) ++ bytesOf 4 (s.clock - o.stampAt)
      ++ ((List.range 8).flatMap fun i => bytesOf 2 (sat16 (o.hops.getD i 0))) ++ List.replicate 8 0
    s.pushRec core (vfOf o.ctx) true r

/-- Free words for a destination that is left unspecified (R5, R320). -/
def State.freeWords (s : State) (ctx n : Nat) : List Word × State :=
  ((List.range n).map fun i => Config.freeWord ctx (s.freshOf ctx + i), s.drawn ctx n)

/-- A fault that the first clause to wait for a flag will find (R320). -/
def State.markBad (s : State) (core : Nat) (o : Op) (cls code : Nat) : State :=
  match o.flag with
  | none => s
  | some n => (o.slot :: o.also).foldl (fun s sl =>
      s.onThread core o.part sl fun t => { t with badFlags := t.badFlags ++ [(n, cls, code, o.faultAccess, o.va)] }) s

/-- What a landing writes: its destinations and predicates (R34, R35). -/
def State.deliver (s : State) (core : Nat) (o : Op) (ws : List Word) : State :=
  let s := s.writeDests core o.part o.dest ws
  s.onThread core o.part o.slot fun t => o.preds.foldl (fun t p => t.setPred p.1 p.2) t

/-- A value that a landing delivers: the one read, or free words when it read poison or met a fault (R319, R320, R353). -/
def State.landValue (s : State) (core : Nat) (o : Op) : State :=
  match (if o.poisoned then some (0x12, 0) else o.fault) with
  | some (cls, code) =>
    let (ws, s) := s.freeWords o.ctx o.dest.length
    (s.deliver core o ws).markBad core o cls code
  | none => s.deliver core o o.vals

/-- Whether a load was served past L1 (R82, R83). -/
def Op.bypasses (o : Op) : Bool := o.policy != 0 || o.col != 0 || (o.order % 2 == 1 && decide (4 ≤ o.scope))

/-- L1 after a load of device memory returns (R81-R83, R100): a load that bypassed it drops its lines, and another installs its line.  Of
two fills of one line the one performed later stays, and a value that may not be installed leaves no older line behind it. -/
def State.landL1 (s : State) (core : Nat) (o : Op) : State :=
  if o.loc ≠ 0 ∨ o.line.isEmpty then s
  else if o.bypasses then s.onCore core fun c => c.dropLines o.lines false
  else if o.noInstall || o.poisoned then
    if o.kind = .prefetch then s else s.onCore core fun c => { c with l1 := c.l1.filter fun l => l.line != o.pa / 32 }
  else
    let sets := s.l1Sets core
    let older (x : Op) : Bool := x.filling && x.stage == .done && x.sameLine o && decide (x.perf < o.perf)
    s.onCore core fun c => { c.l1Put sets (o.pa / 32) o.line with ops := c.ops.map fun x => if older x then { x with noInstall := true } else x }

/-- A refill that fails after its translation (R126, R320): its thread, wherever it has come since, parks at the refilling `ret`, with
its return stack and K as they were before it.  What the thread has done since stays done: the manual says no more than where it resumes. -/
def State.refillFault (s : State) (core : Nat) (o : Op) (cls code : Nat) : State :=
  let s := s.onCore core fun c => { c with ops := c.ops.filter fun x => !(x.id == o.id || x.awaitsRefill o.part o.slot) }
  match s.thread? core o.part o.slot with
  | none => s
  | some th =>
    match th.undo with
    | none => s
    | some u =>
      let s := s.pull core o.part o.slot
      let s := s.setThread { th with rs := u.rs, spilled := u.spilled, refill := false, undo := none, xlating := none, next := none }
      s.wordFault (s.again th) cls code 0 o.va (opOf u.at_.inst).toNat u.at_ u.to_

/-- The landing of a refill (R275): its value is the one entry on chip, and an entry that a call has moved on since goes to the
spill store that waits for it. -/
def State.landRefill (s : State) (core : Nat) (o : Op) : State :=
  if o.poisoned then s.refillFault core o 0x12 0
  else
    let v : DWord := BitVec.ofNat 64 (natOfWords o.vals)
    let landed (t : Thread) : Thread := { t with refill := false, undo := none }
    let waiting (x : Op) : Bool := x.awaitsRefill o.part o.slot
    if (s.core core).ops.any waiting then
      (s.onThread core o.part o.slot landed).onCore core fun c =>
        { c with ops := c.ops.map fun x => if waiting x then { x with data := bytesOf 8 v.toNat } else x }
    else s.onThread core o.part o.slot fun t => { landed t with rs := v :: t.rs.drop 1 }

/-- The word of a `launch`, as a place where a fault is raised and as a resume point. -/
def Op.wordAt (o : Op) : TrapAt × Target :=
  let w (k : Nat) : DWord := BitVec.ofNat 64 (fieldAt o.data (8 * k) 8)
  let h := readHeader (w 1)
  (⟨o.pc, w 2, w 0, w 1, h.reform && ((o.pc - w 0).toNat == 8 * h.count), false, (w 3).toNat % 2⟩, resumeAt o.pc (w 0) (w 1) o.md)

/-- The landing of a `launch` (R134, R135): the checks, the child, the handle with its mark, and the status predicate.  A packet whose read
met a fault or poison parks the thread at the word, which it executes again. -/
def State.landLaunch (s : State) (core : Nat) (o : Op) (pd : Nat) : State :=
  match (if o.poisoned then some (0x12, 0) else o.fault) with
  | some (cls, code) => s.parkAtWord core o.part [o.slot] (o.flag.getD 0) cls code o.va o.wordAt.1 o.wordAt.2
  | none =>
    let (h, s) := s.launchNow core o
    let ok := h.isSome
    let s := s.deliver core { o with preds := if pd = 7 then [] else [(pd, ok)] } (wordsOf 2 (h.getD 0))
    match o.dest.head? with
    | some (.v _ n) => if ok then s.onThread core o.part o.slot fun t => { t with gridpend := t.gridpend ||| (1#64 <<< (n / 2)) } else s
    | _ => s

/-- The word of an `nret` whose reload is in flight. -/
def Op.nretCur (core : Nat) (o : Op) : Cur :=
  let w (k : Nat) : DWord := BitVec.ofNat 64 (fieldAt o.data (8 * k) 8)
  ⟨core, o.part, (w 3).toNat, o.pc, w 0, w 2, w 1, ((o.pc - w 1).toNat - 8) / 8, (w 4).toNat, w 0⟩

/-- A reload that fails after its translation (R298): the thread, still in patch mode, parks at the `nret`.  PATCHFLT is set, as R298 says of
every fault in patch mode, and PSAVEFLT, as R289 says of a save or a reload. -/
def State.reloadFails (s : State) (core : Nat) (o : Op) (cls code : Nat) : State :=
  let s := s.dropPatchOps core o
  match s.thread? core o.part o.slot with
  | none => s
  | some th =>
    (s.parkFault th cls code 0 o.va 0 none (sameTarget (o.nretCur core))).onCtx o.ctx fun c => { c with ctxerr := c.ctxerr ||| 2 }

/-- The landing of a part of a patch save record: its registers, or its predicates.  The thread leaves patch mode when both have come
(R298). -/
def State.landPatch (s : State) (core : Nat) (o : Op) : State :=
  match s.thread? core o.part o.slot with
  | none => s
  | some th =>
    if o.poisoned then s.reloadFails core o 0x12 0
    else
      let s := s.setThread (if o.size = 32 then th.loadRegs o.data2 else th.loadPreds o.data2)
      if (s.core core).ops.any fun x => x.of o.part o.slot && x.kind == .patchLoad then s
      else s.leavePatch (s.again th) o.md (BitVec.ofNat 64 (natOfWords o.vals)) o.pc (o.nretCur core)

/-- A save store acknowledged (R297): after the last of them the thread is in patch mode, and its filing at the routine is due 8 clocks
later. -/
def State.patchSaved (s : State) (core : Nat) (o : Op) : State :=
  match s.thread? core o.part o.slot with
  | none => s
  | some th =>
    match th.patch with
    | none => s
    | some x =>
      if !x.enter || (s.core core).ops.any fun y => y.of o.part o.slot && y.kind == .patchSave then s
      else (s.setThread { th with patch := some { x with enter := false }, patched := true }).schedule core o.part
        (filing o.slot (normalAt x.emu x.nib) (s.clock + 8) x.pipe)

/-- What a landing does besides clearing its flag (R34). -/
def State.land (s : State) (core : Nat) (o : Op) : State :=
  match o.kind with
  | .load => (s.landL1 core o).landValue core o
  | .prefetch => s.landL1 core o
  | .refill => (s.landL1 core o).landRefill core o
  | .atomic _ => s.landValue core o
  | .launch pd => s.landLaunch core o pd
  | .patchLoad => (s.landL1 core o).landPatch core o
  | .ctlWr n => s.writeCtl o.ctx n (BitVec.ofNat 64 (natOfWords o.vals))
  | _ => s.landValue core o

/-- Whether a thread of the same word's pack launches first: the children of a pack are numbered in pack order (R134). -/
def Core.launchesFirst (c : Core) (o : Op) : Bool :=
  let launch (x : Op) : Bool := match x.kind with
    | .launch _ => true
    | _ => false
  launch o && c.ops.any fun x => launch x && x.word == o.word && decide (x.id < o.id)

/-- Whether an operation lands a result, rather than being acknowledged. -/
def Op.lands (o : Op) : Bool :=
  match o.kind with
  | .store | .reduction _ | .spill | .patchSave => false
  | _ => true

/-- The threads that parked to wait for an access kept as a replay entry are released when it lands (R356). -/
def State.wakeReplay (s : State) (core : Nat) (o : Op) : State :=
  match o.wakes with
  | some n => (o.slot :: o.also).foldl (fun s sl => s.releaseParked n (core, o.part, sl) id) s
  | none => s

/-- RESULT_LAND (R34, R53, R139, R186, R289): a result that has been performed lands in a clock in which its banks are left unclaimed; its
flag clears, and its pins are released.  An acquire at device or system scope invalidates L1 (R102).  A `ctl.wr` writes its register here, as
its flag clears. -/
def execResultLand (core id : Nat) (s : State) : Res :=
  match (s.core core).op? id with
  | none => .next s
  | some o =>
    if o.stage ≠ .done ∨ !o.lands ∨ (s.core core).launchesFirst o then .next s
    else if !s.banksFree core id id (destBanks o.part o.dest) then .next (s.onPart core o.part fun q => q.landWaits id (destBanks o.part o.dest))
    else
      let s := s.takeBanks core id o.part id (destBanks o.part o.dest)
      let s := s.dropOp core id
      let s := s.land core o
      let s := if o.acquires && decide (4 ≤ o.scope) then s.onCore core Core.flash else s
      let s : State := match o.flag with
        | some n => (o.slot :: o.also).foldl (fun (s : State) sl => s.flagClears core o.part sl n) s
        | none => s
      .next (((s.journeyRec core o).wakeReplay core o).settle core)

/-- STORE_ACK (R81, R83, R96, R100, R102): the acknowledgement updates a present line, and the accesses that waited proceed. -/
def execStoreAck (core id : Nat) (s : State) : Res :=
  match (s.core core).op? id with
  | none => .next s
  | some o =>
    if o.stage ≠ .done ∨ o.lands then .next s
    else
      let s := s.dropOp core id
      let s := match o.kind with
        | .store | .spill | .patchSave =>
          if o.loc ≠ 0 then s
          else if o.col ≠ 0 then s.onCore core fun c => c.dropLines o.lines false
          else s.onCore core fun c => (c.l1Store o.pa o.data).dropLines o.lines true
        | _ => if o.loc = 0 then s.onCore core fun c => c.dropLines o.lines false else s
      let s := if o.acquires && decide (4 ≤ o.scope) then s.onCore core Core.flash else s
      let s := if o.kind = .patchSave then s.patchSaved core o else s
      .next (((s.journeyRec core o).wakeReplay core o).settle core)

end Sys2Proof.Machine
end

