-- ==== Sys2Proof/Machine/HostIo.lean ====
section
/-! DEFINITION. The host link (R329, R356, R376, R377, R390): completions, timeouts, page requests and invalidations. -/

namespace Sys2Proof.Machine

/-- A host request is over. -/
def State.dropReq (s : State) (id : Nat) : State := { s with hostReqs := s.hostReqs.filter fun r => r.id != id }

/-- Exactly `n` bytes of what a completion carries. -/
def padTo (n : Nat) (bs : List Byte) : List Byte := (bs ++ List.replicate (n - bs.length) 0).take n

/-- The bytes of a column or row load from what a host read returned (R86). -/
def Op.fromHost (o : Op) (bs : List Byte) : List Byte :=
  if o.col = 0 then bs
  else (List.range (32 / o.col)).flatMap fun j => (bs.drop (32 * j)).take o.col

/-- An operation whose host access has completed (R377): it has been performed. -/
def Op.completed (o : Op) (bs : List Byte) (clock : Nat) : Op :=
  let o := o.enter .done 7 clock
  match o.kind with
  | .load => { o with vals := o.loaded (o.fromHost (padTo o.hostSpan bs)) }
  | .refill => { o with vals := wordsOfBytes 2 (padTo 8 bs) }
  | .patchLoad => { o with data2 := padTo o.size bs }
  | .launch _ => { o with line := padTo 128 bs }
  | .atomic _ => { o with vals := wordsOfBytes (o.size / 4) (padTo o.size bs) }
  | _ => o

/-- Whether an operation has a host request outstanding. -/
def State.opBusy (s : State) (core id : Nat) : Bool := s.hostOut.any fun r => r.owner.isNone && r.core == core && r.op == id

/-- HOST_COMPLETION (R377, R390): a completion of the request of that name; one for a request that is over is discarded (R329). -/
def execHostCompletion (id : Nat) (data : List Byte) (s : State) : Res :=
  match s.hostReqs.find? fun r => r.id == id && !r.pri with
  | none => .next s
  | some r =>
    let s := s.dropReq id
    match r.owner with
    | some o =>
      match r.msg with
      | .hostRead _ _ pa n => .next { s with hostData := s.hostData ++ [⟨o, pa, padTo n data⟩] }
      | _ => .next s
    | none =>
      match (s.core r.core).op? r.op with
      | some o => if o.stage = .host ∧ !s.opBusy r.core r.op then .next (s.setOp r.core (s.judged (o.completed data s.clock))) else .next s
      | none => .next (s.onCore r.core fun c => { c with loads := c.loads.map fun l =>
          if l.id = r.op then { l with got := l.got ++ padTo r.msg.range.2.2 data } else l })

/-- The threads that wait for an access that fails again wait on its new token (R356). -/
def State.rejoin (s : State) (core n : Nat) (o : Op) : State :=
  match o.wakes with
  | none => s
  | some k => (o.slot :: o.also).foldl (fun s sl =>
      match s.thread? core o.part sl, s.token? n with
      | some t, some tk =>
        if t.life = .parked (.fault k) then
          (s.setThread { t with life := .parked (.fault n) }).setToken { tk with threads := tk.threads ++ [(core, o.part, sl)] }
        else s
      | _, _ => s) s

/-- An access kept as a replay entry on the token of its fault (R320, R321, R356): its flag stays set, and the first clause that waits for it
will park the thread. -/
def State.replayOp (s : State) (core : Nat) (o : Op) (cls code : Nat) : State :=
  let th := s.thread? core o.part o.slot
  let (n, s) := s.takeToken core
    { vf := vfOf o.ctx, cls := cls, code := code, access := o.faultAccess, source := 0, unit := core, ctx := o.ctx, token := 0, va := o.va
      pc := o.pc, gindex := BitVec.ofNat 64 ((th.map (·.gindex)).getD 0), extra := 0, dump := none, behind := none }
    fun t => { t with replays := t.replays ++ [(core, o.id)] }
  let s := (s.setOp core { o with stage := .replay n, wakes := none }).rejoin core n o
  if o.flag.isSome then s.markBad core o cls code else s

/-- A save whose store fails (R297): the thread parks at the emulated word, with PSAVEFLT set. -/
def State.saveFails (s : State) (core : Nat) (o : Op) (cls code : Nat) : State :=
  let s := s.dropPatchOps core o
  match s.thread? core o.part o.slot with
  | none => s
  | some th =>
    match th.patch with
    | some x => if x.enter then s.saveFault th x o.ctx cls code o.va else s
    | none => s

/-- What becomes of an operation whose host access gets no completion, or whose page request fails (R329, R356, R377): a read is
kept for a replay, a packet read parks the threads at the word, a refill goes back to its `ret` (R126), a reload to its `nret` (R298), and a patch
save to the emulated word (R297).  A store or atomic that times out is performed nowhere, and one whose page request fails, which is a permission
fault, is kept for a replay too. -/
def State.hostFails (s : State) (core : Nat) (o : Op) (cls code : Nat) : State :=
  let gone (s : State) : State :=
    (s.lostRecord o.ctx 0 core cls code o.faultAccess o.va o.pc o.gindex).setOp core
      (match o.kind with
        | .atomic _ => { o with stage := .done, vals := List.replicate (o.size / 4) 0xFFFF_FFFF }
        | _ => { o with stage := .done })
  match o.kind with
  | .load => s.replayOp core o cls code
  | .store | .atomic _ | .reduction _ | .spill => if cls = 0x11 then s.replayOp core o cls code else gone s
  | .refill => s.refillFault core o cls code
  | .patchLoad => s.reloadFails core o cls code
  | .patchSave => s.saveFails core o cls code
  | .launch _ => (s.dropOp core o.id).parkAtWord core o.part [o.slot] (o.flag.getD 0) cls code o.va o.wordAt.1 o.wordAt.2
  | _ => gone s

/-- The command of a name, with its channel. -/
def State.commandOf (s : State) (id : Nat) : Option (ChanKey × Command) :=
  (s.chans.flatMap fun ch => (ch.queue ++ ch.acking).filterMap fun c => if c.id = id then some (ch.key, c) else none).head?

/-- The array word of a name, with the core whose queue holds it. -/
def State.arrayOp? (s : State) (id : Nat) : Option (Nat × ArrayOp) :=
  (s.cores.flatMap fun c => (c.array.filter fun a => a.id == id).map fun a => (c.idx, a)).head?

/-- The cluster whose running job has a command. -/
def State.clusterOf (s : State) (cmd : Nat) : Option (Cluster × Job) :=
  firstSome (s.clusters.map fun cl =>
    match cl.fifo with
    | j :: _ => if j.cmd = cmd then some (cl, j) else none
    | [] => none)

/-- A Marrow job's host read that fails (R359): the lowest running chunk aborts, or a job that has none is rejected. -/
def State.marrowHostFails (s : State) (cl : Cluster) (j : Job) (cls code : Nat) (va : DWord) : State :=
  match cl.chunks with
  | (core, k) :: _ => (s.marrowRecord j (8 * cl.idx + core) cls code 0 va k).chunkEnded cl.idx core k true
  | [] => (s.marrowRecord j (8 * cl.idx) cls code 0 va 0).jobDone cl.idx { j with rejected := true }

/-- Whether a host request is a read. -/
def Out.isRead (o : Out) : Bool :=
  match o with
  | .hostRead _ _ _ _ => true
  | _ => false

/-- A write of a command whose page request has failed (R320, R377): it is held on the token on which the channel has paused. -/
def State.holdReq (s : State) (r : HostReq) (k : ChanKey) (id : Nat) : State :=
  match ((s.chan k).queue ++ (s.chan k).acking).find? fun c => c.id == id with
  | some c =>
    match c.paused with
    | some n => { s with hostReqs := s.hostReqs ++ [{ r with wait := .token n }] }
    | none => s
  | none => s

/-- A host request of an engine, the array, a dispatcher or a Marrow job that fails (R306, R320, R329, R356, R377). -/
def State.ownerFails (s : State) (r : HostReq) (o cls code : Nat) : State :=
  let isRead := r.msg.isRead
  let va := r.va
  match s.clusterOf o, s.commandOf o, s.arrayOp? o, s.grid? o with
  | some (cl, j), _, _, _ => if isRead then s.marrowHostFails cl j cls code va else s.marrowRecord j (8 * cl.idx) cls code 1 va 0
  | _, some (k, c), _, _ =>
    if isRead then s.pauseChan k c cls code 0 va
    else if cls = 0x11 then (s.pauseChan k c cls code 1 va).holdReq r k c.id
    else let (src, unit) := unitOf k; s.lostRecord c.ctx src unit cls code 1 va 0 0
  | _, _, some (q, a), _ =>
    if isRead then s.arrayFault q a cls code 0 va
    else if cls = 0x11 then s.arrayFault q a cls code 1 va
    else s.lostRecord a.ctx 0 a.core cls code 1 va a.at_.key 0
  | _, _, _, some g => s.faultGrid g cls code 0 va
  | _, _, _, _ =>
    if (codeAgent 0 0).owner ≤ o then s.listFails (o - (codeAgent 0 0).owner)
    else if (queueAgent 0 0).owner ≤ o then s.packetFault (s.queue (o - (queueAgent 0 0).owner)) cls code 0 va
    else s

/-- A host request that fails. -/
def State.requestFails (s : State) (r : HostReq) (cls code : Nat) : State :=
  let s := s.dropReq r.id
  match r.owner with
  | some o => s.ownerFails r o cls code
  | none =>
    match (s.core r.core).op? r.op with
    | some o =>
      let s : State := { s with hostReqs := s.hostReqs.filter fun x => !(x.owner.isNone && x.core == r.core && x.op == r.op) }
      s.hostFails r.core o cls code
    | none =>
      match (s.core r.core).loads.find? fun l => l.id == r.op with
      | some l => s.loadFails r.core l cls code
      | none => s

/-- COMPLETION_TIMEOUT (R329, R356): 3,000 clocks after the request was sent. -/
def execCompletionTimeout (id : Nat) (s : State) : Res :=
  match s.hostReqs.find? fun r => r.id == id && !r.pri with
  | none => .next s
  | some r => if r.sent + 3000 ≤ s.clock then .next (s.requestFails r 0x15 0) else .next s

/-- PAGE_REQUEST_RESPONSE (R377): success sends the access that was held; failure is a permission fault with code 11. -/
def execPageRequestResponse (id : Nat) (ok : Bool) (s : State) : Res :=
  match s.hostReqs.find? fun r => r.id == id && r.wait == .asked with
  | none => .next s
  | some r =>
    if ok then .next (((s.dropReq id).cacheHost r.msg.range.1 (r.msg.range.2.1 / 4096)).sendHost r)
    else .next (s.requestFails r 0x11 11)

/-- The accesses that ATS has denied while page requests are not enabled fail as by a failure response.  DESIGN CHOICE (log 14): the spec says
of a denial only what follows when they are enabled. -/
def State.refusePages (s : State) : State :=
  (s.hostReqs.filter fun r => r.wait == .denied && !Config.priEnabled r.msg.range.1).foldl (fun s r => s.requestFails r 0x11 11) s

/-- ATS_INVALIDATION (R376, R377): the host invalidates translations of a function's range. -/
def execAtsInvalidation (vf base size : Nat) (s : State) : Res :=
  .next { s with atsCache := s.atsCache.filter fun e => !(e.1 == vf && decide (base < (e.2 + 1) * 4096) && decide (e.2 * 4096 < base + size)) }

/-- HOST_LINK_TRAINING (R376): the host chooses PCI Express or CXL, and the link settles at an offered width and rate; an option that
the table does not list is not offered.  `rate` is in GT/s, and 2 stands for 2.5. -/
def execHostLinkTraining (k : LinkKind) (width rate : Nat) (s : State) : Res :=
  if (width = 16 ∨ width = 8 ∨ width = 4 ∨ width = 1) ∧ (rate = 128 ∨ rate = 64 ∨ rate = 32 ∨ rate = 16 ∨ rate = 8 ∨ rate = 5 ∨ rate = 2)
  then .next { s with host := ⟨k, width, rate⟩ } else .next s

end Sys2Proof.Machine
end

