-- ==== Sys2Proof/Machine/Partition.lean ====
section
/-! DEFINITION. What a virtual function owns and how that changes (R292, R311, R319, R346-R348): TLB invalidation, region modes, assignments, feature masks and budgets. -/

namespace Sys2Proof.Machine

/-- The range of a `tlbinv` write (R319): first address and end. -/
def invRange (v : DWord) : Nat × Nat :=
  if bitAt v 51 then (0, 2 ^ 56)
  else
    let log := max 12 (min 56 (v.extractLsb' 45 6).toNat)
    let lo := (v.extractLsb' 0 44).toNat * 4096 / 2 ^ log * 2 ^ log
    (lo, lo + 2 ^ log)

/-- Whether an entry covers a part of a range. -/
def TlbEntry.covers (e : TlbEntry) (ctx lo hi : Nat) : Bool := e.ctx == ctx && decide (e.va < hi) && decide (lo < e.va + 2 ^ e.log)

/-- Whether a walk-cache entry leads to a part of a range. -/
def WalkCache.covers (w : WalkCache) (ctx lo hi : Nat) : Bool :=
  w.ctx == ctx && decide (w.tag * 2 ^ levelShift w.level < hi) && decide (lo < (w.tag + 1) * 2 ^ levelShift w.level)

/-- Translations of a range dropped everywhere (R319). -/
def State.dropTranslations (s : State) (ctx lo hi : Nat) : State :=
  { s with cores := s.cores.map fun c => { c with tlb1 := c.tlb1.filter fun e => !e.covers ctx lo hi
                                                  tlb2 := c.tlb2.filter fun e => !e.covers ctx lo hi }
           chans := s.chans.map fun ch => { ch with pages := ch.pages.filter fun e => !e.covers ctx lo hi }
           walkCache := s.walkCache.filter (fun w => !w.covers ctx lo hi)
           brought := s.brought.filter fun b => match b.found with
             | .page e => !e.covers ctx lo hi
             | .fault _ _ => true }

/-- TLB_INVALIDATE (R319): the write takes the next number; the translations go, and walks of the context in progress insert nothing. -/
def execTlbInvalidate (vf : Nat) (v : DWord) (s : State) : Res :=
  let ctx := (v.extractLsb' 52 12).toNat
  if vfOf ctx ≠ vf then .next s
  else
    let (lo, hi) := invRange v
    let s := s.dropTranslations ctx lo hi
    let s : State := { s with walks := s.walks.map fun w => if w.ctx = ctx then { w with noInsert := true } else w }
    .next (s.onVf vf fun x => { x with tlbnum := x.tlbnum + 1, invs := x.invs ++ [⟨x.tlbnum + 1, ctx, lo, hi, s.nextId⟩] })

/-- An access that was translated through a dropped entry and is still to be performed or acknowledged (R319). -/
def Op.holdsInv (o : Op) (i : TlbInv) : Bool :=
  let access := match o.kind with
    | .load | .store | .atomic _ | .reduction _ | .spill | .refill | .prefetch | .launch _ | .patchSave | .patchLoad => true
    | _ => false
  let open_ := match o.stage with
    | .replay _ => false
    | .done => !(match o.kind with
      | .store | .atomic _ | .reduction _ | .spill | .patchSave => false
      | _ => true)
    | _ => true
  access && open_ && o.xlated && o.ctx == i.ctx && decide (o.id < i.upto) && decide (i.lo ≤ va56 o.va) && decide (va56 o.va < i.hi)

/-- Whether the conditions of an invalidation hold (R319).  An access that an array word, an engine, a function register load or a unit of
the module has translated is over in the same step, or stands as a host request, which lies in one page. -/
def State.invDone (s : State) (vf : Nat) (i : TlbInv) : Bool :=
  !(s.walks.any fun w => w.ctx == i.ctx && w.noInsert)
    && !(s.cores.any fun c => c.ops.any fun o => o.holdsInv i)
    && !(s.hostOut.any fun r => decide (r.id < i.upto) && r.msg.range.1 == vf && decide (i.lo ≤ va56 r.va) && decide (va56 r.va < i.hi))

/-- TLB_INVALIDATE_COMPLETE (R319): invalidations complete in the order of their numbers. -/
def execTlbInvalidateComplete (vf : Nat) (s : State) : Res :=
  match (s.vf vf).invs with
  | [] => .next s
  | i :: rest =>
    if s.invDone vf i then .next (s.onVf vf fun x => { x with invs := rest, tlbseq := i.num }) else .next s

/-- A range of physical addresses zeroed (R347, R348). -/
def State.zeroRange (s : State) (pa n : Nat) : State :=
  { s with mem := s.mem.filter fun c => !(decide (pa ≤ c.1) && decide (c.1 < pa + n))
           poison := s.poison.filter fun l => !(decide (pa ≤ 32 * l) && decide (32 * l < pa + n)) }

/-- The LLC sectors of a range dropped (R347, R348). -/
def State.dropSectors (s : State) (pa n : Nat) : State :=
  { s with slices := s.slices.map fun x => { x with sectors := x.sectors.filter fun y => !(decide (pa ≤ 1024 * y.addr) && decide (1024 * y.addr < pa + n)) } }

/-- The TLB entries that map to a range of physical addresses dropped (R347). -/
def State.dropPhysTlb (s : State) (pa n : Nat) : State :=
  let keep (e : TlbEntry) : Bool := !(leafLoc e.leaf == 0 && decide (pa < e.pa + 2 ^ e.log) && decide (e.pa < pa + n))
  { s with cores := s.cores.map fun c => { c with tlb1 := c.tlb1.filter keep, tlb2 := c.tlb2.filter keep }
           chans := s.chans.map fun ch => { ch with pages := ch.pages.filter keep } }

/-- The base of a region. -/
def regionBase (r : Nat) : Nat := r * 2 ^ 30

/-- REGION_MODE_WRITE (R348): ignored for a region of another function, for MODE 1, and while BUSY is set. -/
def execRegionModeWrite (vf : Nat) (v : DWord) (s : State) : Res :=
  let r := (v.extractLsb' 0 9).toNat
  let m := (v.extractLsb' 9 2).toNat
  let x := s.vf vf
  if s.regionVf (regionBase r) ≠ some vf ∨ m = 1 ∨ x.regBusy.isSome then .next s
  else .next (s.setVf { x with regLast := r, regBusy := some (r, m) })

/-- REGION_MODE_DONE (R348): the region is zeroed, its sectors are dropped, and it has its new mode. -/
def execRegionModeDone (vf : Nat) (s : State) : Res :=
  match (s.vf vf).regBusy with
  | none => .next s
  | some (r, m) =>
    let s := (s.zeroRange (regionBase r) (2 ^ 30)).dropSectors (regionBase r) (2 ^ 30)
    let s : State := { s with regions := s.regions.map fun x => if x.1 = r then (r, x.2.1, m) else x }
    .next (s.onVf vf fun x => { x with regBusy := none })

/-- The assignment in force. -/
def Vf.assigned (x : Vf) : Assign := ⟨x.vcore, x.wayMask, x.quill, x.clusters, x.vink⟩

/-- An assignment with one register of its block written (R346). -/
def Assign.write (a : Assign) (offset : Nat) (v : DWord) : Assign :=
  let word (sh w : Nat) : BitVec 160 :=
    let m : BitVec 160 := BitVec.ofNat 160 ((2 ^ w - 1) * 2 ^ sh)
    (a.vcore &&& ~~~m) ||| BitVec.ofNat 160 (v.toNat % 2 ^ w * 2 ^ sh)
  if offset = 0 then { a with vcore := word 0 64 }
  else if offset = 8 then { a with vcore := word 64 64 }
  else if offset = 0x10 then { a with vcore := word 128 32 }
  else if offset = 0x18 then
    { a with wayMask := v.extractLsb' 48 16, quill := v.extractLsb' 30 18, clusters := v.extractLsb' 22 8 }
  else if offset = 0x20 then { a with vink := v.extractLsb' 0 24 }
  else a

/-- Whether two assignments share a core, a port, a cluster or an Inkwell group (R346). -/
def Assign.clashes (a b : Assign) : Bool :=
  a.vcore &&& b.vcore != 0 || a.quill &&& b.quill != 0 || a.clusters &&& b.clusters != 0 || a.vink &&& b.vink != 0

/-- Whether an assignment gives a unit that another function has or waits for (R346). -/
def State.taken (s : State) (vf : Nat) (a : Assign) : Bool :=
  (List.range 16).any fun w => w != vf && (a.clashes (s.vf w).assigned || match (s.vf w).pend with
    | some p => a.clashes p
    | none => false)

/-- Whether a virtual function is quiet (R347). -/
def State.vfQuiet (s : State) (vf : Nat) : Bool :=
  !(s.teams.any fun t => vfOf t.ctx == vf) && !(s.grids.any fun g => vfOf g.ctx == vf && g.accepted && !g.finished)
    && !(s.chans.any fun c => (c.queue ++ c.acking).any fun x => vfOf x.ctx == vf)
    && !(s.clusters.any fun c => c.fifo.any fun j => vfOf j.ctx == vf)

/-- A core that changes owner (R326, R347): its store, accumulation buffer and function registers are zeroed, and its save records of the
function's contexts emptied. -/
def State.wipeCore (s : State) (vf n : Nat) : State :=
  let s := if s.cores.any fun c => c.idx == n then
      s.onCore n fun c => { c with l1 := [], fns := List.replicate 16 .empty, acc := [], accBad := [], lastCtx := none }
    else s
  (s.ctxs.filter fun c => vfOf c.num == vf && c.valid).foldl (fun s c => s.zeroRange (c.fnsave.toNat + 35840 * n) 35840) s

/-- An assignment applied (R347), with every unit that changes owner zeroed. -/
def State.applyAssign (s : State) (vf : Nat) (a : Assign) : State :=
  let old := (s.vf vf).assigned
  let s := ((List.range 160).filter fun n => bitAt (old.vcore ^^^ a.vcore) n).foldl (fun s n => s.wipeCore vf n) s
  let s := ((List.range 24).filter fun g => bitAt (old.vink ^^^ a.vink) g).foldl (fun s g =>
    let pa := inkBase + inkGroup * g
    ((s.zeroRange pa inkGroup).dropSectors pa inkGroup).dropPhysTlb pa inkGroup) s
  s.onVf vf fun x =>
    { x with vcore := a.vcore, wayMask := a.wayMask, quill := a.quill, clusters := a.clusters, vink := a.vink, pend := none }

/-- ASSIGNMENT_WRITE (R346, R347, R350): ignored when it would give a unit to a second function; WAYMASK applies at once, also while other fields
are pending, and the other fields once the function is quiet. -/
def execAssignmentWrite (vf offset : Nat) (v : DWord) (s : State) : Res :=
  let x := s.vf vf
  let mask := (x.assigned.write offset v).wayMask
  let a := { (x.pend.getD x.assigned).write offset v with wayMask := mask }
  if s.taken vf a then .next s
  else if x.pend.isNone && a == { x.assigned with wayMask := mask } then .next (s.setVf { x with wayMask := mask })
  else if s.vfQuiet vf then .next (s.applyAssign vf a)
  else .next (s.setVf { x with wayMask := mask, pend := some a })

/-- A region entry applied (R347, R348): a region that changes owner is zeroed, and its sectors and TLB entries dropped. -/
def State.applyRegion (s : State) (r : Nat) (owner : Option Nat) : State :=
  let pa := regionBase r
  let n := 2 ^ 30
  let mode := s.regionMode pa
  let s := if s.regionVf pa = owner then s else ((s.zeroRange pa n).dropSectors pa n).dropPhysTlb pa n
  { s with regions := upsert (fun x => x.1 == r) (r, owner.getD 16, mode) s.regions, regPend := s.regPend.filter fun x => x.1 != r }

/-- The functions that a write of a region entry concerns: the one that loses it and the one that gains it. -/
def State.regionParties (s : State) (r : Nat) (owner : Option Nat) : List Nat := (s.regionVf (regionBase r)).toList ++ owner.toList

/-- Whether a region would be given to a second function (R346): another has it, or waits for it. -/
def State.regionTaken (s : State) (r : Nat) (owner : Option Nat) : Bool :=
  let other (x : Option Nat) : Bool := x.isSome && x != owner
  owner.isSome && (other (s.regionVf (regionBase r)) || s.regPend.any fun x => x.1 == r && other x.2)

/-- A write of a region entry (R346-R348): one that would give the region to a second function is ignored in full. -/
def State.writeRegion (s : State) (r : Nat) (v : Nat) : State :=
  let owner : Option Nat := if v.testBit 15 then some (v / 2 ^ 11 % 16) else none
  if 384 ≤ r || s.regionTaken r owner then s
  else if (s.regionParties r owner).all s.vfQuiet then s.applyRegion r owner
  else { s with regPend := (s.regPend.filter fun x => x.1 != r) ++ [(r, owner)] }

/-- ASSIGNMENT_APPLY (R347): what waits for a function applies in the first clock in which it is quiet. -/
def execAssignmentApply (vf : Nat) (s : State) : Res :=
  if !s.vfQuiet vf then .next s
  else
    let s := match (s.vf vf).pend with
      | some a => s.applyAssign vf a
      | none => s
    let mine := s.regPend.filter fun r => (s.regionParties r.1 r.2).contains vf && (s.regionParties r.1 r.2).all s.vfQuiet
    .next (mine.foldl (fun s r => s.applyRegion r.1 r.2) s)

/-- Whether a team of a context is resident. -/
def State.resident (s : State) (ctx : Nat) : Bool := s.teams.any fun t => t.ctx == ctx

/-- FEATMASK_WRITE (R292): held pending while a team of the context is resident. -/
def execFeatmaskWrite (ctx : Nat) (v : DWord) (s : State) : Res :=
  let m := v &&& 0xFFF
  .next (s.onCtx ctx fun c => if s.resident ctx then { c with featPend := some m } else { c with featmask := m, featPend := none })

/-- FEATMASK_APPLY (R292). -/
def execFeatmaskApply (ctx : Nat) (s : State) : Res :=
  match (s.ctx ctx).featPend with
  | some m => if s.resident ctx then .next s else .next (s.onCtx ctx fun c => { c with featmask := m, featPend := none })
  | none => .next s

/-- BUDGET_REGISTER_WRITE (R311): a write that would bring the sum above 256 is ignored, and gives CCP firmware the privilege trap. -/
def execBudgetRegisterWrite (by_ : BudgetWriter) (p k : Nat) (v : DWord) (s : State) : Res :=
  if 4 ≤ p ∨ 8 ≤ k then .next s
  else if s.budgetFits p k v then .next (s.setBudget p k (budgetFloor p k v))
  else
    match by_ with
    | .scribe => .next s
    | .firmware core =>
      match s.threads.find? fun t => t.core == core && isFirmware t.part with
      | none => .next s
      | some t =>
        .next (s.userTrap t 3 (BitVec.ofNat 64 (0x2_0000 + 0x40 * p + 8 * k)) ⟨t.at_.key, 0, t.at_.hdr, 0, false, false, 0⟩ 0 (s.clock + 4))

end Sys2Proof.Machine
end

