-- ==== Sys2Proof/Machine/Containment.lean ====
section
/-! DEFINITION. Losing a context and fencing a unit (R240, R331, R340, R352, R354-R356, R362, R383). -/

namespace Sys2Proof.Machine

/-- A record for a virtual function's queue, with its copy in the physical function's (R356). -/
def State.containRecord (s : State) (vf cls code unit ctx : Nat) (va extra : DWord) : State :=
  let r : FaultRec :=
    { vf := vf, cls := cls, code := code, access := 0, source := 5, unit := unit, ctx := ctx, token := 0, va := va, pc := 0,
      gindex := 0, extra := extra, dump := none, behind := none }
  { s.postRecord r with pfHeld := s.pfHeld ++ [r] }

/-- A core from which a context is lost (R331): nothing of the context is left on it, and its store, accumulation buffer and function
registers are zeroed. -/
def State.stripCore (s : State) (ctx n : Nat) : State :=
  let slots := ((s.teamsOn n).filter fun t => t.ctx == ctx).map (·.slot)
  let s := slots.foldl (fun s t => s.endReservation n t) s
  let gone (t : Thread) : Bool := t.core == n && slots.contains t.team
  let lost := (s.threads.filter gone).map fun t => (t.part, t.slot)
  let mine (p sl : Nat) : Bool := lost.contains (p, sl)
  let part (q : Part) : Part :=
    if q.core ≠ n then q
    else { q with pods := q.pods.filter fun p => !slots.contains p.team
                  queue := q.queue.filter fun x => !mine q.idx x.1
                  streams := q.streams.map fun t => match t.pack with
                    | some k => if slots.contains k.team then { Stream.init t.idx with freeAt := t.freeAt } else t
                    | none => t
                  filings := q.filings.filter fun f => !mine q.idx f.slot
                  groups := q.groups.filter fun g => !slots.contains g.team }
  let s : State := { s with threads := s.threads.filter fun t => !gone t
                            teams := s.teams.filter fun t => !(t.core == n && slots.contains t.slot)
                            parts := s.parts.map part }
  s.onCore n fun c =>
    { c with ctx := if c.ctx = some ctx then none else c.ctx
             ops := c.ops.filter fun o => o.ctx != ctx
             loads := c.loads.filter fun l => l.ctx != ctx
             array := c.array.filter fun a => a.ctx != ctx
             census := c.census.filter fun x => x.ctx != ctx
             l1 := [], acc := [], accBad := [], fns := List.replicate 16 .empty, lastCtx := none, halting := false, halted := false, drainAt := 0 }

/-- Commands of a context, wherever they stand. -/
def State.commandsOf (s : State) (ctx : Nat) : List Command :=
  s.chans.flatMap fun ch => (ch.queue ++ ch.acking).filter fun c => c.ctx == ctx

/-- A context's commands and Marrow jobs abandoned, with what they wait for from the host. -/
def State.stripEngines (s : State) (ctx : Nat) : State :=
  let ids := (s.commandsOf ctx).map (·.id) ++ (s.grids.filter fun g => g.ctx == ctx).map (·.gid)
  let cl (x : Cluster) : Cluster :=
    match x.fifo with
    | [] => x
    | j :: _ =>
      if j.ctx = ctx ∧ x.running then { x with fifo := x.fifo.filter fun k => k.ctx != ctx, running := false, chunks := [] }
      else { x with fifo := x.fifo.filter fun k => k.ctx != ctx }
  { s with chans := s.chans.filter fun ch => chanCtx ch.key != ctx
           clusters := s.clusters.map cl
           hostReqs := s.hostReqs.filter fun r => !(r.owner.any ids.contains)
           linkQ := s.linkQ.filter fun l => match l.to_ with
             | .host r => !(r.owner.any ids.contains)
             | _ => true
           hostData := s.hostData.filter (fun d => !ids.contains d.owner)
           brought := s.brought.filter (fun b => b.ctx != ctx)
           granted := s.granted.filter fun x => !ids.contains x.owner }

/-- What `pstat` shows when a context is lost (R327, R331); a pre-emption or restore of another context that is in progress keeps its
state. -/
def Vf.showLost (v : Vf) (ctx : Nat) : Vf :=
  match v.preempt, (if v.pstat = 4 then v.restore else none) with
  | some p, _ => if p.ctx = ctx then { v with pstat := 8, preempt := none } else v
  | none, some p => if p.ctx = ctx then { v with pstat := 8, restore := none } else v
  | none, none => { v with pstat := 8, pstatCtx := ctx }

/-- A context is lost (R331, R340, R355): nothing of it runs on, its tokens and a saved image are gone, its queues have ENABLE clear and their
values never complete. -/
def State.loseContext (s : State) (ctx : Nat) : State :=
  let vf := vfOf ctx
  let s := (s.coresOf ctx).foldl (fun s n => s.stripCore ctx n) s
  let s := s.stripEngines ctx
  let lostGrids := (s.grids.filter fun g => g.ctx == ctx && g.accepted && !g.finished).length
  let s := (List.range lostGrids).foldl (fun s _ => s.dropRefs ctx) s
  let s : State :=
    { s with grids := s.grids.filter fun g => g.ctx != ctx
             tokens := s.tokens.filter fun t => t.ctx != ctx
             walks := s.walks.filter fun w => w.ctx != ctx
             images := s.images.filter fun i => i.ctx != ctx
             queues := s.queues.map fun q => if q.ctx = ctx then { q with enable := false } else q }
  let s := s.onCtx ctx fun c => { c with lost := true, saved := false }
  (s.onVf vf fun v => v.showLost ctx).raise vf vecPreempt

/-- The contexts that a fence of a core loses (R355): those with a team on it, or whose pair reservation includes it. -/
def State.lostBy (s : State) (n : Nat) : List Nat :=
  let here := (s.teamsOn n).map (·.ctx)
  let lead := if (s.core n).follower then
      match (s.core (n - 1)).resv with
      | some (t, true) => ((s.team? (n - 1) t).map (·.ctx)).toList
      | _ => []
    else []
  let paired := (s.teams.filter fun t => t.pair && t.core + 1 == n && (s.core t.core).resv == some (t.slot, true)).map (·.ctx)
  (here ++ lead ++ paired).eraseDups

/-- FENCE_CORE (R354-R356): issue stops with no drain, and each context that the core served is lost. -/
def execFenceCore (n : Nat) (s : State) : Res :=
  if 160 ≤ n ∨ bitAt s.fencedCores n then .next s
  else
    let ctxs := s.lostBy n
    let s : State := { s with fencedCores := s.fencedCores ||| 1#160 <<< n }
    let s := ctxs.foldl (fun s c => (s.loseContext c).containRecord (vfOf c) 0x16 1 n c 0 0) s
    let s : State := { s with threads := s.threads.filter fun t => t.core != n, parts := s.parts.filter fun q => q.core != n }
    .next (s.setCore { Core.init n with journey := (s.core n).journey })

/-- The records of poisoned memory (R356): none where no function owns it. -/
def State.poisonRecord (s : State) (pa len : Nat) : State :=
  match s.regionVf pa with
  | some vf => s.containRecord vf 0x17 0 0 0 (BitVec.ofNat 64 pa) (BitVec.ofNat 64 len)
  | none => s

/-- FENCE_LLC_SLICE (R355): its homes move to its partner, its requests are replayed there, and its dirty sectors are lost. -/
def execFenceLlcSlice (n : Nat) (s : State) : Res :=
  if 128 ≤ n ∨ bitAt s.fencedSlices n then .next s
  else
    let x := s.slice n
    let m := n ^^^ 1
    let s : State := { s with fencedSlices := s.fencedSlices ||| 1#128 <<< n }
    let dirty := x.sectors.filter fun y => y.dirty
    let s := dirty.foldl (fun s y => (s.addPoison (1024 * y.addr) 1024).poisonRecord (1024 * y.addr) 1024) s
    let s := s.setSlice (Slice.init n)
    .next (x.queue.foldl (fun s r => (s.moveReq r (fun st => st == .slice n) (.slice m) 3).toSlice m r) s)

/-- The 4 KiB units of a pseudo-channel in the regions that are owned (R84, R356). -/
def State.unitsOf (s : State) (pc : Nat) : List Nat :=
  (s.regions.filter fun r => decide (r.2.1 < 16)).flatMap fun r =>
    ((List.range 262144).map fun i => regionBase r.1 + 4096 * i).filter fun pa => s.pcOf pa == pc

/-- FENCE_PSEUDO_CHANNEL (R355, R356): every unit in it is poisoned for good. -/
def execFencePseudoChannel (pc : Nat) (s : State) : Res :=
  if 256 ≤ pc ∨ bitAt s.fencedPcs pc then .next s
  else
    let s : State := { s with fencedPcs := s.fencedPcs ||| 1#256 <<< pc }
    .next ((s.unitsOf pc).foldl (fun s pa => s.poisonRecord pa 4096) s)

/-- Whether a collective that has begun sends to some rank through a port (R240, R382). -/
def State.usesPort (s : State) (c : Command) (p : Nat) : Bool :=
  c.op == 0x2C3 && (c.phase == 1 || c.phase == 2) &&
    match s.groupRanks (vfOf c.ctx) c.group with
    | .ok (some g) => c.others.any fun b => s.portTo (vfOf c.ctx) g.2 c.rank b == some p
    | _ => false

/-- A port fenced (R355, R383): the collectives that use it fail. -/
def State.fencePort (s : State) (p : Nat) : State :=
  if 18 ≤ p ∨ bitAt s.fencedPorts p then s
  else
    let hit := s.chans.flatMap fun ch => (ch.queue.filter fun c => s.usesPort c p).map fun c => (ch.key, c)
    let s : State := { s with fencedPorts := s.fencedPorts ||| 1#18 <<< p }
    hit.foldl (fun s x => s.failColl x.1 x.2) s

/-- FENCE_QUILL_PORT (R355). -/
def execFenceQuillPort (p : Nat) (s : State) : Res := .next (s.fencePort p)

/-- FENCE_MARROW_CORE (R355, R362): its current chunk aborts. -/
def execFenceMarrowCore (m : Nat) (s : State) : Res :=
  if 64 ≤ m ∨ bitAt s.fencedMarrow m then .next s
  else
    let s : State := { s with fencedMarrow := s.fencedMarrow ||| 1#64 <<< m }
    match (s.cluster (m / 8)).chunks.find? fun c => c.1 == m % 8 with
    | some (_, k) => .next (s.chunkEnded (m / 8) (m % 8) k true)
    | none => .next s

/-- LINK_DOWN (R383): a link that goes down fences its port. -/
def execLinkDown (p : Nat) (s : State) : Res :=
  if 18 ≤ p then .next s
  else
    let s : State := { s with ports := s.ports.map fun x => if x.idx = p then { x with up := false, downs := x.downs + 1 } else x }
    .next (s.fencePort p)

/-- Every context that anything in the device serves. -/
def State.allCtxs (s : State) : List Nat :=
  (s.ctxs.map (·.num) ++ s.teams.map (·.ctx) ++ s.grids.map (·.ctx) ++ s.chans.map fun c => chanCtx c.key).eraseDups

/-- The module trips (R388): nothing issues, the Quill ports go down, and every context is lost; it stays so until its next reset. -/
def State.trip (s : State) : State :=
  let s := s.allCtxs.foldl (fun s c => s.loseContext c) s
  { s with tripped := true, ports := s.ports.map fun p => { p with up := false } }

/-- The number under which the retries of the die-to-die link are counted; the Quill ports are 0 to 17. -/
def diePort : Nat := 18

/-- LINK_RETRY (R352, R383): a flit whose CRC fails is sent again; after 16 retries of one flit the port is fenced, and on the
die-to-die link the module halts as by a thermal trip. -/
def execLinkRetry (p : Nat) (s : State) : Res :=
  let n := ((s.ports.find? fun x => x.idx == p).map (·.retries)).getD 0
  if diePort < p ∨ bitAt s.fencedPorts p then .next s
  else if 16 ≤ n then .next (if p = diePort then s.trip else s.fencePort p)
  else .next { s with ports := s.ports.map fun x => if x.idx = p then { x with retries := x.retries + 1, retried := x.retried + 1 } else x }

/-- The arbitration class of a flit's credit class (R310, R383): collectives are COPY, management is the Scribe's. -/
def flitClass (k : Nat) : Nat := if k = 2 then 7 else 1

/-- The beats of a flit (R383). -/
def flitBeats : Nat := 4

/-- The flit that a port sends next (R94, R311, R383): the oldest of the class whose turn it is, of those with credit for a flit. -/
def State.nextFlit (s : State) (p : Nat) : Option Flit :=
  match s.ports.find? fun x => x.idx == p with
  | none => none
  | some x =>
    let free := x.queue.filter fun f => decide (flitBeats ≤ x.credits.getD f.cls 0)
    match s.classFor (.quill p 0) flitBeats (free.map fun f => flitClass f.cls) with
    | none => none
    | some k => free.find? fun f => flitClass f.cls == k

/-- The virtual function that owns a port (R346). -/
def State.portOwner (s : State) (p : Nat) : Option Nat := (s.vfs.find? fun v => bitAt v.quill p).map (·.idx)

/-- Credits taken by a flit that a port sends (R383). -/
def Port18.spend (x : Port18) (cls : Nat) : Port18 := { x with credits := x.credits.set cls (x.credits.getD cls 0 - flitBeats) }

/-- QUILL_FLIT (R383): direction 0 sends the flit whose turn it is, which takes its beats of the credits of its class, and direction 1 brings one
from a peer, whose collective data or control is kept for the ranks of the port's owner.  It leaves the receiving buffer in the same transition,
so the credits of that direction stand as they were (log 43). -/
def execQuillFlit (p dir : Nat) (f : Flit) (s : State) : Res :=
  let up := ((s.ports.find? fun x => x.idx == p).map (·.up)).getD false
  if !up || bitAt s.fencedPorts p then .next s
  else if dir = 0 then
    if s.nextFlit p ≠ some f then .next s
    else
      let s := s.countGrants (.quill p 0) (flitClass f.cls) flitBeats
      .next { s with ports := s.ports.map fun x => if x.idx = p then { x.spend f.cls with queue := x.queue.erase f, retries := 0 } else x
                     out := .flit p f :: s.out }
  else
    let s := s.countGrants (.quill p 1) (flitClass f.cls) flitBeats
    match s.portOwner p with
    | some vf => if f.cls ≤ 1 then .next { s with ranks := s.ranks ++ [⟨vf, f.group, f.seq, f.rank, f.cls == 1, f.off, f.data⟩] } else .next s
    | none => .next s

end Sys2Proof.Machine
end

