-- ==== Sys2Proof/Machine/Pods.lean ====
section
/-! DEFINITION. The selector and the filer of a partition (R18-R32, R36, R39, R42, R128, R130-R132, R391), the serialise drain (R294) and entry into patch mode (R297). -/

namespace Sys2Proof.Machine

/-- The threads that wait in a pod, in increasing slot index. -/
def State.waitingIn (s : State) (q : Part) (p : Pod) : List Thread :=
  p.waiting.filterMap fun w => s.thread? q.core q.idx w.1

/-- The live members of a thread's sub-group (R14, R23). -/
def State.membersOf (s : State) (tm : Team) (t : Thread) : List Thread :=
  (s.threadsOf tm.core tm.slot).filter fun x => tm.sgOf x == tm.sgOf t && x.live

/-- Whether the sub-group of a thread is whole in a pod (R23): every live member waits there.  One with a member that never comes is never
whole: its other members stay waiting, and the other pods of the partition go on (R40). -/
def State.whole (s : State) (tm : Team) (p : Pod) (t : Thread) : Bool :=
  (s.membersOf tm t).all fun x => p.waiting.any fun w => w.1 == x.slot

/-- The eligible threads of a pod (R23, R40): those of whole sub-groups when the pod is CONV, and none whose translation of
R274 is in progress, nor any of its sub-group. -/
def State.eligible (s : State) (q : Part) (p : Pod) : List Thread :=
  if !p.fetched then []
  else
    let ths := s.waitingIn q p
    if !p.conv then ths.filter fun t => t.xlating.isNone
    else
      match s.team? q.core p.team with
      | none => []
      | some tm => ths.filter fun t => s.whole tm p t && (s.membersOf tm t).all fun x => x.xlating.isNone

/-- AGE_LIMIT of a pod (R22, R289). -/
def State.ageLimit (s : State) (q : Part) (p : Pod) : Nat :=
  match s.team? q.core p.team with
  | some tm => (s.ctx tm.ctx).agelim.toNat
  | none => 256

/-- The pack width of a pod's team (R27). -/
def State.widthOf (s : State) (q : Part) (p : Pod) : Nat := ((s.team? q.core p.team).map (·.packW)).getD 32

/-- The best of a list, by a strict order; the first of equals. -/
def pickBy {α : Type} (better : α → α → Bool) : List α → Option α
  | [] => none
  | x :: rest =>
    match pickBy better rest with
    | none => some x
    | some y => if better y x then some y else some x

/-- Lowest RANK, then lowest index (R22, R25). -/
def Pod.before (a b : Pod) : Bool := decide (a.rank.toNat < b.rank.toNat) || (a.rank == b.rank && decide (a.idx < b.idx))

/-- Greatest ARRIVAL, then lowest index (R22). -/
def Pod.older (a b : Pod) : Bool := decide (b.arrival.toNat < a.arrival.toNat) || (a.arrival == b.arrival && decide (a.idx < b.idx))

/-- Greatest OPENED, then lowest index (R24). -/
def Pod.longer (a b : Pod) : Bool := decide (b.opened.toNat < a.opened.toNat) || (a.opened == b.opened && decide (a.idx < b.idx))

/-- The closed eligible pods of a partition. -/
def State.closedEligible (s : State) (q : Part) : List Pod := q.pods.filter fun p => !p.isOpen && !(s.eligible q p).isEmpty

/-- The open pods of a partition. -/
def Part.openPods (q : Part) : List Pod := q.pods.filter fun p => p.isOpen

/-- The pod that the selector opens (R22): one whose arrival has reached AGE_LIMIT comes before every other, the oldest first, so that no
eligible thread waits for ever (R44). -/
def State.toOpen (s : State) (q : Part) : Option Pod :=
  if 4 ≤ q.openPods.length then none
  else
    let cand := s.closedEligible q
    match pickBy Pod.before (cand.filter fun p => decide (s.widthOf q p ≤ (s.eligible q p).length)) with
    | some p => some p
    | none =>
      match pickBy Pod.older (cand.filter fun p => decide (s.ageLimit q p ≤ p.arrival.toNat)) with
      | some p => some p
      | none => if q.openPods.isEmpty then pickBy Pod.before cand else none

/-- The pod that the selector evicts (R24): one that has been open for AGE_LIMIT gives way to a pod that has waited (R44). -/
def State.toEvict (s : State) (q : Part) : Option Pod :=
  if q.openPods.length < 4 then none
  else if (s.closedEligible q).any fun p => decide (s.ageLimit q p ≤ p.arrival.toNat) then
    pickBy Pod.longer (q.openPods.filter fun p => decide (s.ageLimit q p ≤ p.opened.toNat))
  else none

/-- POD_EVICT (R24): the pod closes with its threads still waiting. -/
def execPodEvict (core part : Nat) (s : State) : Res :=
  let q := s.part core part
  match s.toEvict q with
  | some p => .next (s.setPart (q.setPod { p with isOpen := false }))
  | none => .next s

/-- POD_OPEN (R22). -/
def execPodOpen (core part : Nat) (s : State) : Res :=
  let q := s.part core part
  match s.toOpen q with
  | some p => .next (s.setPart (q.setPod { p with isOpen := true, opened := 0 }))
  | none => .next s

/-- Whether an open pod closes by itself (R21). -/
def State.closes (s : State) (q : Part) (p : Pod) : Bool :=
  p.waiting.isEmpty || (p.conv &&
    match s.team? q.core p.team with
    | some tm => !((s.waitingIn q p).any fun t => s.whole tm p t)
    | none => true)

/-- Open pods that have nothing to give close (R21), and ARRIVAL follows the earliest thread that remains (R18). -/
def State.closePods (s : State) (c p : Nat) : State :=
  s.onPart c p fun q =>
    { q with pods := q.pods.map fun x =>
        { x with isOpen := x.isOpen && !s.closes q x
                 arrival := BitVec.ofNat 16 (min 65535 (x.waiting.foldl (fun m w => max m w.2) 0)) } }

/-- A closed entry with no waiting thread is freed (R21). -/
def State.freePods (s : State) (c p : Nat) : State :=
  s.onPart c p fun q => { q with pods := q.pods.filter fun x => x.isOpen || !x.waiting.isEmpty }

/-- A thread put into a list that rises in `tid`. -/
def podInsert (t : Thread) : List Thread → List Thread
  | [] => [t]
  | u :: us => if t.tid ≤ u.tid then t :: u :: us else u :: podInsert t us

/-- Threads in pack order, increasing `tid` (R26). -/
def packOrder (ths : List Thread) : List Thread := ths.foldr podInsert []

/-- Threads of a normal pod drawn column by column, up to `k` from each (R26). -/
def drawColumns (k : Nat) (ths : List Thread) : List Thread :=
  ths.foldl (fun acc t => if (acc.filter fun x => x.slot % 32 == t.slot % 32).length < k then acc ++ [t] else acc) []

/-- Whole sub-groups of a CONV pod, in increasing order of their lowest `tid`, each taken when all its members'
columns have room (R26). -/
def drawGroups (sgOf : Thread → Nat) (k : Nat) (ths : List Thread) : List Thread :=
  (ths.map sgOf).eraseDups.foldl (fun acc g =>
    let ms := ths.filter fun t => sgOf t == g
    if ms.all fun t => decide ((acc.filter fun x => x.slot % 32 == t.slot % 32).length < k) then acc ++ ms else acc) []

/-- Clocks from a clock to a stream's next turn after it (R27). -/
def turnIn (w stream clock : Nat) : Nat :=
  match (List.range 4).find? fun d => isTurn w stream (clock + 1 + d) with
  | some d => d + 1
  | none => 4

/-- The free stream that takes a pack (R25): the earliest next turn, then the even pipe. -/
def State.freeStream (s : State) (q : Part) (w : Nat) : Option Nat :=
  let free := (List.range (streamCount w)).filter fun i => (q.stream i).pack.isNone && decide ((q.stream i).freeAt ≤ s.clock)
  pickBy (fun a b => decide (turnIn w a s.clock < turnIn w b s.clock)
    || (turnIn w a s.clock == turnIn w b s.clock && decide (a % 2 < b % 2))) free

/-- A pack as it is formed (R25): its clause is still to be fetched. -/
def Pack.formedFrom (p : Pod) (slots : List Nat) (clock : Nat) : Pack :=
  { team := p.team, slots := slots, conv := p.conv, rank := p.rank, nib := p.nib, hdr := p.hdr, clause := none, pos := none,
    start := if p.hdr = p.key then 0 else ((p.key - p.hdr).toNat - 8) / 8, latches := [], rewrite := [], stopped := [],
    inRewrite := false, skip := [], serial := false, serialDone := false, formed := clock }

/-- PACK_FORM (R22, R25, R26, R40, R43): the pod of lowest RANK, of those open since an earlier clock, with eligible threads gives a
pack to a free stream. -/
def execPackForm (core part : Nat) (s : State) : Res :=
  let q := s.part core part
  if (s.core core).halting then .next s
  else
    match pickBy Pod.before (q.openPods.filter fun p => p.opened != 0 && !(s.eligible q p).isEmpty) with
    | none => .next (s.closePods core part)
    | some p =>
      match s.team? core p.team, s.freeStream q (s.widthOf q p) with
      | some tm, some st =>
        let k := tm.packW / 32
        let ths := s.eligible q p
        let drawn := packOrder (if p.conv then drawGroups tm.sgOf k (packOrder ths) else drawColumns k ths)
        let slots := drawn.map (·.slot)
        let q := q.setPod { p with waiting := p.waiting.filter fun w => !slots.contains w.1 }
        let t := q.stream st
        let q := q.setStream { t with pack := some (Pack.formedFrom p slots s.clock), faults := [], walking := false }
        let s := s.setPart q
        let s := drawn.foldl (fun s t => s.setThread { t with life := .inFlight, next := none, chk := none }) s
        let s := s.traceRec core (vfOf tm.ctx) 6 3 tm.ctx (podKey p.key).toNat slots.length
        .next (s.closePods core part)
      | _, _ => .next (s.closePods core part)

/-- A fetch fault of a pack's clause (R36, R107): every thread parks, with the header as fault address and resume point. -/
def State.clauseFault (s : State) (c p st : Nat) (k : Pack) (cls code : Nat) : State :=
  k.slots.foldl (fun s sl =>
    match s.thread? c p sl with
    | some th => s.headerFault th cls code 3 k.hdr k.hdr 0 (st % 2) (resumeHeader k.hdr k.nib)
    | none => s) s

/-- CLAUSE_FETCH (R28, R107, R113): the header and its words come back as one unit. -/
def execClauseFetch (core part stream : Nat) (s : State) : Res :=
  let q := s.part core part
  let t := q.stream stream
  match t.pack with
  | none => .next s
  | some k =>
    match s.team? core k.team with
    | none => .next s
    | some tm =>
      if k.clause.isSome || t.walking then .next s
      else
        let ask (va : DWord) : Res :=
          let s := s.addWalk (dieOf core) tm.ctx va (.word core part stream) .fetch
          .next (s.onPart core part fun q => q.setStream { q.stream stream with walking := true })
        match s.fetchCode core tm.ctx k.nib k.hdr 8 with
        | .miss va => ask va
        | .wait pa => .next (s.ask (fetchAgent core tm.ctx) .row pa)
        | .bad cls code => .next (s.clauseFault core part stream k cls code)
        | .ok bs =>
          let h := BitVec.ofNat 64 (natOf bs)
          let n := 8 * hdrCount h
          match s.fetchCode core tm.ctx k.nib (k.hdr + 8) n with
          | .miss va => ask va
          | .wait pa => .next (s.ask (fetchAgent core tm.ctx) .row pa)
          | .bad cls code => .next (s.clauseFault core part stream k cls code)
          | .ok ws =>
            let s := s.fetchTouch core tm.ctx k.nib k.hdr (n + 8)
            let words := (List.range (hdrCount h)).map fun i => BitVec.ofNat 64 (fieldAt ws (8 * i) 8)
            .next (s.onPart core part fun q => q.setStream { q.stream stream with pack := some { k with clause := some (h, words) } })

/-- A fault on a pod's header fetch (R36, R391): every thread waiting in the pod parks on it, with the header as its resume point, and the
pod is left empty.  The check of the header that its filing left open stays with the thread. -/
def State.podFault (s : State) (c p : Nat) (pod : Pod) (cls code : Nat) : State :=
  let s := (s.waitingIn (s.part c p) pod).foldl (fun s th =>
    s.headerFault th cls code 3 pod.key pod.key 0 2 (resumeHeader pod.key pod.nib)) s
  s.onPart c p fun q => { q with pods := q.pods.filter fun x => x.idx != pod.idx }

/-- The bad-target trap at a filing (R32, R130): `tpc` names the word that gave the target. -/
def State.badTarget (s : State) (th : Thread) (k : Check) (target : DWord) (rank : Nat) : State :=
  s.userTrap th 5 target ⟨k.pc, k.word, k.hdrAt, k.hdr, k.last, false, rank⟩ (opOf k.word).toNat s.clock

/-- A thread whose trap vector is no ENTRY header is terminated as by `exit`, and TVERR is set (R128, R289). -/
def State.vectorError (s : State) (th : Thread) (ctx : Nat) : State :=
  (s.exitThread th).onCtx ctx fun c => { c with ctxerr := c.ctxerr ||| 1 }

/-- POD_HEADER_FETCH (R391): RANK and CONV of a pod come from the header at its key.  A header that a filing could not
see and that is no ENTRY header gives each thread the trap of R32, or ends it when it came by the trap vector (R128). -/
def execPodHeaderFetch (core part pod : Nat) (s : State) : Res :=
  let q := s.part core part
  match q.pods.find? fun p => p.idx == pod with
  | none => .next s
  | some p =>
    match s.team? core p.team with
    | none => .next s
    | some tm =>
      if p.fetched || s.walks.any (fun w => w.waiters.any fun x => x.1 == .header core part pod) then .next s
      else
        match s.fetchCode core tm.ctx p.nib p.key 8 with
        | .miss va => .next (s.addWalk (dieOf core) tm.ctx va (.header core part pod) .fetch)
        | .wait pa => .next (s.ask (fetchAgent core tm.ctx) .row pa)
        | .bad cls code => .next (s.podFault core part p cls code)
        | .ok bs =>
          let s := s.fetchTouch core tm.ctx p.nib p.key 8
          let h := readHeader (BitVec.ofNat 64 (natOf bs))
          let s := s.onPart core part fun q => q.setPod { p with fetched := true, rank := h.rank, conv := h.conv }
          if h.isEntry then .next s
          else
            .next ((s.waitingIn q p).foldl (fun s th =>
              match th.chk with
              | some k =>
                if k.vector then (s.pull core part th.slot).vectorError (s.again th) tm.ctx
                else if k.entry then (s.pull core part th.slot).badTarget (s.again th) k p.key 2
                else s
              | none => s) s)

/-- What a `tret` resumes at and the target that its filing rejects, if any (R130). -/
def tretPoint (th : Thread) (f : Filing) (md : Nat) : Target × Option DWord :=
  if md = 2 then (f.to_, none)
  else
    let t := th.tpc
    (th.retTarget (md == 1), if t = 0 ∨ !canonical t ∨ t.toNat % 8 ≠ 0 then some t else none)

/-- One filing that falls due (R31, R32, R42, R128, R130, R131). -/
def State.fileOne (s : State) (c p : Nat) (f : Filing) : State :=
  match s.thread? c p f.slot with
  | none => s
  | some th =>
    match s.team? c th.team with
    | none => s
    | some tm =>
      let seen (t : Target) : Option Bool := s.entryAt c tm.ctx t.nib t.key
      let put (t : Target) (chk : Option Check) : State := (s.setThread { th with chk := chk }).fileThread c p f.slot t
      if f.vector then
        match seen f.to_ with
        | some false => s.vectorError th tm.ctx
        | some true => put f.to_ none
        | none => put f.to_ (some ⟨0, 0, 0, 0, true, false, true⟩)
      else
        match f.check with
        | none => put f.to_ none
        | some k =>
          let (t, bad) := match f.ret with
            | .tret md => tretPoint th f md
            | _ => (f.to_, none)
          match bad with
          | some v => s.badTarget th k v f.rankIn
          | none =>
            let seenT := if !k.entry || !t.fetches then some true else seen t
            if seenT = some false then s.badTarget th k t.key f.rankIn
            else
              let chk := if seenT.isNone then some k else none
              let grouped := f.ret != .no && (s.part c p).groups.any fun g => g.ends th.slot f.ret
              if grouped then (s.setThread { th with chk := chk }).groupLeave { th with chk := chk } (some t) f.ret
              else put t chk

/-- A filing put in order: the even pipe's pack first, then the odd pipe's, then releases, each in increasing slot
index (R42). -/
def filingInsert (f : Filing) : List Filing → List Filing
  | [] => [f]
  | g :: gs => if f.rankIn < g.rankIn ∨ (f.rankIn = g.rankIn ∧ f.slot ≤ g.slot) then f :: g :: gs else g :: filingInsert f gs

/-- Whether the barriers of a core may still complete in this clock (R132). -/
def State.barriersLeft (s : State) (c : Nat) : Bool :=
  s.agenda.any fun a =>
    match a with
    | .event (.barrierComplete core _ _) => core == c
    | _ => false

/-- Whether a filing is to be made now (R42): it is due, and while a barrier may still complete it is no release and no thread's that stands at one. -/
def State.files (s : State) (c p : Nat) (f : Filing) : Bool :=
  decide (f.due ≤ s.clock) &&
    !(s.barriersLeft c && (decide (2 ≤ f.rankIn) || ((s.thread? c p f.slot).bind (·.atBar)).isSome))

/-- Every filing that is due (R42). -/
def State.fileDue (s : State) (c p : Nat) : State :=
  let due := (s.part c p).filings.filter fun f => s.files c p f
  let s := s.onPart c p fun q => { q with filings := q.filings.filter fun f => !s.files c p f }
  (due.foldr filingInsert []).foldl (fun s f => s.fileOne c p f) s

/-- The threads parked on a pending handle whose tag a write to its pair has cleared are released (R36, R233). -/
def State.releaseUntagged (s : State) (c p : Nat) : State :=
  (s.threads.filter fun t => t.core == c && t.part == p).foldl (fun s t =>
    match t.life, s.team? c t.team with
    | .parked (.handle k n), some tm => if tm.tags.any fun g => g.2 == (k, n) then s else s.release (s.again t) t.at_ s.clock
    | _, _ => s) s

/-- THREAD_FILING (R31, R42 step 4): empty pods are freed, then the filings due are made; those that they release in turn,
a trap at a filing and the end of a hold, follow in the same clock. -/
def execThreadFiling (core part : Nat) (s : State) : Res :=
  let s := ((s.closePods core part).freePods core part).releaseUntagged core part
  .next (((s.fileDue core part).fileDue core part).fileDue core part)

/-- Threads taken from the head of the entry queue (R20), at most `fuel`: in order, so that none is passed for ever (R44). -/
def serveQueue (c p : Nat) : Nat → State → State
  | 0, s => s
  | n + 1, s =>
    let q := s.part c p
    match q.queue with
    | [] => s
    | (sl, t) :: rest =>
      match s.thread? c p sl with
      | none => serveQueue c p n (s.setPart { q with queue := rest })
      | some th =>
        match { q with queue := rest }.fileIn th.team sl t with
        | some q' => serveQueue c p n (s.setPart q')
        | none => s

/-- ENTRY_QUEUE_SERVE (R20). -/
def execEntryQueueServe (core part : Nat) (s : State) : Res := .next (serveQueue core part 32 s)

/-- POLL_RETRY (R39): 64 clocks after it parked, a polling thread is released at its instruction. -/
def execPollRetry (core part slot : Nat) (s : State) : Res :=
  match s.thread? core part slot with
  | none => .next s
  | some th =>
    match th.life with
    | .parked (.poll due) => if due ≤ s.clock then .next (s.release th th.at_ s.clock) else .next s
    | _ => .next s

/-- Whether barriers of a team have still to be looked at in this clock. -/
def State.barriersOf (s : State) (c team : Nat) : Bool :=
  s.agenda.any fun a =>
    match a with
    | .event (.barrierComplete core t _) => core == c && t == team
    | _ => false

/-- BARRIER_COMPLETE (R37, R132): at the clock's end a barrier completes.  Its releases may complete another of the team's barriers in the same
clock, and those looked at before are looked at again; after the last, the threads whose barrier word came in this clock and did not complete
park at theirs. -/
def execBarrierComplete (core team b : Nat) (s : State) : Res :=
  let s : State :=
    if s.barrierReady core team b then
      let u := s.completeBarrier core team b
      { u with agenda := ((List.range b).map fun n => .event (.barrierComplete core team n)) ++ u.agenda }
    else s
  .next (if s.barriersOf core team then s else (List.range 16).foldl (fun s n => s.barrierParks core team n) s)

/-- SERIALISE_DRAIN_END (R294): the flags of the guard-holding threads are clear and their earlier accesses complete, as by
`fence.sc` at system scope. -/
def execSerialiseDrainEnd (core part stream : Nat) (s : State) : Res :=
  let t := (s.part core part).stream stream
  match t.pack with
  | none => .next s
  | some k =>
    match k.clause with
    | none => .next s
    | some (_, ws) =>
      let w := ws.getD (k.pos.getD k.start) 0
      let act := (k.slots.filterMap fun sl => s.thread? core part sl).filter (holdsBoth (g0Of w) (g1Of w))
      if k.serial && !k.serialDone && act.all (fun x => x.flags == 0 && !s.accessesOf core part x.slot (s.nextId + 1)) then
        let s := s.onPart core part fun q => q.setStream { t with pack := some { k with serialDone := true } }
        .next (s.onCore core Core.flash)
      else .next s

/-- The 33 bytes that a patch save record receives (R297). -/
def Thread.patchSave (t : Thread) : List Byte := bytesOfWords (t.vregs 0 8) ++ [t.preds &&& 0x7F]

/-- The stores of a save (R297): of the 32 bytes of the registers, and of the byte of the predicates. -/
def State.saveStores (s : State) (th : Thread) (ctx : Nat) (pc va : DWord) (pa loc : Nat) : State :=
  let (word, s) := s.newId
  let put (s : State) (off : Nat) (bs : List Byte) : State :=
    let (id, s) := s.newId
    s.addOp th.core { Op.blank id word th.part th.slot th.team ctx .patchSave .queued pc s.clock with
                        va := va + BitVec.ofNat 64 off, pa := pa + off, loc := loc, size := bs.length, data := bs }
  put (put s 0 (th.patchSave.take 32)) 32 (th.patchSave.drop 32)

/-- The name under which the save of a thread waits for its walk. -/
def saveName (core part slot : Nat) : Nat := 2 ^ 69 + 2048 * core + 256 * part + slot

/-- PATCH_MODE_ENTRY (R297): once its flags are clear, a thread that enters patch mode stores its record.  When both stores are
acknowledged it is in patch mode, and is filed at the routine 8 clocks later. -/
def execPatchModeEntry (core part slot : Nat) (s : State) : Res :=
  match s.thread? core part slot with
  | none => .next s
  | some th =>
    match th.patch, s.team? core th.team with
    | some x, some tm =>
      if !x.enter || th.flags != 0 || (s.core core).ops.any fun o => o.of part slot && o.kind == .patchSave then .next s
      else
        let va := patchRecord (s.ctx tm.ctx) core part slot
        let g := coreAgent (saveName core part slot) tm.ctx core
        match s.xlateUnit g .write va with
        | (.bad cls code, s) => .next ((s.hostForget g.owner).saveFault th x tm.ctx cls code va)
        | (.miss, s) => .next s
        | (.ok pa loc _, s) => .next ((s.hostForget g.owner).saveStores th tm.ctx x.ppc va pa loc)
    | _, _ => .next s

end Sys2Proof.Machine
end

