-- ==== Sys2Proof/Machine/Walks.lean ====
section
/-! DEFINITION. Page-table walks (R95, R274, R315, R316, R318): their end, and the setting of A and D. -/

namespace Sys2Proof.Machine

/-- The virtual address of a walk's page. -/
def Walk.va (w : Walk) : DWord := (BitVec.ofNat 56 (w.vpn * 4096)).signExtend 64

/-- A walk ends: it is no longer in progress. -/
def State.dropWalk (s : State) (w : Walk) : State := { s with walks := s.walks.erase w }

/-- A stream no longer waits for a walk. -/
def State.walkDone (s : State) (c p st : Nat) (fault : Option (DWord × Nat × Nat × Nat)) : State :=
  s.onPart c p fun q =>
    let t := q.stream st
    if t.walking then q.setStream { t with walking := false, faults := t.faults ++ fault.toList } else q

/-- A spill or refill whose translation has failed (R274): the thread leaves its pod, its return stack goes back, and it parks at the
word.  An entry whose own refill has landed in the spill meanwhile is put back with its value, and one whose refill is in flight waits for
it as before. -/
def State.spillFault (s : State) (core : Nat) (o : Op) (cls code : Nat) : State :=
  let s := s.dropOp core o.id
  match s.thread? core o.part o.slot with
  | none => s
  | some th =>
    match th.xlating with
    | none => s
    | some u =>
      let other := (s.core core).ops.any fun x => x.of o.part o.slot && x.kind == .refill
      let rs := if o.kind = .spill ∧ !o.data.isEmpty then BitVec.ofNat 64 (natOf o.data) :: u.rs.drop 1 else u.rs
      let s := s.pull core o.part o.slot
      let s := s.setThread { th with rs := rs, spilled := u.spilled, refill := other, undo := if other then th.undo else none
                                     xlating := none, next := none }
      (s.wordFault (s.again th) cls code (if o.kind = .refill then 0 else 1) o.va (opOf u.at_.inst).toNat u.at_ u.to_).closePods core o.part

/-- What an access in flight is, for the checks of R315. -/
def Op.acc (o : Op) : Acc :=
  match o.kind with
  | .store | .spill | .patchSave => .write
  | .atomic op | .reduction op => .atomic (atomicCarried op)
  | _ => .read

/-- An access in flight whose translation has failed: a spill or refill takes its thread back to the word (R274).  One that is made again
after a token was answered, or after a restore, leaves free values and its fault for the clause that waits for its flag (R319, R320), or is
performed nowhere, with a record. -/
def State.opFault (s : State) (core : Nat) (o : Op) (cls code : Nat) : State :=
  match o.kind with
  | .spill | .refill => s.spillFault core o cls code
  | .load | .atomic _ | .prefetch => s.setOp core { o with xlated := true, fault := some (cls, code), stage := .done }
  | _ => (s.setOp core { o with xlated := true, stage := .done }).lostRecord o.ctx 0 core cls code o.acc.code o.va o.pc
      (((s.thread? core o.part o.slot).map (·.gindex)).getD 0)

/-- An access in flight is translated, or waits for a walk (R95, R274, R319). -/
def State.opXlate (s : State) (core id : Nat) : State :=
  match (s.core core).op? id with
  | none => s
  | some o =>
    match s.xlateCore core o.ctx [] o.acc o.va with
    | .ok pa loc ink =>
      let s := (s.touchTlb core o.ctx o.va).setOp core { o with xlated := true, pa := pa, loc := loc, ink := ink, since := s.clock }
      if o.kind = .spill ∨ o.kind = .refill then s.onThread core o.part o.slot fun t => { t with xlating := none } else s
    | .bad cls code => s.opFault core o cls code
    | .miss => s.addWalk (dieOf core) o.ctx o.va (.op core id) o.acc

/-- A fault that a walk has found, delivered to a waiter (R95, R107, R274, R315, R391). -/
def State.walkFault (s : State) (w : Walk) (cls code : Nat) (x : Waiter × Acc) : State :=
  match x.1 with
  | .word c p st =>
    let fetch := match ((s.part c p).stream st).pack with
      | some k => k.clause.isNone
      | none => false
    if fetch then
      match ((s.part c p).stream st).pack with
      | some k => (s.walkDone c p st none).clauseFault c p st k cls code
      | none => s
    else s.walkDone c p st (some (w.va >>> 12, x.2.code, cls, code))
  | .header c p pod =>
    match (s.part c p).pods.find? fun q => q.idx == pod with
    | some q => s.podFault c p q cls code
    | none => s
  | .op c id =>
    match (s.core c).op? id with
    | some o => s.opFault c o cls code
    | none => s
  | .unit _ owner | .chan _ owner => s.bring ⟨owner, w.ctx, w.vpn, x.2.code, .fault cls code⟩

/-- What a finished walk gives a waiter: the L2 TLB of its core is filled, or its channel holds the page (R318), and what waited goes on.  A
walk that inserts nothing gives no page to be held (R319). -/
def State.walkGive (s : State) (w : Walk) (e : TlbEntry) (x : Waiter × Acc) : State :=
  let fill (c : Nat) : State := if w.noInsert then s else s.onCore c fun k => k.tlbFill e
  let bring (owner : Nat) (s : State) : State := if w.noInsert then s else s.bring ⟨owner, w.ctx, w.vpn, x.2.code, .page e⟩
  match x.1 with
  | .word c p st => (fill c).walkDone c p st none
  | .header c _ _ => fill c
  | .op c id => (fill c).opXlate c id
  | .unit (some c) owner => bring owner (fill c)
  | .unit none owner => bring owner s
  | .chan k owner => bring owner (if w.noInsert then s else s.holdPage k e)

/-- Whether a waiter's access writes through a leaf that lets it (R315, R316). -/
def State.setsDirty (s : State) (w : Walk) (e : TlbEntry) (x : Waiter × Acc) : Bool :=
  x.2.writes && (s.permission w.ctx x.2 e (e.translate (va56 w.va))).isNone

/-- The lines of a walk's entries have been read. -/
def State.endReads (s : State) (w : Walk) : State := s.dropGrants (walkAgent w.die w.ctx w.vpn).owner

/-- WALK_COMPLETE (R95, R315, R316, R318, R353): the walk of a key reads its entries at their homes, one after another, and ends with a leaf or with a
fault, which inserts nothing.  A leaf whose A bit, or whose D bit for a write, is clear first has it set. -/
def execWalkComplete (die ctx vpn : Nat) (s : State) : Res :=
  match (s.running die).find? fun w => w.ctx == ctx && w.vpn == vpn && w.setting.isNone with
  | none => .next s
  | some w =>
    match s.walkCached die ctx (va56 w.va) with
    | .absent pa => .fault (.absentPhysical pa)
    | .bad cls code l =>
      if !s.mayWalk die ctx vpn l then .next (s.askWalk die ctx vpn l)
      else
        let s := (s.dropWalk w).endReads w
        .next (w.waiters.foldl (fun s x => s.walkFault w cls code x) s)
    | .leaf e pte l =>
      if !s.mayWalk die ctx vpn l then .next (s.askWalk die ctx vpn l)
      else
      let s := s.endReads w
      let s := if w.noInsert then s else s.cacheWalk die l.cache
      let d := w.waiters.any (s.setsDirty w e)
      if !bitAt e.leaf 5 || (d && !e.dirty) then
        let s : State := { s with walks := s.walks.map fun x => if x = w then { w with setting := some (e, pte, if d then 1 else 0) } else x }
        .next (s.ask (walkAgent die ctx vpn) .rmw pte)
      else .next (w.waiters.foldl (fun s x => s.walkGive w e x) (s.dropWalk w))

/-- ACCESSED_DIRTY_SET (R316): the atomic OR that an entry's home has served is made and acknowledged, and its walk ends. -/
def execAccessedDirtySet (die : Nat) (s : State) : Res :=
  let ready (w : Walk) : Bool := match w.setting with
    | some x => s.mayServe (walkAgent die w.ctx w.vpn) .rmw x.2.1
    | none => false
  match s.walks.find? fun w => w.die == die && ready w with
  | none => .next s
  | some w =>
    match w.setting with
    | none => .next s
    | some (e, pte, d) =>
      let s := ((s.setAD pte (d == 1)).dropWalk w).endReads w
      let e := { e with dirty := e.dirty || d == 1, leaf := e.leaf ||| 0x20 ||| (if d = 1 then 0x40 else 0) }
      .next (w.waiters.foldl (fun s x => s.walkGive w e x) s)

end Sys2Proof.Machine
end

