-- ==== Sys2Proof/Machine/Responses.lean ====
section
/-! DEFINITION. The driver's responses to fault tokens (R320, R323, R325, R356, R367). -/

namespace Sys2Proof.Machine

/-- An access kept as a replay entry is issued again (R329, R356), and walks the tables again (R319); the threads that its token has parked go on
when it lands. -/
def State.reissue (s : State) (core id n : Nat) : State :=
  match (s.core core).op? id with
  | none => s
  | some o =>
    let s := s.setOp core { o with stage := .queued, xlated := !o.isGlobal, stampAt := s.clock, since := s.clock, hops := List.replicate 8 0, wakes := some n }
    let s := match o.flag with
      | none => s
      | some n => (o.slot :: o.also).foldl (fun s sl =>
          s.onThread core o.part sl fun t => { t with badFlags := t.badFlags.filter fun b => b.1 != n }) s
    if o.isGlobal then s.opXlate core id else s

/-- A channel's command that waits on a token goes on at its faulting element (R323). -/
def State.resumeChan (s : State) (n : Nat) (k : ChanKey) : State :=
  s.onChan k fun ch =>
    let go (c : Command) : Command := if c.paused = some n then { c with paused := none } else c
    { ch with queue := ch.queue.map go, acking := ch.acking.map go }

/-- The host requests that a token holds, let go. -/
def State.dropHeld (s : State) (n : Nat) : State := { s with hostReqs := s.hostReqs.filter fun r => r.wait != .token n }

/-- The host requests that a token holds ask for their translations again (R377). -/
def State.retryHeld (s : State) (n : Nat) : State :=
  (s.hostReqs.filter fun r => r.wait == .token n).foldl State.hostAsk (s.dropHeld n)

/-- ACTION 0 (R323, R356, R367), with what it does to the threads of a debug stop.  The threads that wait for an access kept as a replay entry
are released when it has landed. -/
def State.actRetry (s : State) (tk : Token) (f : Thread → Thread) : State :=
  let s := tk.replays.foldl (fun s x => s.reissue x.1 x.2 tk.num) s
  let s := if tk.replays.isEmpty then tk.threads.foldl (fun s x => s.releaseParked tk.num x f) s else s
  let s := match tk.chan with
    | some k => (s.resumeChan tk.num k).retryHeld tk.num
    | none => s
  tk.starts.foldl (fun s x => s.onTeam x.1 x.2 fun t => { t with heldTok := none }) s

/-- A thread ended as by `exit`, wherever it stands (R127, R323). -/
def State.endThread (s : State) (core part slot : Nat) : State :=
  let s := s.pull core part slot
  match s.thread? core part slot with
  | some t => if t.life = .draining then s else s.exitThread t
  | none => s

/-- A channel's command that waits on a token fails and delivers nothing further (R323); a collective tells the ranks it can reach. -/
def State.failChan (s : State) (n : Nat) (k : ChanKey) : State :=
  let ch := s.chan k
  match (ch.queue ++ ch.acking).find? fun c => c.paused == some n with
  | none => s
  | some c =>
    let rs := match s.groupRanks (vfOf c.ctx) c.group with
      | .ok (some g) => g.2
      | _ => []
    let s := if c.op = 0x2C3 ∧ c.phase ≠ 0 then (s.sendStatus k c rs 2).dropRanks c else s
    let c := { c with paused := none, phase := 3, failed := true, pausing := false }
    s.onChan k fun ch =>
      { ch with queue := ch.queue.filter fun x => x.id != c.id, acking := (ch.acking.filter fun x => x.id != c.id) ++ [c] }

/-- A held start given up (R323): the team's threads end before any issues, and no preload made for it switches.  What was left of the preload
list goes to another team of the grid on the core, or is made again for the next one. -/
def State.endStart (s : State) (core team : Nat) : State :=
  match s.team? core team with
  | none => s
  | some tm =>
    let s := s.setTeam { tm with heldTok := none, preloads := [], started := tm.size }
    let s : State := { s with threads := s.threads.filter fun t => !(t.core == core && t.team == team) }
    let s := s.onCore core fun c => { c with loads := c.loads.filter fun l => l.team != some team }
    match (s.teamsOn core).find? fun t => t.gid == tm.gid && t.slot != team with
    | some o => s.setTeam { o with preloads := tm.preloads ++ o.preloads }
    | none => s.onGrid tm.gid fun g => { g with preCores := g.preCores.filter fun c => c != core }

/-- A replay entry dropped when its threads end (R356): its flag is clear, and every thread it was to serve ends. -/
def State.dropReplay (s : State) (core id : Nat) : State :=
  match (s.core core).op? id with
  | none => s
  | some o =>
    let s := s.dropOp core id
    (o.slot :: o.also).foldl (fun s sl =>
      let s := match o.flag with
        | some n => s.flagClears core o.part sl n
        | none => s
      s.endThread core o.part sl) s

/-- ACTION 1 (R323, R356). -/
def State.actTerminate (s : State) (tk : Token) : State :=
  let s := tk.replays.foldl (fun s x => s.dropReplay x.1 x.2) s
  let s := tk.threads.foldl (fun s x => s.endThread x.1 x.2.1 x.2.2) s
  let s := match tk.chan with
    | some k => (s.failChan tk.num k).dropHeld tk.num
    | none => s
  tk.starts.foldl (fun s x => s.endStart x.1 x.2) s

/-- What a retry does to a thread of a debug stop (R367): SKIP is set, and STEP and NOBP as the ACTION gives. -/
def Thread.debugGo (t : Thread) (step nobp : Bool) : Thread := { t with dbgSkip := true, dbgStep := step, dbgNobp := t.dbgNobp || nobp }

/-- The effect of a response (R323, R367); a token that is answered waits no more. -/
def State.act (s : State) (tk : Token) (action : Nat) : State :=
  let s0 := s
  let s : State := { s with tokens := s.tokens.filter fun t => t.num != tk.num }
  let stop := tk.cls == 0x18
  if action = 0 then s.actRetry tk (fun t => if stop then t.debugGo false false else t)
  else if action = 1 then s.actTerminate tk
  else if action = 2 then s.loseContext tk.ctx
  else if action = 3 ∧ stop then s.actRetry tk (fun t => t.debugGo true false)
  else if action = 4 ∧ stop then s.actRetry tk (fun t => t.debugGo false true)
  else s0

/-- A response (R323, R325): ignored unless the token is one of the function that waits.  One that comes while the context is saved is
kept, and acts after the restore; an abort acts at once. -/
def State.respond (s : State) (vf token action : Nat) : State :=
  match s.token? token with
  | none => s
  | some tk =>
    if tk.vf ≠ vf ∨ tk.answer.isSome ∨ (3 ≤ action ∧ tk.cls ≠ 0x18) then s
    else if (s.ctx tk.ctx).saved ∧ action ≠ 2 then s.setToken { tk with answer := some action }
    else s.act tk action

/-- FAULT_RESPONSE_RETRY (R323, R325, R356, R367). -/
def execFaultResponseRetry (vf token : Nat) (s : State) : Res := .next (s.respond vf token 0)
/-- FAULT_RESPONSE_TERMINATE (R323). -/
def execFaultResponseTerminate (vf token : Nat) (s : State) : Res := .next (s.respond vf token 1)
/-- FAULT_RESPONSE_ABORT (R323, R331). -/
def execFaultResponseAbort (vf token : Nat) (s : State) : Res := .next (s.respond vf token 2)
/-- FAULT_RESPONSE_STEP (R367). -/
def execFaultResponseStep (vf token : Nat) (s : State) : Res := .next (s.respond vf token 3)
/-- FAULT_RESPONSE_RUN_FREE (R367). -/
def execFaultResponseRunFree (vf token : Nat) (s : State) : Res := .next (s.respond vf token 4)

/-- CCP_RESUME (R36, R131, R294, R323): firmware resumes a thread that a decode slot parked on a NIBTRAP, at the word with BYPASS set, at
the next word, or at an ENTRY header; the hold of its sub-group ends as after a handler. -/
def execCcpResume (core part slot : Nat) (p : ResumePoint) (s : State) : Res :=
  match s.thread? core part slot with
  | none => .next s
  | some t =>
    if t.life = .parked (.fault 0) then .next (s.resumeAt t p) else .next s

end Sys2Proof.Machine
end

