-- ==== Sys2Proof/Machine/Image.lean ====
section
/-! DEFINITION. Context images (R332-R334): what each record holds, the bytes of an image, and an image read back from memory. -/

namespace Sys2Proof.Machine

/-- A record of an image (R332): TYPE, LENGTH with the header, OWNER, and its content on an 8-byte boundary. -/
def imageRec (type owner : Nat) (content : List Byte) : List Byte :=
  let body := content ++ List.replicate ((8 - content.length % 8) % 8) 0
  bytesOf 2 type ++ [0, 0] ++ bytesOf 4 (16 + body.length) ++ bytesOf 8 owner ++ body

/-- The cores of the core group that a core leads: itself, and the follower of its pair reservation (R226, R332). -/
def State.groupOf (s : State) (n : Nat) : List Nat :=
  match (s.core n).resv with
  | some (_, true) => [n, n + 1]
  | _ => [n]

/-- The leaders of a context's core groups. -/
def State.groupLeads (s : State) (ctx : Nat) : List Nat :=
  (s.coresOf ctx).filter fun n => !((s.core n).follower && (s.coresOf ctx).contains (n - 1) && (s.groupOf (n - 1)).contains n)

/-- The cores whose state a context's image holds (R332). -/
def State.groupCores (s : State) (ctx : Nat) : List Nat := (s.groupLeads ctx).flatMap s.groupOf

/-- A number in eight bytes. -/
abbrev num8 (n : Nat) : List Byte := bytesOf 8 n

/-- A record whose content the manual lists and whose layout it leaves open (R332): DESIGN CHOICE (log 46), as many bytes as the content has, each some
function of all of it. -/
def openRec (type : Nat) (content : List Byte) : List Byte := (List.range content.length).map (Config.recordByte type content)

/-- Content of a context record (R332). -/
def State.ctxContent (s : State) (ctx : Nat) : List Byte :=
  num8 ctx ++ num8 (s.ctx ctx).seq ++ (s.grids.filter fun g => g.ctx == ctx).flatMap fun g =>
    num8 g.depth ++ num8 g.launchid ++ num8 g.nextTeam ++ (match g.compl with
      | .team c t k v => num8 (32 * c + t) ++ num8 k ++ num8 v
      | .queue q v => num8 q ++ num8 v
      | .none => []) ++ (if g.die.isSome && !g.accepted then g.packet else [])

/-- A queued command (R245, R332). -/
def Command.content (c : Command) : List Byte :=
  num8 c.word.toNat ++ num8 c.core ++ num8 c.team ++ num8 c.tl ++ num8 c.val ++ num8 c.shp.toNat ++ bytesOfWords c.crd ++ num8 c.fmtSlot.toNat
    ++ num8 c.phase ++ num8 c.pos ++ num8 (c.paused.getD 0) ++ num8 c.num

/-- A channel (R332): its fill pointer, its queue, and where its started command stands. -/
def Chan.content (ch : Chan) : List Byte := num8 ch.fill.toNat ++ (ch.queue ++ ch.acking).flatMap Command.content

/-- A queued array instruction (R226). -/
def ArrayOp.content (a : ArrayOp) : List Byte :=
  num8 a.word.toNat ++ num8 a.at_.key.toNat ++ num8 a.team ++ num8 (256 * a.part + a.slot) ++ num8 a.flag ++ num8 a.d.toNat ++ num8 a.a.toNat ++ num8 a.b.toNat
    ++ num8 a.c.toNat ++ a.slots.flatMap num8

/-- Content of a core of a core group's record, but for its function registers (R332). -/
def State.coreContent (s : State) (ctx n : Nat) : List Byte :=
  let c := s.core n
  num8 (s.teamsOn n).length ++ (c.acc.flatMap fun w => num8 w.1 ++ bytesOfWords [w.2]) ++ (match c.resv with
    | some (t, p) => num8 t ++ num8 (if p then 1 else 0)
    | none => []) ++ ((s.teamsOn n).flatMap fun t => bytesOfWords t.am ++ match t.reuse with
      | some (rows, m, k, f) => rows.flatMap bytesOfWords ++ num8 m ++ num8 k ++ num8 f
      | none => [])
    ++ c.array.flatMap ArrayOp.content
    ++ ((c.census.filter fun z => z.ctx == ctx).flatMap fun z => num8 z.obj ++ num8 z.site.toNat ++ [z.nan, z.inf, z.sat, z.under].flatMap fun n => num8 n.toNat)
    ++ (s.chans.filter fun ch => chanCtx ch.key == ctx && (match ch.key with
      | .core k _ _ => k == n
      | .bulk _ _ _ => false)).flatMap Chan.content

/-- Content of a team record (R332). -/
def State.teamContent (s : State) (t : Team) : List Byte :=
  num8 t.gid ++ num8 t.index ++ num8 t.frame ++ num8 t.packW ++ num8 t.sgLog ++ num8 t.size ++ bytesOfWords t.scalars ++ t.fs.flatMap (fun v => num8 v.toNat)
    ++ ((List.range t.scratchBytes).map t.scratchByte)
    ++ (t.fe.flatMap fun w => num8 w.addr ++ num8 (if w.full then 1 else 0) ++ (match w.reserved with
        | some (p, sl) => num8 (256 * p + sl)
        | none => []) ++ w.waiters.flatMap fun x => num8 (256 * x.part + x.slot))
    ++ ((s.threadsOf t.core t.slot).flatMap fun x => bytesOf 2 x.arrived.toNat ++ bytesOf 2 x.counted.toNat)
    ++ (t.engArr.flatMap fun e => num8 e.1 ++ num8 e.2.1 ++ num8 e.2.2)
    ++ (t.tls.flatMap fun x => num8 x.assigned ++ num8 x.completed ++ num8 x.failv)
    ++ t.tags.flatMap fun e => num8 e.1 ++ num8 e.2.1 ++ num8 e.2.2

/-- Where a destination lies, as a number. -/
def Dest.content (d : Dest) : List Byte :=
  match d with
  | .v sl n => num8 0 ++ num8 sl ++ num8 n
  | .s t n => num8 1 ++ num8 t ++ num8 n
  | .p sl n => num8 2 ++ num8 sl ++ num8 n

/-- Content of a replay entry (R329, R332): address, size, destination, flag, the kind of its word, and the token it waits on. -/
def Op.content (o : Op) : List Byte :=
  num8 o.va.toNat ++ num8 o.size ++ o.dest.flatMap Dest.content ++ num8 (o.flag.getD 255) ++ num8 (256 * o.part + o.slot)
    ++ (match o.kind with
        | .load => num8 0
        | .launch pd => num8 1 ++ num8 pd
        | _ => num8 2)
    ++ match o.stage with
      | .replay n => num8 n
      | _ => num8 0

/-- Content of the replay entry of a descriptor load (R329, R332). -/
def FnLoad.content (l : FnLoad) : List Byte :=
  num8 l.addr.toNat ++ num8 2240 ++ num8 l.reg ++ num8 l.flag ++ l.slots.flatMap (fun sl => num8 (256 * l.part + sl)) ++ num8 3

/-- A pod record (R334); TEAM is the order of the pod's team among those of its core in the image. -/
def Pod.record (p : Pod) (order : Nat) : List Byte :=
  let waiting := (List.range 32).map fun i =>
    BitVec.ofNat 8 ((List.range 8).foldl (fun v b => v + if p.waiting.any fun w => w.1 == 8 * i + b then 2 ^ b else 0) 0)
  let k := (podKey p.key).toNat + (if p.isOpen then 2 ^ 60 else 0) + (if p.conv then 2 ^ 61 else 0) + (if p.resume then 2 ^ 62 else 0) + 2 ^ 63
  let r := p.rank.toNat + 2 ^ 16 * (order % 32) + 2 ^ 32 * p.opened.toNat + 2 ^ 48 * p.arrival.toNat
  waiting ++ bytesOf 8 k ++ bytesOf 8 r

/-- The image of a context (R332-R334).  The manual gives the layout of the thread, pod, entry queue and patch state records and of the
function registers (R326), which stand first in a core group's record; of the others it lists the content. -/
def State.imageBytes (s : State) (ctx : Nat) : List Byte :=
  let ofPart (q : Part) : List Byte :=
    (q.pods.flatMap fun p => imageRec 5 q.core (p.record ((s.teamsOn q.core).findIdx fun t => t.slot == p.team)))
      ++ (if q.queue.isEmpty then [] else imageRec 6 q.core (q.queue.flatMap fun x =>
        bytesOf 2 x.1 ++ bytesOf 6 (if x.2.resume then 1 else 0) ++ bytesOf 8 x.2.key.toNat))
  let ofTeam (t : Team) : List Byte :=
    imageRec 3 t.index (openRec 3 (s.teamContent t)) ++ ((s.threadsOf t.core t.slot).flatMap fun x =>
      imageRec 4 t.index x.record ++ (match x.patch with
        | some p => imageRec 9 x.gindex (bytesOf 8 p.pinst.toNat ++ bytesOf 8 p.ppc.toNat ++ bytesOf 8 p.phdr.toNat ++ bytesOf 8 p.pslot.toNat)
        | none => []))
  let ofCore (n : Nat) : List Byte :=
    ((s.teamsOn n).flatMap ofTeam) ++ ((s.parts.filter fun q => q.core == n).flatMap ofPart)
      ++ ((s.core n).ops.flatMap fun o => match o.stage with
        | .replay _ => imageRec 7 n (openRec 7 o.content)
        | _ => [])
      ++ ((s.core n).loads.flatMap fun l => imageRec 7 n (openRec 7 l.content))
  let fns (n : Nat) : List Byte := if (s.core n).lastCtx = some ctx then (s.core n).fns.flatMap FnReg.save else []
  let ofGroup (n : Nat) : List Byte :=
    imageRec 2 n ((s.groupOf n).flatMap fns ++ openRec 2 ((s.groupOf n).flatMap (s.coreContent ctx))) ++ (s.groupOf n).flatMap ofCore
  imageRec 1 ctx (openRec 1 (s.ctxContent ctx)) ++ (s.groupLeads ctx).flatMap ofGroup
    ++ ((s.chans.filter fun ch => chanCtx ch.key == ctx && chanBulk ch.key).flatMap fun ch => imageRec 8 ctx (openRec 8 ch.content))
    ++ imageRec 0 0 []

/-- Whether a saved core is the follower of the core before it in its group. -/
def Image.follows (i : Image) (old : Nat) : Bool := i.cores.any fun c => c.idx == old && c.follower

/-- The saved cores of the group that a leader leads. -/
def Image.group (i : Image) (old : Nat) : List Core := i.cores.filter fun c => c.idx == old || (c.follower && c.idx == old + 1)

/-- The records of an image, header and content each, up to the one of TYPE 0 (R332). -/
def imageRecs : Nat → List Byte → List (List Byte × List Byte)
  | 0, _ => []
  | n + 1, bs =>
    let len := fieldAt bs 4 4
    if len < 16 then []
    else (bs.take 16, (bs.take len).drop 16) :: if fieldAt bs 0 2 = 0 then [] else imageRecs n (bs.drop len)

/-- TYPE and LENGTH of the records of an image, in order (R332). -/
def imageShape (rs : List (List Byte × List Byte)) : List (Nat × Nat) := rs.map fun r => (fieldAt r.1 0 2, fieldAt r.1 4 4)

/-- The contents of the records of one TYPE. -/
def recsOf (type : Nat) (rs : List (List Byte × List Byte)) : List (List Byte) := (rs.filter fun r => fieldAt r.1 0 2 == type).map (·.2)

/-- How a thread is parked, as its record now has it (R333): what the record says of the cause with which it was saved. -/
def Park.reread (p : Park) (r : List Byte) : Park :=
  let a := fieldAt r 0x14 4
  let v := fieldAt r 0x18 8
  match p with
  | .barrier _ => .barrier (fieldAt r 2 1 % 16)
  | .fullEmpty _ ld => .fullEmpty a ld
  | .timeline _ _ scope => .timeline (a % 8) v scope
  | .handle _ _ => .handle (a % 8) v
  | .fault _ => .fault v
  | q => q

/-- A saved thread as its record in memory now has it (R333): flags, predicates, BYPASS, ARRIVED, trap registers, return stack, counters and
registers; where a parked one is parked, with RANK, CONV and whether its pod is a resume pod; and the resume point of one that is parked on a
fault. -/
def Thread.reread (t : Thread) (r : List Byte) : Thread :=
  let w (off : Nat) : DWord := BitVec.ofNat 64 (fieldAt r off 8)
  let t := if t.onFault then t.setRecord r else t
  let t := match t.life with
    | .parked p =>
      { t with life := .parked (p.reread r)
               at_ := { t.at_ with rank := BitVec.ofNat 13 (fieldAt r 0x10 2), conv := bitAt (w 0x10) 13, resume := bitAt (w 0x10) 14 } }
    | _ => t
  { t with flags := (w 0).extractLsb' 32 12, preds := ((w 0).extractLsb' 48 7).setWidth 8 ||| 0x80, bypass := bitAt (w 0) 4
           arrived := (w 0x10).extractLsb' 16 16, tcause := w 0x20, tval := w 0x28, tpc := w 0x30, tinst := w 0x38
           rs := (List.range (min 4 (fieldAt r 0x60 8 % 8))).map fun i => w (0x40 + 8 * i)
           spilled := fieldAt r 0x64 4, rand := w 0x68, gridpend := w 0x78
           regs := wordsOfBytes t.regs.length (r.drop 0x80) }

/-- The threads of an image in the order of their records. -/
def Image.inOrder (i : Image) : List Thread :=
  i.cores.flatMap fun c => (i.teams.filter fun x => x.core == c.idx).flatMap fun x => i.threads.filter fun t => t.core == c.idx && t.team == x.slot

/-- A saved thread in a patch routine as its patch state record now has it (R332). -/
def Thread.rereadPatch (t : Thread) (r : List Byte) : Thread :=
  let w (off : Nat) : DWord := BitVec.ofNat 64 (fieldAt r off 8)
  { t with patch := t.patch.map fun p => { p with pinst := w 0, ppc := w 8, phdr := w 16, pslot := w 24 } }

/-- A saved pod as its record in memory now has it (R334); one whose VALID is clear is gone.  The clocks since the arrival of a thread that it did
not hold begin anew. -/
def Pod.reread (p : Pod) (r : List Byte) (teams : List Team) : Option Pod :=
  let k : DWord := BitVec.ofNat 64 (fieldAt r 32 8)
  let n : DWord := BitVec.ofNat 64 (fieldAt r 40 8)
  let key : DWord := (k.extractLsb' 0 53 ++ 0#3).signExtend 64
  let same := key == p.key
  let waiting := (List.range 256).filter fun sl => (fieldAt r (sl / 8) 1).testBit (sl % 8)
  if !bitAt k 63 then none
  else some
    { p with key := key, isOpen := bitAt k 60, conv := bitAt k 61, resume := bitAt k 62, rank := n.extractLsb' 0 13
             team := ((teams[(n.extractLsb' 16 5).toNat]?).map (·.slot)).getD p.team
             opened := n.extractLsb' 32 16, arrival := n.extractLsb' 48 16
             waiting := waiting.map fun sl => (sl, assoc sl 0 p.waiting)
             fetched := p.fetched && same, hdr := if same then p.hdr else key }

/-- A saved entry queue as its record in memory now has it (R332). -/
def rereadQueue (q : List (Nat × Target)) (r : List Byte) : List (Nat × Target) :=
  (List.range (r.length / 16)).map fun i =>
    let e := (r.drop (16 * i)).take 16
    let key : DWord := BitVec.ofNat 64 (fieldAt e 8 8)
    let resume := (fieldAt e 2 1).testBit 0
    match q.find? fun x => x.1 == fieldAt e 0 2 with
    | some (sl, t) => (sl, if t.key = key then { t with resume := resume } else { t with key := key, hdr := key, resume := resume })
    | none => (fieldAt e 0 2, ⟨key, resume, key, 0, false, 0⟩)

/-- The partitions of an image in the order of their records. -/
def Image.partsInOrder (i : Image) : List Part := i.cores.flatMap fun c => i.parts.filter fun q => q.core == c.idx

/-- Saved partitions with their pods and entry queues as the records now are: a record for each pod, and one for each queue that holds a thread. -/
def Image.rereadParts (i : Image) : List Part → List (List Byte) → List (List Byte) → List Part
  | [], _, _ => []
  | q :: rest, pods, queues =>
    let n := q.pods.length
    let teams := i.teams.filter fun t => t.core == q.core
    { q with pods := (q.pods.zip pods).filterMap fun x => if x.1.record (teams.findIdx fun t => t.slot == x.1.team) = x.2 then some x.1 else x.1.reread x.2 teams
             queue := if q.queue.isEmpty then [] else rereadQueue q.queue (queues.headD []) }
      :: i.rereadParts rest (pods.drop n) (if q.queue.isEmpty then queues else queues.drop 1)

/-- The saved cores with the function registers of their records (R326, R332): those of one group stand in one record. -/
def Image.rereadFns (i : Image) (new : List (List Byte)) : List Core :=
  let heads := i.cores.filter fun c => !c.follower
  (heads.zip new).flatMap fun x =>
    let mine := (i.group x.1.idx).filter fun c => c.lastCtx == some i.ctx
    (i.group x.1.idx).map fun c =>
      if c.lastCtx = some i.ctx then
        let base := 35840 * mine.findIdx fun y => y.idx == c.idx
        { c with fns := (List.range 16).map fun k => FnReg.restore ((x.2.drop (base + 2240 * k)).take 2240) }
      else c

/-- An image as the bytes in memory have it (R332), if they are an image of the context: its records are those written, by TYPE and LENGTH.
What has changed in a record whose layout the manual gives is taken; the rest stands as it was saved (log 46). -/
def Image.reread (i : Image) (bs : List Byte) : Option Image :=
  if bs = i.bytes then some i
  else
    let old := imageRecs i.bytes.length i.bytes
    let new := imageRecs bs.length bs
    if imageShape new ≠ imageShape old then none
    else
      let changed (type : Nat) : List (List Byte × List Byte) := (recsOf type old).zip (recsOf type new)
      let upd (f : Thread → List Byte → Thread) (ts : List Thread) (rs : List (List Byte × List Byte)) : List Thread :=
        (ts.zip rs).map fun x => if x.2.1 = x.2.2 then x.1 else f x.1 x.2.2
      let ts := upd Thread.reread i.inOrder (changed 4)
      let ts := upd Thread.rereadPatch (ts.filter fun t => t.patch.isSome) (changed 9) ++ ts
      some { i with threads := i.threads.map fun t => (ts.find? fun x => x.core == t.core && x.part == t.part && x.slot == t.slot).getD t
                    parts := i.rereadParts i.partsInOrder (recsOf 5 new) (recsOf 6 new)
                    cores := if recsOf 2 old = recsOf 2 new then i.cores else i.rereadFns (recsOf 2 new) }

end Sys2Proof.Machine
end

