-- ==== Sys2Proof/Machine/Preempt.lean ====
section
/-! DEFINITION. Pre-emption and restore (R43, R226, R245, R325-R335, R366). -/

namespace Sys2Proof.Machine

/-- Whether `pstat` shows a command in progress (R327). -/
def Vf.busy (v : Vf) : Bool := v.pstat == 1 || v.pstat == 2 || v.pstat == 4

/-- BASE of `psarea` (R327). -/
def Vf.saveBase (v : Vf) : Nat := (v.psarea &&& 0x000F_FFFF_FFFF_F000).toNat

/-- The selectors of a context's cores stop (R328 step 3). -/
def State.haltCores (s : State) (ctx : Nat) : State :=
  (s.coresOf ctx).foldl (fun s n => s.onCore n fun c => { c with halting := true, halted := false, drainAt := 0 }) s

/-- PREEMPT (R328, R366): the request reaches the cores of the context, and the debug words of its threads are cleared.  The selectors stop
once a quiet point in progress has completed (R299).  The request is ignored while a command is in progress, for a context of another
function, and for one that is saved. -/
def execPreempt (vf ctx : Nat) (s : State) : Res :=
  let v := s.vf vf
  if v.busy || vfOf ctx != vf || (s.ctx ctx).saved then .next s
  else
    let cores := s.coresOf ctx
    let s := if s.quiet then s else s.haltCores ctx
    let mine (t : Thread) : Bool := ((s.team? t.core t.team).map (·.ctx)) == some ctx
    let clear (t : Thread) : Thread := if mine t then { t with dbgSkip := false, dbgNobp := false, dbgStep := false } else t
    let s : State := { s with threads := s.threads.map clear }
    let st := if cores.isEmpty then 2 else 1
    .next (s.setVf { v with pstatCtx := ctx, pstatSize := 0, pstat := st, preempt := some ⟨ctx, s.clock, v.saveBase⟩ })

/-- Whether an operation is a read that the drain deadline abandons (R329); a refill drains (R275), and so does a reload of `nret`. -/
def Op.abandoned (o : Op) : Bool :=
  let read := match o.kind with
    | .load | .launch _ => true
    | _ => false
  let out := match o.stage with
    | .done | .replay _ => false
    | _ => true
  read && out

/-- DRAIN_DEADLINE (R226, R329): reads still outstanding become replay entries, whose later returns are discarded; an array word that still waits
for its operands, and so has had no effect, is saved as one that has not started; and a host-range store or atomic that a page request holds is
treated as timed out. -/
def execDrainDeadline (core : Nat) (s : State) : Res :=
  let c := s.core core
  if !c.halting || c.halted || c.drainAt == 0 || decide (s.clock < c.drainAt) then .next s
  else
    let ids := (c.ops.filter Op.abandoned).map (·.id) ++ c.loads.map (·.id)
    let words := (c.array.filter fun o => !o.made).map (·.id)
    let gone (r : HostReq) : Bool := (r.owner.isNone && r.core == core && ids.contains r.op) || r.owner.any words.contains
    let s : State := { s with hostReqs := s.hostReqs.filter fun r => !gone r
                              linkQ := s.linkQ.filter fun l => match l.to_ with
                                | .host r => !gone r
                                | _ => true }
    let s := s.onCore core fun c =>
      { c with ops := (c.ops.map fun o => if o.abandoned then { o with stage := .replay 0 } else o).filter fun o => o.kind != .prefetch
               loads := c.loads.map (fun l => { l with got := [], image := none, since := none })
               array := c.array.map fun o => if o.made then o else { o with started := none } }
    .next ((s.hostReqs.filter fun r => r.pri && r.owner.isNone && r.core == core && !r.msg.isRead).foldl (fun s r => s.requestFails r 0x15 0) s)

/-- Whether a core's packs have all left their streams. -/
def State.noPacks (s : State) (core : Nat) : Bool :=
  (s.parts.filter fun q => q.core == core).all fun q => q.filings.isEmpty && q.streams.all fun t => t.pack.isNone

/-- Whether an operation waits for what is saved with it: a read kept as a replay entry, a queued array word, or another that waits.  Such
an operation is saved as it stands, and is performed after the restore. -/
def State.stuck (s : State) (core : Nat) (o : Op) : Bool := o.stage == .queued && s.waits core o

/-- Whether an operation may be outstanding when a core reports halted (R328, R329). -/
def State.mayStay (s : State) (core : Nat) (o : Op) (late : Bool) : Bool :=
  match o.stage with
  | .replay _ => true
  | _ =>
    match o.kind with
    | .refill | .patchSave | .patchLoad => false
    | .fnsync _ => late
    | _ => o.xlated && (o.flag.isNone || (late && s.stuck core o))

/-- Whether a core may report halted (R328): every thread that has been filed stands at an instruction boundary, and flagged
operations have drained.  One that waits for its flags before it enters patch mode stands at the word to be emulated (R297). -/
def State.mayHalt (s : State) (core : Nat) : Bool :=
  let c := s.core core
  let late := c.drainAt != 0 && decide (c.drainAt ≤ s.clock)
  let filed (t : Thread) : Bool := decide (t.tid < ((s.team? t.core t.team).map (·.started)).getD 0)
  c.halting && !c.halted && s.noPacks core
    && ((s.threads.filter fun t => t.core == core && filed t).all fun t => t.life != .inFlight || (t.patch.map (·.enter)).getD false)
    && (c.ops.all fun o => s.mayStay core o late) && (late || c.loads.isEmpty) && (c.array.all fun a => a.started.isNone)

/-- CORE_HALTED (R328): with the last core of the context, saving begins. -/
def execCoreHalted (core : Nat) (s : State) : Res :=
  match (s.core core).ctx with
  | none => .next s
  | some ctx =>
    if !s.mayHalt core then .next s
    else
      let s := s.onCore core fun c => { c with halted := true }
      let s := s.traceRec core (vfOf ctx) 9 5 ctx core 0
      .next (if s.allHalted ctx then s.onVf (vfOf ctx) fun v => { v with pstat := 2 } else s)

/-- Whether a channel of a context stands where it can be saved (R93, R245, R330). -/
def Chan.still (ch : Chan) : Bool :=
  (ch.acking.all fun c => c.paused.isSome) &&
    match ch.queue with
    | c :: _ => c.phase != 2 || c.pausing || c.paused.isSome
    | [] => true

/-- Whether what R330 waits for has completed: checkpoints, `fur` jobs, and every store and atomic.  What waits for an operation that is
saved is saved with it, once nothing else is outstanding. -/
def State.maySave (s : State) (ctx : Nat) : Bool :=
  let cores := s.coresOf ctx
  let ids := (s.commandsOf ctx).map (·.id)
  let rest (n : Nat) (o : Op) : Bool := match o.stage, o.kind with
    | .replay _, _ => true
    | _, .fnsync _ => true
    | _, _ => s.stuck n o
  s.allHalted ctx && ((s.chans.filter fun ch => chanCtx ch.key == ctx).all Chan.still)
    && !(s.clusters.any fun c => c.fifo.any fun j => j.ctx == ctx)
    && (cores.all fun n => s.noPacks n && (s.core n).ops.all (rest n))
    && !(s.hostOut.any fun r => r.owner.any ids.contains && !(match r.wait with
      | .token _ => true
      | _ => false))

/-- A core from which a context has been saved: it is free for another. -/
def Core.vacate (c : Core) (ctx : Nat) : Core :=
  { c with ctx := none, ops := [], loads := [], array := [], resv := none, releasing := none, follower := false, acc := [], accBad := [], l1 := []
           census := c.census.filter fun x => x.ctx != ctx, halting := false, halted := false, drainAt := 0 }

/-- Where the parts of saved core groups go (R335): cores, and on each its team slots and thread slots, from old to new. -/
structure Move where
  core : Nat → Nat
  team : Nat → Nat → Nat
  slot : Nat → Nat → Nat → Nat

/-- A thread moved.  Its debug word is no part of an image (R366). -/
def Move.thread (m : Move) (t : Thread) : Thread :=
  { t with dbgSkip := false, dbgNobp := false, dbgStep := false
           core := m.core t.core, team := m.team t.core t.team, slot := m.slot t.core t.part t.slot
           hold37 := t.hold37.map (m.slot t.core t.part) }

/-- A team moved. -/
def Move.teamOf (m : Move) (t : Team) : Team :=
  { t with core := m.core t.core, slot := m.team t.core t.slot, slots := t.slots.map fun x => (x.1, m.slot t.core x.1 x.2)
           fe := t.fe.map fun w => { w with reserved := w.reserved.map fun r => (r.1, m.slot t.core r.1 r.2)
                                            waiters := w.waiters.map fun x => { x with slot := m.slot t.core x.part x.slot } } }

/-- A partition moved: its pods, entry queue and trap groups. -/
def Move.part (m : Move) (q : Part) : Part :=
  let sl := m.slot q.core q.idx
  { Part.init (m.core q.core) q.idx with
    pods := q.pods.map fun p => { p with team := m.team q.core p.team, waiting := p.waiting.map fun w => (sl w.1, w.2) }
    queue := q.queue.map fun x => (sl x.1, x.2)
    groups := q.groups.map fun g =>
      { g with team := m.team q.core g.team, inHandler := g.inHandler.map sl, patching := g.patching.map sl, held := g.held.map sl } }

/-- A destination moved. -/
def Move.dest (m : Move) (core part : Nat) (d : Dest) : Dest :=
  match d with
  | .v sl n => .v (m.slot core part sl) n
  | .s t n => .s (m.team core t) n
  | .p sl n => .p (m.slot core part sl) n

/-- An operation of a core moved; an abandoned read is issued again (R335), and what has not been performed walks the tables again (R319). -/
def Move.op (m : Move) (core clock : Nat) (o : Op) : Op :=
  { o with slot := m.slot core o.part o.slot, team := m.team core o.team, dest := o.dest.map (m.dest core o.part)
           also := o.also.map (m.slot core o.part)
           stage := if o.stage = .replay 0 then .queued else o.stage, xlated := !o.isGlobal, stampAt := clock, since := clock
           hops := List.replicate 8 0 }

/-- A descriptor load of a core moved. -/
def Move.load (m : Move) (core : Nat) (l : FnLoad) : FnLoad :=
  { l with slots := l.slots.map (m.slot core l.part), team := l.team.map (m.team core) }

/-- A queued array instruction moved. -/
def Move.arrayOp (m : Move) (a : ArrayOp) : ArrayOp :=
  { a with core := m.core a.core, team := m.team a.core a.team, slot := m.slot a.core a.part a.slot
           slots := a.slots.map (m.slot a.core a.part) }

/-- A command moved; what stood at a checkpoint may go on. -/
def Move.command (m : Move) (c : Command) : Command :=
  { c with core := m.core c.core, team := m.team c.core c.team, slot := m.slot c.core c.part c.slot, pausing := false }

/-- A channel key moved. -/
def Move.key (m : Move) (k : ChanKey) : ChanKey :=
  match k with
  | .core c ctx n => .core (m.core c) ctx n
  | .bulk d ctx n => .bulk d ctx n

/-- A channel moved. -/
def Move.chan (m : Move) (ch : Chan) : Chan :=
  { ch with key := m.key ch.key, queue := ch.queue.map m.command, acking := ch.acking.map m.command, pages := [] }

/-- A token moved (R325). -/
def Move.token (m : Move) (t : Token) : Token :=
  { t with core := m.core t.core, unit := if t.source = 0 then m.core t.unit else t.unit
           threads := t.threads.map fun x => (m.core x.1, x.2.1, m.slot x.1 x.2.1 x.2.2)
           chan := t.chan.map m.key
           starts := t.starts.map fun x => (m.core x.1, m.team x.1 x.2)
           replays := t.replays.map fun x => (m.core x.1, x.2) }

/-- A grid that names moved teams. -/
def Move.grid (m : Move) (g : Grid) : Grid :=
  let mv (x : Nat × Nat) : Nat × Nat := (m.core x.1, m.team x.1 x.2)
  { g with teams := g.teams.map mv, parent := g.parent.map mv, preCores := g.preCores.map m.core
           compl := match g.compl with
             | .team c t k v => .team (m.core c) (m.team c t) k v
             | x => x }

/-- The number under which a saved core group is kept until it is placed again. -/
def savedCore (c : Nat) : Nat := 1000 + c

/-- The move of every core of a context to where its image is kept. -/
def Move.toImage (cores : List Nat) : Move :=
  { core := fun c => if cores.contains c then savedCore c else c, team := fun _ t => t, slot := fun _ _ sl => sl }

/-- A context saved: its image is kept beside the bytes written, and its cores are free (R330, R332). -/
def State.saveContext (s : State) (ctx base : Nat) (bytes : List Byte) : State :=
  let cores := s.groupCores ctx
  let on (n : Nat) : Bool := cores.contains n
  let m := Move.toImage cores
  let img : Image :=
    { ctx := ctx, base := base, bytes := bytes
      cores := cores.map fun n => { s.core n with idx := savedCore n }
      parts := (s.parts.filter fun q => on q.core).map m.part
      threads := (s.threads.filter fun t => on t.core).map m.thread
      teams := (s.teams.filter fun t => on t.core).map m.teamOf
      chans := (s.chans.filter fun ch => chanCtx ch.key == ctx).map m.chan, grids := [] }
  let s := cores.foldl (fun s n => s.onCore n fun c => c.vacate ctx) s
  let s : State :=
    { s with images := s.images.filter (fun i => i.ctx != ctx) ++ [img]
             threads := s.threads.filter fun t => !on t.core
             teams := s.teams.filter fun t => !on t.core
             parts := s.parts.filter fun q => !on q.core
             chans := s.chans.filter fun ch => chanCtx ch.key != ctx
             tokens := s.tokens.map fun t => if t.ctx = ctx then m.token t else t
             grids := s.grids.map fun g => if g.ctx = ctx then m.grid g else g
             vfs := s.vfs.map fun v => { v with held := v.held.map fun r => if r.ctx = ctx then { r with behind := none } else r } }
  s.onCtx ctx fun c => { c with saved := true }

/-- IMAGE_SAVED (R330): the image is written, and `pstat` shows 3. -/
def execImageSaved (vf : Nat) (s : State) : Res :=
  match (s.vf vf).preempt with
  | none => .next s
  | some p =>
    if !s.maySave p.ctx then .next s
    else
      let bytes := s.imageBytes p.ctx
      if !paOk p.base bytes.length then .fault (.absentPhysical p.base)
      else
        let s := (s.saveContext p.ctx p.base bytes).post (ccpAgent vf) p.base bytes
        .next ((s.onVf vf fun v => { v with preempt := none, pstat := 3, pstatSize := ceilDiv bytes.length 4096 }).raise vf vecPreempt)

/-- PREEMPT_WATCHDOG (R331): 10,000 clocks after the write of `pcmd`, a context with a core that has not halted is lost. -/
def execPreemptWatchdog (vf : Nat) (s : State) : Res :=
  match (s.vf vf).preempt with
  | none => .next s
  | some p => if p.since + 10000 ≤ s.clock ∧ !s.allHalted p.ctx then .next (s.loseContext p.ctx) else .next s

/-- Whether the store of a core holds some teams at once (R49). -/
def storeHolds (ts : List Team) : Bool :=
  decide (8192 * ts.foldl (fun m t => max m t.frame) 0 + ts.foldl (fun n t => n + 16384 * ceilDiv t.scratchBytes 16384) 0 + 262144 ≤ 2097152)

/-- The teams of an image that were saved from a core. -/
def Image.teamsOf (i : Image) (old : Nat) : List Team := i.teams.filter fun t => t.core == old

/-- Whether a core takes the teams of a saved core (R203, R308, R335), as if they were one team.  A core that holds another group of the image takes
them where the array is not held twice and no channel comes twice, and where both bring the same function registers, since a core has one set of
them (R192, log 45). -/
def State.takesCore (s : State) (img : Image) (old core : Nat) : Bool :=
  let ts := s.teamsOn core
  let mine := img.teamsOf old
  let slots := mine.flatMap (·.slots)
  let c := s.core core
  let saved := (img.cores.find? fun x => x.idx == old).getD c
  let other (n : Nat) : Bool := (s.teamsOn n).any fun t => t.ctx != img.ctx
  let partOk (q : Nat) : Bool :=
    ((ts ++ mine).filter fun t => t.slots.any fun x => x.1 == q).all fun t => mine.all fun u => !(u.slots.any fun x => x.1 == q) || u.packW == t.packW
  s.coreFree (vfOf img.ctx) core && !other core && !(c.follower && other (core - 1)) && decide (ts.length + mine.length ≤ 32)
    && (List.range 8).all partOk
    && ((List.range 256).all fun k =>
        decide (s.rowsUsed core (k / 32) (k % 32) + (slots.filter fun x => x.1 == k / 32 && x.2 % 32 == k % 32).length ≤ 8))
    && storeHolds (ts ++ mine)
    && ((saved.resv.isNone && !saved.follower) || (c.resv.isNone && !c.follower))
    && (ts.isEmpty || saved.lastCtx != some img.ctx || decide (c.fns = saved.fns))
    && (img.chans.all fun ch => match ch.key with
        | .core n ctx k => n != old || !(s.chans.any fun x => x.key == .core core ctx k)
        | .bulk _ _ _ => true)

/-- Whether a core may take a saved group (R203, R308, R335): a pair takes both cores of a pair, and a team that asked for a pair the even
core of one. -/
def State.takesGroup (s : State) (img : Image) (old core : Nat) : Bool :=
  let asks := (img.teamsOf old).any (·.pair)
  s.takesCore img old core && (!img.follows (old + 1) || (core % 2 == 0 && s.takesCore img (old + 1) (core + 1)))
    && (!asks || (core % 2 == 0 && s.coreFree (vfOf img.ctx) (core + 1) && !((s.teamsOn core).any (·.pair))))

/-- Occupied slots that a core counts for a saved group (R308). -/
def State.groupLoad (s : State) (img : Image) (old core : Nat) : Nat :=
  (s.slotsOn core).length + if img.follows (old + 1) || (img.teamsOf old).any (·.pair) then (s.slotsOn (core + 1)).length else 0

/-- The slots that threads' slots become one after another: each keeps its partition and column, and takes the lowest free row (R335). -/
def newSlots (taken : List (Nat × Nat)) : List (Nat × Nat) → List (Nat × Nat × Nat)
  | [] => []
  | x :: rest =>
    let sl := freeSlot taken x.1 (x.2 % 32)
    (x.1, x.2, sl) :: newSlots ((x.1, sl) :: taken) rest

/-- The team slots that teams take one after another. -/
def newTeams (taken : List Nat) : List Team → List (Nat × Nat)
  | [] => []
  | t :: rest =>
    let n := ((List.range 32).find? fun i => !taken.contains i).getD 0
    (t.slot, n) :: newTeams (n :: taken) rest

/-- The move of a saved group to a core, and of its follower to the next, beside what they hold. -/
def State.moveTo (s : State) (img : Image) (old new : Nat) : Move :=
  let pair := img.follows (old + 1)
  let at_ (c : Nat) : Nat := new + (c - old)
  let teams := [old, old + 1].map fun c => (c, newTeams ((s.teamsOn (at_ c)).map (·.slot)) (img.teamsOf c))
  let slots := [old, old + 1].map fun c => (c, newSlots (s.slotsOn (at_ c)) ((img.teamsOf c).flatMap (·.slots)))
  let on (c : Nat) : Bool := c == old || (pair && c == old + 1)
  { core := fun c => if on c then new + (c - old) else c
    team := fun c t => if on c then assoc t t (assoc c [] teams) else t
    slot := fun c p x => if on c then (((assoc c [] slots).find? fun y => y.1 == p && y.2.1 == x).map (·.2.2)).getD x else x }

/-- A core that takes the saved state of a core of a group, with its L1 flash-invalidated (R106, R335).  Its function registers are those of
the context if the context was the last that ran there (R192, R326). -/
def Core.takeGroup (x c : Core) (m : Move) (ctx clock : Nat) : Core :=
  let held := x.resv.isSome || x.follower
  let x := { x.flash with ops := x.flash.ops ++ c.ops.map (m.op c.idx clock), loads := x.loads ++ c.loads.map (m.load c.idx)
                          resv := x.resv.or (c.resv.map fun r => (m.team c.idx r.1, r.2))
                          releasing := x.releasing.or (c.releasing.map fun r => (m.team c.idx r.1, r.2))
                          follower := x.follower || c.follower, acc := if held then x.acc else c.acc, accSeed := if held then x.accSeed else c.accSeed
                          accBad := if held then x.accBad else c.accBad
                          array := x.array ++ c.array.map m.arrayOp
                          census := x.census ++ c.census.filter fun z => z.ctx == ctx }
  let x := if c.ctx = some ctx then { x with ctx := some ctx } else x
  if c.lastCtx = some ctx then { x with lastCtx := some ctx, fns := c.fns } else x

/-- A partition that takes the pods, queue and groups of a saved one; pods take the free indices, and the threads of one for which
there is none join the entry queue. -/
def Part.takeGroup (x q : Part) : Part :=
  let free := (List.range 32).filter fun i => !(x.pods.any fun p => p.idx == i)
  let left := (q.pods.drop free.length).flatMap fun p =>
    p.waiting.map fun w => (w.1, Target.mk p.key p.resume p.hdr p.rank p.conv p.nib)
  { x with pods := x.pods ++ (q.pods.zip free).map fun p => { p.1 with idx := p.2 }
           queue := x.queue ++ left ++ q.queue, groups := x.groups ++ q.groups }

/-- The cores of a saved group that bring function registers: those where the context was the last to run. -/
def Image.fnCores (i : Image) (old new : Nat) : List Nat :=
  ((i.group old).filter fun c => c.lastCtx == some i.ctx).map fun c => new + (c.idx - old)

/-- A saved group placed on a core (R335). -/
def State.placeGroup (s : State) (img : Image) (old new : Nat) : State :=
  let m := s.moveTo img old new
  let cores := img.group old
  let mine (n : Nat) : Bool := cores.any fun c => c.idx == n
  let s := (img.fnCores old new).foldl (fun s n => s.switchFns n img.ctx) s
  let s := cores.foldl (fun s c => s.onCore (m.core c.idx) fun x => x.takeGroup c m img.ctx s.clock) s
  let parts := (img.parts.filter fun q => mine q.core).map m.part
  let s := parts.foldl (fun s q => s.onPart q.core q.idx fun x => x.takeGroup q) s
  let ofOld (ch : Chan) : Bool := match ch.key with
    | .core c _ _ => mine c
    | .bulk _ _ _ => false
  let left (i : Image) : Image :=
    if i.ctx = img.ctx then
      { i with cores := i.cores.filter fun c => !mine c.idx
               parts := i.parts.filter fun q => !mine q.core
               threads := i.threads.filter fun t => !mine t.core
               teams := i.teams.filter fun t => !mine t.core
               chans := (i.chans.filter fun ch => !ofOld ch).map m.chan }
    else i
  let s : State :=
    { s with threads := s.threads ++ (img.threads.filter fun t => mine t.core).map m.thread
             teams := s.teams ++ (img.teams.filter fun t => mine t.core).map m.teamOf
             chans := s.chans ++ (img.chans.filter ofOld).map m.chan
             tokens := s.tokens.map fun t => if t.ctx = img.ctx then m.token t else t
             grids := s.grids.map fun g => if g.ctx = img.ctx then m.grid g else g
             images := s.images.map left }
  let s := cores.foldl (fun s c => (c.ops.filter Op.isGlobal).foldl (fun s o =>
    match (s.core (m.core c.idx)).op? o.id with
    | some x => if x.stage = .queued then s.opXlate (m.core c.idx) o.id else s
    | none => s) s) s
  s.traceRec new (vfOf img.ctx) 10 5 img.ctx new 0

/-- The core for a saved group: of those that may take it, the one with the fewest occupied slots, and of those the lowest (R308, R335). -/
def State.coreForGroup (s : State) (img : Image) (old : Nat) : Option Nat :=
  State.coreFor.firstMin (s.groupLoad img old) ((List.range 160).filter (s.takesGroup img old))

/-- Groups placed one by one; those for which there is no core wait. -/
def placeGroups (img : Image) : List Nat → State → Res
  | [], s => .next s
  | old :: rest, s =>
    match s.coreForGroup img old with
    | none => placeGroups img rest s
    | some new =>
      match firstSome ((img.fnCores old new).map fun n => s.fnsMissing n img.ctx) with
      | some pa => .fault (.absentPhysical pa)
      | none => placeGroups img rest (s.placeGroup img old new)

/-- The leaders of an image's groups. -/
def Image.leaders (i : Image) : List Nat := (i.cores.filter fun c => !c.follower).map (·.idx)

/-- A restore goes on (R325, R335): once every group is placed `pstat` shows 5, the responses that came meanwhile act, and the
context's grids continue.  No group is placed while a write of `featmask` is pending (R292). -/
def State.restoreStep (s : State) (vf ctx : Nat) : Res :=
  match s.images.find? fun i => i.ctx == ctx with
  | none => .next s
  | some img =>
    if (s.ctx ctx).featPend.isSome then .next s
    else
    match placeGroups img img.leaders s with
    | .next s =>
      match s.images.find? fun i => i.ctx == ctx with
      | none => .next s
      | some left =>
        if !left.leaders.isEmpty then .next s
        else
          let bulk := left.chans.filter fun ch => chanBulk ch.key
          let s : State := { s with images := s.images.filter fun i => i.ctx != ctx
                                    chans := s.chans ++ bulk }
          let s := s.onCtx ctx fun c => { c with saved := false }
          let s := (s.onVf vf fun v => { v with pstat := 5, restore := none }).raise vf vecPreempt
          .next ((s.tokens.filter fun t => t.ctx == ctx).foldl (fun s t => match t.answer with
            | some a => s.act t a
            | none => s) s)
    | r => r

/-- The state with a context's kept image replaced. -/
def State.withImage (s : State) (i : Image) : State :=
  if s.images.contains i then s else { s with images := s.images.map fun x => if x.ctx = i.ctx then i else x }

/-- RESTORE (R327, R332, R335): the image at `psarea` is restored; one that is no image of the context is rejected, and `pstat`
shows 8.  While groups wait for a core, `pstat` shows 4 and the restore goes on. -/
def execRestoreImage (vf ctx : Nat) (s : State) : Res :=
  let v := s.vf vf
  if v.pstat = 4 ∧ (v.restore.map (·.ctx)) = some ctx then s.restoreStep vf ctx
  else if v.busy || vfOf ctx != vf then .next s
  else
    match s.images.find? fun i => i.ctx == ctx with
    | some i =>
      match if paOk v.saveBase i.bytes.length then i.reread (s.bytes v.saveBase i.bytes.length) else none with
      | some j =>
        ((s.setVf { v with pstat := 4, pstatCtx := ctx, restore := some ⟨ctx, s.clock, v.saveBase⟩ }).withImage j).restoreStep vf ctx
      | none => .next ((s.setVf { v with pstat := 8, pstatCtx := ctx }).raise vf vecPreempt)
    | none => .next ((s.setVf { v with pstat := 8, pstatCtx := ctx }).raise vf vecPreempt)

end Sys2Proof.Machine
end

