-- ==== Sys2Proof/Machine/Outside.lean ====
section
/-! DEFINITION. The Scribe, bring-up, power, the registers of the windows, and census checks (R4, R296, R299, R346-R348, R364, R375, R378-R389). -/

namespace Sys2Proof.Machine

/-- The byte offset of the micro-store of a patch image (R296). -/
def imgStoreAt (i : List Byte) : Nat := 0x40 + 32 * (fieldAt i 0x10 1 + fieldAt i 0x11 1)
/-- The byte offset of its code. -/
def imgCodeAt (i : List Byte) : Nat := imgStoreAt i + 8 * fieldAt i 0x12 2
/-- The end of its code, where the signed bytes end. -/
def imgEnd (i : List Byte) : Nat := imgCodeAt i + fieldAt i 0x14 4

/-- A slot record of a patch image (R293). -/
def imgSlot (i : List Byte) (k : Nat) : NibSlot :=
  let w (o : Nat) : DWord := BitVec.ofNat 64 (fieldAt i (0x40 + 32 * k + o) 8)
  ⟨w 0, w 8, w 0x10, w 0x18⟩

/-- Step 1 of the Scribe's verification (R296): the header, reserved bytes, slot ACTIONs, and rewrite ranges. -/
def imgFormOk (i : List Byte) : Bool :=
  let ndec := fieldAt i 0x10 1
  let nflt := fieldAt i 0x11 1
  let nms := fieldAt i 0x12 2
  let size := fieldAt i 0x14 4
  let slotOk (k : Nat) : Bool :=
    let x := imgSlot i k
    let a := x.action
    decide (a ≤ 5) && (decide (k < ndec) || (a != 2 && a != 4))
      && (a != 2 || decide ((x.ctl.extractLsb' 0 12).toNat + (x.ctl.extractLsb' 12 2).toNat < nms))
  fieldAt i 0 4 == 0x3342494E && fieldAt i 4 2 == 1 && fieldAt i 6 2 == 0x9480 && decide (fieldAt i 8 4 ≤ 63)
    && decide (fieldAt i 0xC 4 < 4) && decide (ndec ≤ 16) && decide (nflt ≤ 8) && decide (nms ≤ 1024) && size % 8 == 0
    && decide (size ≤ 65536) && fieldAt i 0x18 40 == 0 && i.length == imgEnd i + 1984 + 3373
    && (List.range (ndec + nflt)).all slotOk

/-- The Scribe's verification of a patch image, in the order of R296. -/
def imgVerifies (f : FuseSet) (i : List Byte) : Bool :=
  let e := imgEnd i
  let digest := Config.sha512 (i.take e)
  let keyEd := (i.drop e).take 32
  let keyMl := (i.drop (e + 32)).take 1952
  let sigEd := (i.drop (e + 1984)).take 64
  let sigMl := (i.drop (e + 2048)).take 3309
  imgFormOk i && decide (f.arvMin ≤ fieldAt i 8 4) && Config.sha512 keyEd == f.hashEd && Config.sha512 keyMl == f.hashMl
    && Config.ed25519Verify keyEd digest sigEd && Config.mldsaVerify keyMl digest sigMl

/-- The image in force that a verified image gives (R296). -/
def imgParse (serial : Nat) (i : List Byte) : NibImage :=
  let ndec := fieldAt i 0x10 1
  { serial := serial, arv := fieldAt i 8 4, flags := BitVec.ofNat 32 (fieldAt i 0xC 4)
    dec := (List.range ndec).map (imgSlot i)
    flt := (List.range (fieldAt i 0x11 1)).map fun k => imgSlot i (ndec + k)
    store := (List.range (fieldAt i 0x12 2)).map fun k => BitVec.ofNat 64 (fieldAt i (imgStoreAt i + 8 * k) 8)
    code := (i.drop (imgCodeAt i)).take (fieldAt i 0x14 4)
    digest := Config.sha512 (i.take (imgEnd i)) }

/-- NIB_IMAGE_LOAD (R296, R299): an image that verifies is loaded at the next quiet point; one that does not changes nothing.  None is
loaded while a pre-emption is in progress. -/
def execNibImageLoad (image : List Byte) (s : State) : Res :=
  if s.nibPend.isSome || (s.vfs.any fun v => v.preempt.isSome) || !imgVerifies s.fuses.nib image then .next s
  else .next { s with nibPend := some (imgParse (s.nib.serial + 1) image), quiet := true }

/-- Whether a thread is in a routine of an image (R299). -/
def State.inImage (s : State) (i : NibImage) : Bool :=
  let at_ (t : Thread) : Bool := t.at_.nib == i.serial + 1 || t.patch.any fun x => x.nib == i.serial + 1
  s.threads.any at_ || (s.images.any fun x => x.threads.any at_)
    || s.parts.any fun q => (q.filings.any fun f => f.to_.nib == i.serial + 1)
      || q.streams.any fun t => match t.pack with
        | some k => k.nib == i.serial + 1
        | none => false

/-- Whether every rewrite sequence begun has completed (R299). -/
def State.atQuiet (s : State) : Bool :=
  s.parts.all fun q => q.streams.all fun t => match t.pack with
    | some k => k.rewrite.isEmpty
    | none => true

/-- An image comes into force (R296, R299), and a committed one raises the fused minimum. -/
def State.useImage (s : State) (i : NibImage) : State :=
  let f := s.fuses
  let nib := if bitAt i.flags 0 then { f.nib with arvMin := max f.nib.arvMin i.arv } else f.nib
  { s with nib := i, fuses := { f with nib := nib } }

/-- NIB_SWITCH (R299, R386): at the quiet point every decoder takes the new image in one clock, and the streams resume.  A pre-emption that
was requested meanwhile stops the selectors of its context's cores (R328). -/
def execNibSwitch (s : State) : Res :=
  match s.nibPend with
  | none => .next s
  | some i =>
    if !s.atQuiet then .next s
    else
      let s := { s.useImage i with nibOld := s.nib :: s.nibOld, nibPend := none, quiet := false }
      let s := { s with nibOld := s.nibOld.filter s.inImage }
      .next ((s.vfs.filterMap fun v => v.preempt.map (·.ctx)).foldl State.haltCores s)

/-- READY and RECOVERY by what has been verified, and the Quill ports, which train last (R384, R389). -/
def State.bootState (s : State) : State :=
  let ok := s.scribeOk && s.ccpOk && s.nibOk
  { s with ready := ok, recovery := !ok, ports := s.ports.map fun p => { p with up := ok } }

/-- A unit that its self-test fails is fenced at bring-up (R354, R389). -/
def State.bringUpFence (s : State) (x : Nat × Nat) : State :=
  match x.1 with
  | 1 => { s with fencedCores := s.fencedCores ||| 1#160 <<< x.2 }
  | 2 => { s with fencedSlices := s.fencedSlices ||| 1#128 <<< x.2 }
  | 3 => { s with fencedPcs := s.fencedPcs ||| 1#256 <<< x.2 }
  | 4 => { s with fencedPorts := s.fencedPorts ||| 1#18 <<< x.2 }
  | 5 => { s with fencedMarrow := s.fencedMarrow ||| 1#64 <<< x.2 }
  | _ => s

/-- Whether an image of the Scribe or the CCPs verifies (R384). -/
def FuseSet.boots (f : FuseSet) (image : List Byte) : Bool := Config.bootImageOk f.hashEd f.hashMl f.arvMin image

/-- The Scribe's stage (R389 steps 1 and 2): its image verifies, and the units that its self-tests fail are fenced. -/
def State.bootScribe (s : State) : State :=
  if s.scribeOk || !s.fuses.scribe.boots s.flash.scribe then s
  else s.flash.failed.foldl State.bringUpFence { s with scribeOk := true, scribeDigest := Config.sha512 s.flash.scribe }

/-- The CCPs' stage (R389 step 3), after the Scribe's. -/
def State.bootCcp (s : State) : State :=
  if !s.scribeOk || s.ccpOk || !s.fuses.ccp.boots s.flash.ccp then s else { s with ccpOk := true, ccpDigest := Config.sha512 s.flash.ccp }

/-- The Nib's stage (R389 step 4), after the CCPs'. -/
def State.bootNib (s : State) : State :=
  if !s.scribeOk || !s.ccpOk || s.nibOk || !imgVerifies s.fuses.nib s.flash.nib then s
  else { s.useImage (imgParse (s.nib.serial + 1) s.flash.nib) with nibOk := true }

/-- The boot from the stage at which it stands (R384, R389): a stage whose image fails starts nothing after it. -/
def State.boot (s : State) : State := s.bootScribe.bootCcp.bootNib.bootState

/-- MODULE_RESET (R384, R385, R389): every unit is as after reset, with what the fuses hold, and the boot begins. -/
def execModuleReset (b : BringUp) (s : State) : Res :=
  let t : State :=
    { State.reset with fuses := s.fuses, bootRom := s.bootRom, scribeDigest := s.scribeDigest, ccpDigest := s.ccpDigest
                       fresh := s.fresh, nextId := s.nextId, inputs := s.inputs, upsets := s.upsets, out := s.out
                       scribeOk := false, ccpOk := false, nibOk := false, flash := b }
  .next t.boot

/-- CONFIGURATION_REQUEST (R389): answered with retry status until READY is set. -/
def execConfigurationRequest (tag : Nat) (s : State) : Res := .next { s with out := .config tag (!s.ready) :: s.out }

/-- RECOVERY_IMAGE (R384): in recovery a replacement image that verifies takes the place of the one that failed, and the boot goes on. -/
def execRecoveryImage (k : ImageKind) (image : List Byte) (s : State) : Res :=
  if !s.recovery then .next s
  else
    match k with
    | .scribe => if s.scribeOk then .next s else .next { s with flash := { s.flash with scribe := image } }.boot
    | .ccp => if !s.scribeOk || s.ccpOk then .next s else .next { s with flash := { s.flash with ccp := image } }.boot
    | .nib => if !s.scribeOk || !s.ccpOk || s.nibOk then .next s else .next { s with flash := { s.flash with nib := image } }.boot

/-- A measurement (R386). -/
def State.measurement (s : State) (index : Nat) : Option (List Byte) :=
  match index with
  | 1 => some s.bootRom
  | 2 => some s.scribeDigest
  | 3 => some s.ccpDigest
  | 4 => some (s.nib.digest.take 6)
  | 5 => some (bytesOf 1 s.fuses.scribe.arvMin ++ bytesOf 1 s.fuses.ccp.arvMin ++ bytesOf 1 s.fuses.nib.arvMin)
  | _ => none

/-- SPDM_REQUEST (R386): a measurement with its two signatures. -/
def execSpdmRequest (index : Nat) (s : State) : Res :=
  match s.measurement index with
  | some v =>
    if !s.scribeOk then .next s
    else .next { s with out := .spdm index v (Config.spdmEd25519 s.fuses.secret v) (Config.spdmMldsa s.fuses.secret v) :: s.out }
  | none => .next s

/-- One SHARE lowered by the governor, not below its floor (R312, R387). -/
def State.lowerShare (s : State) (x : Nat × Nat × BitVec 9) : State :=
  let now := s.budget x.1 x.2.1
  let v : DWord := (now.setWidth 64 &&& 0x200) ||| x.2.2.setWidth 64
  if 4 ≤ x.1 ∨ 8 ≤ x.2.1 ∨ now.toNat % 512 ≤ (budgetFloor x.1 x.2.1 v).toNat % 512 then s
  else s.setBudget x.1 x.2.1 (budgetFloor x.1 x.2.1 v)

/-- POWER_GOVERNOR_TICK (R387, R388): SHARE values are lowered, and DUTY is set to a value of 1 to 256. -/
def execPowerGovernorTick (shares : List (Nat × Nat × BitVec 9)) (duty : BitVec 9) (s : State) : Res :=
  let s := shares.foldl (fun s x => s.lowerShare x) s
  .next { s with duty := BitVec.ofNat 9 (max 1 (min 256 duty.toNat)) }

/-- THERMAL_TRIP (R388). -/
def execThermalTrip (s : State) : Res := .next s.trip

/-- CENSUS_CHECK (R375): ignored while BUSY is set, for another function's context, and for an entry without CMP. -/
def execCensusCheck (vf : Nat) (v : DWord) (s : State) : Res :=
  let ctx := (v.extractLsb' 52 12).toNat
  let obj := (v.extractLsb' 0 10).toNat
  let x := s.vf vf
  match s.censusDir ctx obj with
  | some (_, true) => if x.cnsBusy.isSome ∨ vfOf ctx ≠ vf then .next s else .next (s.setVf { x with cnsBusy := some (ctx, obj) })
  | _ => .next s

/-- Which counts of a site differ from the reference's, as a mask (R375). -/
def State.siteUnequal (s : State) (table n i : Nat) : Nat :=
  let a := s.siteCounts table i
  let b := s.siteCounts (table + 16 * n) i
  (List.range 4).foldl (fun m k => if b.getD k 0 ≠ a.getD k 0 then m + 2 ^ k else m) 0

/-- CENSUS_CHECK_DONE (R374, R375): the lowest unequal site, with its divergence event. -/
def execCensusCheckDone (vf : Nat) (s : State) : Res :=
  match (s.vf vf).cnsBusy with
  | none => .next s
  | some (ctx, obj) =>
    match s.censusMissing ctx obj, s.censusDir ctx obj with
    | some pa, _ => .fault (.absentPhysical pa)
    | none, none => .next (s.onVf vf fun x => { x with cnsBusy := none, cnsDiff := false, cnsSite := BitVec.allOnes 32 })
    | none, some (table, _) =>
      let sites := s.objectSites ctx obj
      let n := sites.length
      match (List.range n).find? fun i => s.siteUnequal table n i != 0 with
      | some i =>
        .next ((s.onVf vf fun x => { x with cnsBusy := none, cnsDiff := true, cnsSite := BitVec.ofNat 32 i }).divergence
          ctx (s.siteUnequal table n i) i (sites.getD i 0))
      | none => .next (s.onVf vf fun x => { x with cnsBusy := none, cnsDiff := false, cnsSite := BitVec.allOnes 32 })

/-- A queue's block written (R300): `qbase` of a queue that is not enabled, and `qctl`; VF is the hypervisor's, whose window has no row for
setting ENABLE. -/
def State.writeQueue (s : State) (q off : Nat) (hyper : Bool) (v : DWord) : State :=
  if off = 8 ∧ bitAt v 0 then (if hyper then s.enableQueue q (qctlVf v) v else s)
  else
    s.onQueue q fun x =>
      if off = 0 then (if x.enable then x else { x with qbase := v &&& ~~~0xFFF })
      else if off = 8 then
        { x with vf := if hyper then qctlVf v else x.vf, ctx := qctlCtx v, prio := qctlPrio v, log2n := ctlLog2n v, enable := false }
      else x

/-- A register of the physical function's window (R4, R378): registers with a row of their own are written by it. -/
def State.writePhysical (s : State) (off : Nat) (v : DWord) : State :=
  if off = 8 then { s with quillid := v.setWidth 16 }
  else if 0x6000 ≤ off ∧ off < 0x7000 then s.writeQueue ((off - 0x6000) / 64) (off % 64) true v
  else if 0xA000 ≤ off ∧ off < 0xA080 ∧ off % 8 = 0 then s.onVf ((off - 0xA000) / 8) fun x => { x with vtarget := v &&& 0x0FFF_FFFF }
  else if 0x1_0000 ≤ off ∧ off < 0x1_0300 ∧ off % 2 = 0 then s.writeRegion ((off - 0x1_0000) / 2) (v.toNat % 2 ^ 16)
  else if off = 0x3_0000 then { s with pfRing := s.pfRing.writeBase v }
  else if 0x4_0000 ≤ off ∧ off < 0x8_0000 ∧ off % 4 = 0 then
    { s with routes := setAssoc ((off - 0x4_0000) / 4) (v.setWidth 18) s.routes }
  else if off = 0x8_0000 then
    (if 1000 ≤ v.toNat % 4096 ∧ v.toNat % 4096 ≤ 3200 then { s with pwrcap := v.setWidth 12 } else s)
  else s

/-- A register of a virtual function's control block or debug page (R322, R327, R336, R364, R379). -/
def Vf.writeReg (x : Vf) (off : Nat) (v : DWord) : Vf :=
  if off = 0x1_0000 then { x with fault := x.fault.writeBase v }
  else if off = 0x1_0038 then { x with psarea := v &&& 0x000F_FFFF_FFFF_F000 }
  else if off = 0x1_0058 then { x with code := x.code.writeBase v }
  else if off = 0x1_0078 then { x with ctxbase := v &&& ~~~0xFFF }
  else if off = 0x1_0080 then { x with grpbase := v &&& ~~~0xFFF }
  else if 0x2_0000 ≤ off ∧ off < 0x2_0080 ∧ off % 16 = 0 then
    { x with bpa := x.bpa.set ((off - 0x2_0000) / 16) ((v.setWidth 56).signExtend 64 &&& ~~~7) }
  else if off = 0x2_0080 then { x with dump := x.dump.writeBase v }
  else if off = 0x2_00A0 then { x with trbase := v }
  else if off = 0x2_00B0 then { x with jrbase := v }
  else if off = 0x2_00C0 then
    { x with lostTrace := x.lostTrace &&& ~~~(v.setWidth 32), lostJourney := x.lostJourney &&& ~~~(v.extractLsb' 32 32) }
  else x

/-- REGISTER_WRITE (R4, R287, R378, R379): a register that has no row of its own.  Neither window acts before READY (R389), and a
queue's block acts only in its owner's window. -/
def execRegisterWrite (r : RegAddr) (v : DWord) (s : State) : Res :=
  if !s.ready || s.tripped then .next s
  else
    match r with
    | .control ctx n => .next (if ctlWritable n then s.onCtx ctx fun c => c.writeCtl n v else s)
    | .physical off => .next (s.writePhysical off v)
    | .driver vf off =>
      if off < 0x1000 then
        (if (s.queue (off / 64)).vf = vf then .next (s.writeQueue (off / 64) (off % 64) false v) else .next s)
      else .next (s.onVf vf fun x => x.writeReg off v)

end Sys2Proof.Machine
end

