-- ==== Sys2Proof/Machine/Clock.lean ====
section
/-! DEFINITION. The end of a clock: the counts that advance with it (R18, R42, R53, R223, R328, R387), the trace and journey records that it writes (R369-R371), and the clock itself. -/

namespace Sys2Proof.Machine

/-- Whether a record of a core's queue is a journey record. -/
def isJourney (r : List Byte) : Bool := r.length == 64

/-- The context that a trace or journey record names (R369, R371). -/
def recCtx (r : List Byte) : Nat := fieldAt r (if isJourney r then 0x20 else 0x0A) 2

/-- SEGLOG of a buffer (R369, R370). -/
def segLog (v : Vf) (journey : Bool) : Nat :=
  (if journey then v.jrctl.extractLsb' 12 4 else v.trctl.extractLsb' 4 4).toNat

/-- The physical address of a core's segment (R369). -/
def segBase (v : Vf) (journey : Bool) (core : Nat) : Nat :=
  (if journey then v.jrbase else v.trbase).toNat + core * 2 ^ (12 + segLog v journey)

/-- Records that a segment holds (R369, R370). -/
def segRecords (v : Vf) (journey : Bool) : Nat := 2 ^ ((if journey then 6 else 7) + segLog v journey) - 1

/-- The place of a record in its segment (R369, R370). -/
def State.traceAt (s : State) (core : Nat) (r : List Byte) : Nat :=
  let j := isJourney r
  let v := s.vf (vfOf (recCtx r))
  segBase v j core + 32 + r.length * ((v.seg j core).1 % segRecords v j)

/-- The ranges that a record of a core's queue writes: its segment's counts and its place (R369, R370). -/
def State.traceRanges (s : State) (core : Nat) (r : List Byte) : List (Nat × Nat) :=
  [(segBase (s.vf (vfOf (recCtx r))) (isJourney r) core, 16), (s.traceAt core r, r.length)]

/-- A record is written at its place, and WRITTEN and DROPPED after it; without WRAP, one that finds the segment full is dropped (R369). -/
def State.writeTrace (s : State) (core : Nat) (r : List Byte) : State :=
  let j := isJourney r
  let vf := vfOf (recCtx r)
  let v := s.vf vf
  let (n, d) := v.seg j core
  let base := segBase v j core
  if (j || !bitAt v.trctl 1) && decide (segRecords v j ≤ n) then s.onVf vf fun v => v.dropRec j core
  else ((s.putPa (s.traceAt core r) r).putPa base (bytesOf 8 (n + 1) ++ bytesOf 8 d)).onVf vf fun v => v.setSeg j core (n + 1) d

/-- One record of a core's queue written, once its lines have been served in class 3 (R94, R310, R369, R370). -/
def State.drainTrace (s : State) (core : Nat) : Res :=
  match (s.core core).trace with
  | [] => .next s
  | r :: rest =>
    let v := s.vf (vfOf (recCtx r))
    let g := recordAgent core (vfOf (recCtx r))
    let rs := s.traceRanges core r
    if !paOk (segBase v (isJourney r) core) (2 ^ (12 + segLog v (isJourney r))) then .fault (.absentPhysical (segBase v (isJourney r) core))
    else if !(rs.all fun x => s.mayServePa g .write x.1 x.2) then .next (rs.foldl (fun s x => s.askPa g .write x.1 x.2) s)
    else .next (((s.onCore core fun c => { c with trace := rest }).writeTrace core r).dropGrants g.owner)

/-- The counts of a segment written where a drop or the setting of EN has changed them (R369), once their line has been served.  A segment that
lies where no memory is stays as it is: no record has been written there. -/
def State.writeHead (vf : Nat) (s : State) (h : Bool × Nat) : State :=
  let v := s.vf vf
  let g := recordAgent h.2 vf
  let base := segBase v h.1 h.2
  let done (s : State) : State := s.onVf vf fun v => { v with headPend := v.headPend.erase h }
  if !paOk base 16 then done s
  else if !s.mayServePa g .write base 16 then s.askPa g .write base 16
  else
    let n := v.seg h.1 h.2
    done (s.putPa base (bytesOf 8 n.1 ++ bytesOf 8 n.2))

/-- Every count that is still to be written. -/
def State.writeHeads (s : State) : State := s.vfs.foldl (fun s v => v.headPend.foldl (State.writeHead v.idx) s) s

/-- One record of every core's queue written. -/
def drainAll : List Nat → State → Res
  | [], s => .next s
  | c :: rest, s =>
    match s.drainTrace c with
    | .next s => drainAll rest s
    | r => r

/-- A count of 16 bits that saturates. -/
def sat16 (n : Nat) : Nat := min 65535 (n + 1)

/-- The counts of a pod after a clock (R18, R42). -/
def Pod.advance (p : Pod) : Pod :=
  let w := p.waiting.map fun x => (x.1, sat16 x.2)
  { p with waiting := w, arrival := BitVec.ofNat 16 (w.foldl (fun m x => max m x.2) 0)
           opened := if p.isOpen then BitVec.ofNat 16 (sat16 p.opened.toNat) else p.opened }

/-- A partition after a clock: its pods, the landings that wait and the claims that still stand (R42, R53). -/
def Part.advance (q : Part) (live : Nat → Bool) (clock : Nat) : Part :=
  { q with pods := q.pods.map Pod.advance
           portWait := (q.portWait.filter fun w => live w.id).map fun w => { w with waited := w.waited + 1 }
           claims := q.claims.filter fun c => decide (clock < c.at_) }

/-- A team after a clock: the registers that an `amclr` of this clock names are zero (R223). -/
def Team.advance (t : Team) : Team := { t with am := t.amClear.foldl (fun m k => m.set k 0) t.am, amClear := [] }

/-- Whether the array of a core runs a word (R215, R387): one of its own, or as a follower one of its leader with PAIR. -/
def State.arrayRuns (s : State) (core : Nat) : Bool :=
  ((s.core core).array ++ (s.core (core ^^^ 1)).array).any fun o =>
    o.started.isSome && match matOf o.word with
      | some x => (o.arrays x).contains core
      | none => false

/-- A core after a clock: its array-busy clocks in the window (R387), and its drain deadline once its packs have left (R328). -/
def Core.advance (c : Core) (left runs : Bool) (clock : Nat) : Core :=
  { c with busy := if (clock + 1) % 4096 = 0 then 0 else if runs then c.busy + 1 else c.busy
           drainAt := if c.halting && !c.halted && c.drainAt == 0 && left then clock + 5600 else c.drainAt }

/-- The credits of a Quill port after a clock (R383): what its peer gives back, up to what there are.  DESIGN CHOICE (log 43):
`Config.creditsBack` says when. -/
def Port18.advance (x : Port18) (clock : Nat) : Port18 :=
  { x with credits := (x.credits.zip [256, 32, 16, 256, 32, 16]).zipIdx.map fun c =>
      if c.1.1 < c.1.2 then min c.1.2 (c.1.1 + Config.creditsBack x.idx c.2 clock) else c.1.1 }

/-- Every unit after a clock. -/
def State.advance (s : State) : State :=
  let live (q : Part) (id : Nat) : Bool := ((s.core q.core).op? id).isSome
  { s with parts := s.parts.map fun q => q.advance (live q) s.clock, teams := s.teams.map Team.advance
           cores := s.cores.map fun c => c.advance (!s.quiet && s.noPacks c.idx) (s.arrayRuns c.idx) s.clock
           ports := s.ports.map fun x => x.advance s.clock, clock := s.clock + 1 }

/-- A copy of a function register that has read an uncorrectable error (R177, R352): its generation is invalid, with code 5.  DESIGN CHOICE (log 57): this
replaces the code of a generation that is already invalid, of which R177 names the first failing row. -/
def FnReg.lose (r : FnReg) (second : Bool) : FnReg :=
  if second then { r with copy1 := { r.copy1 with code := 5, valid := false } } else { r with copy0 := { r.copy0 with code := 5, valid := false } }

/-- A soft error (R352).  One that a unit corrects counts in its counter.  An uncorrectable one: a line of memory, an entry of the store or words of an accumulation
buffer are poisoned, an L1 line, a TLB entry or a walk-cache entry is dropped, and a function
generation becomes invalid.  One that fences a unit arrives as the row that fences it. -/
def State.strike (s : State) (u : Upset) : State :=
  match u with
  | .frame core part col reg =>
    let hit (t : Thread) : Bool := t.core == core && t.part == part && t.slot % 32 == col && !t.badRegs.contains reg
    { s with threads := s.threads.map fun t => if hit t then { t with badRegs := t.badRegs ++ [reg] } else t }
  | .scratch core team entry => s.onTeam core team fun t => { t with badScratch := t.badScratch ++ [entry] }
  | .acc core row group => s.onCore core fun c => { c with accBad := c.accBad ++ (List.range 8).map fun i => row * 384 + 8 * group + i }
  | .line l => if s.poison.contains l then s else { s with poison := s.poison ++ [l] }
  | .l1 core line => s.onCore core fun c => { c with l1 := c.l1.filter fun x => x.line != line }
  | .fn core reg second => s.onCore core fun c => { c with fns := c.fns.modify reg fun r => r.lose second }
  | .tlb core ctx va =>
    let other (e : TlbEntry) : Bool := !(e.ctx == ctx && e.va == va)
    s.onCore core fun c => { c with tlb1 := c.tlb1.filter other, tlb2 := c.tlb2.filter other }
  | .corrected kind unit =>
    let n := ((s.corrected.find? fun x => x.1 == (kind, unit)).map (·.2)).getD 0
    { s with corrected := upsert (fun x => x.1 == (kind, unit)) ((kind, unit), n + 1) s.corrected }
  | .walkCache w => { s with walkCache := s.walkCache.filter fun x => x != w }

/-- ARRIVAL_AND_OPENED_ADVANCE (R18, R42, R369): the end of the clock.  On a tripped module no record reaches its memory, which refreshes itself,
and no request its host link (R388). -/
def execArrivalAndOpenedAdvance (s : State) : Res :=
  if s.tripped then .next s.advance
  else
    match drainAll (s.cores.map (·.idx)) s.writeHeads with
    | .next s => .next s.askPages.refusePages.advance
    | r => r

end Sys2Proof.Machine
end

