-- ==== Sys2Proof/Machine/Agenda.lean ====
section
/-! DEFINITION. Which transitions come next: one clock of the module as a list of acts, in the order of R42 for each partition, and the acts of outside parties between clocks. -/

namespace Sys2Proof.Machine

/-- One act of an event. -/
def ev (i : Instr) : List Act := [.event i]

/-- One act where a condition holds. -/
def evIf (c : Bool) (i : Instr) : List Act := if c then ev i else []

/-- The acts of the selector and the pipes of a partition (R42 steps 1 to 3): a pod is evicted when four are open, and
otherwise one may be opened. -/
def State.pipeActs (s : State) (q : Part) : List Act :=
  (if q.openPods.length = 4 then ev (.podEvict q.core q.idx) else ev (.podOpen q.core q.idx))
    ++ ev (.packForm q.core q.idx) ++ s.turnsOf q

/-- The polls of a partition that end (R39). -/
def State.pollActs (s : State) (q : Part) : List Act :=
  (s.threads.filter fun t => t.core == q.core && t.part == q.idx).flatMap fun t =>
    match t.life with
    | .parked (.poll d) => evIf (decide (d ≤ s.clock)) (.pollRetry t.core t.part t.slot)
    | _ => []

/-- The filings of a partition at the end of a clock (R42 steps 4.1 to 4.3). -/
def endActs (q : Part) : List Act := ev (.threadFiling q.core q.idx)

/-- Windows and refreshes that begin or end in this clock (R88, R310). -/
def State.windowActs (s : State) : List Act :=
  (s.points.flatMap fun p => evIf (decide (p.next ≤ s.clock)) (.budgetWindowStart p.pt))
    ++ (List.range 24).flatMap fun g =>
      let due := decide (refreshPhase s.clock g < 640)
      let on := s.refreshing.contains g
      evIf (due && !on) (.inkwellRefreshStart g) ++ evIf (!due && on) (.inkwellRefreshEnd g)

/-- Walks in progress, each of them ending, and the entry whose bits each die sets (R95, R316). -/
def State.walkActs (s : State) : List Act :=
  (s.walks.flatMap fun w => evIf w.setting.isNone (.walkComplete w.die w.ctx w.vpn))
    ++ [0, 1].flatMap fun d => evIf (s.walks.any fun w => w.die == d && w.setting.isSome) (.accessedDirtySet d)

/-- The channels whose turns come in this clock at a port, in a round-robin order from the one after that last served: one turn
at a core's port, and up to eight at a die's (R93, R246).  DESIGN CHOICE (log 56): the manual numbers the turns by no channel, and the order
here is that in which the channels of the port were first used, the first of them having the first turn. -/
def State.turnsAt (s : State) (port : Nat) : List ChanKey :=
  let ks := (s.chans.filter fun ch => portOfChan ch.key == port).map fun ch => (ch.key, s.mayDeliver ch)
  let last := ((s.turns.find? fun t => t.1 == port).map (·.2))
  let (before, rest) := ks.span fun k => some k.1 != last
  let order := match rest with
    | x :: after => after ++ before ++ [x]
    | [] => before
  let due := (order.filter fun k => k.2).map (·.1)
  let n := if port < 1000 then 1 else 8
  ((List.replicate n due).flatten).take n

/-- The commands of the channels, one turn of delivery at each port, and completions (R93, R231, R236, R238). -/
def State.channelActs (s : State) : List Act :=
  (s.chans.flatMap fun ch => evIf (!ch.queue.isEmpty) (.commandHead ch.key) ++ evIf (!ch.queue.isEmpty) (.sequenceWordPoll ch.key)
      ++ evIf (!ch.queue.isEmpty) (.sequenceWordRead ch.key))
    ++ (((s.chans.map fun ch => portOfChan ch.key).eraseDups).flatMap fun p =>
      (s.turnsAt p).flatMap fun k => ev (.deliveryTurn k))
    ++ s.teams.flatMap fun t => (List.range 8).flatMap fun k =>
      evIf (!(t.tl k).pending.isEmpty) (.commandComplete t.core t.slot k)

/-- The Marrow clusters (R357): each of its eight cores may take a chunk in one clock; a fused update's chunks end by themselves; those of RISC-V code end as their code does, which is an
outside party's act here. -/
def State.marrowActs (s : State) : List Act :=
  s.clusters.flatMap fun cl =>
    evIf (!cl.fifo.isEmpty) (.marrowJobStart cl.idx)
      ++ (match cl.fifo with
          | j :: _ => if j.kind = 1 then cl.chunks.flatMap fun c => ev (.marrowChunkEnd (8 * cl.idx + c.1) (.returned 0 [])) else []
          | [] => [])
      ++ (List.replicate 8 cl.idx).flatMap fun n => evIf cl.running (.marrowChunkStart n)

/-- The dispatchers (R304, R307, R309) and the code rings (R336). -/
def State.dispatchActs (s : State) : List Act :=
  (s.vfs.flatMap fun v =>
    match s.codeCommand v.idx with
    | some (_, c) => ev (if cmdOpc c = 2 then .codeReplace v.idx else if cmdOpc c = 3 then .codeUnload v.idx else .codeLoad v.idx)
    | none => [])
    ++ (s.queues.flatMap fun q => evIf (q.enable && (decide (q.rptr < q.wptr) || s.grids.any fun g => g.queue == some q.idx && !g.accepted)) (.packetAccept (.queue q.idx)))
    ++ (s.grids.flatMap fun g => evIf (g.die.isSome && !g.accepted) (.packetAccept (.device g.gid)))
    ++ [0, 1].flatMap (fun d => ev (.placementStep d))

/-- The teams that start: their threads are filed after those that R42 names, and before the entry queue is served.  The manual gives the
filings of a start no place in that order. -/
def State.startActs (s : State) : List Act := s.teams.flatMap fun t => evIf (decide (t.started < t.size)) (.teamStart t.core t.slot)

/-- A partition put into a list in the order of cores and partition numbers. -/
def partInsert (q : Part) : List Part → List Part
  | [] => [q]
  | x :: rest => if q.core < x.core ∨ (q.core = x.core ∧ q.idx ≤ x.idx) then q :: x :: rest else x :: partInsert q rest

/-- The partitions in that order, which that of the words that they issue in one clock follows (R185, R203, R209). -/
def State.partsInOrder (s : State) : List Part := s.parts.foldr partInsert []

/-- The pages of the clauses (R25, R28): a pack formed in one clock fetches before the turns of the next. -/
def State.fetchActs (s : State) : List Act :=
  s.partsInOrder.flatMap fun q => q.streams.flatMap fun t =>
    match t.pack with
    | some k => evIf k.clause.isNone (.clauseFetch q.core q.idx t.idx) ++ evIf (k.serial && !k.serialDone) (.serialiseDrainEnd q.core q.idx t.idx)
    | none => []

/-- Line requests and the shared points of the memory system (R85-R94, R168). -/
def State.memoryActs (s : State) : List Act :=
  (s.partsInOrder.flatMap fun q => evIf (!(s.core q.core).ops.isEmpty) (.lineRequestSend q.core q.idx))
    ++ [0, 1].flatMap (fun d => evIf (s.linkQ.any fun l => l.dir == d) (.dieToDieLinkBeat d))
    ++ (s.slices.flatMap fun x => evIf (!x.rewriting.isEmpty) (.sectorReorientEnd x.idx) ++ evIf (!x.queue.isEmpty) (.sliceService x.idx))
    ++ (s.memctls.flatMap fun m => evIf (!m.queue.isEmpty || Config.refreshAsks m.idx s.clock) (.memoryControllerService m.idx))
    ++ ((s.memctls.flatMap fun m => m.filled.map fun r => (s.home r.pa, r.pa / 1024)).eraseDups.flatMap fun x => ev (.sectorFill x.1 x.2))
    ++ (List.range 24).flatMap (fun g => evIf (s.inkFirst g).isSome (.inkwellService g))

/-- An operation put into a list in the order of arrival. -/
def arrivalInsert (o : Op) : List Op → List Op
  | [] => [o]
  | x :: rest => if o.since ≤ x.since then o :: x :: rest else x :: arrivalInsert o rest

/-- Operations in the order in which their results came back, the older first of those of one clock (R53). -/
def arrivals (ops : List Op) : List Op := ops.foldr arrivalInsert []

/-- An operation put into a list in the order in which homes have performed them. -/
def performedInsert (o : Op) : List Op → List Op
  | [] => [o]
  | x :: rest => if o.since < x.since ∨ (o.since = x.since ∧ o.perf ≤ x.perf) then o :: x :: rest else x :: performedInsert o rest

/-- Acknowledgements in the order in which they came back, and of one clock in that of their performing, so that L1 follows the coherence order
of each line (R100). -/
def acknowledged (ops : List Op) : List Op := (ops.filter fun o => !o.lands && o.stage == .done).foldr performedInsert []

/-- Landings and acknowledgements of a core, its function registers and its array (R34, R96, R185, R188, R209). -/
def State.landingActs (s : State) (c : Core) : List Act :=
  ((arrivals c.ops).flatMap fun o =>
    match o.kind with
    | .fnsync _ => ev (.fnsyncClear c.idx o.id)
    | _ => evIf (o.stage == .done && o.lands) (.resultLand c.idx o.id))
    ++ ((acknowledged c.ops).flatMap fun o => ev (.storeAck c.idx o.id))
    ++ (c.loads.map (·.reg)).eraseDups.flatMap (fun r => ev (.fnldSwitch c.idx r))
    ++ evIf (!c.array.isEmpty) (.arrayRetire c.idx) ++ evIf (!c.array.isEmpty) (.arrayStart c.idx)
    ++ (s.threads.filter fun t => t.core == c.idx && (t.patch.map (·.enter)).getD false).flatMap fun t =>
      ev (.patchModeEntry t.core t.part t.slot)

/-- The barriers of every team, each of which may complete at the end of the clock (R132): after what else of the clock may release or end a
thread, and before the filings of released threads. -/
def State.barrierActs (s : State) : List Act :=
  s.teams.flatMap fun tm => (List.range 16).flatMap fun b => ev (.barrierComplete tm.core tm.slot b)

/-- What a virtual function has in progress (R319, R322, R327-R335, R347, R348, R375). -/
def State.vfActs (s : State) (v : Vf) : List Act :=
  evIf (!v.held.isEmpty || !v.dumps.isEmpty) (.faultRecordWrite v.idx)
    ++ evIf (!v.invs.isEmpty) (.tlbInvalidateComplete v.idx) ++ evIf v.regBusy.isSome (.regionModeDone v.idx)
    ++ evIf (v.pend.isSome || s.regPend.any fun r => (s.regionParties r.1 r.2).contains v.idx) (.assignmentApply v.idx)
    ++ evIf v.cnsBusy.isSome (.censusCheckDone v.idx)
    ++ (match v.restore with
        | some p => evIf (v.pstat == 4) (.restoreImage v.idx p.ctx)
        | none => [])
    ++ (match v.preempt with
        | some p => (s.coresOf p.ctx).flatMap (fun c => ev (.drainDeadline c) ++ ev (.coreHalted c)) ++ ev (.imageSaved v.idx)
            ++ ev (.preemptWatchdog v.idx)
        | none => [])

/-- The rest of the device: records, timeouts, the links and the Nib (R292, R299, R322, R356, R383). -/
def State.deviceActs (s : State) : List Act :=
  (s.hostReqs.flatMap fun r => evIf (!r.pri && decide (r.sent + 3000 ≤ s.clock)) (.completionTimeout r.id))
    ++ s.vfs.flatMap s.vfActs ++ evIf (!s.pfHeld.isEmpty) (.faultRecordWrite pfIndex)
    ++ (s.ctxs.flatMap fun c => evIf c.featPend.isSome (.featmaskApply c.num))
    ++ evIf s.nibPend.isSome .nibSwitch
    ++ (List.range 18).flatMap fun p =>
      match s.nextFlit p with
      | some f => ev (.quillFlit p 0 f)
      | none => []

/-- Teams and grids that may have finished (R13). -/
def State.retireActs (s : State) : List Act :=
  (s.teams.flatMap fun t => evIf (s.teamDone t) (.teamRetire t.core t.slot))
    ++ s.grids.flatMap fun g => evIf g.accepted (.gridRetire g.gid)

/-- The acts of one clock. -/
def State.clockActs (s : State) : List Act :=
  if s.tripped then ev .arrivalAndOpenedAdvance
  else
    s.windowActs ++ s.walkActs ++ s.channelActs ++ s.marrowActs ++ s.dispatchActs
      ++ s.fetchActs ++ s.partsInOrder.flatMap s.pipeActs ++ s.memoryActs ++ s.cores.flatMap s.landingActs
      ++ (s.partsInOrder.flatMap fun q => evIf (!q.reserved.isEmpty || !(s.portWaits q.core).isEmpty) (.bankReservation q.core q.idx))
      ++ s.partsInOrder.flatMap s.pollActs ++ s.partsInOrder.flatMap endActs ++ s.barrierActs
      ++ s.partsInOrder.flatMap endActs ++ s.startActs ++ (s.partsInOrder.flatMap fun q => ev (.entryQueueServe q.core q.idx))
      ++ (s.partsInOrder.flatMap fun q => q.pods.flatMap fun p => evIf (!p.fetched) (.podHeaderFetch q.core q.idx p.idx))
      ++ s.retireActs ++ s.deviceActs ++ ev .arrivalAndOpenedAdvance

/-- Whether a tripped module takes an act of an outside party (R386, R388): only the configuration space answers, until a reset, and the Scribe, which
the trip does not stop. -/
def takenTripped (i : Instr) : Bool :=
  match i with
  | .configurationRequest _ | .moduleReset _ | .spdmRequest _ => true
  | _ => false

/-- Whether a module that is not READY takes an act of an outside party (R384, R389): the windows take none, the physical function's mailbox takes a
replacement image, and what befalls a unit befalls it. -/
def takenUnready (i : Instr) : Bool :=
  match i with
  | .configurationRequest _ | .moduleReset _ | .recoveryImage _ _ | .thermalTrip | .powerGovernorTick _ _ | .fenceLlcSlice _ | .fenceCore _
  | .fencePseudoChannel _ | .fenceQuillPort _ | .fenceMarrowCore _ | .linkRetry _ | .linkDown _ | .hostLinkTraining _ _ _ => true
  | _ => false

/-- What happens between clocks: a soft error that has occurred, an act of an outside party, or else the acts of the next clock. -/
def State.refill (s : State) : State :=
  match s.upsets, s.inputs with
  | u :: rest, _ => { s with upsets := rest }.strike u
  | [], i :: rest => { s with inputs := rest, agenda := if (s.tripped && !takenTripped i) || (!s.ready && !takenUnready i) then [] else ev i }
  | [], [] => { s with agenda := s.clockActs }

/-- One transition, given the meaning of the rows. -/
def State.advanceBy (s : State) (run : Instr → State → Res) : Res :=
  match s.agenda with
  | [] => .next s.refill
  | .event i :: rest => run i { s with agenda := rest }
  | .issue c p st :: rest => { s with agenda := rest }.issueTurn run c p st

end Sys2Proof.Machine
end

