-- ==== Sys2Proof/Machine/SubGroup.lean ====
section
/-! DEFINITION. Sub-group exchange, ordered reductions and row statistics (R194-R201). -/

namespace Sys2Proof.Machine

/-- `sgrank` of a thread (R14). -/
def rankIn (is : Issue) (t : Thread) : Nat := t.tid % is.team.sg

/-- A thread put into a list that rises in `tid`. -/
def tidInsert (t : Thread) : List Thread → List Thread
  | [] => [t]
  | u :: us => if t.tid ≤ u.tid then t :: u :: us else u :: tidInsert t us

/-- The active members of the sub-group of a thread, in increasing `sgrank` (R194). -/
def activeOf (is : Issue) (go : List Thread) (t : Thread) : List Thread :=
  (go.filter fun u => is.team.sgOf u == is.team.sgOf t).foldr tidInsert []

/-- A sub-group word (R194): `f` gives a member its result from the active members of its sub-group. -/
def groupRun (fs : Bool) (d : BitVec 8) (n : Nat) (f : Issue → List Thread → Thread → Out1) (s : State) (is : Issue) (go : List Thread) : State :=
  flagRun fs d n (fun _ is t => f is (activeOf is go t) t) s is go

/-- The member that a shuffle reads (R196): `.idx`, `.up`, `.dn`, `.xor`, modulo the sub-group size. -/
def shflRank (mode z r b : Nat) : Nat :=
  if mode = 0 then b % z
  else if mode = 1 then (r + z - b % z) % z
  else if mode = 2 then (r + b) % z
  else (r ^^^ b) % z

/-- The value of the active member of a rank and `p`pd true, or the member's own value and false (R196, R197). -/
def takeFrom (is : Issue) (n pd : Nat) (a : BitVec 8) (ms : List Thread) (t : Thread) (rank : Nat) : Out1 :=
  match ms.find? fun m => rankIn is m == rank with
  | some m => ⟨is.src m a n, [(pd, true)]⟩
  | none => ⟨is.src t a n, [(pd, false)]⟩

/-- Registers of A and D by WIDE, MOD[2] (R195). -/
def wideRegs (f : RWord) : Nat := if bitAt f.md 2 then 2 else 1

/-- The pd of X[38:36] (R195). -/
abbrev sgPd (f : RWord) : Nat := (f.x.extractLsb' 4 3).toNat

/-- SHFL (R196). -/
def execShfl (f : RWord) (s : State) : Res :=
  runWord (.shfl f) (plain (groupRun f.fs f.d (wideRegs f) fun is ms t =>
    takeFrom is (wideRegs f) (sgPd f) f.a ms t (shflRank (f.md.toNat % 4) is.team.sg (rankIn is t) (is.val t f.b 1)))) s

/-- SBC (R197). -/
def execSbc (f : RWord) (s : State) : Res :=
  runWord (.sbc f) (plain (groupRun f.fs f.d (wideRegs f) fun is ms t =>
    let r := if bitAt f.md 0 then (ms.head?.map (rankIn is)).getD 0 else is.val t f.b 1 % is.team.sg
    takeFrom is (wideRegs f) (sgPd f) f.a ms t r)) s

/-- The vote of a predicate over the active members (R198): `p`pd and D. -/
def voteOut (mode pa pd : Nat) (is : Issue) (ms : List Thread) : Out1 :=
  let hs := ms.map fun m => m.pred pa
  let one (b : Bool) : Out1 := ⟨[if b then 1 else 0], [(pd, b)]⟩
  if mode = 0 then one (hs.all id)
  else if mode = 1 then one (hs.any id)
  else if mode = 2 then one (hs.all id || !hs.any id)
  else
    let mask := ms.foldl (fun acc m => if m.pred pa then acc + 2 ^ rankIn is m else acc) 0
    ⟨[BitVec.ofNat 32 mask], [(pd, mask != 0)]⟩

/-- SVOTE (R198). -/
def execSvote (f : RWord) (s : State) : Res :=
  let pa := (f.x.extractLsb' 1 3).toNat
  runWord (.svote f) (plain (groupRun f.fs f.d 1 fun is ms _ => voteOut f.md.toNat pa (sgPd f) is ms)) s

/-- One step of an integer reduction (R199). -/
def redInt (md op : Nat) (a b : Nat) : Nat :=
  let w := intWidth md
  let x := intRead md a
  let y := intRead md b
  if op = 0 then wrapN w (x + y)
  else if op = 1 then wrapN w (if x ≤ y then x else y)
  else if op = 2 then wrapN w (if x ≤ y then y else x)
  else if op = 3 then a &&& b
  else if op = 4 then a ||| b
  else a ^^^ b

/-- One step of a float reduction (R199). -/
def redFloat (g : FFmt) (rm : RMode) (op : Nat) (a b : Nat) : Nat :=
  if op = 0 then g.fadd rm a b else g.minmax (op == 2) false a b

/-- One step of a reduction of a type. -/
def redStep (md : Nat) (rm : RMode) (op : Nat) (a b : Nat) : Nat :=
  if md < 8 then redInt md op a b else redFloat (floatOf md) rm op a b

/-- The identity of an exclusive scan (R199). -/
def redIdentity (md op : Nat) : Nat :=
  if md < 8 then
    let w := intWidth md
    if op = 1 then wrapN w (intHi md) else if op = 2 then wrapN w (intLo md) else if op = 3 then 2 ^ w - 1 else 0
  else
    let g := floatOf md
    if op = 0 then g.signed true 0 else g.infBits (op == 2)

/-- The loop of R75 over values in increasing `sgrank`. -/
def redLoop (step : Nat → Nat → Nat) (xs : List Nat) : Nat :=
  match xs with
  | [] => 0
  | x :: rest => rest.foldl step x

/-- The type, op and rounding mode of a reduction word (R195). -/
def redStepOf (f : RWord) : Nat → Nat → Nat := redStep f.md.toNat (rmOf f.x) (f.x.extractLsb' 2 3).toNat

/-- SRED (R199). -/
def execSred (f : RWord) (s : State) : Res :=
  let n := typeRegs f.md.toNat
  runWord (.sred f) (plain (groupRun f.fs f.d n fun is ms _ =>
    regs (wordsOf n (redLoop (redStepOf f) (ms.map fun m => is.val m f.a n))))) s

/-- What a scan gives a member: the values of the ranks up to its own, or below it (R199). -/
def scanValue (f : RWord) (is : Issue) (ms : List Thread) (t : Thread) : Nat :=
  let n := typeRegs f.md.toNat
  let upto := ms.filter fun m => if bitAt f.x 5 then decide (m.tid < t.tid) else decide (m.tid ≤ t.tid)
  match upto with
  | [] => redIdentity f.md.toNat (f.x.extractLsb' 2 3).toNat
  | _ => redLoop (redStepOf f) (upto.map fun m => is.val m f.a n)

/-- SSCAN (R199). -/
def execSscan (f : RWord) (s : State) : Res :=
  let n := typeRegs f.md.toNat
  runWord (.sscan f) (plain (groupRun f.fs f.d n fun is ms t => regs (wordsOf n (scanValue f is ms t)))) s

/-- f32 addition to nearest. -/
def add32 (a b : Nat) : Nat := f32.fadd .rne a b

/-- Mean and population variance of f32 patterns (R200). -/
def meanVar (xs : List Nat) : Nat × Nat :=
  if xs.any fun x => (f32.read x).isNan then (nan32, nan32)
  else
    let x0 := xs.headD 0
    if xs.all fun x => x == x0 then (x0, 0)
    else
      let n := f32.rne (.ofInt xs.length)
      let mean := f32.fdiv .rne (redLoop add32 xs) n
      let sq (x : Nat) : Nat := let d := f32.fsub .rne x mean; f32.fmul .rne d d
      (mean, f32.fdiv .rne (xs.foldl (fun q x => add32 q (sq x)) 0) n)

/-- SMV (R200). -/
def execSmv (f : RWord) (s : State) : Res :=
  runWord (.smv f) (plain (groupRun f.fs f.d 2 fun is ms _ =>
    let (m, v) := meanVar (ms.map fun u => is.val u f.a 1)
    regs [BitVec.ofNat 32 m, BitVec.ofNat 32 v])) s

/-- The softmax of f32 patterns through two applies (R201): EMPTY and the outputs. -/
def softmax (expo recip : Nat → Nat) (xs : List Nat) : Bool × List Nat :=
  if xs.any fun x => (f32.read x).isNan then (false, xs.map fun _ => nan32)
  else
    let mx := redLoop (f32.minmax true false) xs
    if f32.read mx = .inf true then (true, xs.map fun _ => 0)
    else if f32.read mx = .inf false then
      let isTop (x : Nat) : Bool := f32.read x == .inf false
      let k := (xs.filter isTop).length
      let y := f32.fdiv .rne (f32.rne (.ofInt 1)) (f32.rne (.ofInt k))
      (false, xs.map fun x => if isTop x then y else 0)
    else
      let ys := xs.map fun x => expo (f32.fsub .rne x mx)
      let r := recip (redLoop add32 ys)
      (false, ys.map fun y => f32.fmul .rne y r)

/-- The exponential and the reciprocal register of `ssmx` (R195). -/
def ssmxRegs (f : RWord) : Nat × Nat := (f.x.toNat % 16, f.md.toNat)

/-- SSMX (R201): the generations it uses are pinned at issue (R186). -/
def execSsmx (f : RWord) (s : State) : Res :=
  let (e, i) := ssmxRegs f
  runWord (.ssmx f)
    { xl := fun _ _ _ => []
      traps := fun s is _ =>
        match firstSome [fnInvalid s is e, fnInvalid s is i] with
        | some v => some (6, v)
        | none => none
      parks := fun _ _ _ => none
      run := fun s is go =>
        let (pe, ge, he) := fnPins s is e
        let (pi, gi, hi) := fnPins s is i
        let s := s.onPart is.cur.core is.cur.part fun q => { q with funBusy := s.clock + 2 * (is.team.packW / 8) }
        let flag := flagOf is.hdr f.fs
        let (word, s) := s.newId
        go.foldl (fun s t =>
          let ms := activeOf is go t
          let (empty, ys) := softmax (fun x => (fnApply ge he x).1) (fun x => (fnApply gi hi x).1) (ms.map fun u => is.val u f.a 1)
          let y := ys.getD (ms.findIdx fun u => u.slot == t.slot) 0
          flagOne is flag word f.d 1 (pe ++ pi) s t ⟨[BitVec.ofNat 32 y], [(sgPd f, empty)]⟩) s } s

end Sys2Proof.Machine
end

