-- ==== Sys2Proof/Machine/Dispatch.lean ====
section
/-! DEFINITION. One arm for each constructor of Instr: the meaning of each row of the opcode table. -/

namespace Sys2Proof.Machine

/-- The transition of an instruction word that issues, or of an event. -/
def exec (i : Instr) (s : State) : Host.Outcome State Fault Refusal :=
  match i with
  | .nop f => Sys2Proof.Machine.execNop f s
  | .bra f => Sys2Proof.Machine.execBra f s
  | .jmp f => Sys2Proof.Machine.execJmp f s
  | .call f => Sys2Proof.Machine.execCall f s
  | .calli f => Sys2Proof.Machine.execCalli f s
  | .ret f => Sys2Proof.Machine.execRet f s
  | .exit f => Sys2Proof.Machine.execExit f s
  | .trap f => Sys2Proof.Machine.execTrap f s
  | .tret f => Sys2Proof.Machine.execTret f s
  | .brk f => Sys2Proof.Machine.execBrk f s
  | .bar f => Sys2Proof.Machine.execBar f s
  | .barArr f => Sys2Proof.Machine.execBarArr f s
  | .barWait f => Sys2Proof.Machine.execBarWait f s
  | .launch f => Sys2Proof.Machine.execLaunch f s
  | .lwait f => Sys2Proof.Machine.execLwait f s
  | .lwaitTest f => Sys2Proof.Machine.execLwaitTest f s
  | .yield f => Sys2Proof.Machine.execYield f s
  | .sreg f => Sys2Proof.Machine.execSreg f s
  | .add f => Sys2Proof.Machine.execAdd f s
  | .sub f => Sys2Proof.Machine.execSub f s
  | .addc f => Sys2Proof.Machine.execAddc f s
  | .subb f => Sys2Proof.Machine.execSubb f s
  | .mul f => Sys2Proof.Machine.execMul f s
  | .mulh f => Sys2Proof.Machine.execMulh f s
  | .mad f => Sys2Proof.Machine.execMad f s
  | .madw f => Sys2Proof.Machine.execMadw f s
  | .div f => Sys2Proof.Machine.execDiv f s
  | .rem f => Sys2Proof.Machine.execRem f s
  | .min f => Sys2Proof.Machine.execMin f s
  | .max f => Sys2Proof.Machine.execMax f s
  | .abs f => Sys2Proof.Machine.execAbs f s
  | .cmp f => Sys2Proof.Machine.execCmp f s
  | .addI f => Sys2Proof.Machine.execAddI f s
  | .subI f => Sys2Proof.Machine.execSubI f s
  | .mulI f => Sys2Proof.Machine.execMulI f s
  | .minI f => Sys2Proof.Machine.execMinI f s
  | .maxI f => Sys2Proof.Machine.execMaxI f s
  | .cmpI f => Sys2Proof.Machine.execCmpI f s
  | .and f => Sys2Proof.Machine.execAnd f s
  | .or f => Sys2Proof.Machine.execOr f s
  | .xor f => Sys2Proof.Machine.execXor f s
  | .andn f => Sys2Proof.Machine.execAndn f s
  | .not f => Sys2Proof.Machine.execNot f s
  | .shl f => Sys2Proof.Machine.execShl f s
  | .shr f => Sys2Proof.Machine.execShr f s
  | .sar f => Sys2Proof.Machine.execSar f s
  | .rot f => Sys2Proof.Machine.execRot f s
  | .bfe f => Sys2Proof.Machine.execBfe f s
  | .bfi f => Sys2Proof.Machine.execBfi f s
  | .popc f => Sys2Proof.Machine.execPopc f s
  | .clz f => Sys2Proof.Machine.execClz f s
  | .ctz f => Sys2Proof.Machine.execCtz f s
  | .brev f => Sys2Proof.Machine.execBrev f s
  | .perm f => Sys2Proof.Machine.execPerm f s
  | .lea f => Sys2Proof.Machine.execLea f s
  | .sel f => Sys2Proof.Machine.execSel f s
  | .mov f => Sys2Proof.Machine.execMov f s
  | .movi f => Sys2Proof.Machine.execMovi f s
  | .andI f => Sys2Proof.Machine.execAndI f s
  | .orI f => Sys2Proof.Machine.execOrI f s
  | .xorI f => Sys2Proof.Machine.execXorI f s
  | .andnI f => Sys2Proof.Machine.execAndnI f s
  | .shlI f => Sys2Proof.Machine.execShlI f s
  | .shrI f => Sys2Proof.Machine.execShrI f s
  | .sarI f => Sys2Proof.Machine.execSarI f s
  | .rotI f => Sys2Proof.Machine.execRotI f s
  | .leaI f => Sys2Proof.Machine.execLeaI f s
  | .fadd f => Sys2Proof.Machine.execFadd f s
  | .fsub f => Sys2Proof.Machine.execFsub f s
  | .fmul f => Sys2Proof.Machine.execFmul f s
  | .ffma f => Sys2Proof.Machine.execFfma f s
  | .fmin f => Sys2Proof.Machine.execFmin f s
  | .fmax f => Sys2Proof.Machine.execFmax f s
  | .fcmp f => Sys2Proof.Machine.execFcmp f s
  | .fclass f => Sys2Proof.Machine.execFclass f s
  | .frnd f => Sys2Proof.Machine.execFrnd f s
  | .fdot2 f => Sys2Proof.Machine.execFdot2 f s
  | .fcvt f => Sys2Proof.Machine.execFcvt f s
  | .icvt f => Sys2Proof.Machine.execIcvt f s
  | .rand f => Sys2Proof.Machine.execRand f s
  | .pset f => Sys2Proof.Machine.execPset f s
  | .pmov f => Sys2Proof.Machine.execPmov f s
  | .fnld f => Sys2Proof.Machine.execFnld f s
  | .fapp f => Sys2Proof.Machine.execFapp f s
  | .fappd f => Sys2Proof.Machine.execFappd f s
  | .fapp2 f => Sys2Proof.Machine.execFapp2 f s
  | .fnsync f => Sys2Proof.Machine.execFnsync f s
  | .fnq f => Sys2Proof.Machine.execFnq f s
  | .shfl f => Sys2Proof.Machine.execShfl f s
  | .sbc f => Sys2Proof.Machine.execSbc f s
  | .svote f => Sys2Proof.Machine.execSvote f s
  | .sred f => Sys2Proof.Machine.execSred f s
  | .sscan f => Sys2Proof.Machine.execSscan f s
  | .smv f => Sys2Proof.Machine.execSmv f s
  | .ssmx f => Sys2Proof.Machine.execSsmx f s
  | .ld f => Sys2Proof.Machine.execLd f s
  | .st f => Sys2Proof.Machine.execSt f s
  | .ldl f => Sys2Proof.Machine.execLdl f s
  | .stl f => Sys2Proof.Machine.execStl f s
  | .lds f => Sys2Proof.Machine.execLds f s
  | .ldx f => Sys2Proof.Machine.execLdx f s
  | .stx f => Sys2Proof.Machine.execStx f s
  | .ldFe f => Sys2Proof.Machine.execLdFe f s
  | .stFe f => Sys2Proof.Machine.execStFe f s
  | .feSet f => Sys2Proof.Machine.execFeSet f s
  | .fence f => Sys2Proof.Machine.execFence f s
  | .prf f => Sys2Proof.Machine.execPrf f s
  | .cinv f => Sys2Proof.Machine.execCinv f s
  | .atomB32 f => Sys2Proof.Machine.execAtomB32 f s
  | .atomB64 f => Sys2Proof.Machine.execAtomB64 f s
  | .redB32 f => Sys2Proof.Machine.execRedB32 f s
  | .redB64 f => Sys2Proof.Machine.execRedB64 f s
  | .mres f => Sys2Proof.Machine.execMres f s
  | .mrel f => Sys2Proof.Machine.execMrel f s
  | .mmac f => Sys2Proof.Machine.execMmac f s
  | .mdual f => Sys2Proof.Machine.execMdual f s
  | .mzero f => Sys2Proof.Machine.execMzero f s
  | .mld f => Sys2Proof.Machine.execMld f s
  | .mst f => Sys2Proof.Machine.execMst f s
  | .qcvt f => Sys2Proof.Machine.execQcvt f s
  | .dqcvt f => Sys2Proof.Machine.execDqcvt f s
  | .amrd f => Sys2Proof.Machine.execAmrd f s
  | .amclr f => Sys2Proof.Machine.execAmclr f s
  | .cp f => Sys2Proof.Machine.execCp f s
  | .cpRed f => Sys2Proof.Machine.execCpRed f s
  | .cpGat f => Sys2Proof.Machine.execCpGat f s
  | .coll f => Sys2Proof.Machine.execColl f s
  | .fur f => Sys2Proof.Machine.execFur f s
  | .cpFill f => Sys2Proof.Machine.execCpFill f s
  | .tlWait f => Sys2Proof.Machine.execTlWait f s
  | .tlTest f => Sys2Proof.Machine.execTlTest f s
  | .tlCancel f => Sys2Proof.Machine.execTlCancel f s
  | .tlRd f => Sys2Proof.Machine.execTlRd f s
  | .tlSig f => Sys2Proof.Machine.execTlSig f s
  | .uAdd f => Sys2Proof.Machine.execUAdd f s
  | .uSub f => Sys2Proof.Machine.execUSub f s
  | .uMul f => Sys2Proof.Machine.execUMul f s
  | .uMin f => Sys2Proof.Machine.execUMin f s
  | .uMax f => Sys2Proof.Machine.execUMax f s
  | .uAnd f => Sys2Proof.Machine.execUAnd f s
  | .uOr f => Sys2Proof.Machine.execUOr f s
  | .uXor f => Sys2Proof.Machine.execUXor f s
  | .uAndn f => Sys2Proof.Machine.execUAndn f s
  | .uNot f => Sys2Proof.Machine.execUNot f s
  | .uShl f => Sys2Proof.Machine.execUShl f s
  | .uShr f => Sys2Proof.Machine.execUShr f s
  | .uSar f => Sys2Proof.Machine.execUSar f s
  | .uBfe f => Sys2Proof.Machine.execUBfe f s
  | .uPopc f => Sys2Proof.Machine.execUPopc f s
  | .uClz f => Sys2Proof.Machine.execUClz f s
  | .uCtz f => Sys2Proof.Machine.execUCtz f s
  | .uMov f => Sys2Proof.Machine.execUMov f s
  | .uLea f => Sys2Proof.Machine.execULea f s
  | .nret f => Sys2Proof.Machine.execNret f s
  | .ctlRd f => Sys2Proof.Machine.execCtlRd f s
  | .ctlWr f => Sys2Proof.Machine.execCtlWr f s
  | .nonInstruction w => Sys2Proof.Machine.execNonInstruction w s
  | .serialiseDrainEnd core part stream => Sys2Proof.Machine.execSerialiseDrainEnd core part stream s
  | .patchModeEntry core part slot => Sys2Proof.Machine.execPatchModeEntry core part slot s
  | .clauseFetch core part stream => Sys2Proof.Machine.execClauseFetch core part stream s
  | .podEvict core part => Sys2Proof.Machine.execPodEvict core part s
  | .podOpen core part => Sys2Proof.Machine.execPodOpen core part s
  | .packForm core part => Sys2Proof.Machine.execPackForm core part s
  | .threadFiling core part => Sys2Proof.Machine.execThreadFiling core part s
  | .podHeaderFetch core part pod => Sys2Proof.Machine.execPodHeaderFetch core part pod s
  | .entryQueueServe core part => Sys2Proof.Machine.execEntryQueueServe core part s
  | .pollRetry core part slot => Sys2Proof.Machine.execPollRetry core part slot s
  | .barrierComplete core team b => Sys2Proof.Machine.execBarrierComplete core team b s
  | .resultLand core id => Sys2Proof.Machine.execResultLand core id s
  | .storeAck core id => Sys2Proof.Machine.execStoreAck core id s
  | .lineRequestSend core part => Sys2Proof.Machine.execLineRequestSend core part s
  | .sliceService slice => Sys2Proof.Machine.execSliceService slice s
  | .sectorReorientEnd slice => Sys2Proof.Machine.execSectorReorientEnd slice s
  | .memoryControllerService pc => Sys2Proof.Machine.execMemoryControllerService pc s
  | .sectorFill slice sector => Sys2Proof.Machine.execSectorFill slice sector s
  | .inkwellService group => Sys2Proof.Machine.execInkwellService group s
  | .completionTimeout id => Sys2Proof.Machine.execCompletionTimeout id s
  | .ccpResume core part slot p => Sys2Proof.Machine.execCcpResume core part slot p s
  | .dieToDieLinkBeat dir => Sys2Proof.Machine.execDieToDieLinkBeat dir s
  | .quillFlit port dir f => Sys2Proof.Machine.execQuillFlit port dir f s
  | .inkwellRefreshStart group => Sys2Proof.Machine.execInkwellRefreshStart group s
  | .inkwellRefreshEnd group => Sys2Proof.Machine.execInkwellRefreshEnd group s
  | .bankReservation core part => Sys2Proof.Machine.execBankReservation core part s
  | .budgetWindowStart pt => Sys2Proof.Machine.execBudgetWindowStart pt s
  | .walkComplete die ctx vpn => Sys2Proof.Machine.execWalkComplete die ctx vpn s
  | .accessedDirtySet die => Sys2Proof.Machine.execAccessedDirtySet die s
  | .fnldSwitch core reg => Sys2Proof.Machine.execFnldSwitch core reg s
  | .fnsyncClear core id => Sys2Proof.Machine.execFnsyncClear core id s
  | .arrayStart core => Sys2Proof.Machine.execArrayStart core s
  | .arrayRetire core => Sys2Proof.Machine.execArrayRetire core s
  | .commandHead ch => Sys2Proof.Machine.execCommandHead ch s
  | .sequenceWordRead ch => Sys2Proof.Machine.execSequenceWordRead ch s
  | .sequenceWordPoll ch => Sys2Proof.Machine.execSequenceWordPoll ch s
  | .deliveryTurn ch => Sys2Proof.Machine.execDeliveryTurn ch s
  | .commandComplete core team tl => Sys2Proof.Machine.execCommandComplete core team tl s
  | .marrowJobStart cluster => Sys2Proof.Machine.execMarrowJobStart cluster s
  | .marrowChunkStart cluster => Sys2Proof.Machine.execMarrowChunkStart cluster s
  | .marrowChunkEnd marrow e => Sys2Proof.Machine.execMarrowChunkEnd marrow e s
  | .teamRetire core team => Sys2Proof.Machine.execTeamRetire core team s
  | .gridRetire gid => Sys2Proof.Machine.execGridRetire gid s
  | .wptrDoorbell q v => Sys2Proof.Machine.execWptrDoorbell q v s
  | .queueEnable q v => Sys2Proof.Machine.execQueueEnable q v s
  | .queueDisable q => Sys2Proof.Machine.execQueueDisable q s
  | .qerrClear q v => Sys2Proof.Machine.execQerrClear q v s
  | .packetAccept src => Sys2Proof.Machine.execPacketAccept src s
  | .placementStep die => Sys2Proof.Machine.execPlacementStep die s
  | .teamStart core team => Sys2Proof.Machine.execTeamStart core team s
  | .codeRingEnable vf v => Sys2Proof.Machine.execCodeRingEnable vf v s
  | .codeRingDoorbell vf v => Sys2Proof.Machine.execCodeRingDoorbell vf v s
  | .codeLoad vf => Sys2Proof.Machine.execCodeLoad vf s
  | .codeReplace vf => Sys2Proof.Machine.execCodeReplace vf s
  | .codeUnload vf => Sys2Proof.Machine.execCodeUnload vf s
  | .faultQueueEnable vf v => Sys2Proof.Machine.execFaultQueueEnable vf v s
  | .faultQueueReadPointer vf v => Sys2Proof.Machine.execFaultQueueReadPointer vf v s
  | .faultRecordWrite vf => Sys2Proof.Machine.execFaultRecordWrite vf s
  | .faultResponseRetry vf token => Sys2Proof.Machine.execFaultResponseRetry vf token s
  | .faultResponseTerminate vf token => Sys2Proof.Machine.execFaultResponseTerminate vf token s
  | .faultResponseAbort vf token => Sys2Proof.Machine.execFaultResponseAbort vf token s
  | .faultResponseStep vf token => Sys2Proof.Machine.execFaultResponseStep vf token s
  | .faultResponseRunFree vf token => Sys2Proof.Machine.execFaultResponseRunFree vf token s
  | .tlbInvalidate vf v => Sys2Proof.Machine.execTlbInvalidate vf v s
  | .tlbInvalidateComplete vf => Sys2Proof.Machine.execTlbInvalidateComplete vf s
  | .regionModeWrite vf v => Sys2Proof.Machine.execRegionModeWrite vf v s
  | .regionModeDone vf => Sys2Proof.Machine.execRegionModeDone vf s
  | .preempt vf ctx => Sys2Proof.Machine.execPreempt vf ctx s
  | .restoreImage vf ctx => Sys2Proof.Machine.execRestoreImage vf ctx s
  | .drainDeadline core => Sys2Proof.Machine.execDrainDeadline core s
  | .coreHalted core => Sys2Proof.Machine.execCoreHalted core s
  | .imageSaved vf => Sys2Proof.Machine.execImageSaved vf s
  | .preemptWatchdog vf => Sys2Proof.Machine.execPreemptWatchdog vf s
  | .assignmentApply vf => Sys2Proof.Machine.execAssignmentApply vf s
  | .featmaskApply ctx => Sys2Proof.Machine.execFeatmaskApply ctx s
  | .censusCheckDone vf => Sys2Proof.Machine.execCensusCheckDone vf s
  | .registerWrite r v => Sys2Proof.Machine.execRegisterWrite r v s
  | .assignmentWrite vf offset v => Sys2Proof.Machine.execAssignmentWrite vf offset v s
  | .budgetRegisterWrite by_ p k v => Sys2Proof.Machine.execBudgetRegisterWrite by_ p k v s
  | .breakpointControlWrite vf k v => Sys2Proof.Machine.execBreakpointControlWrite vf k v s
  | .hostCompletion id data => Sys2Proof.Machine.execHostCompletion id data s
  | .dumpRingEnable vf v => Sys2Proof.Machine.execDumpRingEnable vf v s
  | .dumpRingReadPointer vf v => Sys2Proof.Machine.execDumpRingReadPointer vf v s
  | .traceBufferEnable vf journey v => Sys2Proof.Machine.execTraceBufferEnable vf journey v s
  | .thermalTrip => Sys2Proof.Machine.execThermalTrip s
  | .nibSwitch => Sys2Proof.Machine.execNibSwitch s
  | .arrivalAndOpenedAdvance => Sys2Proof.Machine.execArrivalAndOpenedAdvance s
  | .fenceLlcSlice unit => Sys2Proof.Machine.execFenceLlcSlice unit s
  | .fenceCore unit => Sys2Proof.Machine.execFenceCore unit s
  | .fencePseudoChannel unit => Sys2Proof.Machine.execFencePseudoChannel unit s
  | .fenceQuillPort unit => Sys2Proof.Machine.execFenceQuillPort unit s
  | .fenceMarrowCore unit => Sys2Proof.Machine.execFenceMarrowCore unit s
  | .linkRetry port => Sys2Proof.Machine.execLinkRetry port s
  | .linkDown port => Sys2Proof.Machine.execLinkDown port s
  | .nibImageLoad image => Sys2Proof.Machine.execNibImageLoad image s
  | .recoveryImage k image => Sys2Proof.Machine.execRecoveryImage k image s
  | .spdmRequest index => Sys2Proof.Machine.execSpdmRequest index s
  | .moduleReset b => Sys2Proof.Machine.execModuleReset b s
  | .configurationRequest tag => Sys2Proof.Machine.execConfigurationRequest tag s
  | .hostLinkTraining k width rate => Sys2Proof.Machine.execHostLinkTraining k width rate s
  | .powerGovernorTick shares duty => Sys2Proof.Machine.execPowerGovernorTick shares duty s
  | .atsInvalidation vf base size => Sys2Proof.Machine.execAtsInvalidation vf base size s
  | .pageRequestResponse id ok => Sys2Proof.Machine.execPageRequestResponse id ok s
  | .featmaskWrite ctx v => Sys2Proof.Machine.execFeatmaskWrite ctx v s
  | .censusCheck vf v => Sys2Proof.Machine.execCensusCheck vf v s

end Sys2Proof.Machine
end

