-- ==== Sys2Proof/Machine/Step.lean ====
section
/-! DEFINITION. One step of the machine: the next transition of its agenda. -/

namespace Sys2Proof.Machine

/-- One step: the next act of the agenda, or the acts of the next clock when the agenda is empty. -/
def step (s : State) : Host.Outcome State Fault Refusal := s.advanceBy exec

/-- The state with an instruction as the next word to issue: a clause of that one word, fetched by a pack of one
thread.  Words are stored by the host in memory and reach a thread by a launch; this stands for all of that. -/
def State.withFetchWord (s : State) (nbits w : Nat) : State := s.placeWord (BitVec.ofNat 64 (w % 2 ^ nbits))

end Sys2Proof.Machine
end

