-- ==== Sys2Proof/Machine/Windows.lean ====
section
/-! DEFINITION. What a read of a register returns (R3, R4): the registers of the physical function's window and of a driver window (R292, R300, R311, R319, R322, R327, R336, R346, R348, R354, R364, R375, R378, R379, R382, R387).  A read changes nothing, so that no transition of the table stands for it. -/

namespace Sys2Proof.Machine

/-- A bit as a word. -/
def bitWord (b : Bool) (n : Nat) : DWord := if b then 1#64 <<< n else 0

/-- A queue's block (R300): reserved fields read as zero (R3). -/
def Queue.read (x : Queue) (off : Nat) : DWord :=
  if off = 0 then x.qbase
  else if off = 8 then
    BitVec.ofNat 64 (x.vf % 16 * 2 ^ 32 + x.ctx % 4096 * 2 ^ 16 + x.prio % 8 * 2 ^ 8 + x.log2n % 16 * 2 ^ 4) ||| bitWord x.enable 0
  else if off = 0x10 then BitVec.ofNat 64 x.wptr
  else if off = 0x18 then BitVec.ofNat 64 x.rptr
  else if off = 0x20 then BitVec.ofNat 64 x.tl.completed
  else if off = 0x28 then x.qerr
  else 0

/-- A ring's four registers, in the order of R322: base, control, write pointer, read pointer. -/
def Ring.read (r : Ring) (k : Nat) : DWord :=
  if k = 0 then r.base
  else if k = 1 then r.ctl
  else if k = 2 then BitVec.ofNat 64 r.wptr
  else BitVec.ofNat 64 r.rptr

/-- An assignment block (R346). -/
def Vf.readAssign (x : Vf) (pending : Bool) (off : Nat) : DWord :=
  if off = 0 then x.vcore.setWidth 64
  else if off = 8 then x.vcore.extractLsb' 64 64
  else if off = 0x10 then (x.vcore.extractLsb' 128 32).setWidth 64
  else if off = 0x18 then x.wayMask.setWidth 64 <<< 48 ||| x.quill.setWidth 64 <<< 30 ||| x.clusters.setWidth 64 <<< 22
  else if off = 0x20 then x.vink.setWidth 64
  else if off = 0x28 then bitWord pending 0
  else 0

/-- `pstat` (R327). -/
def Vf.readPstat (x : Vf) : DWord := BitVec.ofNat 64 (x.pstatCtx % 4096 * 2 ^ 52 + x.pstatSize % 2 ^ 36 * 2 ^ 16 + x.pstat % 16)

/-- `regmode` (R348): BUSY, and the mode of the last region written. -/
def State.readRegmode (s : State) (x : Vf) : DWord :=
  bitWord x.regBusy.isSome 63 ||| BitVec.ofNat 64 (s.regionMode (x.regLast * 2 ^ 30) % 4 * 2 ^ 9)

/-- A control block (R379): `fqresp`, `tlbinv` and `pcmd` are write-only and read as zero (R4). -/
def State.readControl (s : State) (vf off : Nat) : DWord :=
  let x := s.vf vf
  if off < 0x20 then x.fault.read (off / 8)
  else if off = 0x30 then BitVec.ofNat 64 x.tlbseq
  else if off = 0x38 then x.psarea
  else if off = 0x48 then x.readPstat
  else if off = 0x50 then s.readRegmode x
  else if 0x58 ≤ off ∧ off < 0x78 then x.code.read ((off - 0x58) / 8)
  else if off = 0x78 then x.ctxbase
  else if off = 0x80 then x.grpbase
  else if off = 0x88 then x.vtarget
  else 0

/-- `cnschk` (R375): BUSY, DIFF and the lowest unequal site. -/
def Vf.readCensus (x : Vf) : DWord := bitWord x.cnsBusy.isSome 63 ||| bitWord x.cnsDiff 62 ||| x.cnsSite.setWidth 64

/-- A debug page (R364). -/
def Vf.readDebug (x : Vf) (off : Nat) : DWord :=
  if off < 0x80 then (if off % 16 = 0 then x.bpa.getD (off / 16) 0 else x.bpc.getD (off / 16) 0)
  else if off < 0xA0 then x.dump.read ((off - 0x80) / 8)
  else if off = 0xA0 then x.trbase
  else if off = 0xA8 then x.trctl
  else if off = 0xB0 then x.jrbase
  else if off = 0xB8 then x.jrctl
  else if off = 0xC0 then x.lostJourney.setWidth 64 <<< 32 ||| x.lostTrace.setWidth 64
  else if off = 0xC8 then x.readCensus
  else 0

/-- A register of a virtual function's driver window (R378): the blocks of queues that it does not own read as zero. -/
def State.readDriver (s : State) (vf off : Nat) : DWord :=
  if off < 0x1000 then (if (s.queue (off / 64)).vf = vf then (s.queue (off / 64)).read (off % 64) else 0)
  else if 0x1_0000 ≤ off ∧ off < 0x1_0090 then s.readControl vf (off - 0x1_0000)
  else if 0x2_0000 ≤ off ∧ off < 0x2_00D0 then (s.vf vf).readDebug (off - 0x2_0000)
  else 0

/-- The fence bits of every unit in the order of `isomap0` to `isomap9` (R354). -/
def State.fences (s : State) : BitVec 640 :=
  s.fencedCores.setWidth 640 ||| s.fencedSlices.setWidth 640 <<< 160 ||| s.fencedPcs.setWidth 640 <<< 288
    ||| s.fencedPorts.setWidth 640 <<< 544 ||| s.fencedMarrow.setWidth 640 <<< 562

/-- A region entry (R348). -/
def State.readRegion (s : State) (r : Nat) : DWord :=
  match s.regionVf (regionBase r) with
  | some v => BitVec.ofNat 64 (2 ^ 15 + v * 2 ^ 11)
  | none => 0

/-- A register of the physical function's window (R378); `isol` is write-only, and a context's entry gives the mask that the context will use
(R292). -/
def State.readPhysical (s : State) (off : Nat) : DWord :=
  if off = 0 then bitWord s.ready 0 ||| bitWord s.recovery 1
  else if off = 8 then s.quillid.setWidth 64
  else if 0x6000 ≤ off ∧ off < 0x7000 then (s.queue ((off - 0x6000) / 64)).read (off % 64)
  else if 0x8000 ≤ off ∧ off < 0x8400 then
    let v := (off - 0x8000) / 64
    (s.vf v).readAssign (s.assignPending v) (off % 64)
  else if 0x9008 ≤ off ∧ off < 0x9058 then s.fences.extractLsb' (64 * ((off - 0x9008) / 8)) 64
  else if 0xA000 ≤ off ∧ off < 0xA080 then (s.vf ((off - 0xA000) / 8)).vtarget
  else if 0x1_0000 ≤ off ∧ off < 0x1_0300 then s.readRegion ((off - 0x1_0000) / 2)
  else if 0x2_0000 ≤ off ∧ off < 0x2_0100 then (s.budget ((off - 0x2_0000) / 0x40) ((off - 0x2_0000) % 0x40 / 8)).setWidth 64
  else if 0x3_0000 ≤ off ∧ off < 0x3_0020 then s.pfRing.read ((off - 0x3_0000) / 8)
  else if 0x4_0000 ≤ off ∧ off < 0x8_0000 then (assoc ((off - 0x4_0000) / 4) 0 s.routes).setWidth 64
  else if off = 0x8_0000 then s.pwrcap.setWidth 64
  else if off = 0x8_0008 then s.duty.setWidth 64
  else if 0xC_0000 ≤ off ∧ off < 0xC_8000 then
    let c := s.ctx ((off - 0xC_0000) / 8)
    c.featPend.getD c.featmask
  else 0

/-- The value that a read of a register returns (R4): both windows read as zero until READY is set (R389), and the Scribe reads the control
registers of any context (R287). -/
def State.readReg (s : State) (r : RegAddr) : DWord :=
  match r with
  | .control ctx n => ctlShared s (s.ctx ctx) n
  | .physical off => if s.ready && !s.tripped then s.readPhysical off else 0
  | .driver vf off => if s.ready && !s.tripped then s.readDriver vf off else 0

end Sys2Proof.Machine
end

