-- ==== Sys2Proof/Safety.lean ====
section
/-! DEFINITION. The terms in which statements speak of the module: the invariant every transition keeps, when a word executes, what its destination then holds, and what it leaves alone. -/

namespace Sys2Proof.Machine

/-- Device memory is in its canonical form, so that equal memories are equal lists. -/
def State.MemInv (s : State) : Prop := Memory.wf s.mem = true

/-- A step answers a next state. -/
def State.goesOn (s : State) : Prop := ∃ t, step s = .next t

/-- A thread without its schedule: what filing, parking, holding, waiting at a barrier and releasing change (R36, R37, R42, R132). -/
def Thread.data (t : Thread) : Thread :=
  { t with life := .inFlight, at_ := normalAt 0 0, chk := none, hold37 := [], hold131 := false, atBar := none }

/-- The data of the thread in a slot. -/
def State.dataOf (s : State) (c p sl : Nat) : Option Thread := (s.thread? c p sl).map Thread.data

/-- The word `i` executes for the threads of `is` whose guards hold (R114): some guard holds, no operand is bad (R46),
no operand is a pending handle (R135, R233), and the word is an instruction (R110, R116). -/
def State.Runs (s : State) (i : Instr) (is : Issue) : Prop :=
  (∃ op f, i.fields = some (op, f) ∧ s.issue (guardsOf f).1 (guardsOf f).2 = some is) ∧ is.act ≠ []
    ∧ badOperand is.team.frame i = none ∧ (∀ t ∈ is.act, pendingRead s is i t = none) ∧ i.wellFormed = true

/-- The destination holds what the word computes: for a `v` selector each executing thread's own value, and for a scalar the
value of one of the executing threads (R30, R58). -/
def State.Written (u : State) (is : Issue) (d : BitVec 8) (n : Nat) (val : Thread → List Word) : Prop :=
  (isV d = true → ∀ t ∈ is.act, (u.again t).vregs d.toNat n = val t)
    ∧ (isS d = true → ∃ t ∈ is.act, ((u.team? is.cur.core is.team.slot).getD is.team).sregs (d.toNat - 0x80) n = val t)

/-- The predicates of each executing thread are what the word computes (R45, R138): `p7` discards. -/
def State.PredsWritten (u : State) (is : Issue) (val : Thread → List (Nat × Bool)) : Prop :=
  ∀ t ∈ is.act, (u.again t).preds = ((val t).foldl (fun (x : Thread) p => x.setPred p.1 p.2) t).preds

/-- Whether register `r` of a file is among the `n` from selector `d`. -/
def isDest (file : Bool) (d : BitVec 8) (n r : Nat) : Prop :=
  (if file then isV d = true ∧ d.toNat ≤ r ∧ r < d.toNat + n else isS d = true ∧ d.toNat - 0x80 ≤ r ∧ r < d.toNat - 0x80 + n)

/-- A thread is changed only in the registers from `d`, in the marks of their pairs (R135) and in its predicates. -/
def Thread.changedOnly (t x : Thread) (d : BitVec 8) (n : Nat) : Prop :=
  { x with regs := t.regs, preds := t.preds, gridpend := t.gridpend }.data = t.data
    ∧ (∀ r, ¬ isDest true d n r → x.regs.getD r 0 = t.regs.getD r 0)
    ∧ ∀ k, (∀ r, isDest true d n r → r / 2 ≠ k) → bitAt x.gridpend k = bitAt t.gridpend k

/-- A word changes nothing but the destination `d` and predicates of its executing threads, or the scalars `d` of its team:
memory, every other thread and team, every register elsewhere, and all the rest of the module but the pipeline of the
issuing partition are as before. -/
def State.OnlyDest (s u : State) (is : Issue) (d : BitVec 8) (n : Nat) : Prop :=
  { u with threads := s.threads, teams := s.teams, parts := s.parts, fresh := s.fresh } = s
    ∧ (∀ c p sl, (c, p) ≠ (is.cur.core, is.cur.part) ∨ sl ∉ is.act.map (·.slot) → u.dataOf c p sl = s.dataOf c p sl)
    ∧ (∀ t ∈ is.act, ∃ x, u.thread? is.cur.core is.cur.part t.slot = some x ∧ t.changedOnly x d n)
    ∧ (∀ c k, (c, k) ≠ (is.cur.core, is.team.slot) → u.team? c k = s.team? c k)
    ∧ (∃ x, u.team? is.cur.core is.team.slot = some x ∧ { x with scalars := is.team.scalars, tags := is.team.tags } = is.team
        ∧ ∀ r, ¬ isDest false d n r → x.scalars.getD r 0 = is.team.scalars.getD r 0)
    ∧ ∀ c p, (c, p) ≠ (is.cur.core, is.cur.part) → u.part c p = s.part c p

/-- A word with a result of fixed latency (R30, R45, R58): it executes, its destination from `d` holds `val`, its predicates are
`preds`, and nothing else changes. -/
def State.Fixed (s : State) (i : Instr) (is : Issue) (d : BitVec 8) (n : Nat) (val : Thread → List Word)
    (preds : Thread → List (Nat × Bool)) : Prop :=
  ∃ u, exec i s = .next u ∧ u.Written is d n val ∧ u.PredsWritten is preds ∧ s.OnlyDest u is d n

/-- No predicate is written. -/
def noPreds : Thread → List (Nat × Bool) := fun _ => []

/-- An operation of a thread is in flight on the issuing core. -/
def State.InFlight (u : State) (is : Issue) (t : Thread) (p : Op → Prop) : Prop :=
  ∃ o ∈ (u.core is.cur.core).ops, o.of is.cur.part t.slot = true ∧ o.ctx = is.team.ctx ∧ o.team = is.team.slot ∧ p o

/-- A flagged result (R34, R139): an operation that is done carries the registers and predicates of each thread to its landing. -/
def State.Flagged (u : State) (is : Issue) (n : Nat) (dest : Thread → List Dest) (val : Thread → List Word)
    (preds : Thread → List (Nat × Bool)) : Prop :=
  ∀ t ∈ is.act, u.InFlight is t fun o =>
    o.kind = .result ∧ o.stage = .done ∧ o.flag = some n ∧ o.dest = dest t ∧ o.vals = val t ∧ o.preds = preds t

/-- A word changes nothing but its executing threads, each as `P` says, and the operations in flight of its core, to which it
adds: memory, every other thread, every team and all the rest of the module are as before, but for the order of use in the core's
TLBs and the pipeline of the issuing partition. -/
def State.OnlyOps (s u : State) (is : Issue) (P : Thread → Thread → Prop) : Prop :=
  { u with threads := s.threads, cores := s.cores, parts := s.parts, fresh := s.fresh, nextId := s.nextId } = s
    ∧ (∀ c p sl, (c, p) ≠ (is.cur.core, is.cur.part) ∨ sl ∉ is.act.map (·.slot) → u.dataOf c p sl = s.dataOf c p sl)
    ∧ (∀ t ∈ is.act, ∃ x, u.thread? is.cur.core is.cur.part t.slot = some x ∧ P t x)
    ∧ (∀ c, c ≠ is.cur.core → u.core c = s.core c)
    ∧ (∃ new, { u.core is.cur.core with tlb1 := (s.core is.cur.core).tlb1, tlb2 := (s.core is.cur.core).tlb2 }
        = { s.core is.cur.core with ops := (s.core is.cur.core).ops ++ new })
    ∧ ∀ c p, (c, p) ≠ (is.cur.core, is.cur.part) → u.part c p = s.part c p

/-- A thread is changed only in completion flag `n`, if there is one, which is then set (R34). -/
def Thread.onlyFlag (n : Option Nat) (t x : Thread) : Prop :=
  { x with flags := t.flags }.data = t.data ∧ (∀ k, n ≠ some k → bitAt x.flags k = bitAt t.flags k)
    ∧ ∀ k, n = some k → k < 12 → bitAt x.flags k = true

/-- A word changes nothing but the threads that execute it, each as `P` says: memory, every other thread, every team, every core
and all the rest of the module are as before, but for the pipeline of the issuing partition. -/
def State.OnlyThreads (s u : State) (is : Issue) (P : Thread → Thread → Prop) : Prop :=
  { u with threads := s.threads, parts := s.parts } = s
    ∧ (∀ c p sl, (c, p) ≠ (is.cur.core, is.cur.part) ∨ sl ∉ is.act.map (·.slot) → u.dataOf c p sl = s.dataOf c p sl)
    ∧ (∀ t ∈ is.act, ∃ x, u.thread? is.cur.core is.cur.part t.slot = some x ∧ P t x)
    ∧ ∀ c p, (c, p) ≠ (is.cur.core, is.cur.part) → u.part c p = s.part c p

/-- A long-latency word whose results are known at issue (R34, R58, R139): it executes, sets the flag that FS selects, and an
operation carries each thread's registers and predicates to its landing; for a scalar destination all of them carry the registers of
one executing thread.  Nothing else changes. -/
def State.LongLatency (s : State) (i : Instr) (is : Issue) (fs : Bool) (d : BitVec 8) (n : Nat) (val : Thread → List Word)
    (preds : Thread → List (Nat × Bool)) : Prop :=
  ∃ u, exec i s = .next u ∧ s.OnlyOps u is (Thread.onlyFlag (some (flagOf is.hdr fs))) ∧ ∃ w : Thread → List Word,
    (isS d = false → ∀ t, w t = val t) ∧ (isS d = true → ∃ t0 ∈ is.act, ∀ t, w t = val t0)
      ∧ u.Flagged is (flagOf is.hdr fs) (fun t => destsOf is.team t d n) w preds

/-- A word whose results are long-latency when `long` holds, and of fixed latency otherwise (R120, R139). -/
def State.Result (s : State) (i : Instr) (is : Issue) (long : Prop) (fs : Bool) (d : BitVec 8) (n : Nat) (val : Thread → List Word)
    (preds : Thread → List (Nat × Bool)) : Prop :=
  (long → s.LongLatency i is fs d n val preds) ∧ (¬ long → s.Fixed i is d n val preds)

/-- A word whose result goes to the `n` scalars of the team from number `d`, once for the pack (R58, R162): it executes, they hold
`val`, and every other scalar, team and thread, memory and the rest of the module are as before, but for the pipeline of the issuing
partition. -/
def State.Uniform (s : State) (i : Instr) (is : Issue) (d n : Nat) (val : List Word) : Prop :=
  ∃ u, exec i s = .next u ∧ { u with teams := s.teams, threads := s.threads, parts := s.parts } = s
    ∧ (∀ c p sl, u.dataOf c p sl = s.dataOf c p sl)
    ∧ (∀ c k, (c, k) ≠ (is.cur.core, is.team.slot) → u.team? c k = s.team? c k)
    ∧ (∃ x, u.team? is.cur.core is.team.slot = some x ∧ { x with scalars := is.team.scalars, tags := is.team.tags } = is.team
        ∧ x.sregs d n = val ∧ ∀ r, ¬ (d ≤ r ∧ r < d + n) → x.scalars.getD r 0 = is.team.scalars.getD r 0)
    ∧ ∀ c p, (c, p) ≠ (is.cur.core, is.cur.part) → u.part c p = s.part c p

/-- Whether an operation that is queued waits for the line queue or for nothing, and so is not performed at an issue (R102, R168). -/
def Op.outward (o : Op) : Bool :=
  match o.kind with
  | .localLoad | .localStore | .fullEmpty _ | .feSet _ | .fence _ | .arrive _ | .engine | .ctlWr _ | .launch _ => false
  | _ => true

/-- No local access, fence or release of the core is about to be performed: each that is queued has to wait (R102, R103). -/
def State.Calm (s : State) (core : Nat) : Prop :=
  ∀ o ∈ (s.core core).ops, o.stage = .queued → o.outward = true ∨ s.waits core o = true

/-- The access of a thread is aligned and its translation is in the core's TLBs (R95, R165). -/
def State.Reaches (s : State) (is : Issue) (a : Acc) (va : DWord) (size col : Nat) : Prop :=
  misaligned va size col = false ∧ ∃ pa loc ink, is.xlate s a va = .ok pa loc ink

/-- A global access of a thread is in the line queue, with the translation it had at issue, its order, scope and policy (R97, R167, R168). -/
def State.Access (s u : State) (is : Issue) (t : Thread) (kind : OpKind) (a : Acc) (va : DWord) (size col : Nat) (x : BitVec 7)
    (p : Op → Prop) : Prop :=
  u.InFlight is t fun o => o.kind = kind ∧ o.stage = .queued ∧ o.va = va ∧ is.xlate s a va = .ok o.pa o.loc o.ink ∧ o.size = size
    ∧ o.col = col ∧ o.order = xOrder x ∧ o.scope = xScope x ∧ o.policy = xPolicy x ∧ p o

/-- A word changes nothing but its executing threads, each as `P` says, core `c`, which becomes `k`, and its team, which becomes `tm`:
memory, every other thread, team and core and all the rest of the module are as before, but for the pipeline of the issuing partition. -/
def State.OnlyUnit (s u : State) (is : Issue) (c : Nat) (k : Core) (tm : Team) (P : Thread → Thread → Prop) : Prop :=
  { u with threads := s.threads, teams := s.teams, cores := s.cores, parts := s.parts, fresh := s.fresh, nextId := s.nextId } = s
    ∧ (∀ c p sl, (c, p) ≠ (is.cur.core, is.cur.part) ∨ sl ∉ is.act.map (·.slot) → u.dataOf c p sl = s.dataOf c p sl)
    ∧ (∀ t ∈ is.act, ∃ x, u.thread? is.cur.core is.cur.part t.slot = some x ∧ P t x)
    ∧ (∀ d, d ≠ c → u.core d = s.core d) ∧ u.core c = k
    ∧ (∀ c k, (c, k) ≠ (is.cur.core, is.team.slot) → u.team? c k = s.team? c k) ∧ u.team? is.cur.core is.team.slot = some tm
    ∧ ∀ c p, (c, p) ≠ (is.cur.core, is.cur.part) → u.part c p = s.part c p

/-- Nothing of a thread but its schedule has changed. -/
def Thread.same (t x : Thread) : Prop := x.data = t.data

/-- A filing of a thread of the issue is due at a clock (R31, R36, R42). -/
def State.Files (u : State) (is : Issue) (t : Thread) (to_ : Target) (due : Nat) : Prop :=
  ∃ fl ∈ (u.part is.cur.core is.cur.part).filings, fl.slot = t.slot ∧ fl.to_ = to_ ∧ fl.due = due

/-- A thread of the issue is parked, with a resume point (R36). -/
def State.Parked (u : State) (is : Issue) (t : Thread) (p : Park) (to_ : Target) : Prop :=
  ∃ x, u.thread? is.cur.core is.cur.part t.slot = some x ∧ x.life = .parked p ∧ x.at_ = to_

/-- No thread of the issue is in patch mode, and no fault slot takes a fault of a class at the word, whose fault word names the OP of the
word as it was fetched (R121, R295, R298). -/
def State.NoFaultSlot (s : State) (is : Issue) (cls : Nat) : Prop :=
  let act := (s.faultSlot is.team.ctx (faultWord cls (opOf is.cur.word).toNat) is.cur.hdr).1
  (∀ t ∈ is.act, t.patched = false) ∧ act ≠ 1 ∧ act ≠ 3

/-- Every executing thread takes a user trap of the word (R128, R129): its trap registers are written, it is to be filed at the
trap vector 4 clocks after the word issued, and nothing else of it or of the module changes. -/
def State.Traps (s : State) (i : Instr) (is : Issue) (cause : Nat) (tval : Thread → DWord) : Prop :=
  ∃ u, exec i s = .next u
    ∧ s.OnlyThreads u is (fun t x => x.data = (t.takeTrap cause (tval t) (trapHere is.cur)).data)
    ∧ ∀ t ∈ is.act, u.Files is t (normalAt (s.ctx is.team.ctx).trapvec 0) (s.clock + 4)

/-- Every executing thread parks, and nothing but schedules changes (R36). -/
def State.Waits (s : State) (i : Instr) (is : Issue) (p : Thread → Park) (to_ : Thread → Target) : Prop :=
  ∃ u, exec i s = .next u ∧ s.OnlyThreads u is Thread.same ∧ ∀ t ∈ is.act, u.Parked is t (p t) (to_ t)

/-- The word `i` comes to execute for the threads of `is`, one at least (R114, R121). -/
def State.Comes (s : State) (i : Instr) (is : Issue) : Prop :=
  (∃ op f, i.fields = some (op, f) ∧ s.issue (guardsOf f).1 (guardsOf f).2 = some is) ∧ is.act ≠ []

/-- Nothing of the core is in flight, nor queued on its array, so that a release is performed at its issue (R102, R106). -/
def State.Idle (s : State) (core : Nat) : Prop := (s.core core).ops = [] ∧ (s.core core).loads = [] ∧ (s.arrayOf core).array = []

/-- In the partitions of the core nothing has changed but which banks are claimed and what waits for them (R53); the pipeline of the
issuing partition is left aside. -/
def State.OnlyBanks (s u : State) (is : Issue) : Prop :=
  ∀ c p, (c, p) ≠ (is.cur.core, is.cur.part) →
    { u.part c p with claims := (s.part c p).claims, portWait := (s.part c p).portWait } = s.part c p

/-- A thread of the issue stands at barrier `b` of its team until the clock's end, with the point at which it would resume (R132). -/
def State.AtBarrier (u : State) (is : Issue) (t : Thread) (b : Nat) : Prop :=
  ∃ x, u.thread? is.cur.core is.cur.part t.slot = some x ∧ x.atBar = some ⟨b, true, nextTarget is.cur t, nextCheck is.cur⟩

end Sys2Proof.Machine
end

