-- ==== Sys2Proof/Certificates/Slice0/Obligations.lean ====
section
/-! DEFINITION. The statements for the provers, from the numbered rules of the manual. -/

open Sys2Proof Sys2Proof.Machine

/-- R141, R143: every integer word executes, and writes what the rule computes from `a`, `b` and `c`, with `b` taken from B or from the
immediate; the condition codes 6 and 7 of `cmp` are reserved. -/
def Obligations.IntegerResults : Prop :=
  (∀ (s : State) (is : Issue) (f : RWord),
    let md := f.md.toNat
    let w := intWidth md
    let a := fun t => is.int t md f.a
    let b := fun t => is.int t md f.b
    let c := fun t => is.int t md f.c
    let sat := bitAt f.x 0
    let carry := fun (t : Thread) => if t.pred (carryPred f) then (1 : Int) else 0
    let cond := fun t => intCond (f.x.extractLsb' 1 3).toNat (a t) (b t)
    (s.Runs (.add f) is → s.Fixed (.add f) is f.d (typeRegs md) (fun t => intResult md sat (a t + b t)) noPreds)
    ∧ (s.Runs (.sub f) is → s.Fixed (.sub f) is f.d (typeRegs md) (fun t => intResult md sat (a t - b t)) noPreds)
    ∧ (s.Runs (.mul f) is → s.Fixed (.mul f) is f.d (typeRegs md) (fun t => intWrite md (a t * b t)) noPreds)
    ∧ (s.Runs (.mulh f) is → s.Fixed (.mulh f) is f.d (typeRegs md) (fun t => intWrite md (a t * b t / (2 ^ w : Nat))) noPreds)
    ∧ (s.Runs (.mad f) is → s.Fixed (.mad f) is f.d (typeRegs md) (fun t => intWrite md (a t * b t + c t)) noPreds)
    ∧ (s.Runs (.madw f) is → s.Fixed (.madw f) is f.d 2 (fun t => intWrite 3 (a t * b t + is.int t (md + 2) f.c)) noPreds)
    ∧ (s.Runs (.min f) is → s.Fixed (.min f) is f.d (typeRegs md) (fun t => intWrite md (min (a t) (b t))) noPreds)
    ∧ (s.Runs (.max f) is → s.Fixed (.max f) is f.d (typeRegs md) (fun t => intWrite md (max (a t) (b t))) noPreds)
    ∧ (s.Runs (.abs f) is → s.Fixed (.abs f) is f.d (typeRegs md) (fun t => intResult md sat (a t).natAbs) noPreds)
    ∧ (s.Runs (.addc f) is → s.Fixed (.addc f) is f.d (typeRegs md) (fun t => intWrite md (a t + b t + carry t))
        fun t => [(carryPred f, decide ((2 ^ w : Int) ≤ a t + b t + carry t))])
    ∧ (s.Runs (.subb f) is → s.Fixed (.subb f) is f.d (typeRegs md) (fun t => intWrite md (a t - b t - carry t))
        fun t => [(carryPred f, decide (a t - b t - carry t < 0))])
    ∧ (s.Runs (.cmp f) is → s.Fixed (.cmp f) is f.d 1 (fun t => [if cond t then 1 else 0]) fun t => [((f.x.extractLsb' 4 3).toNat, cond t)]))
  ∧ (∀ (s : State) (is : Issue) (f : IWord),
    let md := f.md.toNat
    let a := fun t => is.int t md f.a
    let b := immRead md f.imm
    let sat := bitAt f.x 0
    let cond := fun t => intCond (f.x.extractLsb' 1 3).toNat (a t) b
    (s.Runs (.addI f) is → s.Fixed (.addI f) is f.d (typeRegs md) (fun t => intResult md sat (a t + b)) noPreds)
    ∧ (s.Runs (.subI f) is → s.Fixed (.subI f) is f.d (typeRegs md) (fun t => intResult md sat (a t - b)) noPreds)
    ∧ (s.Runs (.mulI f) is → s.Fixed (.mulI f) is f.d (typeRegs md) (fun t => intWrite md (a t * b)) noPreds)
    ∧ (s.Runs (.minI f) is → s.Fixed (.minI f) is f.d (typeRegs md) (fun t => intWrite md (min (a t) b)) noPreds)
    ∧ (s.Runs (.maxI f) is → s.Fixed (.maxI f) is f.d (typeRegs md) (fun t => intWrite md (max (a t) b)) noPreds)
    ∧ (s.Runs (.cmpI f) is → s.Fixed (.cmpI f) is f.d 1 (fun t => [if cond t then 1 else 0]) fun t => [((f.x.extractLsb' 4 3).toNat, cond t)]))
  ∧ (∀ f : RWord, 6 ≤ (f.x.extractLsb' 1 3).toNat → (Instr.cmp f).wellFormed = false)
  ∧ ∀ f : IWord, 6 ≤ (f.x.extractLsb' 1 3).toNat → (Instr.cmpI f).wellFormed = false

/-- R142: quotient and remainder, with the limits of the rule. -/
def Obligations.DivisionResults : Prop :=
  ∀ (s : State) (is : Issue) (f : RWord),
    let md := f.md.toNat
    let a := fun t => is.int t md f.a
    let b := fun t => is.int t md f.b
    let q := fun t => if b t = 0 then -1 else if intSigned md ∧ a t = intLo md ∧ b t = -1 then intLo md else (a t).tdiv (b t)
    let r := fun t => if b t = 0 then a t else if intSigned md ∧ a t = intLo md ∧ b t = -1 then 0 else a t - (a t).tdiv (b t) * b t
    (s.Runs (.div f) is → s.LongLatency (.div f) is f.fs f.d (typeRegs md) (fun t => intWrite md (q t)) noPreds)
    ∧ (s.Runs (.rem f) is → s.LongLatency (.rem f) is f.fs f.d (typeRegs md) (fun t => intWrite md (r t)) noPreds)

/-- R145, R146: the bit and address words, with an immediate taken sign-extended (R140), and the four writes of `movi`, whose other codes
are reserved. -/
def Obligations.BitResults : Prop :=
  (∀ (s : State) (is : Issue) (f : RWord),
    let md := f.md.toNat
    let w := intWidth md
    let n := typeRegs md
    let a := fun t => is.val t f.a n
    let b := fun t => is.val t f.b n
    let ctl := fun t => is.val t f.b 1
    let k := fun t => is.val t f.b 1 % w
    (s.Runs (.and f) is → s.Fixed (.and f) is f.d n (fun t => wordsOf n (a t &&& b t)) noPreds)
    ∧ (s.Runs (.or f) is → s.Fixed (.or f) is f.d n (fun t => wordsOf n (a t ||| b t)) noPreds)
    ∧ (s.Runs (.xor f) is → s.Fixed (.xor f) is f.d n (fun t => wordsOf n (a t ^^^ b t)) noPreds)
    ∧ (s.Runs (.andn f) is → s.Fixed (.andn f) is f.d n (fun t => wordsOf n (a t &&& (ones w ^^^ b t))) noPreds)
    ∧ (s.Runs (.not f) is → s.Fixed (.not f) is f.d n (fun t => wordsOf n (ones w ^^^ a t)) noPreds)
    ∧ (s.Runs (.shl f) is → s.Fixed (.shl f) is f.d n (fun t => wordsOf n (a t <<< k t % 2 ^ w)) noPreds)
    ∧ (s.Runs (.shr f) is → s.Fixed (.shr f) is f.d n (fun t => wordsOf n (a t >>> k t)) noPreds)
    ∧ (s.Runs (.sar f) is → s.Fixed (.sar f) is f.d n (fun t => wordsOf n (wrapN w (sext w (a t) / (2 ^ k t : Nat)))) noPreds)
    ∧ (s.Runs (.rot f) is → s.Fixed (.rot f) is f.d n (fun t => wordsOf n (a t <<< k t % 2 ^ w ||| a t >>> (w - k t))) noPreds)
    ∧ (s.Runs (.bfe f) is → s.Fixed (.bfe f) is f.d n (fun t => wordsOf n (bfeBits (intSigned md) w (a t) (ctl t))) noPreds)
    ∧ (s.Runs (.bfi f) is → s.Fixed (.bfi f) is f.d n (fun t => wordsOf n (bfiBits w (a t) (ctl t) (is.val t f.c n))) noPreds)
    ∧ (s.Runs (.popc f) is → s.Fixed (.popc f) is f.d 1 (fun t => [BitVec.ofNat 32 (popcount w (a t))]) noPreds)
    ∧ (s.Runs (.clz f) is → s.Fixed (.clz f) is f.d 1 (fun t => [BitVec.ofNat 32 (leadingZeros w (a t))]) noPreds)
    ∧ (s.Runs (.ctz f) is → s.Fixed (.ctz f) is f.d 1 (fun t => [BitVec.ofNat 32 (trailingZeros w (a t))]) noPreds)
    ∧ (s.Runs (.brev f) is → s.Fixed (.brev f) is f.d n (fun t => wordsOf n (reverseBits w (a t))) noPreds)
    ∧ (s.Runs (.perm f) is → s.Fixed (.perm f) is f.d 1
        (fun t => [BitVec.ofNat 32 (permBits (is.val t f.a 1) (is.val t f.b 1) (is.val t f.c 1))]) noPreds)
    ∧ (s.Runs (.lea f) is → s.Fixed (.lea f) is f.d 2
        (fun t => wordsOf 2 (wrapN 64 (is.val t f.a 2 + is.int t md f.b * (2 ^ (f.x.extractLsb' 0 3).toNat : Nat)))) noPreds)
    ∧ (s.Runs (.sel f) is → s.Fixed (.sel f) is f.d n
        (fun t => typeWrite md (if t.pred (f.x.extractLsb' 4 3).toNat ^^ bitAt f.x 3 then a t else b t)) noPreds)
    ∧ (s.Runs (.mov f) is → s.Fixed (.mov f) is f.d n (fun t => typeWrite md (a t)) noPreds))
  ∧ (∀ (s : State) (is : Issue),
    (∀ f : IWord,
      let w := intWidth f.md.toNat
      let n := typeRegs f.md.toNat
      let a := fun t => is.val t f.a n
      let b := wrapN w f.imm.toInt
      (s.Runs (.andI f) is → s.Fixed (.andI f) is f.d n (fun t => wordsOf n (a t &&& b)) noPreds)
      ∧ (s.Runs (.orI f) is → s.Fixed (.orI f) is f.d n (fun t => wordsOf n (a t ||| b)) noPreds)
      ∧ (s.Runs (.xorI f) is → s.Fixed (.xorI f) is f.d n (fun t => wordsOf n (a t ^^^ b)) noPreds)
      ∧ (s.Runs (.andnI f) is → s.Fixed (.andnI f) is f.d n (fun t => wordsOf n (a t &&& (ones w ^^^ b))) noPreds)
      ∧ (s.Runs (.shlI f) is → s.Fixed (.shlI f) is f.d n (fun t => wordsOf n (a t <<< (b % w) % 2 ^ w)) noPreds)
      ∧ (s.Runs (.shrI f) is → s.Fixed (.shrI f) is f.d n (fun t => wordsOf n (a t >>> (b % w))) noPreds)
      ∧ (s.Runs (.sarI f) is → s.Fixed (.sarI f) is f.d n (fun t => wordsOf n (wrapN w (sext w (a t) / (2 ^ (b % w) : Nat)))) noPreds)
      ∧ (s.Runs (.rotI f) is → s.Fixed (.rotI f) is f.d n (fun t => wordsOf n (a t <<< (b % w) % 2 ^ w ||| a t >>> (w - b % w))) noPreds)
      ∧ (s.Runs (.leaI f) is → s.Fixed (.leaI f) is f.d 2
          (fun t => wordsOf 2 (wrapN 64 (is.val t f.a 2 + f.imm.toInt * (2 ^ (f.x.extractLsb' 0 3).toNat : Nat)))) noPreds))
    ∧ ∀ f : LWord, s.Runs (.movi f) is →
        (f.md6 = 0 → s.Fixed (.movi f) is f.d 1 (fun _ => [f.imm]) noPreds)
        ∧ (f.md6 = 1 → s.Fixed (.movi f) is f.d 2 (fun _ => wordsOf 2 (f.imm.signExtend 64).toNat) noPreds)
        ∧ (f.md6 = 2 → s.Fixed (.movi f) is f.d 2 (fun _ => [f.imm, 0]) noPreds)
        ∧ (f.md6 = 3 → s.Fixed (.movi f) is (f.d + 1) 1 (fun _ => [f.imm]) noPreds))
  ∧ ∀ f : LWord, (Instr.movi f).wellFormed = true → f.md6.toNat < 4 ∧ (isV f.d = true ∨ isS f.d = true)

/-- R148-R152: the float words, flagged when the type is `f64` (R139). -/
def Obligations.FloatResults : Prop :=
  ∀ (s : State) (is : Issue) (f : RWord),
    let md := f.md.toNat
    let n := typeRegs md
    let long := md = 0xB
    let a := fun t => is.flt t md f.a
    let b := fun t => is.flt t md f.b
    let rm := rmOf f.x
    let each := fun (op : FFmt → Nat → Nat → Nat) t => typeWrite md (floatMap2 md op (a t) (b t))
    let cond := fun t => floatCond (f.x.extractLsb' 2 2).toNat ((floatOf md).read (a t)) ((floatOf md).read (b t))
    (s.Runs (.fadd f) is → s.Result (.fadd f) is long f.fs f.d n (each fun g x y => g.fadd rm x y) noPreds)
    ∧ (s.Runs (.fsub f) is → s.Result (.fsub f) is long f.fs f.d n (each fun g x y => g.fsub rm x y) noPreds)
    ∧ (s.Runs (.fmul f) is → s.Result (.fmul f) is long f.fs f.d n (each fun g x y => g.fmul rm x y) noPreds)
    ∧ (s.Runs (.ffma f) is → s.Result (.ffma f) is long f.fs f.d n
        (fun t => typeWrite md (ffmaBits md rm (a t) (b t) (is.flt t md f.c))) noPreds)
    ∧ (s.Runs (.fmin f) is → s.Result (.fmin f) is long f.fs f.d n (each fun g x y => g.minmax false (bitAt f.x 2) x y) noPreds)
    ∧ (s.Runs (.fmax f) is → s.Result (.fmax f) is long f.fs f.d n (each fun g x y => g.minmax true (bitAt f.x 2) x y) noPreds)
    ∧ (s.Runs (.fcmp f) is → s.Result (.fcmp f) is long f.fs f.d 1 (fun t => [if cond t then 1 else 0])
        fun t => [((f.x.extractLsb' 4 3).toNat, cond t)])
    ∧ (s.Runs (.fclass f) is → s.Result (.fclass f) is long f.fs f.d 1 (fun t => [BitVec.ofNat 32 (2 ^ (floatOf md).fclass (a t))]) noPreds)
    ∧ (s.Runs (.frnd f) is → s.Result (.frnd f) is long f.fs f.d n
        (fun t => typeWrite md (floatMap2 md (fun g x _ => g.frnd rm x) (a t) (a t))) noPreds)
    ∧ (s.Runs (.fdot2 f) is → s.Result (.fdot2 f) is long f.fs f.d 1
        (fun t => [BitVec.ofNat 32 (fdot2Bits md rm (is.val t f.a 1) (is.val t f.b 1) (is.val t f.c 1))]) noPreds)

/-- R153-R157: conversions, flagged with `f64` on either side, and the predicate words, with the fields they must leave at 0 or 0xFF;
R136, R137: special registers; R135: `lwait.test`. -/
def Obligations.ConversionAndPredicateResults : Prop :=
  (∀ (s : State) (is : Issue),
    (∀ f : RWord,
      let dt := f.md.toNat
      let st := cvtSrc f.x
      let pd := (f.x.extractLsb' 4 3).toNat
      let pa := (f.x.extractLsb' 1 3).toNat
      (s.Runs (.fcvt f) is → s.Result (.fcvt f) is (dt = 0xB ∨ st = 0xB) f.fs f.d (if (st = 0xC ∨ st = 0xD) ∧ dt = 8 then 2 else typeRegs dt)
        (fun t => fcvtBits dt st (bitAt f.x 6) (rmOf f.x) (is.flt t st f.a) (is.val t f.b 1)) noPreds)
      ∧ (s.Runs (.icvt f) is → s.Fixed (.icvt f) is f.d (typeRegs dt) (fun t => intResult dt (bitAt f.x 6) (is.int t st f.a)) noPreds)
      ∧ (s.Runs (.pset f) is → s.Fixed (.pset f) is f.d 0 (fun _ => [])
          fun t => [(pd, bitAt f.md (2 * (t.pred pa).toNat + (t.pred pd).toNat))])
      ∧ (s.Runs (.pmov f) is → f.md = 0 → s.Fixed (.pmov f) is f.d 1 (fun t => [BitVec.ofNat 32 (t.preds.toNat % 128 + 128)]) noPreds)
      ∧ (s.Runs (.pmov f) is → f.md = 1 → s.Fixed (.pmov f) is f.d 0 (fun _ => [])
          fun t => ((List.range 7).filter fun k => bitAt f.x k).map fun k => (k, (is.val t f.a 1).testBit k))
      ∧ (s.Runs (.lwaitTest f) is → s.Fixed (.lwaitTest f) is f.d 1
          (fun t => [if isV f.a ∧ bitAt t.gridpend (f.a.toNat / 2) then 0 else 1]) noPreds))
    ∧ ∀ f : IWord, s.Runs (.sreg f) is → s.Fixed (.sreg f) is f.d ((sregRegs f.imm.toNat).getD 1)
        (fun t => wordsOf ((sregRegs f.imm.toNat).getD 1) (sregValue f.imm.toNat s is t)) noPreds)
  ∧ (∀ f : RWord, (Instr.pset f).wellFormed = true → bitAt f.x 0 = false ∧ f.d = 0xFF ∧ f.a = 0xFF ∧ f.b = 0xFF ∧ f.c = 0xFF)
  ∧ ∀ f : RWord, (Instr.pmov f).wellFormed = true →
      f.md = 0 ∧ isV f.d = true ∧ f.a = 0xFF ∧ f.x = 0 ∨ f.md = 1 ∧ f.d = 0xFF ∧ f.a ≠ 0xFF

/-- R194-R201: the sub-group words.  `ms t` are the active members of the sub-group of `t` in increasing `sgrank`. -/
def Obligations.SubGroupResults : Prop :=
  ∀ (s : State) (is : Issue) (f : RWord),
    let n := if bitAt f.md 2 then 2 else 1
    let k := typeRegs f.md.toNat
    let z := is.team.sg
    let pd := (f.x.extractLsb' 4 3).toNat
    let pa := (f.x.extractLsb' 1 3).toNat
    let ms := fun t => activeOf is is.act t
    let take := fun (r : Nat) t => takeFrom is n pd f.a (ms t) t r
    let from_ := fun t => shflRank (f.md.toNat % 4) z (t.tid % z) (is.val t f.b 1)
    let bc := fun t => if bitAt f.md 0 then ((ms t).head?.map fun m => m.tid % z).getD 0 else is.val t f.b 1 % z
    let vote := fun t => voteOut f.md.toNat pa pd is (ms t)
    let mv := fun t => meanVar ((ms t).map fun m => is.val m f.a 1)
    (s.Runs (.shfl f) is → s.LongLatency (.shfl f) is f.fs f.d n (fun t => (take (from_ t) t).vals) fun t => (take (from_ t) t).preds)
    ∧ (s.Runs (.sbc f) is → s.LongLatency (.sbc f) is f.fs f.d n (fun t => (take (bc t) t).vals) fun t => (take (bc t) t).preds)
    ∧ (s.Runs (.svote f) is → s.LongLatency (.svote f) is f.fs f.d 1 (fun t => (vote t).vals) fun t => (vote t).preds)
    ∧ (s.Runs (.sred f) is → s.LongLatency (.sred f) is f.fs f.d k
        (fun t => wordsOf k (redLoop (redStepOf f) ((ms t).map fun m => is.val m f.a k))) noPreds)
    ∧ (s.Runs (.sscan f) is → s.LongLatency (.sscan f) is f.fs f.d k (fun t => wordsOf k (scanValue f is (ms t) t)) noPreds)
    ∧ (s.Runs (.smv f) is → s.LongLatency (.smv f) is f.fs f.d 2
        (fun t => [BitVec.ofNat 32 (mv t).1, BitVec.ofNat 32 (mv t).2]) noPreds)

/-- R162: the uniform words on scalars. -/
def Obligations.UniformResults : Prop :=
  ∀ (s : State) (is : Issue) (f : UWord),
    let md := f.md.toNat
    let w := intWidth md
    let n := typeRegs md
    let d := f.d.toNat
    let A := is.team.snum f.a n
    let B := fun k => if f.bi then wrapN (32 * k) (f.b ++ f.c).toInt else is.team.snum f.b k
    let a := intRead md A
    let b := intRead md (B n)
    let k := B 1 % w
    (s.Runs (.uAdd f) is → s.Uniform (.uAdd f) is d n (intWrite md (a + b)))
    ∧ (s.Runs (.uSub f) is → s.Uniform (.uSub f) is d n (intWrite md (a - b)))
    ∧ (s.Runs (.uMul f) is → s.Uniform (.uMul f) is d n (intWrite md (a * b)))
    ∧ (s.Runs (.uMin f) is → s.Uniform (.uMin f) is d n (intWrite md (min a b)))
    ∧ (s.Runs (.uMax f) is → s.Uniform (.uMax f) is d n (intWrite md (max a b)))
    ∧ (s.Runs (.uAnd f) is → s.Uniform (.uAnd f) is d n (wordsOf n (A &&& B n)))
    ∧ (s.Runs (.uOr f) is → s.Uniform (.uOr f) is d n (wordsOf n (A ||| B n)))
    ∧ (s.Runs (.uXor f) is → s.Uniform (.uXor f) is d n (wordsOf n (A ^^^ B n)))
    ∧ (s.Runs (.uAndn f) is → s.Uniform (.uAndn f) is d n (wordsOf n (A &&& (ones w ^^^ B n))))
    ∧ (s.Runs (.uNot f) is → s.Uniform (.uNot f) is d n (wordsOf n (ones w ^^^ A)))
    ∧ (s.Runs (.uShl f) is → s.Uniform (.uShl f) is d n (wordsOf n (A <<< k % 2 ^ w)))
    ∧ (s.Runs (.uShr f) is → s.Uniform (.uShr f) is d n (wordsOf n (A >>> k)))
    ∧ (s.Runs (.uSar f) is → s.Uniform (.uSar f) is d n (wordsOf n (wrapN w (sext w A / (2 ^ k : Nat)))))
    ∧ (s.Runs (.uBfe f) is → s.Uniform (.uBfe f) is d n (wordsOf n (bfeBits (intSigned md) w A (B 1))))
    ∧ (s.Runs (.uPopc f) is → s.Uniform (.uPopc f) is d 1 [BitVec.ofNat 32 (popcount w A)])
    ∧ (s.Runs (.uClz f) is → s.Uniform (.uClz f) is d 1 [BitVec.ofNat 32 (leadingZeros w A)])
    ∧ (s.Runs (.uCtz f) is → s.Uniform (.uCtz f) is d 1 [BitVec.ofNat 32 (trailingZeros w A)])
    ∧ (s.Runs (.uMov f) is → s.Uniform (.uMov f) is d n (if f.bi then wordsOf n (B n) else is.team.sregs f.a.toNat n))
    ∧ (s.Runs (.uLea f) is → s.Uniform (.uLea f) is d 2
        (wordsOf 2 (wrapN 64 (is.team.snum f.a 2 + if f.bi then (f.b ++ f.c).toInt else b))))

/-- R165, R167-R169: a load or store of each executing thread goes to the line queue with its translation, and a load sets its flag. -/
def Obligations.GlobalLoadsAndStoresIssue : Prop :=
  ∀ (s : State) (is : Issue) (f : IWord), s.Calm is.cur.core →
    let ea := fun t => is.pair t f.a + f.imm.signExtend 64
    let n := codeBytes f.md.toNat
    let k := sizeRegs f.md.toNat
    let col := lineCol f
    let flag := flagOf is.hdr f.fs
    (s.Runs (.ld f) is → (∀ t ∈ is.act, s.Reaches is .read (ea t) n 0) →
      ∃ u, exec (.ld f) s = .next u ∧ s.OnlyOps u is (Thread.onlyFlag (some flag)) ∧ ∀ t ∈ is.act,
        s.Access u is t .load .read (ea t) n 0 f.x fun o => o.md = f.md.toNat ∧ o.dest = destsOf is.team t f.d k ∧ o.flag = some flag)
    ∧ (s.Runs (.ldx f) is → (∀ t ∈ is.act, s.Reaches is .read (ea t) 32 col) →
      ∃ u, exec (.ldx f) s = .next u ∧ s.OnlyOps u is (Thread.onlyFlag (some flag)) ∧ ∀ t ∈ is.act,
        s.Access u is t .load .read (ea t) 32 col f.x fun o => o.dest = destsOf is.team t f.d 8 ∧ o.flag = some flag)
    ∧ (s.Runs (.st f) is → (∀ t ∈ is.act, s.Reaches is .write (ea t) n 0) →
      ∃ u, exec (.st f) s = .next u ∧ s.OnlyOps u is (Thread.onlyFlag none) ∧ ∀ t ∈ is.act,
        s.Access u is t .store .write (ea t) n 0 f.x fun o => o.data = (bytesOfWords (is.src t f.d k)).take n ∧ o.flag = none)
    ∧ (s.Runs (.stx f) is → (∀ t ∈ is.act, s.Reaches is .write (ea t) 32 col) →
      ∃ u, exec (.stx f) s = .next u ∧ s.OnlyOps u is (Thread.onlyFlag none) ∧ ∀ t ∈ is.act,
        s.Access u is t .store .write (ea t) 32 col f.x fun o => o.data = (bytesOfWords (is.src t f.d 8)).take 32 ∧ o.flag = none)
    ∧ (s.Runs (.lds f) is → (∀ t ∈ is.act, s.Reaches is .read (ea t) n 0) →
      ∃ u, exec (.lds f) s = .next u ∧ s.OnlyOps u is (Thread.onlyFlag (some flag)) ∧ ∀ t0, is.act.head? = some t0 →
        s.Access u is t0 .load .read (ea t0) n 0 f.x fun o =>
          o.md = f.md.toNat ∧ o.dest = destsOf is.team t0 f.d k ∧ o.flag = some flag ∧ o.also = is.act.tail.map (·.slot))

/-- R165, R170: an atomic or a reduction of each executing thread goes to the line queue, and an atomic sets its flag. -/
def Obligations.AtomicsIssue : Prop :=
  ∀ (s : State) (is : Issue) (f : RWord), s.Calm is.cur.core →
    let ea := fun t => is.pair t f.a
    let op := f.md.toNat
    let acc := Acc.atomic (atomicCarried op)
    let flag := flagOf is.hdr f.fs
    let atom := fun (i : Instr) (k : Nat) => s.Runs i is → (∀ t ∈ is.act, s.Reaches is acc (ea t) (4 * k) 0) →
      ∃ u, exec i s = .next u ∧ s.OnlyOps u is (Thread.onlyFlag (some flag)) ∧ ∀ t ∈ is.act,
        s.Access u is t (.atomic op) acc (ea t) (4 * k) 0 f.x fun o => o.data = bytesOfWords (is.src t f.b k)
          ∧ o.data2 = bytesOfWords (is.src t f.c k) ∧ o.dest = destsOf is.team t f.d k ∧ o.flag = some flag
    let red := fun (i : Instr) (k : Nat) => s.Runs i is → (∀ t ∈ is.act, s.Reaches is acc (ea t) (4 * k) 0) →
      ∃ u, exec i s = .next u ∧ s.OnlyOps u is (Thread.onlyFlag none) ∧ ∀ t ∈ is.act,
        s.Access u is t (.reduction op) acc (ea t) (4 * k) 0 f.x fun o => o.data = bytesOfWords (is.src t f.b k) ∧ o.dest = [] ∧ o.flag = none
    atom (.atomB32 f) 1 ∧ atom (.atomB64 f) 2 ∧ red (.redB32 f) 1 ∧ red (.redB64 f) 2

/-- R159, R161: `rand` draws each executing thread's value from its own counter, which advances; R290: `ctl.rd` delivers a register. -/
def Obligations.RandomAndControlReads : Prop :=
  ∀ (s : State) (is : Issue) (f : RWord),
    let flag := flagOf is.hdr f.fs
    let y := fun (t : Thread) => squash (s.ctx is.team.ctx).seed (BitVec.ofNat 64 (s.launchOf is.team)) (BitVec.ofNat 64 t.gindex) t.rand
    (s.Runs (.rand f) is → ∃ u, exec (.rand f) s = .next u
      ∧ s.OnlyOps u is (fun t x => Thread.onlyFlag (some flag) t { x with rand := t.rand } ∧ x.rand = t.rand + 1)
      ∧ u.Flagged is flag (fun t => destsOf is.team t f.d (typeRegs f.md.toNat)) (fun t => randOut f.md.toNat (y t)) noPreds)
    ∧ (s.Runs (.ctlRd f) is → s.LongLatency (.ctlRd f) is f.fs f.d 2
        (fun t => wordsOf 2 (ctlValue s is t (f.md.toNat * 128 + f.x.toNat)).toNat) noPreds)

/-- R290, R291: `ctl.wr` by the firmware of a writable register sets the flag, and the write of the first thread's pair waits for its release.
Where the manual leaves a choice the statement takes that of log entry 30. -/
def Obligations.ControlWritesIssue : Prop :=
  ∀ (s : State) (is : Issue) (f : RWord),
    let n := f.md.toNat * 128 + f.x.toNat
    s.Runs (.ctlWr f) is → isFirmware is.cur.part = true → n ∈ [1, 2, 3, 5, 6] →
      ∃ u, exec (.ctlWr f) s = .next u ∧ s.OnlyOps u is (Thread.onlyFlag (some (flagOf is.hdr f.fs))) ∧ ∀ t ∈ is.act,
        u.InFlight is t fun o => o.vals = is.src t f.a 2 ∧ o.flag = some (flagOf is.hdr f.fs)
          ∧ if is.act.head?.map (·.slot) = some t.slot then o.kind = .ctlWr n ∧ o.stage = .queued else o.kind = .result ∧ o.stage = .done

/-- R179, R183, R186, R201: an apply of a valid function delivers its outputs, and pins the generations it uses; `ssmx` delivers the
softmax of the sub-group. -/
def Obligations.FunctionAppliesIssue : Prop :=
  ∀ (s : State) (is : Issue) (f : RWord),
    let md := f.md.toNat
    let k := f.x.toNat % 16
    let flag := flagOf is.hdr f.fs
    let a := fun t => is.flt t md f.a
    let x := fun t => if md = 8 then a t else f32.rne ((floatOf md).read (a t))
    let y := fun t => fnApply (fnPins s is k).2.1 (fnPins s is k).2.2 (x t)
    let out := fun v => BitVec.ofNat 32 (fnFinal md v)
    let app := fun (i : Instr) (n : Nat) (val : Thread → List Word) =>
      s.Runs i is → fnInvalid s is k = none → ∃ u, exec i s = .next u ∧ s.OnlyOps u is (Thread.onlyFlag (some flag)) ∧ ∀ t ∈ is.act,
        u.InFlight is t fun o => o.kind = .result ∧ o.stage = .done ∧ o.flag = some flag ∧ o.dest = destsOf is.team t f.d n
          ∧ o.vals = val t ∧ o.preds = [] ∧ o.pins = (fnPins s is k).1
    let ms := fun t => activeOf is is.act t
    let e := f.x.toNat % 16
    let soft := fun t => softmax (fun v => (fnApply (fnPins s is e).2.1 (fnPins s is e).2.2 v).1)
      (fun v => (fnApply (fnPins s is md).2.1 (fnPins s is md).2.2 v).1) ((ms t).map fun m => is.val m f.a 1)
    app (.fapp f) 1 (fun t => [out (y t).1]) ∧ app (.fappd f) 1 (fun t => [out (y t).2])
    ∧ app (.fapp2 f) 2 (fun t => [out (y t).1, out (y t).2])
    ∧ (s.Runs (.ssmx f) is → fnInvalid s is e = none → fnInvalid s is md = none →
      ∃ u, exec (.ssmx f) s = .next u ∧ s.OnlyOps u is (Thread.onlyFlag (some flag)) ∧ ∀ t ∈ is.act,
        u.InFlight is t fun o => o.kind = .result ∧ o.stage = .done ∧ o.flag = some flag ∧ o.dest = destsOf is.team t f.d 1
          ∧ o.vals = [BitVec.ofNat 32 ((soft t).2.getD ((ms t).findIdx fun m => m.slot == t.slot) 0)]
          ∧ o.preds = [((f.x.extractLsb' 4 3).toNat, (soft t).1)] ∧ o.pins = (fnPins s is e).1 ++ (fnPins s is md).1)

/-- R188, R189, R242: `fnsync` waits in flight for its register; `fnq` reads the status word; `cp.fill` delivers the fill pointer as it
stands at issue. -/
def Obligations.StatusReadsIssue : Prop :=
  ∀ (s : State) (is : Issue) (f : RWord),
    let flag := flagOf is.hdr f.fs
    let k := f.x.toNat % 16
    (s.Runs (.fnsync f) is → ∃ u, exec (.fnsync f) s = .next u ∧ s.OnlyOps u is (Thread.onlyFlag (some flag)) ∧ ∀ t ∈ is.act,
      u.InFlight is t fun o => o.kind = .fnsync k ∧ o.stage = .queued ∧ o.flag = some flag)
    ∧ (s.Runs (.fnq f) is → s.Fixed (.fnq f) is f.d 1 (fun _ => [BitVec.ofNat 32 (fnStatus (s.core is.cur.core) k)]) noPreds)
    ∧ (s.Runs (.cpFill f) is → ∃ u, exec (.cpFill f) s = .next u ∧ s.OnlyOps u is (Thread.onlyFlag (some flag)) ∧ ∀ t ∈ is.act,
      u.InFlight is t fun o => o.kind = .result ∧ o.stage = .done ∧ o.flag = some flag ∧ o.dest = destsOf is.team t f.d 2
        ∧ o.vals = wordsOf 2 (s.chan (if bitAt f.x 0 then .bulk (dieOf is.cur.core) is.team.ctx f.md.toNat
            else .core is.cur.core is.team.ctx f.md.toNat)).fill.toNat
        ∧ o.order = xOrder f.x ∧ o.scope = xScope f.x)

/-- R203, R207, R209, R223: a matrix word that passes its checks stands in the array queue in the place that R209's order
gives it, with its operands, and sets the flag; `amrd` and
`amclr` read and clear an accumulator maximum.
Where the manual leaves a choice the statement takes that of log entry 27. -/
def Obligations.MatrixWordsQueue : Prop :=
  ∀ (s : State) (is : Issue) (f : RWord),
    let n := (s.arrayOf is.cur.core).idx
    let queue := fun (i : Instr) (k : MatKind) => s.Runs i is → ∀ e, is.leader = some e → (Mat.mk k f).check s is e = none →
      ∃ u op, exec i s = .next u
        ∧ s.OnlyUnit u is n { s.core n with array := arrayInsert op (s.core n).array } is.team (Thread.onlyFlag (some (flagOf is.hdr f.fs)))
        ∧ op.core = is.cur.core ∧ op.team = is.team.slot ∧ op.ctx = is.team.ctx ∧ op.word = is.cur.exec ∧ op.part = is.cur.part
        ∧ op.issued = s.clock ∧ op.trap = trapHere is.cur ∧ op.at_ = sameTarget is.cur
        ∧ op.slot = e.slot ∧ op.slots = is.act.map (·.slot) ∧ op.flag = flagOf is.hdr f.fs ∧ op.started = none ∧ op.made = false
        ∧ op.d = ((Mat.mk k f).args is e).d ∧ op.a = ((Mat.mk k f).args is e).a ∧ op.b = ((Mat.mk k f).args is e).b
        ∧ op.c = ((Mat.mk k f).args is e).c
    queue (.mmac f) .mmac ∧ queue (.mdual f) .mdual ∧ queue (.mzero f) .mzero ∧ queue (.mld f) .mld ∧ queue (.mst f) .mst
    ∧ queue (.qcvt f) .qcvt ∧ queue (.dqcvt f) .dqcvt
    ∧ (s.Runs (.amrd f) is → s.Fixed (.amrd f) is f.d 1 (fun _ => [is.team.am.getD (f.x.extractLsb' 0 3).toNat 0]) noPreds)
    ∧ (s.Runs (.amclr f) is → ∃ u, exec (.amclr f) s = .next u ∧ s.OnlyUnit u is is.cur.core (s.core is.cur.core)
        { is.team with amClear := is.team.amClear ++ [(f.x.extractLsb' 0 3).toNat] } Thread.same)

/-- R203, R204: `mres` reserves a free array, or a free pair, and every executing thread receives the status; `mrel` gives it up at
once when no matrix word of the team is queued, and otherwise when they have retired. -/
def Obligations.ArrayReservation : Prop :=
  ∀ (s : State) (is : Issue) (f : RWord),
    let c := is.cur.core
    let tm := is.team
    let pair := bitAt f.md 3
    let ok := if pair then s.pairFree c tm else s.arrayFree c tm.slot
    let had := s.holds c tm.slot
    let pd := (f.md.extractLsb' 0 3).toNat
    let queued := (s.arrayOf c).array.any fun o => o.core == c && o.team == tm.slot
    (s.Runs (.mres f) is → ∃ u, exec (.mres f) s = .next u ∧ u.PredsWritten is (fun _ => [(pd, ok)]) ∧ u.mem = s.mem ∧ u.teams = s.teams
        ∧ (ok = true → had = none → (u.core c).resv = some (tm.slot, pair) ∧ (u.core c).acc = [] ∧ (pair = true → (u.core (c + 1)).follower = true))
        ∧ (ok = false → u.cores = s.cores)
        ∧ ∀ t ∈ is.act, ∃ x, u.thread? c is.cur.part t.slot = some x ∧ { x with preds := t.preds }.data = t.data)
    ∧ (s.Runs (.mrel f) is →
      (had = none → ∃ u, exec (.mrel f) s = .next u ∧ s.OnlyUnit u is c (s.core c) tm Thread.same)
      ∧ (had ≠ none → queued = true → ∃ u, exec (.mrel f) s = .next u
          ∧ s.OnlyUnit u is c { s.core c with releasing := some (tm.slot, s.nextId) } tm Thread.same)
      ∧ (had = some false → queued = false → ∃ u, exec (.mrel f) s = .next u
          ∧ s.OnlyUnit u is c { s.core c with resv := none, releasing := none } { tm with reuse := none } Thread.same)
      ∧ (had = some true → queued = false → ∃ u, exec (.mrel f) s = .next u ∧ (u.core c).resv = none ∧ (u.core (c + 1)).follower = false
          ∧ u.mem = s.mem))

/-- R46: a word with an operand that R46 calls bad takes the bad-operand trap in every guard-holding thread. -/
def Obligations.BadOperandsTrap : Prop :=
  ∀ (s : State) (i : Instr) (is : Issue) (v : DWord), s.Comes i is → badOperand is.team.frame i = some v →
    s.NoFaultSlot is 4 → s.Traps i is 4 fun _ => v

/-- R135, R233: a thread that reads a pending handle parks at the word until the value or the grid is complete. -/
def Obligations.PendingOperandsPark : Prop :=
  ∀ (s : State) (i : Instr) (is : Issue) (p : Thread → Park), s.Comes i is → badOperand is.team.frame i = none →
    (∀ t ∈ is.act, pendingRead s is i t = some (.at_ (p t) false)) → s.Waits i is p fun _ => sameTarget is.cur

/-- R116, R122, R126, R127, R128, R129: the words that trap, and the trap registers then. -/
def Obligations.TrapWords : Prop :=
  ∀ (s : State) (is : Issue),
    (∀ f : IWord, s.Runs (.trap f) is → s.NoFaultSlot is 7 →
      s.Traps (.trap f) is 7 fun _ => f.imm.setWidth 64)
    ∧ (∀ f : IWord, s.Runs (.brk f) is → s.NoFaultSlot is 8 →
      s.Traps (.brk f) is 8 fun _ => f.imm.setWidth 64)
    ∧ (∀ f : RWord, s.Runs (.ret f) is → (∀ t ∈ is.act, t.rs = []) → s.NoFaultSlot is 5 →
      s.Traps (.ret f) is 5 fun _ => BitVec.allOnes 64)
    ∧ (∀ w : DWord, s.issue (g0Of w) (g1Of w) = some is → is.act ≠ [] → s.NoFaultSlot is 1 →
      s.Traps (.nonInstruction w) is 1 fun _ => 0)
    ∧ ∀ (t : Thread) (cause : Nat) (tval : DWord), cause < 2 ^ 32 →
        let x := t.takeTrap cause tval (trapHere is.cur)
        x.tcause.toNat % 2 ^ 32 = cause ∧ x.tval = tval ∧ x.tpc = is.cur.pc ∧ x.tinst = is.cur.word
          ∧ x.tcause.extractLsb' 32 13 = is.hdr.rank ∧ bitAt x.tcause 45 = is.hdr.conv

/-- R86, R165, R171, R179, R203: the words that trap on their operands: an access that is not aligned, a full/empty word that is not
aligned or not whole inside the scratch of its team, an apply of an invalid function register, and a matrix word that fails its checks.
Where the manual leaves a choice the statement takes that of log entry 57. -/
def Obligations.OperandTraps : Prop :=
  ∀ (s : State) (is : Issue),
    let traps := fun (i : Instr) (cause : Nat) (bad : Thread → Prop) (tval : Thread → DWord) =>
      s.Runs i is → (∀ t ∈ is.act, bad t) → s.NoFaultSlot is cause → s.Traps i is cause tval
    (∀ f : IWord,
      let ea := fun t => is.pair t f.a + f.imm.signExtend 64
      let n := codeBytes f.md.toNat
      let col := lineCol f
      let off := fun t => (ea t).toNat % n ≠ 0
      let line := fun t => if col = 0 then (ea t).toNat % 32 ≠ 0 else (ea t).toNat % col ≠ 0 ∨ (ea t).toNat / 32 % 32 % (32 / col) ≠ 0
      traps (.ld f) 4 off ea ∧ traps (.st f) 4 off ea ∧ traps (.lds f) 4 off ea ∧ traps (.ldx f) 4 line ea ∧ traps (.stx f) 4 line ea)
    ∧ (∀ f : RWord,
      let ea := fun t => is.pair t f.a
      let off := fun (n : Nat) t => (ea t).toNat % n ≠ 0
      let invalid := fun (_ : Thread) => (fnInvalid s is (f.x.toNat % 16)).isSome = true
      let which := fun (_ : Thread) => (fnInvalid s is (f.x.toNat % 16)).getD 0
      traps (.atomB32 f) 4 (off 4) ea ∧ traps (.atomB64 f) 4 (off 8) ea ∧ traps (.redB32 f) 4 (off 4) ea ∧ traps (.redB64 f) 4 (off 8) ea
        ∧ traps (.fapp f) 6 invalid which ∧ traps (.fappd f) 6 invalid which ∧ traps (.fapp2 f) 6 invalid which
        ∧ ∀ e v, is.leader = some e →
          let fails := fun (k : MatKind) (_ : Thread) => (Mat.mk k f).check s is e = some v
          traps (.mmac f) 4 (fails .mmac) (fun _ => v) ∧ traps (.mdual f) 4 (fails .mdual) (fun _ => v) ∧ traps (.mzero f) 4 (fails .mzero) (fun _ => v)
            ∧ traps (.mld f) 4 (fails .mld) (fun _ => v) ∧ traps (.mst f) 4 (fails .mst) (fun _ => v) ∧ traps (.qcvt f) 4 (fails .qcvt) (fun _ => v)
            ∧ traps (.dqcvt f) 4 (fails .dqcvt) (fun _ => v))
    ∧ ∀ f : IWord,
      let a := fun t => (is.val t f.a 1 + (f.imm.signExtend 32).toNat) % 2 ^ 32
      let off := fun t => a t % codeBytes f.md.toNat ≠ 0
      let out := fun t => a t % 4 ≠ 0 ∨ is.team.scratchBytes < a t + 4
      let va := fun t => BitVec.ofNat 64 (a t)
      traps (.ldl f) 4 off va ∧ traps (.stl f) 4 off va ∧ traps (.ldFe f) 4 out va ∧ traps (.stFe f) 4 out va ∧ traps (.feSet f) 4 out va

/-- R109, R121, R122, R292: what a word comes to that no decode slot takes.  The masked feature, then the privilege of group 0xF, which
a patch routine and the firmware have, then the bad clause trap; a word that is no instruction traps as TrapWords states.
Where the manual leaves a choice the statement takes that of log entry 30. -/
def Obligations.WordFates : Prop :=
  ∀ (s : State) (is : Issue) (w : DWord) (last rewrite patch firmware : Bool), s.issue (g0Of w) (g1Of w) = some is → is.act ≠ [] →
    let op := (opOf w).toNat
    let out := fate exec is.team patch firmware is.cur w last rewrite s
    let mask := masked (s.ctx is.team.ctx).featmask w
    let traps := fun (cause : Nat) (tval : DWord) => s.NoFaultSlot is cause → ∃ u, out = .next u
      ∧ s.OnlyThreads u is (fun t x => x.data = (t.takeTrap cause tval (trapHere is.cur)).data)
      ∧ ∀ t ∈ is.act, u.Files is t (normalAt (s.ctx is.team.ctx).trapvec 0) (s.clock + 4)
    (patch = false → firmware = false → mask = true → traps 2 (BitVec.ofNat 64 (opOf is.cur.word).toNat))
    ∧ (patch = false → firmware = false → mask = false → op / 64 = 0xF → traps 3 0)
    ∧ (patch = true ∨ firmware = true ∨ (mask = false ∧ op / 64 ≠ 0xF) →
      (decode w = none ∨ (patch = true ∧ 3 ≤ op ∧ op ≤ 5) ∨ (∃ i, decode w = some i ∧ scaleMismatch is.team i = true) → out = exec (.nonInstruction w) s)
      ∧ ∀ i, decode w = some i → (patch = true → op < 3 ∨ 5 < op) → scaleMismatch is.team i = false →
        (badPlace i (readHeader is.cur.hdr) last rewrite is.team.sg = true → traps 5 0)
        ∧ (badPlace i (readHeader is.cur.hdr) last rewrite is.team.sg = false → out = exec i s))

/-- R125, R127, R33: `nop` has no effect, and a branch records the next address of each executing thread. -/
def Obligations.BranchResults : Prop :=
  ∀ (s : State) (is : Issue),
    let to_ := fun (i : Instr) (a : Thread → DWord) => s.Runs i is →
      ∃ u, exec i s = .next u ∧ s.OnlyThreads u is fun t x => x.data = ({ t with next := some (a t) } : Thread).data
    (∀ f : RWord, s.Runs (.nop f) is → ∃ u, exec (.nop f) s = .next u ∧ s.OnlyThreads u is Thread.same)
    ∧ (∀ f : BWord, to_ (.bra f) fun _ => is.cur.pc + 8 * f.off.signExtend 64)
    ∧ ∀ f : RWord, to_ (.jmp f) fun t => is.pair t f.a

/-- R29, R125, R126: a call pushes the address that follows its clause and records its target, spilling the oldest of four entries; a
return takes the newest entry as the next address, refilling an empty stack from the spill area; a spill or refill holds the memory port
for W/32 clocks.
Where the manual leaves a choice the statement takes that of log entry 29. -/
def Obligations.CallResults : Prop :=
  ∀ (s : State) (is : Issue),
    let back := is.cur.hdrAt + BitVec.ofNat 64 (8 * hdrCount is.cur.hdr + 8)
    let call := fun (i : Instr) (a : Thread → DWord) => s.Runs i is →
      ((∀ t ∈ is.act, t.rs.length < 4) →
        ∃ u, exec i s = .next u ∧ s.OnlyUnit u is is.cur.core (s.core is.cur.core) is.team fun t x =>
          x.data = ({ t with rs := t.rs ++ [back], next := some (a t) } : Thread).data)
      ∧ ((∀ t ∈ is.act, t.rs.length = 4 ∧ t.refill = false ∧ 8 * (t.spilled + 1) ≤ pktSpillStride (s.packetOf is.team)
            ∧ ∃ pa loc ink, s.xlateCore is.cur.core is.team.ctx [] .write (s.spillSlot is.team t t.spilled) = .ok pa loc ink) →
        ∃ u, exec i s = .next u
          ∧ s.OnlyOps u is (fun t x => x.data = ({ t with rs := t.rs.drop 1 ++ [back], spilled := t.spilled + 1, next := some (a t) } : Thread).data)
          ∧ (u.part is.cur.core is.cur.part).memBusy = s.clock + is.team.packW / 32
          ∧ ∀ t ∈ is.act, u.InFlight is t fun o => o.kind = .spill ∧ o.stage = .queued ∧ o.size = 8 ∧ o.data = bytesOf 8 (t.rs.getD 0 0).toNat
            ∧ o.va = s.spillSlot is.team t t.spilled ∧ s.xlateCore is.cur.core is.team.ctx [] .write o.va = .ok o.pa o.loc o.ink)
    (∀ f : BWord, call (.call f) fun _ => is.cur.pc + 8 * f.off.signExtend 64)
    ∧ (∀ f : RWord, call (.calli f) fun t => is.pair t f.a)
    ∧ ∀ f : RWord, s.Runs (.ret f) is →
        ((∀ t ∈ is.act, t.rs ≠ [] ∧ (t.rs.length = 1 → t.spilled = 0)) →
          ∃ u, exec (.ret f) s = .next u ∧ s.OnlyUnit u is is.cur.core (s.core is.cur.core) is.team fun t x =>
            x.data = ({ t with rs := t.rs.dropLast, next := some (t.rs.getLast?.getD 0) } : Thread).data)
        ∧ ((∀ t ∈ is.act, t.rs.length = 1 ∧ t.spilled ≠ 0
              ∧ ∃ pa loc ink, s.xlateCore is.cur.core is.team.ctx [] .read (s.spillSlot is.team t (t.spilled - 1)) = .ok pa loc ink
              ∧ (loc = 0 → s.readsPoison pa 8 = false)) →
          ∃ u, exec (.ret f) s = .next u
            ∧ s.OnlyOps u is (fun t x => x.data =
                { t.data with rs := [0], spilled := t.spilled - 1, refill := true, undo := some (undoOf is t), next := some (t.rs.getD 0 0) })
            ∧ (u.part is.cur.core is.cur.part).memBusy = s.clock + is.team.packW / 32
            ∧ ∀ t ∈ is.act, u.InFlight is t fun o => o.kind = .refill ∧ o.stage = .queued ∧ o.size = 8
              ∧ o.va = s.spillSlot is.team t (t.spilled - 1) ∧ s.xlateCore is.cur.core is.team.ctx [] .read o.va = .ok o.pa o.loc o.ink)

/-- R41, R127, R130: `exit` ends a thread, which drains while it has a flag set; `yield` files it at its next instruction and `tret`
at the point it resumes, 4 clocks after issue. -/
def Obligations.LeavingWords : Prop :=
  ∀ (s : State) (is : Issue) (f : RWord),
    (s.Runs (.exit f) is → ∃ u, exec (.exit f) s = .next u ∧ u.mem = s.mem ∧ ∀ t ∈ is.act,
      (t.flags = 0 → u.thread? is.cur.core is.cur.part t.slot = none)
        ∧ ((s.part is.cur.core is.cur.part).groups = [] → t.flags ≠ 0 →
          ∃ x, u.thread? is.cur.core is.cur.part t.slot = some x ∧ x.life = .draining ∧ x.arrived = 0))
    ∧ (s.Runs (.yield f) is → ∃ u, exec (.yield f) s = .next u ∧ s.OnlyThreads u is Thread.same
        ∧ ∀ t ∈ is.act, u.Files is t (nextTarget is.cur t) (s.clock + 4))
    ∧ (s.Runs (.tret f) is → ∃ u, exec (.tret f) s = .next u ∧ s.OnlyThreads u is Thread.same
        ∧ ∀ t ∈ is.act, u.Files is t (if f.md = 2 then normalAt (is.pair t f.a) 0 else t.retTarget (f.md == 1)) (s.clock + 4))

/-- R132: an arrival marks the thread, and counts at once when the thread has no access in flight.  A thread that waits stands at the barrier
until the clock's end.  A barrier that is ready then completes for all: its ARRIVED bits clear, each thread parked at it is released, to be
filed in this clock at the point at which it parked, and each that stands at it goes on; and the lower barriers of the team are looked at
again.  After the last barrier of the team the threads that still stand at one park there.
Where the manual leaves a choice the statement takes that of log entries 53, 54 and 62. -/
def Obligations.BarrierWords : Prop :=
  ∀ (s : State) (is : Issue) (f : IWord),
    let c := is.cur.core
    let b := f.imm.toNat % 16
    let m : BitVec 16 := 1#16 <<< b
    let free := ∀ t ∈ is.act, ∀ n, s.accessesOf c is.cur.part t.slot n = false
    let come := fun (t : Thread) => if bitAt t.arrived b then t else { t with arrived := t.arrived ||| m, counted := t.counted ||| m }
    (s.Runs (.barArr f) is →
      (free → ∃ u, exec (.barArr f) s = .next u ∧ s.OnlyUnit u is c (s.core c) is.team fun t x => x.data = (come t).data)
      ∧ ((∀ t ∈ is.act, bitAt t.arrived b = false ∧ s.accessesOf c is.cur.part t.slot s.nextId = true) →
        ∃ u, exec (.barArr f) s = .next u ∧ s.OnlyOps u is (fun t x => x.data = ({ t with arrived := t.arrived ||| m } : Thread).data)
          ∧ ∀ t ∈ is.act, u.InFlight is t fun o => o.kind = .arrive b ∧ o.stage = .queued))
    ∧ (s.Runs (.bar f) is → free →
      ∃ u, exec (.bar f) s = .next u ∧ s.OnlyUnit u is c (s.core c) is.team (fun t x => x.data = (come t).data)
          ∧ ∀ t ∈ is.act, u.AtBarrier is t b)
    ∧ (s.Runs (.barWait f) is →
      ((∀ t ∈ is.act, bitAt t.arrived b = false) →
        ∃ u, exec (.barWait f) s = .next u ∧ s.OnlyUnit u is c (s.core c) is.team Thread.same)
      ∧ ((∀ t ∈ is.act, bitAt t.arrived b = true) →
        ∃ u, exec (.barWait f) s = .next u ∧ s.OnlyUnit u is c (s.core c) is.team Thread.same ∧ ∀ t ∈ is.act, u.AtBarrier is t b))
    ∧ (∀ tm, s.barrierReady c tm b = true → ∃ u, exec (.barrierComplete c tm b) s = .next u
        ∧ { u with threads := s.threads, parts := s.parts, agenda := s.agenda } = s
        ∧ u.agenda = ((List.range b).map fun n => .event (.barrierComplete c tm n)) ++ s.agenda
        ∧ (∀ p sl x, u.thread? c p sl = some x → x.team = tm → bitAt x.arrived b = false)
        ∧ (∀ c' p sl, (∀ t ∈ s.threadsOf c tm, (c', p, sl) ≠ (c, t.part, t.slot)) → u.dataOf c' p sl = s.dataOf c' p sl)
        ∧ ∀ p sl x, s.thread? c p sl = some x → x.team = tm → x.live = true → ∃ y, u.thread? c p sl = some y ∧ y.atBar = none
          ∧ y.data = ({ x with arrived := x.arrived &&& ~~~m, counted := x.counted &&& ~~~m } : Thread).data
          ∧ (x.life = .parked (.barrier b) → y.life = .inFlight ∧ y.at_ = x.at_
              ∧ ∃ fl ∈ (u.part c p).filings, fl.slot = sl ∧ fl.to_ = x.at_ ∧ fl.due = s.clock)
          ∧ (x.life ≠ .parked (.barrier b) → y.life = x.life ∧ y.at_ = x.at_))
    ∧ (∀ tm, s.barrierReady c tm b = false →
        (s.barriersOf c tm = true → exec (.barrierComplete c tm b) s = .next s)
        ∧ (s.barriersOf c tm = false → ∃ u, exec (.barrierComplete c tm b) s = .next u ∧ { u with threads := s.threads, parts := s.parts } = s
          ∧ (∀ c' p sl, u.dataOf c' p sl = s.dataOf c' p sl)
          ∧ ∀ p sl x a, s.thread? c p sl = some x → x.team = tm → x.atBar = some a → a.b < 16 → a.own = true → ∃ y, u.thread? c p sl = some y
            ∧ y.life = .parked (.barrier a.b) ∧ y.at_ = a.to_ ∧ y.atBar = none))

/-- R231, R243, R244: `tl.wait` parks below its value and is otherwise an acquire at its scope; `tl.test` and `tl.rd` deliver to
scalars at once; `tl.sig` takes the next value, complete when its release is; `tl.cancel` of a command that has started delivers 0.
Where the manual leaves a choice the statement takes that of log entry 53. -/
def Obligations.TimelineWords : Prop :=
  ∀ (s : State) (is : Issue),
    (∀ f : RWord, s.Runs (.tlWait f) is →
      let k := f.md.toNat % 8
      let n := fun t => if isNone f.a then (f.b ++ f.c).toNat else is.val t f.a 2
      let c := is.cur.core
      ((∀ t ∈ is.act, n t ≤ (is.team.tl k).completed) → ∃ u, exec (.tlWait f) s = .next u
        ∧ s.OnlyUnit u is c (if 4 ≤ xScope f.x then (s.core c).flash else s.core c) is.team Thread.same)
      ∧ ((∀ t ∈ is.act, (is.team.tl k).completed < n t) →
        s.Waits (.tlWait f) is (fun t => .timeline k (n t) (xScope f.x)) fun t => nextTarget is.cur t))
    ∧ ∀ f : UWord,
      let h := readHandle (is.team.snum f.a 2)
      let k := f.md.toNat % 8
      (s.Runs (.tlTest f) is → s.Uniform (.tlTest f) is f.d.toNat 1
        [match h with | some (k, v) => if v ≤ (is.team.tl k).completed then 1 else 0 | none => 1])
      ∧ (s.Runs (.tlRd f) is → s.Uniform (.tlRd f) is f.d.toNat 2
        (wordsOf 2 (if bitAt f.md 3 then (is.team.tl k).failv else (is.team.tl k).completed)))
      ∧ (s.Runs (.tlSig f) is → (is.team.tl k).assigned + 1 < tlEnd → s.Idle is.cur.core → ∃ u, exec (.tlSig f) s = .next u
          ∧ s.OnlyUnit u is is.cur.core (s.core is.cur.core) { is.team with tls := is.team.tls.set k (is.team.tl k).assign.2 } Thread.same)
      ∧ (s.Runs (.tlSig f) is → tlEnd ≤ (is.team.tl k).assigned + 1 → s.NoFaultSlot is 4 → s.Traps (.tlSig f) is 4 fun _ => 0x4E07)
      ∧ (s.Runs (.tlCancel f) is → (∀ a v, h = some (a, v) → s.unstartedAt is.cur.core is.team.slot a v = none) →
          ∃ u, exec (.tlCancel f) s = .next u ∧ s.OnlyOps u is (Thread.onlyFlag (some (flagOf is.hdr f.fs))) ∧ ∀ t ∈ is.act,
            u.InFlight is t fun o => o.kind = .result ∧ o.stage = .done ∧ o.dest = [.s is.team.slot f.d.toNat] ∧ o.vals = [0])
      ∧ (s.Runs (.tlCancel f) is → ∀ a v ch, h = some (a, v) → s.unstartedAt is.cur.core is.team.slot a v = some ch →
          ∃ u, exec (.tlCancel f) s = .next u ∧ u.mem = s.mem
            ∧ (u.chan ch.key).queue = ch.queue.filter (fun x => !(x.core == is.cur.core && x.team == is.team.slot && x.tl == a && x.val == v))
            ∧ ∀ t ∈ is.act, u.InFlight is t fun o => o.kind = .result ∧ o.stage = .done ∧ o.dest = [.s is.team.slot f.d.toNat] ∧ o.vals = [1])

/-- R73, R231, R233, R235, R238, R239: a command word takes the next value of its timeline, writes and tags its handle, and joins the queue of
its channel; every other thread and memory are unchanged.  It traps on a format slot whose format it does not accept, and where its timeline
would reach 2^56.
Where the manual leaves a choice the statement takes that of log entries 53 and 57. -/
def Obligations.EngineCommandsQueue : Prop :=
  ∀ (s : State) (is : Issue) (f : EWord),
    let c := is.cur.core
    let k := f.tl.toNat
    let v := (is.team.tl k).assigned + 1
    let queue := fun (i : Instr) (op : Nat) =>
      let key := chanOf c is.team.ctx op f
      let crd := is.team.sregs f.crd.toNat (crdTop i)
      let fmt := (is.team.fs.getD f.slot.toNat 0).toNat % 16
      let unfit := (op = 0x2C1 ∧ 2 < fmt) ∨ (op = 0x2C3 ∧ fmt = 0xA)
      (s.Runs i is → ¬ unfit → v < tlEnd → s.Idle c →
        ∃ u cmd x, exec i s = .next u ∧ u.mem = s.mem ∧ (∀ c p sl, u.dataOf c p sl = s.dataOf c p sl)
          ∧ (u.chan key).queue = (s.chan key).queue ++ [cmd] ∧ (u.core c).ops = []
          ∧ cmd.word = is.cur.exec ∧ cmd.team = is.team.slot ∧ cmd.ctx = is.team.ctx ∧ cmd.tl = k ∧ cmd.val = v ∧ cmd.phase = 0
          ∧ cmd.shp = BitVec.ofNat 64 (is.team.snum f.shp 2) ∧ cmd.crd = crd ∧ cmd.fmtSlot = is.team.fs.getD f.slot.toNat 0
          ∧ u.team? c is.team.slot = some x ∧ x.tls = is.team.tls.set k (is.team.tl k).assign.2
          ∧ x.sregs f.hnd.toNat 2 = wordsOf 2 (0b11100 * 2 ^ 59 + k * 2 ^ 56 + v) ∧ (f.hnd.toNat, k, v) ∈ x.tags
          ∧ x.engArr = is.team.engArr ++ ((barArrival op f crd).map fun b => (b, k, v)).toList)
      ∧ (s.Runs i is → ¬ unfit → tlEnd ≤ v → s.NoFaultSlot is 4 → s.Traps i is 4 fun _ => 0x4E07)
      ∧ (s.Runs i is → unfit → s.NoFaultSlot is 4 → s.Traps i is 4 fun _ => f.slot.setWidth 64)
    queue (.cp f) 0x2C0 ∧ queue (.cpRed f) 0x2C1 ∧ queue (.cpGat f) 0x2C2 ∧ queue (.coll f) 0x2C3 ∧ queue (.fur f) 0x2C4

/-- R185, R173: `fnld` sets the flag of every executing thread and starts one load for the pack; `prf` puts a prefetch in flight, or
has no effect; `cinv` invalidates the core's L1 or the lines it names.
Where the manual leaves a choice the statement takes that of log entry 25. -/
def Obligations.CacheAndLoadWords : Prop :=
  ∀ (s : State) (is : Issue),
    (∀ f : RWord, s.Runs (.fnld f) is → ∀ e, is.leader = some e →
      let va := is.pair e f.a
      (∀ a ∈ fnPages va, ∃ pa loc ink, is.xlate s .read a = .ok pa loc ink) →
      ∃ u l, exec (.fnld f) s = .next u
        ∧ s.OnlyUnit u is is.cur.core { s.core is.cur.core with loads := (s.core is.cur.core).loads ++ [l] } is.team
            (Thread.onlyFlag (some (flagOf is.hdr f.fs)))
        ∧ l.reg = f.x.toNat % 16 ∧ l.addr = va ∧ l.got = [] ∧ l.image = none ∧ l.ctx = is.team.ctx ∧ l.part = is.cur.part
        ∧ l.slots = is.act.map (·.slot) ∧ l.flag = flagOf is.hdr f.fs)
    ∧ ∀ f : IWord,
      let c := is.cur.core
      let ea := fun t => is.pair t f.a + f.imm.signExtend 64
      (s.Runs (.prf f) is → s.Calm c →
        ((∀ t ∈ is.act, ∃ pa ink, is.xlate s .read (ea t) = .ok pa 0 ink ∧ (ink && f.md == 1) = false) →
          ∃ u, exec (.prf f) s = .next u ∧ s.OnlyOps u is Thread.same ∧ ∀ t ∈ is.act, u.InFlight is t fun o =>
            o.kind = .prefetch ∧ o.stage = .queued ∧ o.va = ea t ∧ o.noInstall = (f.md == 1))
        ∧ ((∀ t ∈ is.act, (∃ cls code, is.xlate s .read (ea t) = .bad cls code)
              ∨ ∃ pa loc ink, is.xlate s .read (ea t) = .ok pa loc ink ∧ (loc ≠ 0 ∨ (ink = true ∧ f.md = 1))) →
          ∃ u, exec (.prf f) s = .next u ∧ s.OnlyUnit u is c (s.core c) is.team Thread.same))
      ∧ (s.Runs (.cinv f) is →
        (f.md = 0 → ∃ u, exec (.cinv f) s = .next u ∧ s.OnlyUnit u is c (s.core c).flash is.team Thread.same)
        ∧ (f.md ≠ 0 → (∀ t ∈ is.act, is.xlate s .read (ea t) ≠ .miss) →
          ∃ u, exec (.cinv f) s = .next u ∧ s.OnlyUnit u is c (is.act.foldl (fun k t => match is.xlate s .read (ea t) with
            | .ok pa loc _ =>
              let k := match k.tlbFind is.team.ctx (va56 (ea t)) with
                | some e => k.tlbTouch e
                | none => k
              if loc = 0 then k.dropLines [pa / 32] false else k
            | _ => k) (s.core c)) is.team Thread.same))

/-- R103, R172: a relaxed fence has no effect; a fence with nothing to wait for is complete at issue, and invalidates L1 when it acquires
at a scope above the core; a release fence waits for the accesses of its thread. -/
def Obligations.FenceResults : Prop :=
  ∀ (s : State) (is : Issue) (f : IWord), s.Runs (.fence f) is →
    let c := is.cur.core
    (xOrder f.x = 0 → ∃ u, exec (.fence f) s = .next u ∧ s.OnlyUnit u is c (s.core c) is.team Thread.same)
    ∧ (xOrder f.x ≠ 0 → s.Idle c → ∃ u, exec (.fence f) s = .next u
        ∧ s.OnlyUnit u is c (if xOrder f.x % 2 = 1 ∧ 4 ≤ xScope f.x then (s.core c).flash else s.core c) is.team Thread.same)
    ∧ (2 ≤ xOrder f.x → xScope f.x ≠ 0 → s.Calm c → (∀ t ∈ is.act, s.accessesOf c is.cur.part t.slot s.nextId = true) →
        ∃ u, exec (.fence f) s = .next u ∧ s.OnlyOps u is Thread.same ∧ ∀ t ∈ is.act, u.InFlight is t fun o =>
          o.kind = .fence (f.md == 1) ∧ o.stage = .queued)

/-- R53, R55, R56, R165, R167: with nothing of the core in flight, a local load sets its flag and reads its window at issue, or waits for
its banks, which one thread finds unclaimed; and a local store of one thread whose banks are unclaimed writes its bytes to scratch, or its
words to the registers that a frame window names, and changes nothing else of the module: no other thread, no flag or predicate, no core, no
team and no memory.
Where the manual leaves a choice the statement takes that of log entry 12. -/
def Obligations.LocalAccesses : Prop :=
  ∀ (s : State) (is : Issue) (f : IWord),
    let c := is.cur.core
    let n := codeBytes f.md.toNat
    let k := sizeRegs f.md.toNat
    let flag := flagOf is.hdr f.fs
    let a := fun t => (is.val t f.a 1 + (f.imm.signExtend 32).toNat) % 2 ^ 32
    let data := fun t => (bytesOfWords (is.src t f.d k)).take n
    let banks := fun (w : Win) => s.banksFree c (s.nextId + 1) s.nextId (w.banks n)
    (s.Runs (.ldl f) is → s.Idle c → (∀ t ∈ is.act, a t % n = 0 ∧ (s.window is.team is.cur.part t.slot (a t) n false).isSome) →
      ∃ u, exec (.ldl f) s = .next u ∧ s.OnlyOps { u with parts := s.parts } is (Thread.onlyFlag (some flag)) ∧ s.OnlyBanks u is
        ∧ ∀ t ∈ is.act, ∀ w, s.window is.team is.cur.part t.slot (a t) n false = some w → u.InFlight is t fun o =>
          o.kind = .localLoad ∧ o.dest = destsOf is.team t f.d k ∧ o.flag = some flag ∧ (is.act = [t] → banks w = true → o.stage = .done)
            ∧ (o.stage = .queued ∨ o.stage = .done ∧ o.vals = codeWords f.md.toNat (s.localRead c is.team.slot w n)))
    ∧ (s.Runs (.stl f) is → s.Idle c → ∀ t, is.act = [t] → a t % n = 0 →
      (∀ b, s.window is.team is.cur.part t.slot (a t) n true = some (.scratch b) → banks (.scratch b) = true →
        ∃ u x, exec (.stl f) s = .next u
          ∧ s.OnlyUnit { u with parts := s.parts } is c (s.core c) x Thread.same ∧ s.OnlyBanks u is ∧ { x with scratch := is.team.scratch } = is.team
          ∧ (∀ j, j < n → x.scratchByte (b + j) = (data t).getD j 0)
          ∧ ∀ j, (j < b ∨ b + n ≤ j) → x.scratchByte j = is.team.scratchByte j)
      ∧ (∀ p sl r y, isFirmware is.cur.part = false → s.window is.team is.cur.part t.slot (a t) n true = some (.frame p sl r) →
          banks (.frame p sl r) = true → s.thread? c p sl = some y →
          ∃ u x, exec (.stl f) s = .next u
            ∧ { u with threads := s.threads, cores := s.cores, parts := s.parts, nextId := s.nextId } = s ∧ (∀ d, u.core d = s.core d)
            ∧ s.OnlyBanks u is ∧ (∀ c' p' sl', (c', p', sl') ≠ (c, p, sl) → u.dataOf c' p' sl' = s.dataOf c' p' sl')
            ∧ u.thread? c p sl = some x ∧ { x with regs := y.regs, gridpend := y.gridpend }.data = y.data
            ∧ x.vregs r (n / 4) = wordsOfBytes (n / 4) (data t)
            ∧ (∀ q, (q < r ∨ r + n / 4 ≤ q) → x.regs.getD q 0 = y.regs.getD q 0)
            ∧ ∀ k, (∀ q, r ≤ q → q < r + n / 4 → q / 2 ≠ k) → bitAt x.gridpend k = bitAt y.gridpend k))

/-- R53, R90, R91, R171: `ld.fe` of a full word takes its value and leaves it empty, `st.fe` of an empty word fills it, and otherwise the
thread waits in the waiter table of the core; `fe.set` forces the bit.  Each is done in a clock in which the bank of its word is left
unclaimed, and is in flight until then, with the word reserved for its thread.
Where the manual leaves a choice the statement takes that of log entries 12 and 54. -/
def Obligations.FullEmptyWords : Prop :=
  ∀ (s : State) (is : Issue) (f : IWord) (t : Thread), is.act = [t] → s.Idle is.cur.core →
    let c := is.cur.core
    let a := (is.val t f.a 1 + (f.imm.signExtend 32).toNat) % 2 ^ 32
    let w := is.team.feWord a
    let here := a % 4 = 0 ∧ a + 4 ≤ is.team.scratchBytes
    let free := w.reserved = none ∨ w.reserved = some (is.cur.part, t.slot)
    let bank := s.banksFree c (s.nextId + 1) s.nextId (scratchBanks a 4)
    let later := fun (i : Instr) (kind : OpKind) => bank = false → ∃ u x, exec i s = .next u ∧ u.mem = s.mem ∧ u.team? c is.team.slot = some x
      ∧ (x.feWord a).full = w.full ∧ (kind ≠ .feSet (bitAt f.md 0) → (x.feWord a).reserved = some (is.cur.part, t.slot))
      ∧ u.InFlight is t fun o => o.kind = kind ∧ o.stage = .queued
    let waits := fun (i : Instr) (ld : Bool) => (w.full ≠ ld ∨ w.reserved ≠ none) → w.reserved ≠ some (is.cur.part, t.slot) →
      (s.waiterCount c < 512 → ∃ u x, exec i s = .next u ∧ u.mem = s.mem ∧ u.Parked is t (.fullEmpty a ld) (sameTarget is.cur)
          ∧ u.team? c is.team.slot = some x ∧ (x.feWord a).waiters = feInsert ⟨is.cur.part, t.slot, ld, s.clock, t.tid⟩ w.waiters ∧ (x.feWord a).full = w.full)
      ∧ (512 ≤ s.waiterCount c → ∃ u, exec i s = .next u ∧ u.mem = s.mem ∧ u.Parked is t (.poll (s.clock + 64)) (sameTarget is.cur))
    (s.Runs (.ldFe f) is → here →
      (w.full = true → free → later (.ldFe f) (.fullEmpty true))
      ∧ (w.full = true → free → bank = true → ∃ u x, exec (.ldFe f) s = .next u ∧ u.mem = s.mem ∧ u.team? c is.team.slot = some x
        ∧ (x.feWord a).full = false ∧ u.InFlight is t fun o => o.kind = .fullEmpty true ∧ o.stage = .done
          ∧ o.flag = some (flagOf is.hdr f.fs) ∧ o.dest = destsOf is.team t f.d 1
          ∧ o.vals = wordsOfBytes 1 ((List.range 4).map fun j => is.team.scratchByte (a + j)))
      ∧ waits (.ldFe f) true)
    ∧ (s.Runs (.stFe f) is → here →
      (w.full = false → free → later (.stFe f) (.fullEmpty false))
      ∧ (w.full = false → free → bank = true → ∃ u x, exec (.stFe f) s = .next u ∧ u.mem = s.mem ∧ u.team? c is.team.slot = some x
        ∧ (x.feWord a).full = true ∧ ∀ j, j < 4 → x.scratchByte (a + j) = (bytesOfWords (is.src t f.d 1)).getD j 0)
      ∧ waits (.stFe f) false)
    ∧ (s.Runs (.feSet f) is → here → later (.feSet f) (.feSet (bitAt f.md 0))
      ∧ (bank = true → ∃ u x, exec (.feSet f) s = .next u ∧ u.mem = s.mem ∧ u.team? c is.team.slot = some x
        ∧ (x.feWord a).full = bitAt f.md 0))

/-- R134, R135: `launch` sets its flag and sends for its packet, or at depth 10 nothing; `lwait` parks on a grid that has not retired and
otherwise acquires.
Where the manual leaves a choice the statement takes that of log entry 31. -/
def Obligations.LaunchWords : Prop :=
  ∀ (s : State) (is : Issue) (f : RWord),
    let c := is.cur.core
    let flag := flagOf is.hdr f.fs
    let depth := ((s.grid? is.team.gid).map (·.depth)).getD 0
    let launch := fun (st : Stage) => ∃ u, exec (.launch f) s = .next u ∧ s.OnlyOps u is (Thread.onlyFlag (some flag))
      ∧ ∀ t ∈ is.act, u.InFlight is t fun o => o.kind = .launch (f.md.toNat % 8) ∧ o.stage = st ∧ o.va = is.pair t f.a
        ∧ o.dest = destsOf is.team t f.d 2 ∧ o.flag = some flag
    (s.Runs (.launch f) is → depth < 10 → (∀ t ∈ is.act, s.Reaches is .read (is.pair t f.a) 1 0 ∧ s.Reaches is .read (is.pair t f.a + 127) 1 0) →
      launch .queued)
    ∧ (s.Runs (.launch f) is → 10 ≤ depth → launch .done)
    ∧ (s.Runs (.lwait f) is →
      ((∀ t ∈ is.act, s.gridOfPair is t f.a = none) →
        ∃ u, exec (.lwait f) s = .next u ∧ s.OnlyUnit u is c (s.core c).flash is.team Thread.same)
      ∧ ∀ g : Thread → Nat, (∀ t ∈ is.act, s.gridOfPair is t f.a = some (g t)) → s.Waits (.lwait f) is (fun t => .grid (g t)) fun _ => sameTarget is.cur)

/-- R297, R298: `nret` loads the patch save record of each thread, as one load of its 32 bytes of registers and one of its predicates.  What
each brings is written as it lands, and with the second the thread leaves patch mode and is filed 4 clocks later after the emulated word, or
at the header it names, or at the address of its pair, or takes the illegal-instruction trap at the emulated word.
Where the manual leaves a choice the statement takes that of log entries 11 and 20. -/
def Obligations.PatchReturns : Prop :=
  (∀ (s : State) (is : Issue) (f : RWord), s.Runs (.nret f) is → ∀ (pa : Thread → Nat) (loc : Thread → Nat),
    let at_ := fun t => patchRecord (s.ctx is.team.ctx) is.cur.core is.cur.part t.slot
    let load := fun (t : Thread) (off n : Nat) (o : Op) => o.kind = .patchLoad ∧ o.stage = .queued ∧ o.va = at_ t + BitVec.ofNat 64 off
      ∧ o.pa = pa t + off ∧ o.loc = loc t ∧ o.size = n ∧ o.md = f.md.toNat ∧ o.vals = is.src t f.a 2
    (∀ t ∈ is.act, ∃ ink, is.xlate s .read (at_ t) = .ok (pa t) (loc t) ink) →
    ∃ u, exec (.nret f) s = .next u ∧ s.OnlyOps u is Thread.same ∧ ∀ t ∈ is.act, u.InFlight is t (load t 0 32) ∧ u.InFlight is t (load t 32 1))
  ∧ ∀ (s : State) (c id : Nat) (o : Op) (t : Thread) (p : Patch), (s.core c).op? id = some o → o.stage = .done → o.kind = .patchLoad → o.poisoned = false →
    o.dest = [] → o.flag = none → o.wakes = none → o.sampled = false → s.thread? c o.part o.slot = some t → t.patch = some p →
    let got := if o.size = 32 then t.loadRegs o.data2 else t.loadPreds o.data2
    let out := { got with patch := none, patched := false }
    let cur := o.nretCur c
    let emu : Cur := { cur with pc := p.ppc, word := p.pinst, hdr := p.phdr, hdrAt := p.hdrAt, nib := 0, pos := ((p.ppc - p.hdrAt).toNat - 8) / 8 }
    let header := p.ppc == p.hdrAt
    let trap := { trapHere emu with last := (trapHere emu).last && !header, header := header }
    let leaves (x : Thread) (to_ : Target) : Prop := ∃ u y, exec (.resultLand c id) s = .next u ∧ u.mem = s.mem ∧ (u.core c).ops = []
      ∧ u.thread? c o.part o.slot = some y ∧ y.data = x.data
      ∧ ∃ fl ∈ (u.part c o.part).filings, fl.slot = o.slot ∧ fl.to_ = to_ ∧ fl.due = s.clock + 4
    (∀ x, (s.core c).ops = [o, x] → x.id ≠ id → x.of o.part o.slot = true → x.kind = .patchLoad →
      ∃ u y z, exec (.resultLand c id) s = .next u ∧ u.mem = s.mem ∧ (u.core c).ops = [z] ∧ z.id = x.id ∧ u.thread? c o.part o.slot = some y
        ∧ y.data = got.data)
    ∧ ((s.core c).ops = [o] →
      (o.md = 0 → leaves out (if header then resumeHeader p.ppc 0 else nextTarget emu { t with next := none }))
      ∧ (o.md = 1 → leaves out (normalAt (BitVec.ofNat 64 (natOfWords o.vals)) 0))
      ∧ ∀ tm, o.md = 2 → s.team? c t.team = some tm →
          (s.faultSlot tm.ctx (faultWord 1 (if header then 0 else (opOf p.pinst).toNat)) p.phdr).1 ∉ [1, 3] →
          leaves (out.takeTrap 1 0 trap) (normalAt (s.ctx tm.ctx).trapvec 0))

/-- R18-R26, R39, R391: the selector and the filer of a partition.
Where the manual leaves a choice the statement takes that of log entries 11 and 18. -/
def Obligations.PodEvents : Prop :=
  ∀ (s : State) (c p : Nat),
    let q := s.part c p
    (∀ x, s.toEvict q = some x → ∃ u, exec (.podEvict c p) s = .next u ∧ { u with parts := s.parts } = s
        ∧ u.part c p = q.setPod { x with isOpen := false })
    ∧ (∀ x, s.toOpen q = some x → ∃ u, exec (.podOpen c p) s = .next u ∧ { u with parts := s.parts } = s
        ∧ u.part c p = q.setPod { x with isOpen := true, opened := 0 })
    ∧ (∀ x tm n, (s.core c).halting = false → pickBy Pod.before (q.openPods.filter fun y => y.opened != 0 && !(s.eligible q y).isEmpty) = some x →
        s.team? c x.team = some tm → s.freeStream q (s.widthOf q x) = some n →
        ∃ u k, exec (.packForm c p) s = .next u ∧ u.mem = s.mem ∧ ((u.part c p).stream n).pack = some k ∧ k.team = x.team
          ∧ k.conv = x.conv ∧ k.hdr = x.hdr ∧ k.clause = none ∧ k.slots = (packOrder (if x.conv then drawGroups tm.sgOf (tm.packW / 32) (packOrder (s.eligible q x))
            else drawColumns (tm.packW / 32) (s.eligible q x))).map (·.slot)
          ∧ ((u.part c p).pods.find? fun y => y.idx == x.idx).map (·.waiting) = some (x.waiting.filter fun w => !k.slots.contains w.1)
          ∧ ∀ sl ∈ k.slots, ∃ y, u.thread? c p sl = some y ∧ y.life = .inFlight ∧ y.next = none)
    ∧ (∀ n k tm h ws, (q.stream n).pack = some k → k.clause = none → (q.stream n).walking = false → s.team? c k.team = some tm →
        s.fetchCode c tm.ctx k.nib k.hdr 8 = .ok h → s.fetchCode c tm.ctx k.nib (k.hdr + 8) (8 * hdrCount (BitVec.ofNat 64 (natOf h))) = .ok ws →
        ∃ u l, exec (.clauseFetch c p n) s = .next u ∧ u.mem = s.mem ∧ ((u.part c p).stream n).pack = some { k with clause := some (BitVec.ofNat 64 (natOf h), l) }
          ∧ l.length = hdrCount (BitVec.ofNat 64 (natOf h)) ∧ ∀ j, j < l.length → l.getD j 0 = BitVec.ofNat 64 (fieldAt ws (8 * j) 8))
    ∧ (∀ n x tm h, (q.pods.find? fun y => y.idx == n) = some x → x.fetched = false → s.team? c x.team = some tm →
        (s.walks.any fun w => w.waiters.any fun y => y.1 == .header c p n) = false → s.fetchCode c tm.ctx x.nib x.key 8 = .ok h →
        let hd := readHeader (BitVec.ofNat 64 (natOf h))
        (hd.isEntry = true ∨ ∀ t ∈ s.waitingIn q x, t.chk = none) →
        ∃ u, exec (.podHeaderFetch c p n) s = .next u ∧ u.mem = s.mem ∧ u.threads = s.threads
          ∧ u.part c p = q.setPod { x with fetched := true, rank := hd.rank, conv := hd.conv })
    ∧ (∀ fl th, q.filings = [fl] → fl.due ≤ s.clock → fl.check = none → fl.vector = false → s.thread? c p fl.slot = some th →
        (s.team? c th.team).isSome → s.barriersLeft c = false →
        (∀ t ∈ s.threads, t.core = c → t.part = p → ∀ k n, t.life ≠ .parked (.handle k n)) →
        let q1 : Part := { ((s.closePods c p).freePods c p).part c p with filings := [] }
        ∃ u x, exec (.threadFiling c p) s = .next u ∧ { u with threads := s.threads, parts := s.parts } = s
          ∧ u.part c p = (q1.fileIn th.team fl.slot fl.to_).getD { q1 with queue := q1.queue ++ [(fl.slot, fl.to_)] }
          ∧ u.thread? c p fl.slot = some x ∧ x.life = .waiting ∧ x.at_ = fl.to_ ∧ x.data = th.data)
    ∧ (∀ sl t th, q.queue = [(sl, t)] → s.thread? c p sl = some th → ∀ q', Part.fileIn { q with queue := [] } th.team sl t = some q' →
        ∃ u, exec (.entryQueueServe c p) s = .next u ∧ { u with parts := s.parts } = s ∧ u.part c p = q')
    ∧ (∀ sl th d, s.thread? c p sl = some th → th.life = .parked (.poll d) → d ≤ s.clock →
        ∃ u, exec (.pollRetry c p sl) s = .next u ∧ u.mem = s.mem
          ∧ ∃ fl ∈ (u.part c p).filings, fl.slot = sl ∧ fl.to_ = th.at_ ∧ fl.due = s.clock)

/-- R34, R53, R81, R96, R185, R188, R294, R297: landings, acknowledgements, and the ends of waits in a core: a result writes its register
and clears its flag; `fnsync` and a switch clear theirs, when nothing else in flight has the flag; a patch save ends patch entry; and the
banks that what has waited 8 clocks uses are reserved for the next clock, and no others.
Where the manual leaves a choice the statement takes that of log entries 11, 12, 20 and 59. -/
def Obligations.CoreEvents : Prop :=
  ∀ (s : State) (c p : Nat),
    let cleared (u : State) (t : Thread) (n : Nat) : Prop := ∃ y, u.thread? t.core t.part t.slot = some y ∧ bitAt y.flags n = false
      ∧ (∀ k, k ≠ n → bitAt y.flags k = bitAt t.flags k) ∧ { y with flags := t.flags } = t
    (∀ id o n x, (s.core c).op? id = some o → (s.core c).ops = [o] → o.stage = .done → o.kind = .result → o.acquires = false →
        o.also = [] → o.poisoned = false → o.fault = none → o.sampled = false → o.wakes = none → o.flag = some n → n < 12 →
        (s.dropOp c id).flagHeld c o.part o.slot n = false → s.banksFree c id id (destBanks o.part o.dest) = true →
        o.dest = [.v o.slot x] → ∀ w t, o.vals = [w] → o.preds = [] → s.thread? c o.part o.slot = some t → t.life ≠ .draining →
        ∃ u y, exec (.resultLand c id) s = .next u ∧ u.mem = s.mem ∧ (u.core c).ops = [] ∧ u.thread? c o.part o.slot = some y
          ∧ y.regs.getD x 0 = w ∧ bitAt y.flags n = false)
    ∧ (∀ id o, (s.core c).op? id = some o → (s.core c).ops = [o] → o.stage = .done → o.lands = false → o.sampled = false → o.wakes = none →
        o.kind ≠ .patchSave →
        ∃ u, exec (.storeAck c id) s = .next u ∧ u.mem = s.mem ∧ u.threads = s.threads ∧ (u.core c).ops = []
          ∧ (o.kind = .store → o.loc = 0 → o.col = 0 → (u.core c).l1 = ((s.core c).l1Store o.pa o.data).l1))
    ∧ (∀ id o t x, (s.core c).op? id = some o → (s.core c).ops = [o] → o.stage = .done → o.kind = .patchSave → o.sampled = false → o.wakes = none →
        s.thread? c o.part o.slot = some t → t.patch = some x → x.enter = true → ∃ u y, exec (.storeAck c id) s = .next u ∧ u.mem = s.mem
          ∧ (u.core c).ops = [] ∧ u.thread? c o.part o.slot = some y ∧ y = { t with patch := some { x with enter := false }, patched := true }
          ∧ ∃ fl ∈ (u.part c o.part).filings, fl.slot = o.slot ∧ fl.to_ = normalAt x.emu x.nib ∧ fl.due = s.clock + 8)
    ∧ (∀ id o k n, ((s.core c).ops.find? fun o => o.id == id) = some o → o.kind = .fnsync k → o.flag = some n →
        ((s.core c).loads.any fun l => l.reg == k && decide (l.id < id)) = false → (s.core c).pinned k ((s.core c).fn k).old.gen = false →
        ∃ u, exec (.fnsyncClear c id) s = .next u ∧ { u with threads := s.threads, cores := s.cores } = s
          ∧ u.core c = { s.core c with ops := (s.core c).ops.filter fun x => x.id != id }
          ∧ ∀ t, s.thread? c o.part o.slot = some t →
            ((s.dropOp c id).flagHeld c o.part o.slot n = false → t.life ≠ .draining → cleared u t n)
            ∧ ((s.dropOp c id).flagHeld c o.part o.slot n = false → t.life = .draining → t.flags = 1#12 <<< n →
                u.thread? c o.part o.slot = none)
            ∧ ((s.dropOp c id).flagHeld c o.part o.slot n = true → u.threads = s.threads))
    ∧ (∀ k l image, ((s.core c).loads.find? fun l => l.reg == k) = some l → (s.core c).halting = false →
        (∀ x ∈ (s.core c).loads, x.reg = k → x.image.isSome = true) → (s.core c).ops = [] → l.image = some image →
        (l.since = none → (s.core c).pinned k ((s.core c).fn k).old.gen = false → ∃ u, exec (.fnldSwitch c k) s = .next u ∧ u.mem = s.mem
          ∧ u.threads = s.threads ∧ (u.core c).fns = (s.core c).fns
          ∧ (u.core c).loads = (s.core c).loads.map fun x => if x.id = l.id then { l with since := some s.clock } else x)
        ∧ ∀ t, l.since = some t → t + 1 + min (fnByte image 0) 32 ≤ s.clock → ∃ u, exec (.fnldSwitch c k) s = .next u ∧ u.mem = s.mem
          ∧ (u.core c).fns = (s.core c).fns.set k (((s.core c).fn k).switch k image)
          ∧ (u.core c).loads = (s.core c).loads.filter (fun x => x.id != l.id)
          ∧ ∀ sl ∈ l.slots, ∀ t, s.thread? c l.part sl = some t → t.life ≠ .draining → (s.dropLoad c l.id).flagHeld c l.part sl l.flag = false →
              cleared u t l.flag)
    ∧ (∀ n k h ws, ((s.part c p).stream n).pack = some k → k.clause = some (h, ws) → k.serial = true → k.serialDone = false →
        (∀ sl ∈ k.slots, ∀ t, s.thread? c p sl = some t → t.flags = 0 ∧ s.accessesOf c p t.slot (s.nextId + 1) = false) →
        ∃ u, exec (.serialiseDrainEnd c p n) s = .next u ∧ u.mem = s.mem ∧ u.threads = s.threads ∧ (u.core c).l1 = []
          ∧ ((u.part c p).stream n).pack = some { k with serialDone := true })
    ∧ (∀ sl th x tm pa loc ink v, s.thread? c p sl = some th → th.patch = some x → s.team? c th.team = some tm → x.enter = true → th.flags = 0 →
        ((s.core c).ops.any fun o => o.of p sl && o.kind == .patchSave) = false →
        s.xlateUnit (coreAgent (saveName c p sl) tm.ctx c) .write (patchRecord (s.ctx tm.ctx) c p sl) = (.ok pa loc ink, v) →
        ∃ u o1 o2, exec (.patchModeEntry c p sl) s = .next u ∧ u.mem = v.mem ∧ u.threads = v.threads ∧ (u.core c).ops = (v.core c).ops ++ [o1, o2]
          ∧ (∀ o ∈ [o1, o2], o.of p sl = true ∧ o.kind = .patchSave ∧ o.stage = .queued ∧ o.ctx = tm.ctx ∧ o.loc = loc)
          ∧ o1.va = patchRecord (s.ctx tm.ctx) c p sl ∧ o1.pa = pa ∧ o1.data = (bytesOfWords (th.vregs 0 8)).take 32
          ∧ o2.va = o1.va + 32 ∧ o2.pa = pa + 32 ∧ (th.patchSave.length = 33 → o2.data = [th.preds &&& 0x7F]))
    ∧ (∃ u, exec (.bankReservation c p) s = .next u ∧ { u with parts := s.parts } = s ∧ { u.part c p with reserved := (s.part c p).reserved } = s.part c p
        ∧ ∀ b, b ∈ (u.part c p).reserved ↔ b.2 = s.clock + 1 ∧ ∃ w ∈ s.portWaits c, 8 ≤ w.waited ∧ ∃ v ∈ w.uses, v.part = p ∧ v.bank = b.1)

/-- R81-R88, R94, R99, R168, R310: line requests, the link, the slices, the controllers and Inkwell, each for an operation alone on its
core, and for the request of another agent, which is granted its line.
Where the manual leaves a choice the statement takes that of log entries 4, 11, 15 and 56. -/
def Obligations.MemoryPathEvents : Prop :=
  ∀ (s : State) (c p n : Nat) (o : Op) (r : Req), (s.core c).ops = [o] →
    let sent : Req := ⟨0, c, o.word, o.lineKey, 0, false, none⟩
    let carries : Prop := r.core = c ∧ r.word = o.word ∧ r.line = o.lineKey ∧ r.by_ = none ∧ r.wb = false ∧ o.loc = 0 ∧ o.kind = .load ∧ o.col = 0
    let served (u : State) (stage : Stage) : Prop := u.mem = s.mem ∧ ∃ x, (u.core c).ops = [x] ∧ x.id = o.id ∧ x.stage = stage
    let done (u : State) : Prop := u.mem = s.mem ∧ ∃ x, (u.core c).ops = [x] ∧ x.id = o.id ∧ x.stage = .done
        ∧ x.vals = o.loaded (s.bytes o.pa o.size)
    (o.isGlobal = true → s.sendable c p = [] → exec (.lineRequestSend c p) s = .next s)
    ∧ (s.sendable c p = [o] → o.loc = 0 → (o.usesL1 = true → o.kind ≠ .prefetch → (s.core c).l1Find (o.pa / 32) = none) →
        (isInk o.pa = false → s.homeless o.pa = false) → ∃ u, exec (.lineRequestSend c p) s = .next u
          ∧ (s.dieAt o.pa = dieOf c → isInk o.pa = false →
              served u (.slice (s.home o.pa)) ∧ (u.slice (s.home o.pa)).queue = (s.slice (s.home o.pa)).queue ++ [sent])
          ∧ (s.dieAt o.pa = dieOf c → isInk o.pa = true → served u (.inkwell (inkGroupOf o.pa)))
          ∧ (s.dieAt o.pa ≠ dieOf c → served u (.link (dieOf c)) ∧ u.linkQ = s.linkQ ++ [⟨dieOf c, 0, .slice (s.home o.pa) sent, 0⟩]))
    ∧ (∀ l, s.sendable c p = [o] → o.kind = .load → o.loc = 0 → o.usesL1 = true → (s.core c).l1Find (o.pa / 32) = some l →
        ∃ u x, exec (.lineRequestSend c p) s = .next u ∧ u.mem = s.mem ∧ (u.core c).ops = [x] ∧ x.stage = .done
          ∧ x.vals = o.loaded ((l.data.drop (o.pa % 32)).take o.size))
    ∧ (∀ l, s.linkQ = [l] → l.dir = n → s.chooseClass (.link n) [l.cls] = some l.cls → l.sent + 1 < l.to_.beats →
        ∃ u, exec (.dieToDieLinkBeat n) s = .next u ∧ u.mem = s.mem ∧ u.linkQ = [{ l with sent := l.sent + 1 }])
    ∧ (∀ l, s.linkQ = [l] → l.dir = n → s.chooseClass (.link n) [l.cls] = some l.cls → l.to_.beats ≤ l.sent + 1 →
        ∃ u, exec (.dieToDieLinkBeat n) s = .next u ∧ u.mem = s.mem ∧ u.linkQ = []
          ∧ (∀ m q, l.to_ = .slice m q → isInk q.pa = false → (u.slice (s.home q.pa)).queue = (s.slice (s.home q.pa)).queue ++ [q])
          ∧ (∀ q, l.to_ = .host q → ∃ y ∈ u.hostReqs, y.id = q.id ∧ y.msg = q.msg)
          ∧ ∀ m f, l.to_ = .quill m f → ∀ y ∈ u.ports, y.idx = m → ∃ x ∈ s.ports, x.idx = m ∧ y.queue = x.queue ++ [f])
    ∧ (∀ sec, (s.slice n).queue = [r] → (s.slice n).isRewriting (r.pa / 1024) = false → s.chooseClass (.slice n) [r.cls] = some r.cls →
        s.sectorPending (r.pa / 1024) = false → ((s.slice n).sectors.find? fun y => y.addr == r.pa / 1024) = some sec →
        s.rmwBefore r = false →
        (carries → o.stage = .slice n → ∃ u, exec (.sliceService n) s = .next u ∧ done u ∧ (u.slice n).queue = [])
        ∧ ∀ a, r.by_ = some a → a.how ≠ .posted → ∃ u, exec (.sliceService n) s = .next u ∧ u.mem = s.mem ∧ u.cores = s.cores
          ∧ (u.slice n).queue = [] ∧ u.granted = s.granted ++ [⟨a.owner, r.pa / 32, a.how⟩])
    ∧ ((s.slice n).queue = [r] → (s.slice n).isRewriting (r.pa / 1024) = false → s.chooseClass (.slice n) [r.cls] = some r.cls →
        s.rmwBefore r = false → (s.sectorPending (r.pa / 1024) = true ∨ ((s.slice n).sectors.find? fun y => y.addr == r.pa / 1024) = none) →
        ∃ u, exec (.sliceService n) s = .next u ∧ u.mem = s.mem ∧ (u.slice n).queue = []
          ∧ (u.memctl (s.pcOf r.pa)).queue = (s.memctl (s.pcOf r.pa)).queue ++ [{ r with passed := 0 }])
    ∧ ((s.slice n).queue = [r] → (s.slice n).isRewriting (r.pa / 1024) = true ∨ s.rmwBefore r = true → exec (.sliceService n) s = .next s)
    ∧ (∀ a t, (s.slice n).rewriting = [(a, t)] → t ≤ s.clock → ∃ u, exec (.sectorReorientEnd n) s = .next u ∧ { u with slices := s.slices } = s
        ∧ (u.slice n).rewriting = [] ∧ (u.slice n).sectors = (s.slice n).sectors.map fun y =>
            if y.addr = a then { y with column := !y.column, cross := 0 } else y)
    ∧ ((s.memctl n).queue = [] → s.chooseClass (.controller n) [6] = some 6 →
        ∃ u, exec (.memoryControllerService n) s = .next u ∧ u.mem = s.mem ∧ u.memctl n = s.memctl n
          ∧ u.point (.controller n) = (if Config.refreshAsks n s.clock then s.countGrant (.controller n) 6 else s).point (.controller n))
    ∧ ((s.memctl n).queue = [r] → s.chooseClass (.controller n) [r.cls] = some r.cls →
        ∃ u, exec (.memoryControllerService n) s = .next u ∧ u.mem = s.mem ∧ (Config.refreshAsks n s.clock = false → (u.memctl n).queue = []
          ∧ (u.memctl n).openRow = (if r.cls = 6 then (s.memctl n).openRow else some r.row)
          ∧ (u.memctl n).filled = if r.wb then (s.memctl n).filled else (s.memctl n).filled ++ [r]))
    ∧ (∀ m k, s.memctls = [m] → m.filled = [r] → s.home r.pa = n → (s.slice n).isRewriting (r.pa / 1024) = false →
        s.rmwBefore r = false → carries → o.stage = .memory k true →
        ∃ u, exec (.sectorFill n (r.pa / 1024)) s = .next u ∧ done u ∧ ∀ y ∈ u.memctls, y.filled = [])
    ∧ (s.refreshing.contains n = false → s.inkFirst n = some (c, o) → o.kind = .load → o.col = 0 → o.loc = 0 → o.stage = .inkwell n →
        ∃ u, exec (.inkwellService n) s = .next u ∧ done u)
    ∧ (refreshPhase s.clock n < 640 → s.refreshing.contains n = false →
        exec (.inkwellRefreshStart n) s = .next { s with refreshing := s.refreshing ++ [n] })
    ∧ (640 ≤ refreshPhase s.clock n → exec (.inkwellRefreshEnd n) s = .next { s with refreshing := s.refreshing.filter fun x => x != n })
    ∧ (∀ pt, (s.point pt).next ≤ s.clock → ∃ u, exec (.budgetWindowStart pt) s = .next u ∧ { u with points := s.points } = s
        ∧ (u.point pt).used = List.replicate 8 0 ∧ (u.point pt).next = (s.point pt).next + 4096)

/-- R95, R315, R316, R318: the end of a walk, and the setting of A and D.
Where the manual leaves a choice the statement takes that of log entries 15 and 16. -/
def Obligations.WalkEvents : Prop :=
  ∀ (s : State) (die ctx vpn : Nat) (w : Walk),
    let brings (u : State) (owner : Nat) (a : Acc) (e : TlbEntry) : Prop := ⟨owner, w.ctx, w.vpn, a.code, .page e⟩ ∈ u.brought
    (((s.running die).find? fun w => w.ctx == ctx && w.vpn == vpn && w.setting.isNone) = some w →
      (∀ e pte l core owner a, s.walkCached die ctx (va56 w.va) = .leaf e pte l → s.mayWalk die ctx vpn l = true →
        w.waiters = [(.unit core owner, a)] → a.writes = false → w.noInsert = false →
        (bitAt e.leaf 5 = true → ∃ u, exec (.walkComplete die ctx vpn) s = .next u ∧ u.mem = s.mem ∧ u.walks = s.walks.erase w
          ∧ brings u owner a e ∧ ∀ c, core = some c → e ∈ (u.core c).tlb2)
        ∧ (bitAt e.leaf 5 = false → ∃ u, exec (.walkComplete die ctx vpn) s = .next u ∧ u.mem = s.mem ∧ { w with setting := some (e, pte, 0) } ∈ u.walks))
      ∧ (∀ e pte l, s.walkCached die ctx (va56 w.va) = .leaf e pte l → s.mayWalk die ctx vpn l = false →
        ∃ u, exec (.walkComplete die ctx vpn) s = .next u ∧ u.mem = s.mem ∧ u.walks = s.walks)
      ∧ (∀ cls code l c p st a k, s.walkCached die ctx (va56 w.va) = .bad cls code l → s.mayWalk die ctx vpn l = true → w.waiters = [(.word c p st, a)] →
        ((s.part c p).stream st).pack = some k → k.clause.isSome = true → ((s.part c p).stream st).walking = true →
        ∃ u, exec (.walkComplete die ctx vpn) s = .next u ∧ u.mem = s.mem ∧ u.walks = s.walks.erase w ∧ u.walkCache = s.walkCache
          ∧ ((u.part c p).stream st).walking = false
          ∧ (w.va >>> 12, a.code, cls, code) ∈ ((u.part c p).stream st).faults))
    ∧ (∀ e pte d owner a, (s.walks.find? fun w => w.die == die &&
          (w.setting.map fun x => s.mayServe (walkAgent die w.ctx w.vpn) .rmw x.2.1).getD false) = some w →
        w.setting = some (e, pte, d) → w.waiters = [(.unit none owner, a)] → w.noInsert = false → (isHbm pte && s.homeless pte) = false →
        ∃ u, exec (.accessedDirtySet die) s = .next u ∧ u.walks = s.walks.erase w
          ∧ u.mem = memPut s.mem pte (bytesOf 8 (s.num pte 8 ||| 0x20 ||| (if d = 1 then 0x40 else 0)))
          ∧ brings u owner a { e with dirty := e.dirty || d == 1, leaf := e.leaf ||| 0x20 ||| (if d = 1 then 0x40 else 0) })

/-- R76, R84, R101, R209, R210, R222, R227, R387: an array word starts, from the clock after its issue, makes its effect, and retires.
Where the manual leaves a choice the statement takes that of log entries 8, 15, 27 and 51. -/
def Obligations.ArrayEvents : Prop :=
  ∀ (s : State) (c : Nat) (o : ArrayOp) (rest : List ArrayOp) (x : Mat) (tm : Team), (s.core c).array = o :: rest → matOf o.word = some x →
    s.team? o.core o.team = some tm →
    let h := shapeOf o.c
    let fmt := slotFmtCode (tm.fs.getD (matSlot x.f) 0)
    let rs := s.matRanges o x
    let m0 := s.peekMap (dieOf o.core) o.ctx rs
    let keys (w : Bool) : List (Nat × Nat) := keysVa m0 ((rs.filter fun r => r.1.writes == w).map fun r => r.2)
    let dur := s.matDur o x m0
    let ready := o.started = none ∧ o.made = false ∧ o.issued < s.clock ∧ (s.core c).halting = false ∧ s.arrayTaken c o = false
      ∧ s.arrayWaits o x.local_ (keys false) (keys true) = false ∧ ∀ n ∈ o.arrays x, (s.core n).busy + dur ≤ 16 * s.duty.toNat
    let o1 := { o with started := some s.clock, dur := dur }
    let s1 := (s.setArrayOp c o1).traceArray o1 7 dur
    let how : How := if x.kind = .mdual then .column else .row
    let makes (v : State) (y : ArrayOp) : Prop := ∀ m t w,
        let g := coreAgent y.id y.ctx y.core
        let rs := v.matRanges y x
        let reads := (rs.filter fun r => !r.1.writes).map fun r => r.2
        let writes := (rs.filter fun r => r.1.writes).map fun r => r.2
        v.xlateRanges g rs = (.ok m, t) → t.fetchHost g m reads = (true, w) → w.mayServeVa g how m reads = true → w.mayServeVa g .write m writes = true →
        w.poisonVa m reads = none → w.arrayBad y x fmt = false → ∀ tw, w.team? y.core y.team = some tw →
        ∃ u, exec (.arrayStart c) s = .next u ∧ ∃ z ∈ (u.core c).array, z.id = y.id ∧ z.made = true ∧ z.started = y.started ∧ z.dur = y.dur
          ∧ z.counts = (w.matOut y x m (tw.fs.getD (matSlot x.f) 0)).counts
    (∀ t, ready → s1.xlateRanges (coreAgent o.id o.ctx o.core) (s1.matRanges o1 x) = (.wait, t) → exec (.arrayStart c) s = .next t
        ∧ ∃ z ∈ (t.core c).array, z.id = o.id ∧ z.started = some s.clock ∧ z.dur = dur ∧ z.made = false)
    ∧ (ready → makes s1 o1)
    ∧ (∀ c0, o.started = some c0 → o.made = false → makes s o)
    ∧ (x.kind = .mzero → ready → ∃ u, exec (.arrayStart c) s = .next u ∧ u.mem = s.mem ∧ (∃ z ∈ (u.core c).array, z.id = o.id ∧ z.made = true
        ∧ z.started = some s.clock ∧ z.dur = dur) ∧ ∀ i j, i < h.m → j < h.n → u.accGet o.core i (32 * h.col + j) = 0)
    ∧ (x.kind = .mmac → x.local_ = true → isTwin fmt = false → tm.reuse = none → s.arrayBad o x fmt = false → ready → 32 * h.col + h.n ≤ 384 →
        ∃ u, exec (.arrayStart c) s = .next u ∧ u.mem = s.mem ∧ (∃ z ∈ (u.core c).array, z.id = o.id ∧ z.made = true ∧ z.started = some s.clock ∧ z.dur = dur)
          ∧ ∀ i j, i < h.m → j < h.n → u.accGet o.core i (32 * h.col + j) = (accLoop (s.accGet o.core i (32 * h.col + j)) (h.k fmt) fun l =>
            prodOf false (row16 fmt (s.rowOf o.core o.team i x.f.a.toNat (rowRegs fmt (h.k fmt))) l)
              ((slotFmt fmt).readFlush (natOf (s.localRead o.core o.team (.scratch (o.b + BitVec.ofNat 64 (32 * h.pitch * l + 2 * j)).toNat) 2)))).1 % 2 ^ 32)
    ∧ (∀ c0 sl t, o.started = some c0 → o.made = true → c0 + o.dur ≤ s.clock → s.hostBusy o.id = false → (s.core c).releasing = none → o.slots = [sl] →
        s.thread? o.core o.part sl = some t → t.life ≠ .draining →
        (s.onCore c fun k => { k with array := rest }).flagHeld o.core o.part sl o.flag = false →
        ∃ u y, exec (.arrayRetire c) s = .next u ∧ u.mem = s.mem ∧ (u.core c).array = rest ∧ u.thread? o.core o.part sl = some y
          ∧ bitAt y.flags o.flag = false ∧ ∀ k, o.am = some k → k < tm.am.length → ∃ z, u.team? o.core o.team = some z
            ∧ z.am.getD k 0 = commitAm (tm.am.getD k 0) o.amNan o.amMag)

/-- R92, R93, R105, R230-R238: a command reaches its channel's head, holds for its sequence word, delivers, and completes on its
timeline.
Where the manual leaves a choice the statement takes that of log entries 11, 15 and 28. -/
def Obligations.ChannelEvents : Prop :=
  ∀ (s : State) (k : ChanKey) (c : Command) (rest : List Command), c.paused = none →
   (∀ core team tl tm, s.deliveredOf core team tl = [(k, c)] → c.phase = 3 → s.hostBusy c.id = false → c.ordered = false → c.op ≠ 0x2C3 →
      s.team? core team = some tm → tl < tm.tls.length → (tm.tl tl).pending ≠ [] → (∀ p ∈ (tm.tl tl).pending, p.val = c.val) →
      ∃ u x, exec (.commandComplete core team tl) s = .next u ∧ u.mem = s.mem ∧ u.team? core team = some x ∧ (x.tl tl).completed = c.val
        ∧ (x.tl tl).pending = [] ∧ (x.tl tl).failv = if c.failed then max (tm.tl tl).failv c.val else (tm.tl tl).failv)
   ∧ ((s.chan k).queue = c :: rest →
    let e := c.unitBytes
    (∀ r t, c.phase = 0 → (c.op = 0x2C0 ∨ c.op = 0x2C1 ∨ c.op = 0x2C2) → (s.chan k).ackPaused = false → s.relWaits c = false → s.preempting c.ctx = false →
        s.engReadAll k c c.shp (64 * recordsOf c.op) = (.ok r, t) →
        let x := { c with recs := (List.range (recordsOf c.op)).map fun i => (r.drop (64 * i)).take 64 }
        (t.rejects k x = false → ∃ u, exec (.commandHead k) s = .next u ∧ u.mem = t.mem
          ∧ (u.chan k).queue.head? = some { x with phase := if c.ordered then 1 else 2, pollAt := 0 })
        ∧ (t.rejects k x = true → ∀ tm, t.team? c.core c.team = some tm → c.tl < tm.tls.length → ∃ u y, exec (.commandHead k) s = .next u
          ∧ u.mem = t.mem ∧ u.team? c.core c.team = some y ∧ y.tl c.tl = ((tm.tl c.tl).finish c.val true).advance))
    ∧ (∀ r w t v, c.phase = 0 → c.op = 0x2C4 → (s.chan k).ackPaused = false → s.relWaits c = false → s.preempting c.ctx = false →
        let n := ((getE c.word).map (·.chan.toNat)).getD 0
        bitAt (s.vf (vfOf c.ctx)).clusters n = true → ((List.range 8).all fun i => bitAt s.fencedMarrow (8 * n + i)) = false →
        (s.cluster n).fifo.length < 32 → s.engReadAll k c c.shp 64 = (.ok r, t) →
        t.engReadAll k c (c.shp + 64) (16 * min 4 (fieldAt r 1 1)) = (.ok w, v) →
        ∃ u j, exec (.commandHead k) s = .next u ∧ u.mem = v.mem ∧ (u.cluster n).fifo = (s.cluster n).fifo ++ [j] ∧ j.cmd = c.id ∧ j.rec_ = r ++ w)
    ∧ (∀ bs t, c.phase = 1 → c.ordered = true → c.pollAt = 0 → s.engRead k c false (recSeq (c.record 1)) 8 = (.ok bs, t) →
        ∃ u, exec (.sequenceWordRead k) s = .next u ∧ u.mem = t.mem ∧ (u.chan k).queue.head? = some
          (if natOf bs = (c.crd.getD 8 0).toNat then { c with phase := 2 } else { c with pollAt := t.clock + 64 }))
    ∧ (c.phase = 1 → c.ordered = true → c.pollAt ≠ 0 → c.pollAt ≤ s.clock → ∃ u, exec (.sequenceWordPoll k) s = .next u
        ∧ { u with chans := s.chans } = s ∧ (u.chan k).queue.head? = some { c with pollAt := 0 })
    ∧ (∀ tm a d, c.op = 0x2C0 → c.phase = 2 → c.pausing = false → c.unacked = 0 → c.pos = 0 → c.positions = 1 → (s.chan k).acking = [] →
        s.hostBusy c.id = false → s.preempting c.ctx = false → s.team? c.core c.team = some tm → recLocal (c.record 0) = true → recLocal (c.record 1) = true →
        isTwin (recFmt (c.record 1)) = false → recFmt (c.record 0) = recFmt (c.record 1) → e ≤ 64 →
        recAt (c.record 0) e (addIdx c.from_ (boxIdx c.box 0)) = some a → c.dest 0 = some d → d.toNat + e < 2 ^ 64 →
        (∀ i, i < e → c.overlaps (d + BitVec.ofNat 64 i) = false) → tm.scratchBad a.toNat e = false →
        ∃ u x y, exec (.deliveryTurn k) s = .next u ∧ u.mem = s.mem ∧ (u.chan k).fill = (s.chan k).fill + BitVec.ofNat 64 e
          ∧ y ∈ (u.chan k).acking ∧ y.id = c.id ∧ y.phase = 3 ∧ u.team? c.core c.team = some x
          ∧ ∀ i, i < e → x.scratchByte (d.toNat + i) = tm.scratchByte (a.toNat + i))
    ∧ (∀ d src w t1 t2, (c.op = 0x2C0 ∨ c.op = 0x2C1) → c.phase = 2 → c.pausing = false → c.unacked = 0 → c.pos = 0 → c.positions = 1 →
        (s.chan k).acking = [] → s.hostBusy c.id = false → s.preempting c.ctx = false → isTwin (recFmt (c.record 1)) = false →
        recLocal (c.record 1) = false → c.dest 0 = some d →
        let red := c.op == 0x2C1
        let t0 := (s.turnState k c).readAhead k c
        t0.hostBusy c.id = false → t0.copySource k c 0 = (.ok src, t1) → t1.engDest k c red false d src = (.ok w, t2) → w.loc = 0 →
        src.length = fmtBytes (recFmt (c.record 0)) → (c.op = 0x2C0 → src.length = e) → e ≤ 64 → w.pa % 32 + e ≤ 32 →
        (isHbm w.pa && t2.homeless w.pa) = false → t2.hostBusy c.id = false →
        (red = true → t2.readsPoison w.pa e = false) → (∀ i, i < e → c.overlaps (d + BitVec.ofNat 64 i) = false) →
        let data := if red then bytesOf e (redSum c (natOf src) (s.num w.pa e)) else src
        ∃ u y, exec (.deliveryTurn k) s = .next u ∧ (∀ i, i < e → u.byte (w.pa + i) = data.getD i 0)
          ∧ (∀ p, p < w.pa ∨ w.pa + e ≤ p → u.byte p = s.byte p) ∧ (u.chan k).fill = (s.chan k).fill + BitVec.ofNat 64 e
          ∧ y ∈ (u.chan k).acking ∧ y.id = c.id ∧ y.phase = 3))

/-- R357-R363: a Marrow job starts, its chunks start on the free cores, its last chunk ends it, and it leaves when its results may be written.
Where the manual leaves a choice the statement takes that of log entries 13, 15 and 64. -/
def Obligations.MarrowEvents : Prop :=
  ∀ (s : State) (n : Nat) (j : Job) (rest : List Job), (s.cluster n).fifo = j :: rest →
    ((s.cluster n).running = false → j.badRecord = true → (s.marrowMay (j.agent (8 * n)) true [(j.addr + 0x20, 8)]).1 = true →
        ∃ u, exec (.marrowJobStart n) s = .next u ∧ (u.cluster n).fifo = rest ∧ (u.cluster n).running = false)
    ∧ ((s.cluster n).running = false → j.badRecord = false → j.kind = 0 → ∃ u, exec (.marrowJobStart n) s = .next u ∧ { u with clusters := s.clusters } = s
        ∧ (u.cluster n).running = true ∧ (u.cluster n).fifo = { j with nchunk := fieldAt j.rec_ 0x18 8 } :: rest)
    ∧ ((s.cluster n).running = true → j.over = true → (s.marrowMay (j.agent (8 * n)) true (j.results.map fun w => (w.1, w.2.length))).1 = true →
        ∃ u, exec (.marrowJobStart n) s = .next u ∧ (u.cluster n).fifo = rest ∧ (u.cluster n).running = false)
    ∧ (∀ i, ((List.range 8).find? fun i => !bitAt s.fencedMarrow (8 * n + i) && !((s.cluster n).chunks.any fun c => c.1 == i)) = some i →
        (s.cluster n).running = true → j.next < j.nchunk → ∃ u, exec (.marrowChunkStart n) s = .next u ∧ { u with clusters := s.clusters } = s
          ∧ (u.cluster n).chunks = (s.cluster n).chunks ++ [(i, j.next)] ∧ (u.cluster n).fifo = { j with next := j.next + 1 } :: rest
          ∧ (j.kind = 0 → (u.cluster n).regs.find? (fun r => r.core == i) = some ⟨i, BitVec.ofNat 64 (fieldAt j.rec_ 8 8),
            BitVec.ofNat 64 (fieldAt j.rec_ 0x10 8), BitVec.ofNat 64 j.next, BitVec.ofNat 64 i, 0, Config.marrowReturn n⟩))
    ∧ (∀ i k a0 t, i < 8 → ((s.cluster n).chunks.find? fun c => c.1 == i) = some (i, k) → j.kind = 0 →
        s.marrowAccess (8 * n + i) j .fetch j.entry 2 = (.ok (), t) →
        (j.ended + 1 ≠ j.nchunk → ∃ u, exec (.marrowChunkEnd (8 * n + i) (.returned a0 [])) s = .next u ∧ u.mem = s.mem
          ∧ (u.cluster n).fifo = { j with ended := j.ended + 1, bad := if a0 = 0 then j.bad else j.bad ++ [k] } :: rest)
        ∧ (j.ended + 1 ≠ j.nchunk → ∃ u, exec (.marrowChunkEnd (8 * n + i) (.exception [])) s = .next u ∧ u.mem = s.mem
          ∧ (u.cluster n).fifo = { j with ended := j.ended + 1, bad := j.bad ++ [k] } :: rest)
        ∧ let last := { j with ended := j.ended + 1, bad := if a0 = 0 then j.bad else j.bad ++ [k] }
          let v := t.hostForget j.cmd
          let v := v.setCluster { v.cluster n with chunks := (v.cluster n).chunks.filter fun c => c.1 != i, fifo := last :: rest }
          let may := (v.marrowMay (j.agent (8 * n)) true (last.results.map fun w => (w.1, w.2.length))).1
          (j.ended + 1 = j.nchunk → may = true → ∃ u, exec (.marrowChunkEnd (8 * n + i) (.returned a0 [])) s = .next u ∧ (u.cluster n).fifo = rest
            ∧ (u.cluster n).running = false)
          ∧ (j.ended + 1 = j.nchunk → may = false → ∃ u, exec (.marrowChunkEnd (8 * n + i) (.returned a0 [])) s = .next u ∧ u.mem = s.mem
            ∧ (u.cluster n).fifo = last :: rest ∧ (u.cluster n).running = true))

/-- R13, R305, R307, R309: a team is placed, started and retired, and a grid retires.
Where the manual leaves a choice the statement takes that of log entries 31, 33 and 63. -/
def Obligations.TeamEvents : Prop :=
  ∀ (s : State) (c n : Nat) (tm : Team) (g : Grid),
    (∀ core, s.clock % 8 = 0 → s.pickGrid (assoc n 63 s.dispLast) (s.grids.filter fun g => g.dispatcher == n) = some (g, core) →
        s.fnsMissing core g.ctx = none →
        ∃ u sl x y, exec (.placementStep n) s = .next u ∧ s.team? core sl = none ∧ u.team? core sl = some x ∧ x.gid = g.gid ∧ x.ctx = g.ctx
          ∧ x.index = g.nextTeam ∧ x.size = pktSize g.packet ∧ x.started = 0 ∧ x.startAt = s.clock + 24 ∧ x.scalars = teamScalars g g.nextTeam
          ∧ x.slots = newRows (s.slotsOn core) (pktSize g.packet) 0
          ∧ u.grid? g.gid = some y ∧ y.nextTeam = g.nextTeam + 1)
    ∧ (s.team? c n = some tm → s.grid? tm.gid = some g →
        (tm.heldTok = none → tm.started < tm.size → tm.preloads = [] → s.preloading tm = false → tm.startAt ≤ s.clock →
          let entry := normalAt (BitVec.ofNat 64 (fieldAt g.entry 0 8)) 0
          ∃ u x, exec (.teamStart c n) s = .next u ∧ u.mem = s.mem ∧ u.team? c n = some x ∧ x.started = min tm.size (tm.started + 32)
            ∧ ∀ t ∈ s.threadsOf c n, tm.started ≤ t.tid → t.tid < tm.started + 32 → s.thread? c t.part t.slot = some t →
              ∃ y, u.thread? c t.part t.slot = some y ∧ y.life = .waiting ∧ y.at_ = entry
                ∧ ((∃ p ∈ (u.part c t.part).pods, p.matches n entry = true ∧ t.slot ∈ p.waiting.map Prod.fst)
                  ∨ (t.slot, entry) ∈ (u.part c t.part).queue))
        ∧ (tm.heldTok = none → tm.started < tm.size → tm.preloads = [] → s.preloading tm = true → ∃ u, exec (.teamStart c n) s = .next u
            ∧ { u with teams := s.teams } = s ∧ u.team? c n = some { tm with startAt := max tm.startAt (s.clock + 2) })
        ∧ (s.teamDone tm = true → ∃ u y, exec (.teamRetire c n) s = .next u ∧ u.mem = s.mem ∧ u.team? c n = none ∧ u.grid? tm.gid = some y
            ∧ y.retired = g.retired + 1 ∧ (c, n) ∉ y.teams))
    ∧ (∀ q v, s.grid? n = some g → g.accepted = true → g.placing = false → g.teams = [] → g.parent = none → g.compl = .queue q v →
        s.censusDir g.ctx g.obj = none → (s.ctx g.ctx).objs = [] →
        ∃ u, exec (.gridRetire n) s = .next u ∧ u.mem = s.mem ∧ u.grid? n = none ∧ (u.queue q).tl = ((s.queue q).tl.finish v false).advance)

/-- R259, R300, R301, R304, R305: the registers of a launch queue, and the acceptance of its packets.
Where the manual leaves a choice the statement takes that of log entries 31, 36 and 37. -/
def Obligations.QueueEvents : Prop :=
  ∀ (s : State) (q : Nat) (v : DWord),
    let x := s.queue q
    let ok := x.rptr ≤ v.toNat ∧ v.toNat ≤ x.rptr + 2 ^ (x.log2n + 4) ∧ x.wptr ≤ v.toNat
    let only (e : Instr) (y : Queue) : Prop := ∃ u, exec e s = .next u ∧ { u with queues := s.queues } = s ∧ u.queue q = y
    (ok → only (.wptrDoorbell q v) { x with wptr := v.toNat })
    ∧ (¬ ok → only (.wptrDoorbell q v) { x with qerr := if x.qerr = 0 then BitVec.ofNat 64 (x.wptr % 2 ^ 56 * 256 + 0x10) else x.qerr })
    ∧ (vfOf (qctlCtx v) = x.vf → x.enable = false → ∃ u, exec (.queueEnable q v) s = .next u ∧ u.mem = s.mem ∧ u.queue q =
        { x with ctx := qctlCtx v, prio := qctlPrio v, log2n := ctlLog2n v, enable := true, wptr := 0, rptr := 0, tl := .reset })
    ∧ (vfOf (qctlCtx v) ≠ x.vf → exec (.queueEnable q v) s = .next s)
    ∧ only (.queueDisable q) { x with enable := false }
    ∧ only (.qerrClear q v) { x with qerr := x.qerr &&& ~~~v }
    ∧ (∀ p t, x.enable = true → x.rptr < x.wptr → (s.grids.all fun g => g.queue != some q) = true → s.closed x.ctx = false → s.active x.ctx = true →
        s.dispRead (queueAgent q x.ctx) (x.qbase + BitVec.ofNat 64 (128 * (x.rptr % 2 ^ (x.log2n + 4)))) 128 = (.ok p, t) →
        let code := t.packetCode x.ctx true (some ([], 0)) p
        let row := (t.ctx x.ctx).entryPa (pktKidx p)
        (code ≠ 0 → ∃ u, exec (.packetAccept (.queue q)) s = .next u ∧ u.mem = t.mem ∧ (u.queue q).rptr = x.rptr + 1
          ∧ (x.qerr = 0 → (u.queue q).qerr = BitVec.ofNat 64 (x.rptr % 2 ^ 56 * 256 + code)))
        ∧ (code = 0 → ((∃ d ∈ pktDeps p, d.1 < 0x40 ∧ (t.queue d.1).tl.completed < d.2)
            ∨ pktDeps p = [] ∧ pktKidx p < (t.ctx x.ctx).ktsize ∧ paOk row 32 = true ∧ t.mayServePa (dieAgent t.nextId x.ctx 0 0) .row row 32 = false) →
          ∃ u, exec (.packetAccept (.queue q)) s = .next u ∧ u.mem = t.mem ∧ (u.queue q).rptr = x.rptr + 1 ∧ ∃ g ∈ u.grids, g.accepted = false
            ∧ g.queue = some q ∧ g.packet = p ∧ g.compl = .queue q (x.tl.assigned + 1) ∧ g.prio = x.prio ∧ g.gid = t.nextId))
    ∧ (∀ g r t, (s.grids.find? fun g => g.queue == some q && !g.accepted) = some g → s.closed g.ctx = false → x.enable = true →
        pktDeps g.packet = [] → s.gridEntry g = (.ok r, t) →
        (∀ e obj, r = some (e, obj) → fieldAt e 0x1C 1 ≤ pktFrame g.packet → pktArgSize g.packet = 0 → pktNpre g.packet = 0 →
          ∃ u y, exec (.packetAccept (.queue q)) s = .next u ∧ u.mem = s.mem ∧ u.grid? g.gid = some y ∧ y.accepted = true ∧ y.entry = e ∧ y.obj = obj
            ∧ y.packet = g.packet ∧ y.launchid = (s.ctx g.ctx).seq ∧ (u.ctx g.ctx).seq = (s.ctx g.ctx).seq + 1)
        ∧ (∀ v code, g.compl = .queue q v → (r = none ∧ code = 2 ∨ (∃ e obj, r = some (e, obj) ∧ pktFrame g.packet < fieldAt e 0x1C 1) ∧ code = 4) →
          ∃ u, exec (.packetAccept (.queue q)) s = .next u ∧ u.mem = s.mem ∧ u.grid? g.gid = none
            ∧ (x.qerr = 0 → (u.queue q).qerr = BitVec.ofNat 64 ((v - 1) % 2 ^ 56 * 256 + code))))
    ∧ (∀ n g, s.grid? n = some g → g.accepted = false → g.queue = none → s.closed g.ctx = false → pktDeps g.packet = [] →
        (fieldAt g.entry 0x1C 1 ≤ pktFrame g.packet → pktArgSize g.packet = 0 → pktNpre g.packet = 0 →
          ∃ u y, exec (.packetAccept (.device n)) s = .next u ∧ u.mem = s.mem ∧ u.grid? n = some y ∧ y.accepted = true
            ∧ y.entry = g.entry ∧ y.launchid = g.launchid)
        ∧ (pktFrame g.packet < fieldAt g.entry 0x1C 1 → ∃ u, exec (.packetAccept (.device n)) s = .next u ∧ u.mem = s.mem ∧ u.grid? n = none))

/-- R336-R340: the code ring, and loading, replacing and unloading code; the STATUS of each command is written as it ends.
Where the manual leaves a choice the statement takes that of log entries 31 and 39. -/
def Obligations.CodeRingEvents : Prop :=
  ∀ (s : State) (vf : Nat) (v : DWord),
    let r := (s.vf vf).code
    let only (e : Instr) (y : Vf) : Prop := ∃ u, exec e s = .next u ∧ { u with vfs := s.vfs } = s ∧ u.vf vf = y
    let ended (u : State) (pa st : Nat) : Prop := (s.MemInv → (∀ a ∈ linesPa (pa + 0x38) 8, (isHbm a && s.homeless a) = false) → u.num (pa + 0x38) 8 = st) ∧ (u.vf vf).code.rptr = r.rptr + 1 ∧ u.out = .msix vf 1 :: s.out
    (bitAt v 0 = true → bitAt r.ctl 0 = false → only (.codeRingEnable vf v) { s.vf vf with code := { r with ctl := v &&& 0xF1, wptr := 0, rptr := 0 } })
    ∧ (r.rptr ≤ v.toNat → v.toNat ≤ r.rptr + r.size → r.wptr ≤ v.toNat →
        only (.codeRingDoorbell vf v) { s.vf vf with code := { r with wptr := v.toNat } })
    ∧ (∀ pa cmd, s.codeCommand vf = some (pa, cmd) → paOk pa 64 = true → cmdReserved cmd = false → s.active (cmdCtx cmd) = true →
        vfOf (cmdCtx cmd) = vf → objReady (s.ctx (cmdCtx cmd)) (cmdOpc cmd) (cmdObj cmd) = true →
        let ctx := cmdCtx cmd
        let listed (u w : State) (rs : List (Nat × List Byte)) (bs : List Byte) (base size : Nat) (m : PageMap) : Prop :=
          ((List.range (cmdKcount cmd)).any fun i => fieldAt bs (40 * i + 2) 6 != 0) = false →
          w.listStatus (s.ctx ctx) (cmdOpc cmd) base size m rs = 0 → (∀ x ∈ rs, ⟨x.1, cmdObj cmd⟩ ∈ (u.ctx ctx).owners) ∧ ended u pa 1
        (∀ m t bs w, cmdOpc cmd = 1 → s.xlateRanges (codeAgent vf ctx) [(.fetch, BitVec.ofNat 64 (cmdBase cmd), cmdSize cmd)] = (.ok m, t) →
          t.dispReadOpt (codeAgent vf ctx) (cmdList cmd) (40 * cmdKcount cmd) = (.ok bs, w) →
          (∀ x ∈ listRecords (cmdKcount cmd) bs, paOk ((s.ctx ctx).entryPa x.1) 32 = true) →
          ∃ u, exec (.codeLoad vf) s = .next u ∧ listed u w (listRecords (cmdKcount cmd) bs) bs (cmdBase cmd) (cmdSize cmd) m
            ∧ (cmdKcount cmd = 0 → (cmdObj cmd, ObjState.loaded (cmdBase cmd) (cmdSize cmd)) ∈ (u.ctx ctx).objs))
        ∧ (∀ b k bs w, cmdOpc cmd = 2 → ((s.ctx ctx).objs.find? fun o => o.1 == cmdObj cmd) = some (cmdObj cmd, .loaded b k) →
          s.dispReadOpt (codeAgent vf ctx) (cmdList cmd) (40 * cmdKcount cmd) = (.ok bs, w) →
          (∀ x ∈ listRecords (cmdKcount cmd) bs, paOk ((s.ctx ctx).entryPa x.1) 32 = true) →
          ∃ u, exec (.codeReplace vf) s = .next u ∧ listed u w (listRecords (cmdKcount cmd) bs) bs b k [])
        ∧ (∀ b k, cmdOpc cmd = 3 → ((s.ctx ctx).objs.find? fun o => o.1 == cmdObj cmd) = some (cmdObj cmd, .loaded b k) →
          ∃ u, exec (.codeUnload vf) s = .next u ∧ ended u pa 2
            ∧ (cmdObj cmd, ObjState.retiring b k (s.grids.filter fun g => g.ctx == ctx && g.accepted && !g.finished).length pa) ∈ (u.ctx ctx).objs
            ∧ ∀ o ∈ (u.ctx ctx).owners, o.obj ≠ cmdObj cmd))

/-- R322, R364, R368, R369: the rings of fault, dump and trace records.
Where the manual leaves a choice the statement takes that of log entry 38. -/
def Obligations.RecordRingEvents : Prop :=
  ∀ (s : State) (vf : Nat) (v : DWord),
    let r := s.faultRing vf
    let d := (s.vf vf).dump
    (bitAt v 0 = true → bitAt r.ctl 0 = false → ∃ u, exec (.faultQueueEnable vf v) s = .next u ∧ u.mem = s.mem
        ∧ u.faultRing vf = { r with ctl := v &&& 0xF1, wptr := 0, rptr := 0 })
    ∧ (∃ u, exec (.faultQueueReadPointer vf v) s = .next u ∧ u.mem = s.mem
        ∧ u.faultRing vf = if r.rptr ≤ v.toNat ∧ v.toNat ≤ r.wptr then { r with rptr := v.toNat } else r)
    ∧ (∀ x, (vf = 16 ∨ (s.vf vf).dumps = []) → (s.heldRecs vf).find? (s.writable vf) = some x → r.room = true → paOk (r.slotAt 64 r.wptr) 64 = true →
        (∀ a ∈ linesPa (r.slotAt 64 r.wptr) 64, (isHbm a && s.homeless a) = false) →
        ∃ u, exec (.faultRecordWrite vf) s = .next u ∧ (s.MemInv → u.bytes (r.slotAt 64 r.wptr) 64 = s.recBytes x) ∧ u.out = .msix vf 0 :: s.out
          ∧ u.heldRecs vf = (s.heldRecs vf).erase x ∧ (u.faultRing vf).wptr = r.wptr + 1)
    ∧ (bitAt v 0 = true → bitAt d.ctl 0 = false → ∃ u, exec (.dumpRingEnable vf v) s = .next u ∧ { u with vfs := s.vfs } = s
        ∧ (u.vf vf).dump = { d with ctl := v &&& 0xF1, wptr := 0, rptr := 0 })
    ∧ ((s.vf vf).dumps = [] → (s.vf vf).held = [] → ∃ u, exec (.dumpRingReadPointer vf v) s = .next u ∧ { u with vfs := s.vfs } = s
        ∧ (u.vf vf).dump = if d.rptr ≤ v.toNat ∧ v.toNat ≤ d.wptr then { d with rptr := v.toNat } else d)
    ∧ (bitAt v 0 = true → (bitAt (s.vf vf).trctl 0 = false → ∃ u, exec (.traceBufferEnable vf false v) s = .next u ∧ { u with vfs := s.vfs } = s
          ∧ (u.vf vf).trctl = traceCtl v ∧ ∀ x ∈ (u.vf vf).trWritten, x.2.1 = 0)
        ∧ (bitAt (s.vf vf).jrctl 0 = false → ∃ u, exec (.traceBufferEnable vf true v) s = .next u ∧ { u with vfs := s.vfs } = s
          ∧ (u.vf vf).jrctl = journeyCtl v ∧ ∀ x ∈ (u.vf vf).jrWritten, x.2.1 = 0))

/-- R36, R130, R323, R331, R367: the responses to a fault token, for a token of one thread and for a token of a channel.
Where the manual leaves a choice the statement takes that of log entries 19, 20 and 44. -/
def Obligations.ResponseEvents : Prop :=
  ∀ (s : State) (vf n : Nat) (tk : Token) (c p sl : Nat) (t : Thread), s.thread? c p sl = some t →
    let released (u : State) (x : Thread) (to_ : Target) : Prop := u.mem = s.mem ∧ u.thread? c p sl = some x ∧ x.life = .inFlight ∧ x.regs = t.regs
        ∧ ∃ fl ∈ (u.part c p).filings, fl.slot = sl ∧ fl.to_ = to_ ∧ fl.due = s.clock
    (s.token? n = some tk → tk.vf = vf → tk.answer = none → (s.ctx tk.ctx).saved = false → tk.replays = [] → tk.starts = [] →
      (tk.chan = none → tk.threads = [(c, p, sl)] → t.life = .parked (.fault n) → t.moved = none →
        (∃ u x, exec (.faultResponseRetry vf n) s = .next u ∧ u.token? n = none ∧ released u x t.at_ ∧ (tk.cls = 0x18 → x.dbgSkip = true))
        ∧ (tk.cls = 0x18 → ∃ u x, exec (.faultResponseStep vf n) s = .next u ∧ u.token? n = none ∧ released u x t.at_ ∧ x.dbgSkip = true ∧ x.dbgStep = true)
        ∧ (tk.cls = 0x18 → ∃ u x, exec (.faultResponseRunFree vf n) s = .next u ∧ u.token? n = none ∧ released u x t.at_ ∧ x.dbgSkip = true
            ∧ x.dbgNobp = true)
        ∧ (tk.cls ≠ 0x18 → exec (.faultResponseStep vf n) s = .next s ∧ exec (.faultResponseRunFree vf n) s = .next s)
        ∧ (t.flags = 0 → ∃ u, exec (.faultResponseTerminate vf n) s = .next u ∧ u.mem = s.mem ∧ u.token? n = none ∧ u.thread? c p sl = none))
      ∧ (∀ k cm rest, tk.chan = some k → tk.threads = [] → (s.chan k).queue = cm :: rest → cm.paused = some n → cm.op ≠ 0x2C3 →
        (∃ u, exec (.faultResponseRetry vf n) s = .next u ∧ u.mem = s.mem ∧ u.token? n = none ∧ (u.chan k).queue.head? = some { cm with paused := none })
        ∧ ∃ u y, exec (.faultResponseTerminate vf n) s = .next u ∧ u.mem = s.mem ∧ u.token? n = none ∧ y ∈ (u.chan k).acking ∧ y.id = cm.id
          ∧ y.failed = true ∧ y.phase = 3))
    ∧ (s.token? n = some tk → tk.vf = vf → tk.answer = none →
        ∃ u, exec (.faultResponseAbort vf n) s = .next u ∧ (u.ctx tk.ctx).lost = true ∧ (∀ x ∈ u.teams, x.ctx ≠ tk.ctx) ∧ ∀ x ∈ u.grids, x.ctx ≠ tk.ctx)
    ∧ (t.life = .parked (.fault 0) →
        (∃ u x, exec (.ccpResume c p sl .wordBypass) s = .next u ∧ released u x t.at_ ∧ x.bypass = true)
        ∧ (let h := s.codeWordAt t t.at_.hdr
          let last := t.at_.key = t.at_.hdr + BitVec.ofNat 64 (8 * hdrCount h)
          let goes (to_ : Target) : Prop := ∃ u x, exec (.ccpResume c p sl .nextWord) s = .next u ∧ released u x to_
          (t.at_.key = t.at_.hdr → goes t.at_)
          ∧ (t.at_.key ≠ t.at_.hdr → ¬ last → goes { t.at_ with key := t.at_.key + 8 })
          ∧ (t.at_.key ≠ t.at_.hdr → last → (readHeader h).reform = true → goes (normalAt (t.next.getD (t.at_.key + 8)) t.at_.nib))
          ∧ (t.at_.key ≠ t.at_.hdr → last → (readHeader h).reform = false → goes (resumeHeader (t.at_.key + 8) t.at_.nib)))
        ∧ ∀ a, ∃ u x, exec (.ccpResume c p sl (.entry a)) s = .next u ∧ released u x (resumeHeader a 0))

/-- R292, R311, R319, R346-R348: invalidations, regions, assignments, feature masks and budgets.
Where the manual leaves a choice the statement takes that of log entries 40 and 41. -/
def Obligations.PartitionEvents : Prop :=
  ∀ (s : State) (vf : Nat) (v : DWord),
    let x := s.vf vf
    let only (e : Instr) (y : Vf) : Prop := ∃ u, exec e s = .next u ∧ { u with vfs := s.vfs } = s ∧ u.vf vf = y
    let inv := (v.extractLsb' 52 12).toNat
    (vfOf inv = vf → ∃ u, exec (.tlbInvalidate vf v) s = .next u ∧ u.mem = s.mem ∧ (u.vf vf).tlbnum = x.tlbnum + 1
        ∧ (∀ k ∈ u.cores, ∀ e ∈ k.tlb1 ++ k.tlb2, e.covers inv (invRange v).1 (invRange v).2 = false)
        ∧ (∀ w ∈ u.walks, w.ctx = inv → w.noInsert = true)
        ∧ ∀ h ∈ u.chans, ∀ e ∈ h.pages, e.covers inv (invRange v).1 (invRange v).2 = false)
    ∧ (vfOf inv ≠ vf → exec (.tlbInvalidate vf v) s = .next s)
    ∧ (∀ i rest, x.invs = i :: rest → s.invDone vf i = true → only (.tlbInvalidateComplete vf) { x with invs := rest, tlbseq := i.num })
    ∧ (s.regionVf (regionBase (v.extractLsb' 0 9).toNat) = some vf → (v.extractLsb' 9 2).toNat ≠ 1 → x.regBusy = none →
        only (.regionModeWrite vf v) { x with regLast := (v.extractLsb' 0 9).toNat, regBusy := some ((v.extractLsb' 0 9).toNat, (v.extractLsb' 9 2).toNat) })
    ∧ (∀ r m, x.regBusy = some (r, m) → s.MemInv → ∃ u, exec (.regionModeDone vf) s = .next u ∧ (u.vf vf).regBusy = none
        ∧ (∀ y ∈ u.regions, y.1 = r → y.2.2 = m)
        ∧ ∀ a, u.byte a = if regionBase r ≤ a ∧ a < regionBase r + 2 ^ 30 then 0 else s.byte a)
    ∧ (∀ off, let mask := (x.assigned.write off v).wayMask
        let a := { (x.pend.getD x.assigned).write off v with wayMask := mask }
        let alone := x.pend = none ∧ a = { x.assigned with wayMask := mask }
        (s.taken vf a = true → exec (.assignmentWrite vf off v) s = .next s)
        ∧ (s.taken vf a = false → alone → only (.assignmentWrite vf off v) { x with wayMask := mask })
        ∧ (s.taken vf a = false → ¬ alone →
            (s.vfQuiet vf = true → ∃ u, exec (.assignmentWrite vf off v) s = .next u ∧ (u.vf vf).assigned = a ∧ (u.vf vf).pend = none)
            ∧ (s.vfQuiet vf = false → only (.assignmentWrite vf off v) { x with wayMask := mask, pend := some a })))
    ∧ (∀ a, s.vfQuiet vf = true → x.pend = some a → s.regPend = [] →
        ∃ u, exec (.assignmentApply vf) s = .next u ∧ (u.vf vf).assigned = a ∧ (u.vf vf).pend = none)
    ∧ (∀ c, (∃ u, exec (.featmaskWrite c v) s = .next u ∧ { u with ctxs := s.ctxs } = s ∧ u.ctx c =
          if s.resident c then { s.ctx c with featPend := some (v &&& 0xFFF) } else { s.ctx c with featmask := v &&& 0xFFF, featPend := none })
        ∧ ∀ m, (s.ctx c).featPend = some m → s.resident c = false → ∃ u, exec (.featmaskApply c) s = .next u ∧ { u with ctxs := s.ctxs } = s
          ∧ u.ctx c = { s.ctx c with featmask := m, featPend := none })
    ∧ (∀ by_ p k, p < 4 → k < 8 → s.budgetFits p k v = true → ∃ u, exec (.budgetRegisterWrite by_ p k v) s = .next u ∧ { u with budgets := s.budgets } = s
        ∧ u.budget p k = budgetFloor p k v)
    ∧ (∀ p k, s.budgetFits p k v = false → exec (.budgetRegisterWrite .scribe p k v) s = .next s)

/-- R4, R287, R300, R364, R375, R378, R379: registers without a row of their own and what a read of some returns, the control registers that
the Scribe writes, breakpoints, and the census check.
Where the manual leaves a choice the statement takes that of log entries 14, 37, 48 and 60. -/
def Obligations.RegisterEvents : Prop :=
  ∀ (s : State) (vf : Nat) (v : DWord),
    let x := s.vf vf
    let only (e : Instr) (y : Vf) : Prop := ∃ u, exec e s = .next u ∧ { u with vfs := s.vfs } = s ∧ u.vf vf = y
    (∀ r, s.ready = false ∨ s.tripped = true → exec (.registerWrite r v) s = .next s)
    ∧ (s.ready = true → s.tripped = false →
        exec (.registerWrite (.physical 8) v) s = .next { s with quillid := v.setWidth 16 }
        ∧ only (.registerWrite (.driver vf 0x1_0038) v) { x with psarea := v &&& 0x000F_FFFF_FFFF_F000 }
        ∧ only (.registerWrite (.driver vf 0x1_0000) v) { x with fault := { x.fault with base := v &&& 0x000F_FFFF_FFFF_F000 } }
        ∧ ∀ q, q < 64 → (s.queue q).vf = vf → ∃ u, exec (.registerWrite (.driver vf (64 * q)) v) s = .next u ∧ { u with queues := s.queues } = s
          ∧ u.queue q = if (s.queue q).enable then s.queue q else { s.queue q with qbase := v &&& ~~~0xFFF })
    ∧ (∀ c n, s.ready = true → s.tripped = false → ctlWritable n = true → ∃ u, exec (.registerWrite (.control c n) v) s = .next u
        ∧ { u with ctxs := s.ctxs } = s ∧ u.ctx c = (s.ctx c).writeCtl n v)
    ∧ (∀ r, s.ready = false ∨ s.tripped = true → (∀ c n, r ≠ .control c n) → s.readReg r = 0)
    ∧ (s.ready = true → s.tripped = false →
        (∃ u, exec (.registerWrite (.physical 8) v) s = .next u ∧ u.readReg (.physical 8) = (v.setWidth 16).setWidth 64)
        ∧ s.readReg (.physical 0x9000) = 0 ∧ (∀ off ∈ [0x1_0020, 0x1_0028, 0x1_0040], s.readReg (.driver vf off) = 0)
        ∧ ∀ q off, q < 64 → off < 64 → (s.queue q).vf ≠ vf → s.readReg (.driver vf (64 * q + off)) = 0)
    ∧ (∀ k, k < x.bpc.length → ∃ u, exec (.breakpointControlWrite vf k v) s = .next u ∧ { u with vfs := s.vfs } = s
        ∧ bitAt ((u.vf vf).bpc.getD k 0) 63 = (bitAt v 63 && vfOf (v.extractLsb' 44 12).toNat == vf && !s.fuses.debugDisable)
        ∧ ∀ j, j ≠ k → (u.vf vf).bpc.getD j 0 = x.bpc.getD j 0)
    ∧ (let ctx := (v.extractLsb' 52 12).toNat
       let obj := (v.extractLsb' 0 10).toNat
       ∀ table, s.censusDir ctx obj = some (table, true) → vfOf ctx = vf → x.cnsBusy = none → only (.censusCheck vf v) { x with cnsBusy := some (ctx, obj) })
    ∧ (∀ ctx obj table b, x.cnsBusy = some (ctx, obj) → s.censusMissing ctx obj = none → s.censusDir ctx obj = some (table, b) →
        let n := (s.objectSites ctx obj).length
        ((∀ i, i < n → s.siteUnequal table n i = 0) → only (.censusCheckDone vf) { x with cnsBusy := none, cnsDiff := false, cnsSite := BitVec.allOnes 32 })
        ∧ ∀ i, i < n → s.siteUnequal table n i ≠ 0 → (∀ j, j < i → s.siteUnequal table n j = 0) →
          ∃ u, exec (.censusCheckDone vf) s = .next u ∧ u.mem = s.mem ∧ (u.vf vf).cnsBusy = none ∧ (u.vf vf).cnsDiff = true
            ∧ (u.vf vf).cnsSite = BitVec.ofNat 32 i)

/-- R327-R335: pre-emption, its deadlines, the image, and the restore.
Where the manual leaves a choice the statement takes that of log entries 45 and 46. -/
def Obligations.PreemptEvents : Prop :=
  ∀ (s : State) (vf ctx c : Nat),
    let x := s.vf vf
    (x.busy = false → vfOf ctx = vf → (s.ctx ctx).saved = false → ∃ u, exec (.preempt vf ctx) s = .next u ∧ u.mem = s.mem
        ∧ (u.vf vf).pstatCtx = ctx ∧ (u.vf vf).pstat = (if s.coresOf ctx = [] then 2 else 1)
        ∧ (s.quiet = false → ∀ n ∈ s.coresOf ctx, (u.core n).halting = true) ∧ (s.quiet = true → u.cores = s.cores))
    ∧ (∀ o, (s.core c).halting = true → (s.core c).halted = false → (s.core c).drainAt ≠ 0 → (s.core c).drainAt ≤ s.clock → (s.core c).ops = [o] →
        o.abandoned = true → s.hostReqs = [] →
        ∃ u, exec (.drainDeadline c) s = .next u ∧ u.mem = s.mem ∧ u.threads = s.threads ∧ (u.core c).ops = [{ o with stage := .replay 0 }]
          ∧ (u.core c).loads = (s.core c).loads.map fun l => { l with got := [], image := none, since := none })
    ∧ ((s.core c).ctx = some ctx → s.mayHalt c = true → ∃ u, exec (.coreHalted c) s = .next u ∧ u.mem = s.mem ∧ u.threads = s.threads
        ∧ (u.core c).halted = true)
    ∧ (∀ p, x.preempt = some p → s.maySave p.ctx = true → paOk p.base (s.imageBytes p.ctx).length = true →
        ∃ u, exec (.imageSaved vf) s = .next u ∧ (s.MemInv → (∀ a ∈ linesPa p.base (s.imageBytes p.ctx).length, (isHbm a && s.homeless a) = false) →
            u.bytes p.base (s.imageBytes p.ctx).length = s.imageBytes p.ctx) ∧ (u.vf vf).pstat = 3
          ∧ (u.vf vf).preempt = none ∧ (u.ctx p.ctx).saved = true ∧ u.out = .msix vf 2 :: s.out)
    ∧ (∀ p, x.preempt = some p → p.since + 10000 ≤ s.clock → s.allHalted p.ctx = false →
        ∃ u, exec (.preemptWatchdog vf) s = .next u ∧ (u.ctx p.ctx).lost = true ∧ ∀ t ∈ u.teams, t.ctx ≠ p.ctx)
    ∧ (x.busy = false → vfOf ctx = vf →
        ((s.images.find? fun i => i.ctx == ctx) = none → ∃ u, exec (.restoreImage vf ctx) s = .next u ∧ u.mem = s.mem ∧ (u.vf vf).pstat = 8)
        ∧ ∀ i t left, (s.ctx ctx).featPend = none → (s.images.find? fun i => i.ctx == ctx) = some i → paOk x.saveBase i.bytes.length = true → s.bytes x.saveBase i.bytes.length = i.bytes →
          placeGroups i i.leaders (s.setVf { x with pstat := 4, pstatCtx := ctx, restore := some ⟨ctx, s.clock, x.saveBase⟩ }) = .next t →
          (t.images.find? fun i => i.ctx == ctx) = some left → left.leaders = [] → (t.tokens.all fun k => k.ctx != ctx) = true →
          ∃ u, exec (.restoreImage vf ctx) s = .next u ∧ u.mem = t.mem ∧ (u.vf vf).pstat = 5 ∧ (u.ctx ctx).saved = false)

/-- R329, R356, R376, R377: completions, timeouts, page requests, host translations and the training of the link.
Where the manual leaves a choice the statement takes that of log entries 36, 49 and 52. -/
def Obligations.HostEvents : Prop :=
  ∀ (s : State) (r : HostReq) (data : List Byte), s.hostReqs = [r] →
    let fails (e : Instr) (o : Op) (cls code : Nat) : Prop := ∃ u x, exec e s = .next u ∧ u.mem = s.mem ∧ u.hostReqs = []
        ∧ (u.core r.core).op? r.op = some x ∧ x.stage = .done
        ∧ ∃ y ∈ (u.vf (vfOf o.ctx)).held, y.cls = cls ∧ y.code = code ∧ y.va = o.va ∧ y.ctx = o.ctx
    (∀ o, r.wait = .none → r.owner = none → (s.core r.core).op? r.op = some o → o.stage = .host → o.kind = .load → s.linkQ = [] →
        ∃ u x, exec (.hostCompletion r.id data) s = .next u ∧ u.mem = s.mem ∧ u.hostReqs = [] ∧ (u.core r.core).op? r.op = some x ∧ x.stage = .done
          ∧ x.vals = o.loaded (o.fromHost (padTo o.hostSpan data)))
    ∧ (∀ o id vf pa n, r.wait = .none → r.owner = some o → r.msg = .hostRead id vf pa n →
        exec (.hostCompletion r.id data) s = .next { s with hostReqs := [], hostData := s.hostData ++ [⟨o, pa, padTo n data⟩] })
    ∧ (∀ o, r.wait = .none → r.owner = none → (s.core r.core).op? r.op = some o → o.kind = .store → r.sent + 3000 ≤ s.clock →
        fails (.completionTimeout r.id) o 0x15 0)
    ∧ (∀ o, r.wait = .asked → r.owner = none → (s.core r.core).op? r.op = some o → o.kind = .store →
        ∃ u x n tk, exec (.pageRequestResponse r.id false) s = .next u ∧ u.mem = s.mem ∧ u.hostReqs = [] ∧ (u.core r.core).op? r.op = some x
          ∧ x.stage = .replay n ∧ x.data = o.data ∧ u.token? n = some tk ∧ tk.cls = 0x11 ∧ tk.code = 11 ∧ tk.ctx = o.ctx ∧ tk.page = pageOf o.va
          ∧ (r.core, r.op) ∈ tk.replays)
    ∧ (r.wait = .asked → ∃ u, exec (.pageRequestResponse r.id true) s = .next u ∧ u.mem = s.mem ∧ u.out = r.msg :: s.out
        ∧ u.hostReqs = [{ r with sent := s.clock, wait := .none }])
    ∧ (∀ vf base size, ∃ u, exec (.atsInvalidation vf base size) s = .next u ∧ { u with atsCache := s.atsCache } = s
        ∧ ∀ e, e ∈ u.atsCache ↔ e ∈ s.atsCache ∧ ¬ (e.1 = vf ∧ base < (e.2 + 1) * 4096 ∧ e.2 * 4096 < base + size))
    ∧ (∀ k w t, w ∈ [16, 8, 4, 1] → t ∈ [128, 64, 32, 16, 8, 5, 2] → exec (.hostLinkTraining k w t) s = .next { s with host := ⟨k, w, t⟩ })

/-- R352-R356, R362, R383, R388: the Quill links, the fences, and the thermal trip.
Where the manual leaves a choice the statement takes that of log entries 15 and 43. -/
def Obligations.ContainmentEvents : Prop :=
  ∀ (s : State) (n : Nat),
    let x := s.ports.find? fun x => x.idx == n
    (∀ f y, x = some y → y.up = true → bitAt s.fencedPorts n = false → s.nextFlit n = some f →
        ∃ u, exec (.quillFlit n 0 f) s = .next u ∧ u.mem = s.mem ∧ u.out = .flit n f :: s.out
          ∧ ∃ z, (u.ports.find? fun x => x.idx == n) = some z ∧ z.queue = y.queue.erase f ∧ z.retries = 0
            ∧ z.credits = y.credits.set f.cls (y.credits.getD f.cls 0 - 4))
    ∧ (∀ f y vf, x = some y → y.up = true → bitAt s.fencedPorts n = false → s.portOwner n = some vf → f.cls ≤ 1 →
        ∃ u, exec (.quillFlit n 1 f) s = .next u ∧ u.mem = s.mem ∧ u.ranks = s.ranks ++ [⟨vf, f.group, f.seq, f.rank, f.cls == 1, f.off, f.data⟩])
    ∧ (∀ y, x = some y → n ≤ 18 → bitAt s.fencedPorts n = false → y.retries < 16 → exec (.linkRetry n) s = .next { s with
        ports := s.ports.map fun x => if x.idx = n then { x with retries := x.retries + 1, retried := x.retried + 1 } else x })
    ∧ (∀ y, x = some y → bitAt s.fencedPorts n = false → 16 ≤ y.retries → (n < 18 → ∃ u, exec (.linkRetry n) s = .next u ∧ bitAt u.fencedPorts n = true)
        ∧ (n = 18 → ∃ u, exec (.linkRetry n) s = .next u ∧ u.tripped = true))
    ∧ (n < 18 → (∃ u, exec (.linkDown n) s = .next u ∧ bitAt u.fencedPorts n = true ∧ ∀ y ∈ u.ports, y.idx = n → y.up = false)
        ∧ ∃ u, exec (.fenceQuillPort n) s = .next u ∧ bitAt u.fencedPorts n = true)
    ∧ (n < 160 → bitAt s.fencedCores n = false → ∃ u, exec (.fenceCore n) s = .next u ∧ bitAt u.fencedCores n = true
        ∧ (∀ t ∈ u.threads, t.core ≠ n) ∧ ∀ c ∈ s.lostBy n, (u.ctx c).lost = true)
    ∧ (∀ r, n < 128 → bitAt s.fencedSlices n = false → (s.slice n).queue = [r] → ∃ u, exec (.fenceLlcSlice n) s = .next u ∧ u.mem = s.mem
        ∧ bitAt u.fencedSlices n = true ∧ (u.slice n).queue = [] ∧ (u.slice (n ^^^ 1)).queue = (s.slice (n ^^^ 1)).queue ++ [r])
    ∧ (n < 256 → bitAt s.fencedPcs n = false → ∃ u, exec (.fencePseudoChannel n) s = .next u ∧ u.mem = s.mem ∧ bitAt u.fencedPcs n = true)
    ∧ (n < 64 → bitAt s.fencedMarrow n = false → ((s.cluster (n / 8)).chunks.find? fun c => c.1 == n % 8) = none →
        exec (.fenceMarrowCore n) s = .next { s with fencedMarrow := s.fencedMarrow ||| 1#64 <<< n })
    ∧ (∀ c k j rest, n < 64 → bitAt s.fencedMarrow n = false → ((s.cluster (n / 8)).chunks.find? fun c => c.1 == n % 8) = some (c, k) →
        (s.cluster (n / 8)).fifo = j :: rest → j.ended + 1 ≠ j.nchunk → ∃ u, exec (.fenceMarrowCore n) s = .next u ∧ u.mem = s.mem
          ∧ bitAt u.fencedMarrow n = true ∧ (u.cluster (n / 8)).fifo = { j with ended := j.ended + 1, bad := j.bad ++ [k] } :: rest)
    ∧ (∃ u, exec .thermalTrip s = .next u ∧ u.tripped = true ∧ u.teams = [] ∧ ∀ y ∈ u.ports, y.up = false)

/-- R296, R299, R384-R389: the Nib's images, recovery, measurements, reset, configuration, and power.
Where the manual leaves a choice the statement takes that of log entries 6, 10 and 47. -/
def Obligations.BootEvents : Prop :=
  ∀ (s : State) (i : List Byte),
    (s.nibPend = none → (s.vfs.any fun v => v.preempt.isSome) = false → exec (.nibImageLoad i) s = .next
        (if imgVerifies s.fuses.nib i then { s with nibPend := some (imgParse (s.nib.serial + 1) i), quiet := true } else s))
    ∧ (s.nibPend ≠ none ∨ (s.vfs.any fun v => v.preempt.isSome) = true → exec (.nibImageLoad i) s = .next s)
    ∧ (∀ x, s.nibPend = some x → s.atQuiet = true → ∃ u, exec .nibSwitch s = .next u ∧ u.mem = s.mem ∧ u.nib = x ∧ u.nibPend = none ∧ u.quiet = false
        ∧ u.fuses.nib.arvMin = if bitAt x.flags 0 then max s.fuses.nib.arvMin x.arv else s.fuses.nib.arvMin)
    ∧ (s.recovery = true →
        (s.scribeOk = false → ∃ u, exec (.recoveryImage .scribe i) s = .next u
            ∧ u.scribeOk = Config.bootImageOk s.fuses.scribe.hashEd s.fuses.scribe.hashMl s.fuses.scribe.arvMin i
            ∧ u.scribeDigest = if u.scribeOk then Config.sha512 i else s.scribeDigest)
        ∧ (s.scribeOk = true → s.ccpOk = false → ∃ u, exec (.recoveryImage .ccp i) s = .next u
            ∧ u.ccpOk = Config.bootImageOk s.fuses.ccp.hashEd s.fuses.ccp.hashMl s.fuses.ccp.arvMin i
            ∧ u.ccpDigest = if u.ccpOk then Config.sha512 i else s.ccpDigest)
        ∧ (s.scribeOk = true → s.ccpOk = true → s.nibOk = false → ∃ u, exec (.recoveryImage .nib i) s = .next u
            ∧ u.nibOk = imgVerifies s.fuses.nib i ∧ u.nib = (if u.nibOk then imgParse (s.nib.serial + 1) i else s.nib)
            ∧ u.ready = u.nibOk ∧ u.recovery = !u.nibOk ∧ ∀ p ∈ u.ports, p.up = u.nibOk))
    ∧ (∀ n v, s.measurement n = some v → s.scribeOk = true → exec (.spdmRequest n) s = .next { s with
        out := .spdm n v (Config.spdmEd25519 s.fuses.secret v) (Config.spdmMldsa s.fuses.secret v) :: s.out })
    ∧ (∀ b : BringUp, ∃ u, exec (.moduleReset b) s = .next u ∧ u.mem = [] ∧ u.threads = [] ∧ u.teams = [] ∧ u.tripped = false ∧ u.clock = 0
        ∧ u.scribeOk = Config.bootImageOk s.fuses.scribe.hashEd s.fuses.scribe.hashMl s.fuses.scribe.arvMin b.scribe
        ∧ u.ccpOk = (u.scribeOk && Config.bootImageOk s.fuses.ccp.hashEd s.fuses.ccp.hashMl s.fuses.ccp.arvMin b.ccp)
        ∧ u.nibOk = (u.ccpOk && imgVerifies s.fuses.nib b.nib) ∧ u.ready = u.nibOk ∧ (u.recovery = !u.ready) ∧ (∀ p ∈ u.ports, p.up = u.ready)
        ∧ ∀ x ∈ b.failed, u.scribeOk = true → (x.1 = 1 → x.2 < 160 → bitAt u.fencedCores x.2 = true) ∧ (x.1 = 5 → x.2 < 64 → bitAt u.fencedMarrow x.2 = true))
    ∧ (∀ tag, exec (.configurationRequest tag) s = .next { s with out := .config tag (!s.ready) :: s.out })
    ∧ (∀ shares (duty : BitVec 9), ∃ u, exec (.powerGovernorTick shares duty) s = .next u ∧ { u with budgets := s.budgets, duty := s.duty } = s
        ∧ u.duty.toNat = max 1 (min 256 duty.toNat) ∧ ∀ p k, (u.budget p k).toNat % 512 ≤ (s.budget p k).toNat % 512)

/-- R18, R42, R369: the end of a clock in which no trace record or count of a segment waits to be written, and no host request to send its page
request. -/
def Obligations.ClockAdvance : Prop :=
  ∀ (s : State), (∀ c ∈ s.cores, (s.core c.idx).trace = []) → (∀ v ∈ s.vfs, v.headPend = []) → (∀ r ∈ s.hostReqs, r.wait ≠ .denied) → ∃ u, exec .arrivalAndOpenedAdvance s = .next u ∧ u.mem = s.mem ∧ u.threads = s.threads
    ∧ u.clock = s.clock + 1 ∧ ∀ c p, (u.part c p).pods = (s.part c p).pods.map fun x =>
        let w := x.waiting.map fun y => (y.1, min 65535 (y.2 + 1))
        { x with waiting := w, arrival := BitVec.ofNat 16 (w.foldl (fun m y => max m y.2) 0)
                 opened := if x.isOpen then BitVec.ofNat 16 (min 65535 (x.opened.toNat + 1)) else x.opened }

/-- R36, R320-R322: a system fault parks its thread at the resume point, changing nothing else of it; its first fault takes a token and
hands a record to the fault queue of the thread's function, and a later one of the same kind joins the token.
Where the manual leaves a choice the statement takes that of log entries 3 and 61. -/
def Obligations.SystemFaultParks : Prop :=
  ∀ (s : State) (th : Thread) (tm : Team) (cls code access : Nat) (va extra : DWord) (dump : Option Nat) (to_ : Target) (rec_ : FaultRec),
    s.thread? th.core th.part th.slot = some th → s.team? th.core th.team = some tm → cls ≠ 0x14 →
    rec_.ctx = tm.ctx → rec_.source = 0 → rec_.unit = th.core → rec_.cls = cls → rec_.code = code → rec_.access = access → rec_.va = va →
    let u := s.parkFault th cls code access va extra dump to_
    let parked (n : Nat) : Prop := ∃ x, u.thread? th.core th.part th.slot = some x ∧ x.life = .parked (.fault n) ∧ x.at_ = to_ ∧ x.data = th.data
    u.mem = s.mem ∧ u.teams = s.teams
    ∧ (s.findToken th.core rec_ = none → parked (s.nextId + 1)
        ∧ (∃ tk, u.token? (s.nextId + 1) = some tk ∧ tk.vf = vfOf tm.ctx ∧ tk.ctx = tm.ctx ∧ tk.cls = cls
            ∧ tk.page = (va.extractLsb' 12 44).setWidth 64 ∧ tk.threads = [(th.core, th.part, th.slot)])
        ∧ ∃ r, (u.vf (vfOf tm.ctx)).held = (s.vf (vfOf tm.ctx)).held ++ [r] ∧ r.va = va ∧ r.cls = cls ∧ r.code = code ∧ r.access = access
            ∧ r.source = 0 ∧ r.unit = th.core ∧ r.ctx = tm.ctx ∧ r.token = s.nextId + 1 ∧ r.pc = to_.key ∧ r.gindex = BitVec.ofNat 64 th.gindex
            ∧ r.behind = some (th.core, th.part, th.slot, s.nextId + 1))
    ∧ (∀ tk, s.findToken th.core rec_ = some tk → parked tk.num
        ∧ (u.vf (vfOf tm.ctx)).held = (s.vf (vfOf tm.ctx)).held
        ∧ ∃ x, u.token? tk.num = some x ∧ x.threads = tk.threads ++ [(th.core, th.part, th.slot)])

/-- R114-R116, R120: the word of every well-formed instruction decodes to it, with every operand at every value its field holds. -/
def Obligations.WordsRoundTrip : Prop := ∀ i : Instr, i.fields.isSome = true → i.wellFormed = true → decode (encode i) = some i

/-- R115, R116: a word that decodes is the word of the instruction it decodes to, so that no two words are one instruction and every bit
of a word is part of its meaning. -/
def Obligations.DecodedWordsAreTheirOwn : Prop :=
  ∀ (w : DWord) (i : Instr), decode w = some i → encode i = w ∧ i.wellFormed = true ∧ i.fields.isSome = true

/-- R114-R116, R118, R120: the words that the manual writes out decode to the instructions it gives, and those that it rejects decode to
none; so does a word of a form with a bit that R115 marks zero, and one of an unassigned OP. -/
def Obligations.ManualWordsDecode : Prop :=
  let p7 : Guard := ⟨false, 7⟩
  decode 0x3006E000040102FF = some (.fadd ⟨⟨false, 1⟩, ⟨true, 3⟩, 8, false, 0, 0, 4, 1, 2, 0xFF⟩)
  ∧ decode 0x005DC0000000000E = some (.bra ⟨p7, p7, 0, 14⟩)
  ∧ decode 0x24DDC181FFFFFFFE = some (.movi ⟨p7, p7, 6, 1, 0xFFFFFFFE⟩)
  ∧ decode 0x805DCC5004020000 = some (.st ⟨p7, p7, 3, false, 0, 0x50, 4, 2, 0⟩)
  ∧ decode 0xB05DC4330B020182 = some (.cpRed ⟨p7, p7, 1, false, 3, 1, true, 22, 8, 12, 2⟩)
  ∧ decode 0xB1DDC000F0500000 = some (.tlTest ⟨p7, p7, 0, false, false, 30, 20, 0, 0⟩)
  ∧ decode 0xD006E000040102FF = none ∧ decode 0x3006E00004010203 = none ∧ decode 0x3006F800040102FF = none
  ∧ (∀ w : DWord, (opOf w = 0x001 ∨ opOf w = 0x003) → w.extractLsb' 32 10 ≠ 0 → decode w = none)
  ∧ ∀ w : DWord, (opOf w).toNat = 0x011 ∨ 0x340 ≤ (opOf w).toNat ∧ (opOf w).toNat < 0x3C0 → decode w = none

/-- R27, R28, R121, R122: a step runs the next act of the agenda.  An event's act is `exec` of the event.  A stream's turn whose word
decodes to `i`, in a clause whose header has been checked or passes its checks, with no decode slot, debug test, mask or misplacement of R109 in its way, is
`exec i` with the word as the current one, followed by what comes after a word: the next word of the clause, or its end.
Where the manual leaves a choice the statement takes that of log entry 1. -/
def Obligations.StepRunsTheDecodedWord : Prop :=
  (∀ (s : State) (i : Instr) rest, s.agenda = .event i :: rest → step s = exec i { s with agenda := rest })
  ∧ (∀ s : State, s.agenda = [] → step s = .next s.refill)
  ∧ ∀ (s : State) (c p st : Nat) (rest : List Act) (k : Pack) (tm : Team) (hdr : DWord) (ws : List DWord) (pos : Nat) (i : Instr) (banks : List BankClaim),
    s.agenda = .issue c p st :: rest → ((s.part c p).stream st).pack = some k → s.team? c k.team = some tm → k.clause = some (hdr, ws) →
    (k.pos = some pos ∨ k.pos = none ∧ pos = k.start ∧ (readHeader hdr).bad = false
      ∧ ∀ t ∈ k.slots.filterMap (fun sl => s.thread? c p sl), t.badWait (readHeader hdr) = none ∧ t.flags &&& (readHeader hdr).wait = 0) →
    k.rewrite = [] → k.nib = 0 → k.serial = false → k.serialDone = false → s.quiet = false → isFirmware p = false →
    ((s.part c p).stream st).walking = false →
    let w := ws.getD pos 0
    let cur : Cur := ⟨c, p, st, k.hdr + BitVec.ofNat 64 (8 * pos + 8), w, hdr, k.hdr, pos, 0, w⟩
    let s0 := ({ s with agenda := rest }.onPart c p fun q => q.setStream { q.stream st with pack := some { k with pos := some pos } })
    let s1 := { s0 with cur := some cur }.onPart c p fun q => { q.claim w tm.packW s.clock with claims := q.claims ++ banks }
    let s2 := k.slots.foldl (fun s sl => s.onThread c p sl fun t => { t with bypass := false }) s1
    (s.part c p).unitFree (portOf w) s.clock = true → s.entryReady c p w tm (k.slots.filterMap fun sl => s.thread? c p sl) = true →
    (s.part c p).bankPlan w k.latches k.slots tm.packW st s.clock = some banks → k.skip = [] →
    ((k.slots.filterMap fun sl => s.thread? c p sl).any (s.ownWindow c)) = false →
    (∀ is, s1.issue (g0Of w) (g1Of w) = some is → s1.debugAll is = s1) → firstSlot s.nib.dec tm.ctx w hdr = none →
    decode w = some i → scaleMismatch tm i = false → masked (s.ctx tm.ctx).featmask w = false → (opOf w).toNat / 64 ≠ 0xF →
    badPlace i (readHeader hdr) (pos + 1 == (readHeader hdr).count) k.inRewrite tm.sg = false →
    (∀ u, exec i s2 = .next u → ((u.part c p).stream st).walking = false →
        step s = .next { (u.onPart c p fun q => q.setStream { q.stream st with faults := [] }).afterWord cur (st % 2) with cur := none })
    ∧ (∀ f, exec i s2 = .fault f → step s = .fault f) ∧ ∀ r, exec i s2 = .refused r → step s = .refused r

/-- R1, R47: bytes stored at a physical address read back from it, little-endian, every other byte reads as before, and memory keeps its
canonical form.
Where the manual leaves a choice the statement takes that of log entry 55. -/
def Obligations.StoresReadBack : Prop :=
  ∀ (s : State) (pa : Nat) (bs : List Byte), s.MemInv →
    (s.storeLine pa bs).MemInv ∧ (s.storeLine pa bs).bytes pa bs.length = bs
    ∧ (∀ a, (a < pa ∨ pa + bs.length ≤ a) → (s.storeLine pa bs).byte a = s.byte a)
    ∧ (∀ n i, i < n → s.byte (pa + i) = BitVec.ofNat 8 (s.num pa n / 256 ^ i))
    ∧ ∀ x n, x < 2 ^ (8 * n) → ((s.store pa (bytesOf n x)).num pa n = x) ∧ (s.store pa (bytesOf n x)).MemInv
        ∧ ∀ i, i < n → (s.store pa (bytesOf n x)).byte (pa + i) = BitVec.ofNat 8 (x / 256 ^ i)

/-- R289, R300, R311, R327, R346, R387, R389: what the manual gives for reset, with memory canonical and all zeros.
Where the manual leaves a choice the statement takes that of log entries 6 and 55. -/
def Obligations.ResetValues : Prop :=
  let s := State.reset
  s.MemInv ∧ (∀ a, s.byte a = 0) ∧ s.ready = true ∧ s.tripped = false ∧ s.duty = 256 ∧ s.pwrcap = 3200
  ∧ (∀ q, (s.queue q).enable = false ∧ (s.queue q).ctx = 0 ∧ (s.queue q).prio = 0 ∧ (s.queue q).log2n = 0 ∧ (s.queue q).vf = 0)
  ∧ (∀ c, (s.ctx c).agelim = 256 ∧ (s.ctx c).ctxerr = 0)
  ∧ (∀ p k, s.budget p k = 0x220)
  ∧ ∀ v, (s.vf v).wayMask = 0xFFFF ∧ (s.vf v).quill = 0 ∧ (s.vf v).clusters = 0 ∧ (s.vf v).psarea = 0 ∧ (s.vf v).pstat = 0

/-- Every step keeps memory in its canonical form: the addresses listed rise, and none of them holds what an unlisted one reads as.
Where the manual leaves a choice the statement takes that of log entry 55. -/
def Obligations.StepKeepsMemoryCanonical : Prop := ∀ s t : State, s.MemInv → step s = .next t → t.MemInv

/-- R388: a module that has tripped issues nothing until its next reset.  Its agenda, once it holds only what a tripped module does, never
holds anything else again; its threads stay as they are, but for the marks of soft errors in their frames (R352), no team comes to be, and it stays
tripped, unless the step is a module reset.
Where the manual leaves a choice the statement takes that of log entry 14. -/
def Obligations.TrippedStaysQuiet : Prop :=
  let inv (s : State) : Prop := s.tripped = true ∧ s.teams = [] ∧
    ∀ a ∈ s.agenda, a = .event .arrivalAndOpenedAdvance ∨ ∃ i, a = .event i ∧ takenTripped i = true
  ∀ s t : State, inv s → step s = .next t →
    (∃ b, s.agenda.head? = some (.event (.moduleReset b)))
      ∨ (inv t ∧ t.threads.map (fun x => { x with badRegs := [] }) = s.threads.map fun x => { x with badRegs := [] })
end

