-- ==== Sys2Proof/Laws/State.lean ====
section
/-! SUPPORT. One law per field per update of the state: an update of one part leaves every other part as it was. -/

namespace Sys2Proof.Machine

variable (s : State)

@[simp] theorem State.setThread_agenda (t : Thread) : (s.setThread t).agenda = s.agenda := rfl
@[simp] theorem State.setThread_inputs (t : Thread) : (s.setThread t).inputs = s.inputs := rfl
@[simp] theorem State.setThread_upsets (t : Thread) : (s.setThread t).upsets = s.upsets := rfl
@[simp] theorem State.setThread_cur (t : Thread) : (s.setThread t).cur = s.cur := rfl
@[simp] theorem State.setThread_fresh (t : Thread) : (s.setThread t).fresh = s.fresh := rfl
@[simp] theorem State.setThread_nextId (t : Thread) : (s.setThread t).nextId = s.nextId := rfl
@[simp] theorem State.setThread_clock (t : Thread) : (s.setThread t).clock = s.clock := rfl
@[simp] theorem State.setThread_mem (t : Thread) : (s.setThread t).mem = s.mem := rfl
@[simp] theorem State.setThread_poison (t : Thread) : (s.setThread t).poison = s.poison := rfl
@[simp] theorem State.setThread_parts (t : Thread) : (s.setThread t).parts = s.parts := rfl
@[simp] theorem State.setThread_teams (t : Thread) : (s.setThread t).teams = s.teams := rfl
@[simp] theorem State.setThread_cores (t : Thread) : (s.setThread t).cores = s.cores := rfl
@[simp] theorem State.setThread_chans (t : Thread) : (s.setThread t).chans = s.chans := rfl
@[simp] theorem State.setThread_ctxs (t : Thread) : (s.setThread t).ctxs = s.ctxs := rfl
@[simp] theorem State.setThread_grids (t : Thread) : (s.setThread t).grids = s.grids := rfl
@[simp] theorem State.setThread_queues (t : Thread) : (s.setThread t).queues = s.queues := rfl
@[simp] theorem State.setThread_vfs (t : Thread) : (s.setThread t).vfs = s.vfs := rfl
@[simp] theorem State.setThread_tokens (t : Thread) : (s.setThread t).tokens = s.tokens := rfl
@[simp] theorem State.setThread_walks (t : Thread) : (s.setThread t).walks = s.walks := rfl
@[simp] theorem State.setThread_brought (t : Thread) : (s.setThread t).brought = s.brought := rfl
@[simp] theorem State.setThread_granted (t : Thread) : (s.setThread t).granted = s.granted := rfl
@[simp] theorem State.setThread_regions (t : Thread) : (s.setThread t).regions = s.regions := rfl
@[simp] theorem State.setThread_nib (t : Thread) : (s.setThread t).nib = s.nib := rfl
@[simp] theorem State.setThread_hostReqs (t : Thread) : (s.setThread t).hostReqs = s.hostReqs := rfl
@[simp] theorem State.setThread_out (t : Thread) : (s.setThread t).out = s.out := rfl

@[simp] theorem State.dropThread_agenda (c p sl : Nat) : (s.dropThread c p sl).agenda = s.agenda := rfl
@[simp] theorem State.dropThread_inputs (c p sl : Nat) : (s.dropThread c p sl).inputs = s.inputs := rfl
@[simp] theorem State.dropThread_upsets (c p sl : Nat) : (s.dropThread c p sl).upsets = s.upsets := rfl
@[simp] theorem State.dropThread_cur (c p sl : Nat) : (s.dropThread c p sl).cur = s.cur := rfl
@[simp] theorem State.dropThread_fresh (c p sl : Nat) : (s.dropThread c p sl).fresh = s.fresh := rfl
@[simp] theorem State.dropThread_nextId (c p sl : Nat) : (s.dropThread c p sl).nextId = s.nextId := rfl
@[simp] theorem State.dropThread_clock (c p sl : Nat) : (s.dropThread c p sl).clock = s.clock := rfl
@[simp] theorem State.dropThread_mem (c p sl : Nat) : (s.dropThread c p sl).mem = s.mem := rfl
@[simp] theorem State.dropThread_poison (c p sl : Nat) : (s.dropThread c p sl).poison = s.poison := rfl
@[simp] theorem State.dropThread_parts (c p sl : Nat) : (s.dropThread c p sl).parts = s.parts := rfl
@[simp] theorem State.dropThread_teams (c p sl : Nat) : (s.dropThread c p sl).teams = s.teams := rfl
@[simp] theorem State.dropThread_cores (c p sl : Nat) : (s.dropThread c p sl).cores = s.cores := rfl
@[simp] theorem State.dropThread_chans (c p sl : Nat) : (s.dropThread c p sl).chans = s.chans := rfl
@[simp] theorem State.dropThread_ctxs (c p sl : Nat) : (s.dropThread c p sl).ctxs = s.ctxs := rfl
@[simp] theorem State.dropThread_grids (c p sl : Nat) : (s.dropThread c p sl).grids = s.grids := rfl
@[simp] theorem State.dropThread_queues (c p sl : Nat) : (s.dropThread c p sl).queues = s.queues := rfl
@[simp] theorem State.dropThread_vfs (c p sl : Nat) : (s.dropThread c p sl).vfs = s.vfs := rfl
@[simp] theorem State.dropThread_tokens (c p sl : Nat) : (s.dropThread c p sl).tokens = s.tokens := rfl
@[simp] theorem State.dropThread_walks (c p sl : Nat) : (s.dropThread c p sl).walks = s.walks := rfl
@[simp] theorem State.dropThread_brought (c p sl : Nat) : (s.dropThread c p sl).brought = s.brought := rfl
@[simp] theorem State.dropThread_granted (c p sl : Nat) : (s.dropThread c p sl).granted = s.granted := rfl
@[simp] theorem State.dropThread_regions (c p sl : Nat) : (s.dropThread c p sl).regions = s.regions := rfl
@[simp] theorem State.dropThread_nib (c p sl : Nat) : (s.dropThread c p sl).nib = s.nib := rfl
@[simp] theorem State.dropThread_hostReqs (c p sl : Nat) : (s.dropThread c p sl).hostReqs = s.hostReqs := rfl
@[simp] theorem State.dropThread_out (c p sl : Nat) : (s.dropThread c p sl).out = s.out := rfl

@[simp] theorem State.setPart_agenda (q : Part) : (s.setPart q).agenda = s.agenda := rfl
@[simp] theorem State.setPart_inputs (q : Part) : (s.setPart q).inputs = s.inputs := rfl
@[simp] theorem State.setPart_upsets (q : Part) : (s.setPart q).upsets = s.upsets := rfl
@[simp] theorem State.setPart_cur (q : Part) : (s.setPart q).cur = s.cur := rfl
@[simp] theorem State.setPart_fresh (q : Part) : (s.setPart q).fresh = s.fresh := rfl
@[simp] theorem State.setPart_nextId (q : Part) : (s.setPart q).nextId = s.nextId := rfl
@[simp] theorem State.setPart_clock (q : Part) : (s.setPart q).clock = s.clock := rfl
@[simp] theorem State.setPart_mem (q : Part) : (s.setPart q).mem = s.mem := rfl
@[simp] theorem State.setPart_poison (q : Part) : (s.setPart q).poison = s.poison := rfl
@[simp] theorem State.setPart_threads (q : Part) : (s.setPart q).threads = s.threads := rfl
@[simp] theorem State.setPart_teams (q : Part) : (s.setPart q).teams = s.teams := rfl
@[simp] theorem State.setPart_cores (q : Part) : (s.setPart q).cores = s.cores := rfl
@[simp] theorem State.setPart_chans (q : Part) : (s.setPart q).chans = s.chans := rfl
@[simp] theorem State.setPart_ctxs (q : Part) : (s.setPart q).ctxs = s.ctxs := rfl
@[simp] theorem State.setPart_grids (q : Part) : (s.setPart q).grids = s.grids := rfl
@[simp] theorem State.setPart_queues (q : Part) : (s.setPart q).queues = s.queues := rfl
@[simp] theorem State.setPart_vfs (q : Part) : (s.setPart q).vfs = s.vfs := rfl
@[simp] theorem State.setPart_tokens (q : Part) : (s.setPart q).tokens = s.tokens := rfl
@[simp] theorem State.setPart_walks (q : Part) : (s.setPart q).walks = s.walks := rfl
@[simp] theorem State.setPart_brought (q : Part) : (s.setPart q).brought = s.brought := rfl
@[simp] theorem State.setPart_granted (q : Part) : (s.setPart q).granted = s.granted := rfl
@[simp] theorem State.setPart_regions (q : Part) : (s.setPart q).regions = s.regions := rfl
@[simp] theorem State.setPart_nib (q : Part) : (s.setPart q).nib = s.nib := rfl
@[simp] theorem State.setPart_hostReqs (q : Part) : (s.setPart q).hostReqs = s.hostReqs := rfl
@[simp] theorem State.setPart_out (q : Part) : (s.setPart q).out = s.out := rfl

@[simp] theorem State.onPart_agenda (c p : Nat) (f : Part → Part) : (s.onPart c p f).agenda = s.agenda := rfl
@[simp] theorem State.onPart_inputs (c p : Nat) (f : Part → Part) : (s.onPart c p f).inputs = s.inputs := rfl
@[simp] theorem State.onPart_upsets (c p : Nat) (f : Part → Part) : (s.onPart c p f).upsets = s.upsets := rfl
@[simp] theorem State.onPart_cur (c p : Nat) (f : Part → Part) : (s.onPart c p f).cur = s.cur := rfl
@[simp] theorem State.onPart_fresh (c p : Nat) (f : Part → Part) : (s.onPart c p f).fresh = s.fresh := rfl
@[simp] theorem State.onPart_nextId (c p : Nat) (f : Part → Part) : (s.onPart c p f).nextId = s.nextId := rfl
@[simp] theorem State.onPart_clock (c p : Nat) (f : Part → Part) : (s.onPart c p f).clock = s.clock := rfl
@[simp] theorem State.onPart_mem (c p : Nat) (f : Part → Part) : (s.onPart c p f).mem = s.mem := rfl
@[simp] theorem State.onPart_poison (c p : Nat) (f : Part → Part) : (s.onPart c p f).poison = s.poison := rfl
@[simp] theorem State.onPart_threads (c p : Nat) (f : Part → Part) : (s.onPart c p f).threads = s.threads := rfl
@[simp] theorem State.onPart_teams (c p : Nat) (f : Part → Part) : (s.onPart c p f).teams = s.teams := rfl
@[simp] theorem State.onPart_cores (c p : Nat) (f : Part → Part) : (s.onPart c p f).cores = s.cores := rfl
@[simp] theorem State.onPart_chans (c p : Nat) (f : Part → Part) : (s.onPart c p f).chans = s.chans := rfl
@[simp] theorem State.onPart_ctxs (c p : Nat) (f : Part → Part) : (s.onPart c p f).ctxs = s.ctxs := rfl
@[simp] theorem State.onPart_grids (c p : Nat) (f : Part → Part) : (s.onPart c p f).grids = s.grids := rfl
@[simp] theorem State.onPart_queues (c p : Nat) (f : Part → Part) : (s.onPart c p f).queues = s.queues := rfl
@[simp] theorem State.onPart_vfs (c p : Nat) (f : Part → Part) : (s.onPart c p f).vfs = s.vfs := rfl
@[simp] theorem State.onPart_tokens (c p : Nat) (f : Part → Part) : (s.onPart c p f).tokens = s.tokens := rfl
@[simp] theorem State.onPart_walks (c p : Nat) (f : Part → Part) : (s.onPart c p f).walks = s.walks := rfl
@[simp] theorem State.onPart_brought (c p : Nat) (f : Part → Part) : (s.onPart c p f).brought = s.brought := rfl
@[simp] theorem State.onPart_granted (c p : Nat) (f : Part → Part) : (s.onPart c p f).granted = s.granted := rfl
@[simp] theorem State.onPart_regions (c p : Nat) (f : Part → Part) : (s.onPart c p f).regions = s.regions := rfl
@[simp] theorem State.onPart_nib (c p : Nat) (f : Part → Part) : (s.onPart c p f).nib = s.nib := rfl
@[simp] theorem State.onPart_hostReqs (c p : Nat) (f : Part → Part) : (s.onPart c p f).hostReqs = s.hostReqs := rfl
@[simp] theorem State.onPart_out (c p : Nat) (f : Part → Part) : (s.onPart c p f).out = s.out := rfl

@[simp] theorem State.setTeam_agenda (t : Team) : (s.setTeam t).agenda = s.agenda := rfl
@[simp] theorem State.setTeam_inputs (t : Team) : (s.setTeam t).inputs = s.inputs := rfl
@[simp] theorem State.setTeam_upsets (t : Team) : (s.setTeam t).upsets = s.upsets := rfl
@[simp] theorem State.setTeam_cur (t : Team) : (s.setTeam t).cur = s.cur := rfl
@[simp] theorem State.setTeam_fresh (t : Team) : (s.setTeam t).fresh = s.fresh := rfl
@[simp] theorem State.setTeam_nextId (t : Team) : (s.setTeam t).nextId = s.nextId := rfl
@[simp] theorem State.setTeam_clock (t : Team) : (s.setTeam t).clock = s.clock := rfl
@[simp] theorem State.setTeam_mem (t : Team) : (s.setTeam t).mem = s.mem := rfl
@[simp] theorem State.setTeam_poison (t : Team) : (s.setTeam t).poison = s.poison := rfl
@[simp] theorem State.setTeam_threads (t : Team) : (s.setTeam t).threads = s.threads := rfl
@[simp] theorem State.setTeam_parts (t : Team) : (s.setTeam t).parts = s.parts := rfl
@[simp] theorem State.setTeam_cores (t : Team) : (s.setTeam t).cores = s.cores := rfl
@[simp] theorem State.setTeam_chans (t : Team) : (s.setTeam t).chans = s.chans := rfl
@[simp] theorem State.setTeam_ctxs (t : Team) : (s.setTeam t).ctxs = s.ctxs := rfl
@[simp] theorem State.setTeam_grids (t : Team) : (s.setTeam t).grids = s.grids := rfl
@[simp] theorem State.setTeam_queues (t : Team) : (s.setTeam t).queues = s.queues := rfl
@[simp] theorem State.setTeam_vfs (t : Team) : (s.setTeam t).vfs = s.vfs := rfl
@[simp] theorem State.setTeam_tokens (t : Team) : (s.setTeam t).tokens = s.tokens := rfl
@[simp] theorem State.setTeam_walks (t : Team) : (s.setTeam t).walks = s.walks := rfl
@[simp] theorem State.setTeam_brought (t : Team) : (s.setTeam t).brought = s.brought := rfl
@[simp] theorem State.setTeam_granted (t : Team) : (s.setTeam t).granted = s.granted := rfl
@[simp] theorem State.setTeam_regions (t : Team) : (s.setTeam t).regions = s.regions := rfl
@[simp] theorem State.setTeam_nib (t : Team) : (s.setTeam t).nib = s.nib := rfl
@[simp] theorem State.setTeam_hostReqs (t : Team) : (s.setTeam t).hostReqs = s.hostReqs := rfl
@[simp] theorem State.setTeam_out (t : Team) : (s.setTeam t).out = s.out := rfl

@[simp] theorem State.setCore_agenda (c : Core) : (s.setCore c).agenda = s.agenda := rfl
@[simp] theorem State.setCore_inputs (c : Core) : (s.setCore c).inputs = s.inputs := rfl
@[simp] theorem State.setCore_upsets (c : Core) : (s.setCore c).upsets = s.upsets := rfl
@[simp] theorem State.setCore_cur (c : Core) : (s.setCore c).cur = s.cur := rfl
@[simp] theorem State.setCore_fresh (c : Core) : (s.setCore c).fresh = s.fresh := rfl
@[simp] theorem State.setCore_nextId (c : Core) : (s.setCore c).nextId = s.nextId := rfl
@[simp] theorem State.setCore_clock (c : Core) : (s.setCore c).clock = s.clock := rfl
@[simp] theorem State.setCore_mem (c : Core) : (s.setCore c).mem = s.mem := rfl
@[simp] theorem State.setCore_poison (c : Core) : (s.setCore c).poison = s.poison := rfl
@[simp] theorem State.setCore_threads (c : Core) : (s.setCore c).threads = s.threads := rfl
@[simp] theorem State.setCore_parts (c : Core) : (s.setCore c).parts = s.parts := rfl
@[simp] theorem State.setCore_teams (c : Core) : (s.setCore c).teams = s.teams := rfl
@[simp] theorem State.setCore_chans (c : Core) : (s.setCore c).chans = s.chans := rfl
@[simp] theorem State.setCore_ctxs (c : Core) : (s.setCore c).ctxs = s.ctxs := rfl
@[simp] theorem State.setCore_grids (c : Core) : (s.setCore c).grids = s.grids := rfl
@[simp] theorem State.setCore_queues (c : Core) : (s.setCore c).queues = s.queues := rfl
@[simp] theorem State.setCore_vfs (c : Core) : (s.setCore c).vfs = s.vfs := rfl
@[simp] theorem State.setCore_tokens (c : Core) : (s.setCore c).tokens = s.tokens := rfl
@[simp] theorem State.setCore_walks (c : Core) : (s.setCore c).walks = s.walks := rfl
@[simp] theorem State.setCore_brought (c : Core) : (s.setCore c).brought = s.brought := rfl
@[simp] theorem State.setCore_granted (c : Core) : (s.setCore c).granted = s.granted := rfl
@[simp] theorem State.setCore_regions (c : Core) : (s.setCore c).regions = s.regions := rfl
@[simp] theorem State.setCore_nib (c : Core) : (s.setCore c).nib = s.nib := rfl
@[simp] theorem State.setCore_hostReqs (c : Core) : (s.setCore c).hostReqs = s.hostReqs := rfl
@[simp] theorem State.setCore_out (c : Core) : (s.setCore c).out = s.out := rfl

@[simp] theorem State.onCore_agenda (n : Nat) (f : Core → Core) : (s.onCore n f).agenda = s.agenda := rfl
@[simp] theorem State.onCore_inputs (n : Nat) (f : Core → Core) : (s.onCore n f).inputs = s.inputs := rfl
@[simp] theorem State.onCore_upsets (n : Nat) (f : Core → Core) : (s.onCore n f).upsets = s.upsets := rfl
@[simp] theorem State.onCore_cur (n : Nat) (f : Core → Core) : (s.onCore n f).cur = s.cur := rfl
@[simp] theorem State.onCore_fresh (n : Nat) (f : Core → Core) : (s.onCore n f).fresh = s.fresh := rfl
@[simp] theorem State.onCore_nextId (n : Nat) (f : Core → Core) : (s.onCore n f).nextId = s.nextId := rfl
@[simp] theorem State.onCore_clock (n : Nat) (f : Core → Core) : (s.onCore n f).clock = s.clock := rfl
@[simp] theorem State.onCore_mem (n : Nat) (f : Core → Core) : (s.onCore n f).mem = s.mem := rfl
@[simp] theorem State.onCore_poison (n : Nat) (f : Core → Core) : (s.onCore n f).poison = s.poison := rfl
@[simp] theorem State.onCore_threads (n : Nat) (f : Core → Core) : (s.onCore n f).threads = s.threads := rfl
@[simp] theorem State.onCore_parts (n : Nat) (f : Core → Core) : (s.onCore n f).parts = s.parts := rfl
@[simp] theorem State.onCore_teams (n : Nat) (f : Core → Core) : (s.onCore n f).teams = s.teams := rfl
@[simp] theorem State.onCore_chans (n : Nat) (f : Core → Core) : (s.onCore n f).chans = s.chans := rfl
@[simp] theorem State.onCore_ctxs (n : Nat) (f : Core → Core) : (s.onCore n f).ctxs = s.ctxs := rfl
@[simp] theorem State.onCore_grids (n : Nat) (f : Core → Core) : (s.onCore n f).grids = s.grids := rfl
@[simp] theorem State.onCore_queues (n : Nat) (f : Core → Core) : (s.onCore n f).queues = s.queues := rfl
@[simp] theorem State.onCore_vfs (n : Nat) (f : Core → Core) : (s.onCore n f).vfs = s.vfs := rfl
@[simp] theorem State.onCore_tokens (n : Nat) (f : Core → Core) : (s.onCore n f).tokens = s.tokens := rfl
@[simp] theorem State.onCore_walks (n : Nat) (f : Core → Core) : (s.onCore n f).walks = s.walks := rfl
@[simp] theorem State.onCore_brought (n : Nat) (f : Core → Core) : (s.onCore n f).brought = s.brought := rfl
@[simp] theorem State.onCore_granted (n : Nat) (f : Core → Core) : (s.onCore n f).granted = s.granted := rfl
@[simp] theorem State.onCore_regions (n : Nat) (f : Core → Core) : (s.onCore n f).regions = s.regions := rfl
@[simp] theorem State.onCore_nib (n : Nat) (f : Core → Core) : (s.onCore n f).nib = s.nib := rfl
@[simp] theorem State.onCore_hostReqs (n : Nat) (f : Core → Core) : (s.onCore n f).hostReqs = s.hostReqs := rfl
@[simp] theorem State.onCore_out (n : Nat) (f : Core → Core) : (s.onCore n f).out = s.out := rfl

@[simp] theorem State.setCtx_agenda (c : Ctx) : (s.setCtx c).agenda = s.agenda := rfl
@[simp] theorem State.setCtx_inputs (c : Ctx) : (s.setCtx c).inputs = s.inputs := rfl
@[simp] theorem State.setCtx_upsets (c : Ctx) : (s.setCtx c).upsets = s.upsets := rfl
@[simp] theorem State.setCtx_cur (c : Ctx) : (s.setCtx c).cur = s.cur := rfl
@[simp] theorem State.setCtx_fresh (c : Ctx) : (s.setCtx c).fresh = s.fresh := rfl
@[simp] theorem State.setCtx_nextId (c : Ctx) : (s.setCtx c).nextId = s.nextId := rfl
@[simp] theorem State.setCtx_clock (c : Ctx) : (s.setCtx c).clock = s.clock := rfl
@[simp] theorem State.setCtx_mem (c : Ctx) : (s.setCtx c).mem = s.mem := rfl
@[simp] theorem State.setCtx_poison (c : Ctx) : (s.setCtx c).poison = s.poison := rfl
@[simp] theorem State.setCtx_threads (c : Ctx) : (s.setCtx c).threads = s.threads := rfl
@[simp] theorem State.setCtx_parts (c : Ctx) : (s.setCtx c).parts = s.parts := rfl
@[simp] theorem State.setCtx_teams (c : Ctx) : (s.setCtx c).teams = s.teams := rfl
@[simp] theorem State.setCtx_cores (c : Ctx) : (s.setCtx c).cores = s.cores := rfl
@[simp] theorem State.setCtx_chans (c : Ctx) : (s.setCtx c).chans = s.chans := rfl
@[simp] theorem State.setCtx_grids (c : Ctx) : (s.setCtx c).grids = s.grids := rfl
@[simp] theorem State.setCtx_queues (c : Ctx) : (s.setCtx c).queues = s.queues := rfl
@[simp] theorem State.setCtx_vfs (c : Ctx) : (s.setCtx c).vfs = s.vfs := rfl
@[simp] theorem State.setCtx_tokens (c : Ctx) : (s.setCtx c).tokens = s.tokens := rfl
@[simp] theorem State.setCtx_walks (c : Ctx) : (s.setCtx c).walks = s.walks := rfl
@[simp] theorem State.setCtx_brought (c : Ctx) : (s.setCtx c).brought = s.brought := rfl
@[simp] theorem State.setCtx_granted (c : Ctx) : (s.setCtx c).granted = s.granted := rfl
@[simp] theorem State.setCtx_regions (c : Ctx) : (s.setCtx c).regions = s.regions := rfl
@[simp] theorem State.setCtx_nib (c : Ctx) : (s.setCtx c).nib = s.nib := rfl
@[simp] theorem State.setCtx_hostReqs (c : Ctx) : (s.setCtx c).hostReqs = s.hostReqs := rfl
@[simp] theorem State.setCtx_out (c : Ctx) : (s.setCtx c).out = s.out := rfl

@[simp] theorem State.onCtx_agenda (n : Nat) (f : Ctx → Ctx) : (s.onCtx n f).agenda = s.agenda := rfl
@[simp] theorem State.onCtx_inputs (n : Nat) (f : Ctx → Ctx) : (s.onCtx n f).inputs = s.inputs := rfl
@[simp] theorem State.onCtx_upsets (n : Nat) (f : Ctx → Ctx) : (s.onCtx n f).upsets = s.upsets := rfl
@[simp] theorem State.onCtx_cur (n : Nat) (f : Ctx → Ctx) : (s.onCtx n f).cur = s.cur := rfl
@[simp] theorem State.onCtx_fresh (n : Nat) (f : Ctx → Ctx) : (s.onCtx n f).fresh = s.fresh := rfl
@[simp] theorem State.onCtx_nextId (n : Nat) (f : Ctx → Ctx) : (s.onCtx n f).nextId = s.nextId := rfl
@[simp] theorem State.onCtx_clock (n : Nat) (f : Ctx → Ctx) : (s.onCtx n f).clock = s.clock := rfl
@[simp] theorem State.onCtx_mem (n : Nat) (f : Ctx → Ctx) : (s.onCtx n f).mem = s.mem := rfl
@[simp] theorem State.onCtx_poison (n : Nat) (f : Ctx → Ctx) : (s.onCtx n f).poison = s.poison := rfl
@[simp] theorem State.onCtx_threads (n : Nat) (f : Ctx → Ctx) : (s.onCtx n f).threads = s.threads := rfl
@[simp] theorem State.onCtx_parts (n : Nat) (f : Ctx → Ctx) : (s.onCtx n f).parts = s.parts := rfl
@[simp] theorem State.onCtx_teams (n : Nat) (f : Ctx → Ctx) : (s.onCtx n f).teams = s.teams := rfl
@[simp] theorem State.onCtx_cores (n : Nat) (f : Ctx → Ctx) : (s.onCtx n f).cores = s.cores := rfl
@[simp] theorem State.onCtx_chans (n : Nat) (f : Ctx → Ctx) : (s.onCtx n f).chans = s.chans := rfl
@[simp] theorem State.onCtx_grids (n : Nat) (f : Ctx → Ctx) : (s.onCtx n f).grids = s.grids := rfl
@[simp] theorem State.onCtx_queues (n : Nat) (f : Ctx → Ctx) : (s.onCtx n f).queues = s.queues := rfl
@[simp] theorem State.onCtx_vfs (n : Nat) (f : Ctx → Ctx) : (s.onCtx n f).vfs = s.vfs := rfl
@[simp] theorem State.onCtx_tokens (n : Nat) (f : Ctx → Ctx) : (s.onCtx n f).tokens = s.tokens := rfl
@[simp] theorem State.onCtx_walks (n : Nat) (f : Ctx → Ctx) : (s.onCtx n f).walks = s.walks := rfl
@[simp] theorem State.onCtx_brought (n : Nat) (f : Ctx → Ctx) : (s.onCtx n f).brought = s.brought := rfl
@[simp] theorem State.onCtx_granted (n : Nat) (f : Ctx → Ctx) : (s.onCtx n f).granted = s.granted := rfl
@[simp] theorem State.onCtx_regions (n : Nat) (f : Ctx → Ctx) : (s.onCtx n f).regions = s.regions := rfl
@[simp] theorem State.onCtx_nib (n : Nat) (f : Ctx → Ctx) : (s.onCtx n f).nib = s.nib := rfl
@[simp] theorem State.onCtx_hostReqs (n : Nat) (f : Ctx → Ctx) : (s.onCtx n f).hostReqs = s.hostReqs := rfl
@[simp] theorem State.onCtx_out (n : Nat) (f : Ctx → Ctx) : (s.onCtx n f).out = s.out := rfl

@[simp] theorem State.setGrid_agenda (g : Grid) : (s.setGrid g).agenda = s.agenda := rfl
@[simp] theorem State.setGrid_inputs (g : Grid) : (s.setGrid g).inputs = s.inputs := rfl
@[simp] theorem State.setGrid_upsets (g : Grid) : (s.setGrid g).upsets = s.upsets := rfl
@[simp] theorem State.setGrid_cur (g : Grid) : (s.setGrid g).cur = s.cur := rfl
@[simp] theorem State.setGrid_fresh (g : Grid) : (s.setGrid g).fresh = s.fresh := rfl
@[simp] theorem State.setGrid_nextId (g : Grid) : (s.setGrid g).nextId = s.nextId := rfl
@[simp] theorem State.setGrid_clock (g : Grid) : (s.setGrid g).clock = s.clock := rfl
@[simp] theorem State.setGrid_mem (g : Grid) : (s.setGrid g).mem = s.mem := rfl
@[simp] theorem State.setGrid_poison (g : Grid) : (s.setGrid g).poison = s.poison := rfl
@[simp] theorem State.setGrid_threads (g : Grid) : (s.setGrid g).threads = s.threads := rfl
@[simp] theorem State.setGrid_parts (g : Grid) : (s.setGrid g).parts = s.parts := rfl
@[simp] theorem State.setGrid_teams (g : Grid) : (s.setGrid g).teams = s.teams := rfl
@[simp] theorem State.setGrid_cores (g : Grid) : (s.setGrid g).cores = s.cores := rfl
@[simp] theorem State.setGrid_chans (g : Grid) : (s.setGrid g).chans = s.chans := rfl
@[simp] theorem State.setGrid_ctxs (g : Grid) : (s.setGrid g).ctxs = s.ctxs := rfl
@[simp] theorem State.setGrid_queues (g : Grid) : (s.setGrid g).queues = s.queues := rfl
@[simp] theorem State.setGrid_vfs (g : Grid) : (s.setGrid g).vfs = s.vfs := rfl
@[simp] theorem State.setGrid_tokens (g : Grid) : (s.setGrid g).tokens = s.tokens := rfl
@[simp] theorem State.setGrid_walks (g : Grid) : (s.setGrid g).walks = s.walks := rfl
@[simp] theorem State.setGrid_brought (g : Grid) : (s.setGrid g).brought = s.brought := rfl
@[simp] theorem State.setGrid_granted (g : Grid) : (s.setGrid g).granted = s.granted := rfl
@[simp] theorem State.setGrid_regions (g : Grid) : (s.setGrid g).regions = s.regions := rfl
@[simp] theorem State.setGrid_nib (g : Grid) : (s.setGrid g).nib = s.nib := rfl
@[simp] theorem State.setGrid_hostReqs (g : Grid) : (s.setGrid g).hostReqs = s.hostReqs := rfl
@[simp] theorem State.setGrid_out (g : Grid) : (s.setGrid g).out = s.out := rfl

@[simp] theorem State.setQueue_agenda (q : Queue) : (s.setQueue q).agenda = s.agenda := rfl
@[simp] theorem State.setQueue_inputs (q : Queue) : (s.setQueue q).inputs = s.inputs := rfl
@[simp] theorem State.setQueue_upsets (q : Queue) : (s.setQueue q).upsets = s.upsets := rfl
@[simp] theorem State.setQueue_cur (q : Queue) : (s.setQueue q).cur = s.cur := rfl
@[simp] theorem State.setQueue_fresh (q : Queue) : (s.setQueue q).fresh = s.fresh := rfl
@[simp] theorem State.setQueue_nextId (q : Queue) : (s.setQueue q).nextId = s.nextId := rfl
@[simp] theorem State.setQueue_clock (q : Queue) : (s.setQueue q).clock = s.clock := rfl
@[simp] theorem State.setQueue_mem (q : Queue) : (s.setQueue q).mem = s.mem := rfl
@[simp] theorem State.setQueue_poison (q : Queue) : (s.setQueue q).poison = s.poison := rfl
@[simp] theorem State.setQueue_threads (q : Queue) : (s.setQueue q).threads = s.threads := rfl
@[simp] theorem State.setQueue_parts (q : Queue) : (s.setQueue q).parts = s.parts := rfl
@[simp] theorem State.setQueue_teams (q : Queue) : (s.setQueue q).teams = s.teams := rfl
@[simp] theorem State.setQueue_cores (q : Queue) : (s.setQueue q).cores = s.cores := rfl
@[simp] theorem State.setQueue_chans (q : Queue) : (s.setQueue q).chans = s.chans := rfl
@[simp] theorem State.setQueue_ctxs (q : Queue) : (s.setQueue q).ctxs = s.ctxs := rfl
@[simp] theorem State.setQueue_grids (q : Queue) : (s.setQueue q).grids = s.grids := rfl
@[simp] theorem State.setQueue_vfs (q : Queue) : (s.setQueue q).vfs = s.vfs := rfl
@[simp] theorem State.setQueue_tokens (q : Queue) : (s.setQueue q).tokens = s.tokens := rfl
@[simp] theorem State.setQueue_walks (q : Queue) : (s.setQueue q).walks = s.walks := rfl
@[simp] theorem State.setQueue_brought (q : Queue) : (s.setQueue q).brought = s.brought := rfl
@[simp] theorem State.setQueue_granted (q : Queue) : (s.setQueue q).granted = s.granted := rfl
@[simp] theorem State.setQueue_regions (q : Queue) : (s.setQueue q).regions = s.regions := rfl
@[simp] theorem State.setQueue_nib (q : Queue) : (s.setQueue q).nib = s.nib := rfl
@[simp] theorem State.setQueue_hostReqs (q : Queue) : (s.setQueue q).hostReqs = s.hostReqs := rfl
@[simp] theorem State.setQueue_out (q : Queue) : (s.setQueue q).out = s.out := rfl

@[simp] theorem State.onQueue_agenda (n : Nat) (f : Queue → Queue) : (s.onQueue n f).agenda = s.agenda := rfl
@[simp] theorem State.onQueue_inputs (n : Nat) (f : Queue → Queue) : (s.onQueue n f).inputs = s.inputs := rfl
@[simp] theorem State.onQueue_upsets (n : Nat) (f : Queue → Queue) : (s.onQueue n f).upsets = s.upsets := rfl
@[simp] theorem State.onQueue_cur (n : Nat) (f : Queue → Queue) : (s.onQueue n f).cur = s.cur := rfl
@[simp] theorem State.onQueue_fresh (n : Nat) (f : Queue → Queue) : (s.onQueue n f).fresh = s.fresh := rfl
@[simp] theorem State.onQueue_nextId (n : Nat) (f : Queue → Queue) : (s.onQueue n f).nextId = s.nextId := rfl
@[simp] theorem State.onQueue_clock (n : Nat) (f : Queue → Queue) : (s.onQueue n f).clock = s.clock := rfl
@[simp] theorem State.onQueue_mem (n : Nat) (f : Queue → Queue) : (s.onQueue n f).mem = s.mem := rfl
@[simp] theorem State.onQueue_poison (n : Nat) (f : Queue → Queue) : (s.onQueue n f).poison = s.poison := rfl
@[simp] theorem State.onQueue_threads (n : Nat) (f : Queue → Queue) : (s.onQueue n f).threads = s.threads := rfl
@[simp] theorem State.onQueue_parts (n : Nat) (f : Queue → Queue) : (s.onQueue n f).parts = s.parts := rfl
@[simp] theorem State.onQueue_teams (n : Nat) (f : Queue → Queue) : (s.onQueue n f).teams = s.teams := rfl
@[simp] theorem State.onQueue_cores (n : Nat) (f : Queue → Queue) : (s.onQueue n f).cores = s.cores := rfl
@[simp] theorem State.onQueue_chans (n : Nat) (f : Queue → Queue) : (s.onQueue n f).chans = s.chans := rfl
@[simp] theorem State.onQueue_ctxs (n : Nat) (f : Queue → Queue) : (s.onQueue n f).ctxs = s.ctxs := rfl
@[simp] theorem State.onQueue_grids (n : Nat) (f : Queue → Queue) : (s.onQueue n f).grids = s.grids := rfl
@[simp] theorem State.onQueue_vfs (n : Nat) (f : Queue → Queue) : (s.onQueue n f).vfs = s.vfs := rfl
@[simp] theorem State.onQueue_tokens (n : Nat) (f : Queue → Queue) : (s.onQueue n f).tokens = s.tokens := rfl
@[simp] theorem State.onQueue_walks (n : Nat) (f : Queue → Queue) : (s.onQueue n f).walks = s.walks := rfl
@[simp] theorem State.onQueue_brought (n : Nat) (f : Queue → Queue) : (s.onQueue n f).brought = s.brought := rfl
@[simp] theorem State.onQueue_granted (n : Nat) (f : Queue → Queue) : (s.onQueue n f).granted = s.granted := rfl
@[simp] theorem State.onQueue_regions (n : Nat) (f : Queue → Queue) : (s.onQueue n f).regions = s.regions := rfl
@[simp] theorem State.onQueue_nib (n : Nat) (f : Queue → Queue) : (s.onQueue n f).nib = s.nib := rfl
@[simp] theorem State.onQueue_hostReqs (n : Nat) (f : Queue → Queue) : (s.onQueue n f).hostReqs = s.hostReqs := rfl
@[simp] theorem State.onQueue_out (n : Nat) (f : Queue → Queue) : (s.onQueue n f).out = s.out := rfl

@[simp] theorem State.setVf_agenda (v : Vf) : (s.setVf v).agenda = s.agenda := rfl
@[simp] theorem State.setVf_inputs (v : Vf) : (s.setVf v).inputs = s.inputs := rfl
@[simp] theorem State.setVf_upsets (v : Vf) : (s.setVf v).upsets = s.upsets := rfl
@[simp] theorem State.setVf_cur (v : Vf) : (s.setVf v).cur = s.cur := rfl
@[simp] theorem State.setVf_fresh (v : Vf) : (s.setVf v).fresh = s.fresh := rfl
@[simp] theorem State.setVf_nextId (v : Vf) : (s.setVf v).nextId = s.nextId := rfl
@[simp] theorem State.setVf_clock (v : Vf) : (s.setVf v).clock = s.clock := rfl
@[simp] theorem State.setVf_mem (v : Vf) : (s.setVf v).mem = s.mem := rfl
@[simp] theorem State.setVf_poison (v : Vf) : (s.setVf v).poison = s.poison := rfl
@[simp] theorem State.setVf_threads (v : Vf) : (s.setVf v).threads = s.threads := rfl
@[simp] theorem State.setVf_parts (v : Vf) : (s.setVf v).parts = s.parts := rfl
@[simp] theorem State.setVf_teams (v : Vf) : (s.setVf v).teams = s.teams := rfl
@[simp] theorem State.setVf_cores (v : Vf) : (s.setVf v).cores = s.cores := rfl
@[simp] theorem State.setVf_chans (v : Vf) : (s.setVf v).chans = s.chans := rfl
@[simp] theorem State.setVf_ctxs (v : Vf) : (s.setVf v).ctxs = s.ctxs := rfl
@[simp] theorem State.setVf_grids (v : Vf) : (s.setVf v).grids = s.grids := rfl
@[simp] theorem State.setVf_queues (v : Vf) : (s.setVf v).queues = s.queues := rfl
@[simp] theorem State.setVf_tokens (v : Vf) : (s.setVf v).tokens = s.tokens := rfl
@[simp] theorem State.setVf_walks (v : Vf) : (s.setVf v).walks = s.walks := rfl
@[simp] theorem State.setVf_brought (v : Vf) : (s.setVf v).brought = s.brought := rfl
@[simp] theorem State.setVf_granted (v : Vf) : (s.setVf v).granted = s.granted := rfl
@[simp] theorem State.setVf_regions (v : Vf) : (s.setVf v).regions = s.regions := rfl
@[simp] theorem State.setVf_nib (v : Vf) : (s.setVf v).nib = s.nib := rfl
@[simp] theorem State.setVf_hostReqs (v : Vf) : (s.setVf v).hostReqs = s.hostReqs := rfl
@[simp] theorem State.setVf_out (v : Vf) : (s.setVf v).out = s.out := rfl

@[simp] theorem State.onVf_agenda (n : Nat) (f : Vf → Vf) : (s.onVf n f).agenda = s.agenda := rfl
@[simp] theorem State.onVf_inputs (n : Nat) (f : Vf → Vf) : (s.onVf n f).inputs = s.inputs := rfl
@[simp] theorem State.onVf_upsets (n : Nat) (f : Vf → Vf) : (s.onVf n f).upsets = s.upsets := rfl
@[simp] theorem State.onVf_cur (n : Nat) (f : Vf → Vf) : (s.onVf n f).cur = s.cur := rfl
@[simp] theorem State.onVf_fresh (n : Nat) (f : Vf → Vf) : (s.onVf n f).fresh = s.fresh := rfl
@[simp] theorem State.onVf_nextId (n : Nat) (f : Vf → Vf) : (s.onVf n f).nextId = s.nextId := rfl
@[simp] theorem State.onVf_clock (n : Nat) (f : Vf → Vf) : (s.onVf n f).clock = s.clock := rfl
@[simp] theorem State.onVf_mem (n : Nat) (f : Vf → Vf) : (s.onVf n f).mem = s.mem := rfl
@[simp] theorem State.onVf_poison (n : Nat) (f : Vf → Vf) : (s.onVf n f).poison = s.poison := rfl
@[simp] theorem State.onVf_threads (n : Nat) (f : Vf → Vf) : (s.onVf n f).threads = s.threads := rfl
@[simp] theorem State.onVf_parts (n : Nat) (f : Vf → Vf) : (s.onVf n f).parts = s.parts := rfl
@[simp] theorem State.onVf_teams (n : Nat) (f : Vf → Vf) : (s.onVf n f).teams = s.teams := rfl
@[simp] theorem State.onVf_cores (n : Nat) (f : Vf → Vf) : (s.onVf n f).cores = s.cores := rfl
@[simp] theorem State.onVf_chans (n : Nat) (f : Vf → Vf) : (s.onVf n f).chans = s.chans := rfl
@[simp] theorem State.onVf_ctxs (n : Nat) (f : Vf → Vf) : (s.onVf n f).ctxs = s.ctxs := rfl
@[simp] theorem State.onVf_grids (n : Nat) (f : Vf → Vf) : (s.onVf n f).grids = s.grids := rfl
@[simp] theorem State.onVf_queues (n : Nat) (f : Vf → Vf) : (s.onVf n f).queues = s.queues := rfl
@[simp] theorem State.onVf_tokens (n : Nat) (f : Vf → Vf) : (s.onVf n f).tokens = s.tokens := rfl
@[simp] theorem State.onVf_walks (n : Nat) (f : Vf → Vf) : (s.onVf n f).walks = s.walks := rfl
@[simp] theorem State.onVf_brought (n : Nat) (f : Vf → Vf) : (s.onVf n f).brought = s.brought := rfl
@[simp] theorem State.onVf_granted (n : Nat) (f : Vf → Vf) : (s.onVf n f).granted = s.granted := rfl
@[simp] theorem State.onVf_regions (n : Nat) (f : Vf → Vf) : (s.onVf n f).regions = s.regions := rfl
@[simp] theorem State.onVf_nib (n : Nat) (f : Vf → Vf) : (s.onVf n f).nib = s.nib := rfl
@[simp] theorem State.onVf_hostReqs (n : Nat) (f : Vf → Vf) : (s.onVf n f).hostReqs = s.hostReqs := rfl
@[simp] theorem State.onVf_out (n : Nat) (f : Vf → Vf) : (s.onVf n f).out = s.out := rfl

@[simp] theorem State.setChan_agenda (c : Chan) : (s.setChan c).agenda = s.agenda := rfl
@[simp] theorem State.setChan_inputs (c : Chan) : (s.setChan c).inputs = s.inputs := rfl
@[simp] theorem State.setChan_upsets (c : Chan) : (s.setChan c).upsets = s.upsets := rfl
@[simp] theorem State.setChan_cur (c : Chan) : (s.setChan c).cur = s.cur := rfl
@[simp] theorem State.setChan_fresh (c : Chan) : (s.setChan c).fresh = s.fresh := rfl
@[simp] theorem State.setChan_nextId (c : Chan) : (s.setChan c).nextId = s.nextId := rfl
@[simp] theorem State.setChan_clock (c : Chan) : (s.setChan c).clock = s.clock := rfl
@[simp] theorem State.setChan_mem (c : Chan) : (s.setChan c).mem = s.mem := rfl
@[simp] theorem State.setChan_poison (c : Chan) : (s.setChan c).poison = s.poison := rfl
@[simp] theorem State.setChan_threads (c : Chan) : (s.setChan c).threads = s.threads := rfl
@[simp] theorem State.setChan_parts (c : Chan) : (s.setChan c).parts = s.parts := rfl
@[simp] theorem State.setChan_teams (c : Chan) : (s.setChan c).teams = s.teams := rfl
@[simp] theorem State.setChan_cores (c : Chan) : (s.setChan c).cores = s.cores := rfl
@[simp] theorem State.setChan_ctxs (c : Chan) : (s.setChan c).ctxs = s.ctxs := rfl
@[simp] theorem State.setChan_grids (c : Chan) : (s.setChan c).grids = s.grids := rfl
@[simp] theorem State.setChan_queues (c : Chan) : (s.setChan c).queues = s.queues := rfl
@[simp] theorem State.setChan_vfs (c : Chan) : (s.setChan c).vfs = s.vfs := rfl
@[simp] theorem State.setChan_tokens (c : Chan) : (s.setChan c).tokens = s.tokens := rfl
@[simp] theorem State.setChan_walks (c : Chan) : (s.setChan c).walks = s.walks := rfl
@[simp] theorem State.setChan_brought (c : Chan) : (s.setChan c).brought = s.brought := rfl
@[simp] theorem State.setChan_granted (c : Chan) : (s.setChan c).granted = s.granted := rfl
@[simp] theorem State.setChan_regions (c : Chan) : (s.setChan c).regions = s.regions := rfl
@[simp] theorem State.setChan_nib (c : Chan) : (s.setChan c).nib = s.nib := rfl
@[simp] theorem State.setChan_hostReqs (c : Chan) : (s.setChan c).hostReqs = s.hostReqs := rfl
@[simp] theorem State.setChan_out (c : Chan) : (s.setChan c).out = s.out := rfl

@[simp] theorem State.onChan_agenda (k : ChanKey) (f : Chan → Chan) : (s.onChan k f).agenda = s.agenda := rfl
@[simp] theorem State.onChan_inputs (k : ChanKey) (f : Chan → Chan) : (s.onChan k f).inputs = s.inputs := rfl
@[simp] theorem State.onChan_upsets (k : ChanKey) (f : Chan → Chan) : (s.onChan k f).upsets = s.upsets := rfl
@[simp] theorem State.onChan_cur (k : ChanKey) (f : Chan → Chan) : (s.onChan k f).cur = s.cur := rfl
@[simp] theorem State.onChan_fresh (k : ChanKey) (f : Chan → Chan) : (s.onChan k f).fresh = s.fresh := rfl
@[simp] theorem State.onChan_nextId (k : ChanKey) (f : Chan → Chan) : (s.onChan k f).nextId = s.nextId := rfl
@[simp] theorem State.onChan_clock (k : ChanKey) (f : Chan → Chan) : (s.onChan k f).clock = s.clock := rfl
@[simp] theorem State.onChan_mem (k : ChanKey) (f : Chan → Chan) : (s.onChan k f).mem = s.mem := rfl
@[simp] theorem State.onChan_poison (k : ChanKey) (f : Chan → Chan) : (s.onChan k f).poison = s.poison := rfl
@[simp] theorem State.onChan_threads (k : ChanKey) (f : Chan → Chan) : (s.onChan k f).threads = s.threads := rfl
@[simp] theorem State.onChan_parts (k : ChanKey) (f : Chan → Chan) : (s.onChan k f).parts = s.parts := rfl
@[simp] theorem State.onChan_teams (k : ChanKey) (f : Chan → Chan) : (s.onChan k f).teams = s.teams := rfl
@[simp] theorem State.onChan_cores (k : ChanKey) (f : Chan → Chan) : (s.onChan k f).cores = s.cores := rfl
@[simp] theorem State.onChan_ctxs (k : ChanKey) (f : Chan → Chan) : (s.onChan k f).ctxs = s.ctxs := rfl
@[simp] theorem State.onChan_grids (k : ChanKey) (f : Chan → Chan) : (s.onChan k f).grids = s.grids := rfl
@[simp] theorem State.onChan_queues (k : ChanKey) (f : Chan → Chan) : (s.onChan k f).queues = s.queues := rfl
@[simp] theorem State.onChan_vfs (k : ChanKey) (f : Chan → Chan) : (s.onChan k f).vfs = s.vfs := rfl
@[simp] theorem State.onChan_tokens (k : ChanKey) (f : Chan → Chan) : (s.onChan k f).tokens = s.tokens := rfl
@[simp] theorem State.onChan_walks (k : ChanKey) (f : Chan → Chan) : (s.onChan k f).walks = s.walks := rfl
@[simp] theorem State.onChan_brought (k : ChanKey) (f : Chan → Chan) : (s.onChan k f).brought = s.brought := rfl
@[simp] theorem State.onChan_granted (k : ChanKey) (f : Chan → Chan) : (s.onChan k f).granted = s.granted := rfl
@[simp] theorem State.onChan_regions (k : ChanKey) (f : Chan → Chan) : (s.onChan k f).regions = s.regions := rfl
@[simp] theorem State.onChan_nib (k : ChanKey) (f : Chan → Chan) : (s.onChan k f).nib = s.nib := rfl
@[simp] theorem State.onChan_hostReqs (k : ChanKey) (f : Chan → Chan) : (s.onChan k f).hostReqs = s.hostReqs := rfl
@[simp] theorem State.onChan_out (k : ChanKey) (f : Chan → Chan) : (s.onChan k f).out = s.out := rfl

@[simp] theorem State.setSlice_agenda (x : Slice) : (s.setSlice x).agenda = s.agenda := rfl
@[simp] theorem State.setSlice_inputs (x : Slice) : (s.setSlice x).inputs = s.inputs := rfl
@[simp] theorem State.setSlice_upsets (x : Slice) : (s.setSlice x).upsets = s.upsets := rfl
@[simp] theorem State.setSlice_cur (x : Slice) : (s.setSlice x).cur = s.cur := rfl
@[simp] theorem State.setSlice_fresh (x : Slice) : (s.setSlice x).fresh = s.fresh := rfl
@[simp] theorem State.setSlice_nextId (x : Slice) : (s.setSlice x).nextId = s.nextId := rfl
@[simp] theorem State.setSlice_clock (x : Slice) : (s.setSlice x).clock = s.clock := rfl
@[simp] theorem State.setSlice_mem (x : Slice) : (s.setSlice x).mem = s.mem := rfl
@[simp] theorem State.setSlice_poison (x : Slice) : (s.setSlice x).poison = s.poison := rfl
@[simp] theorem State.setSlice_threads (x : Slice) : (s.setSlice x).threads = s.threads := rfl
@[simp] theorem State.setSlice_parts (x : Slice) : (s.setSlice x).parts = s.parts := rfl
@[simp] theorem State.setSlice_teams (x : Slice) : (s.setSlice x).teams = s.teams := rfl
@[simp] theorem State.setSlice_cores (x : Slice) : (s.setSlice x).cores = s.cores := rfl
@[simp] theorem State.setSlice_chans (x : Slice) : (s.setSlice x).chans = s.chans := rfl
@[simp] theorem State.setSlice_ctxs (x : Slice) : (s.setSlice x).ctxs = s.ctxs := rfl
@[simp] theorem State.setSlice_grids (x : Slice) : (s.setSlice x).grids = s.grids := rfl
@[simp] theorem State.setSlice_queues (x : Slice) : (s.setSlice x).queues = s.queues := rfl
@[simp] theorem State.setSlice_vfs (x : Slice) : (s.setSlice x).vfs = s.vfs := rfl
@[simp] theorem State.setSlice_tokens (x : Slice) : (s.setSlice x).tokens = s.tokens := rfl
@[simp] theorem State.setSlice_walks (x : Slice) : (s.setSlice x).walks = s.walks := rfl
@[simp] theorem State.setSlice_brought (x : Slice) : (s.setSlice x).brought = s.brought := rfl
@[simp] theorem State.setSlice_granted (x : Slice) : (s.setSlice x).granted = s.granted := rfl
@[simp] theorem State.setSlice_regions (x : Slice) : (s.setSlice x).regions = s.regions := rfl
@[simp] theorem State.setSlice_nib (x : Slice) : (s.setSlice x).nib = s.nib := rfl
@[simp] theorem State.setSlice_hostReqs (x : Slice) : (s.setSlice x).hostReqs = s.hostReqs := rfl
@[simp] theorem State.setSlice_out (x : Slice) : (s.setSlice x).out = s.out := rfl

@[simp] theorem State.setMemctl_agenda (x : MemCtl) : (s.setMemctl x).agenda = s.agenda := rfl
@[simp] theorem State.setMemctl_inputs (x : MemCtl) : (s.setMemctl x).inputs = s.inputs := rfl
@[simp] theorem State.setMemctl_upsets (x : MemCtl) : (s.setMemctl x).upsets = s.upsets := rfl
@[simp] theorem State.setMemctl_cur (x : MemCtl) : (s.setMemctl x).cur = s.cur := rfl
@[simp] theorem State.setMemctl_fresh (x : MemCtl) : (s.setMemctl x).fresh = s.fresh := rfl
@[simp] theorem State.setMemctl_nextId (x : MemCtl) : (s.setMemctl x).nextId = s.nextId := rfl
@[simp] theorem State.setMemctl_clock (x : MemCtl) : (s.setMemctl x).clock = s.clock := rfl
@[simp] theorem State.setMemctl_mem (x : MemCtl) : (s.setMemctl x).mem = s.mem := rfl
@[simp] theorem State.setMemctl_poison (x : MemCtl) : (s.setMemctl x).poison = s.poison := rfl
@[simp] theorem State.setMemctl_threads (x : MemCtl) : (s.setMemctl x).threads = s.threads := rfl
@[simp] theorem State.setMemctl_parts (x : MemCtl) : (s.setMemctl x).parts = s.parts := rfl
@[simp] theorem State.setMemctl_teams (x : MemCtl) : (s.setMemctl x).teams = s.teams := rfl
@[simp] theorem State.setMemctl_cores (x : MemCtl) : (s.setMemctl x).cores = s.cores := rfl
@[simp] theorem State.setMemctl_chans (x : MemCtl) : (s.setMemctl x).chans = s.chans := rfl
@[simp] theorem State.setMemctl_ctxs (x : MemCtl) : (s.setMemctl x).ctxs = s.ctxs := rfl
@[simp] theorem State.setMemctl_grids (x : MemCtl) : (s.setMemctl x).grids = s.grids := rfl
@[simp] theorem State.setMemctl_queues (x : MemCtl) : (s.setMemctl x).queues = s.queues := rfl
@[simp] theorem State.setMemctl_vfs (x : MemCtl) : (s.setMemctl x).vfs = s.vfs := rfl
@[simp] theorem State.setMemctl_tokens (x : MemCtl) : (s.setMemctl x).tokens = s.tokens := rfl
@[simp] theorem State.setMemctl_walks (x : MemCtl) : (s.setMemctl x).walks = s.walks := rfl
@[simp] theorem State.setMemctl_brought (x : MemCtl) : (s.setMemctl x).brought = s.brought := rfl
@[simp] theorem State.setMemctl_granted (x : MemCtl) : (s.setMemctl x).granted = s.granted := rfl
@[simp] theorem State.setMemctl_regions (x : MemCtl) : (s.setMemctl x).regions = s.regions := rfl
@[simp] theorem State.setMemctl_nib (x : MemCtl) : (s.setMemctl x).nib = s.nib := rfl
@[simp] theorem State.setMemctl_hostReqs (x : MemCtl) : (s.setMemctl x).hostReqs = s.hostReqs := rfl
@[simp] theorem State.setMemctl_out (x : MemCtl) : (s.setMemctl x).out = s.out := rfl

@[simp] theorem State.setCluster_agenda (x : Cluster) : (s.setCluster x).agenda = s.agenda := rfl
@[simp] theorem State.setCluster_inputs (x : Cluster) : (s.setCluster x).inputs = s.inputs := rfl
@[simp] theorem State.setCluster_upsets (x : Cluster) : (s.setCluster x).upsets = s.upsets := rfl
@[simp] theorem State.setCluster_cur (x : Cluster) : (s.setCluster x).cur = s.cur := rfl
@[simp] theorem State.setCluster_fresh (x : Cluster) : (s.setCluster x).fresh = s.fresh := rfl
@[simp] theorem State.setCluster_nextId (x : Cluster) : (s.setCluster x).nextId = s.nextId := rfl
@[simp] theorem State.setCluster_clock (x : Cluster) : (s.setCluster x).clock = s.clock := rfl
@[simp] theorem State.setCluster_mem (x : Cluster) : (s.setCluster x).mem = s.mem := rfl
@[simp] theorem State.setCluster_poison (x : Cluster) : (s.setCluster x).poison = s.poison := rfl
@[simp] theorem State.setCluster_threads (x : Cluster) : (s.setCluster x).threads = s.threads := rfl
@[simp] theorem State.setCluster_parts (x : Cluster) : (s.setCluster x).parts = s.parts := rfl
@[simp] theorem State.setCluster_teams (x : Cluster) : (s.setCluster x).teams = s.teams := rfl
@[simp] theorem State.setCluster_cores (x : Cluster) : (s.setCluster x).cores = s.cores := rfl
@[simp] theorem State.setCluster_chans (x : Cluster) : (s.setCluster x).chans = s.chans := rfl
@[simp] theorem State.setCluster_ctxs (x : Cluster) : (s.setCluster x).ctxs = s.ctxs := rfl
@[simp] theorem State.setCluster_grids (x : Cluster) : (s.setCluster x).grids = s.grids := rfl
@[simp] theorem State.setCluster_queues (x : Cluster) : (s.setCluster x).queues = s.queues := rfl
@[simp] theorem State.setCluster_vfs (x : Cluster) : (s.setCluster x).vfs = s.vfs := rfl
@[simp] theorem State.setCluster_tokens (x : Cluster) : (s.setCluster x).tokens = s.tokens := rfl
@[simp] theorem State.setCluster_walks (x : Cluster) : (s.setCluster x).walks = s.walks := rfl
@[simp] theorem State.setCluster_brought (x : Cluster) : (s.setCluster x).brought = s.brought := rfl
@[simp] theorem State.setCluster_granted (x : Cluster) : (s.setCluster x).granted = s.granted := rfl
@[simp] theorem State.setCluster_regions (x : Cluster) : (s.setCluster x).regions = s.regions := rfl
@[simp] theorem State.setCluster_nib (x : Cluster) : (s.setCluster x).nib = s.nib := rfl
@[simp] theorem State.setCluster_hostReqs (x : Cluster) : (s.setCluster x).hostReqs = s.hostReqs := rfl
@[simp] theorem State.setCluster_out (x : Cluster) : (s.setCluster x).out = s.out := rfl

@[simp] theorem State.setPoint_agenda (x : PointState) : (s.setPoint x).agenda = s.agenda := rfl
@[simp] theorem State.setPoint_inputs (x : PointState) : (s.setPoint x).inputs = s.inputs := rfl
@[simp] theorem State.setPoint_upsets (x : PointState) : (s.setPoint x).upsets = s.upsets := rfl
@[simp] theorem State.setPoint_cur (x : PointState) : (s.setPoint x).cur = s.cur := rfl
@[simp] theorem State.setPoint_fresh (x : PointState) : (s.setPoint x).fresh = s.fresh := rfl
@[simp] theorem State.setPoint_nextId (x : PointState) : (s.setPoint x).nextId = s.nextId := rfl
@[simp] theorem State.setPoint_clock (x : PointState) : (s.setPoint x).clock = s.clock := rfl
@[simp] theorem State.setPoint_mem (x : PointState) : (s.setPoint x).mem = s.mem := rfl
@[simp] theorem State.setPoint_poison (x : PointState) : (s.setPoint x).poison = s.poison := rfl
@[simp] theorem State.setPoint_threads (x : PointState) : (s.setPoint x).threads = s.threads := rfl
@[simp] theorem State.setPoint_parts (x : PointState) : (s.setPoint x).parts = s.parts := rfl
@[simp] theorem State.setPoint_teams (x : PointState) : (s.setPoint x).teams = s.teams := rfl
@[simp] theorem State.setPoint_cores (x : PointState) : (s.setPoint x).cores = s.cores := rfl
@[simp] theorem State.setPoint_chans (x : PointState) : (s.setPoint x).chans = s.chans := rfl
@[simp] theorem State.setPoint_ctxs (x : PointState) : (s.setPoint x).ctxs = s.ctxs := rfl
@[simp] theorem State.setPoint_grids (x : PointState) : (s.setPoint x).grids = s.grids := rfl
@[simp] theorem State.setPoint_queues (x : PointState) : (s.setPoint x).queues = s.queues := rfl
@[simp] theorem State.setPoint_vfs (x : PointState) : (s.setPoint x).vfs = s.vfs := rfl
@[simp] theorem State.setPoint_tokens (x : PointState) : (s.setPoint x).tokens = s.tokens := rfl
@[simp] theorem State.setPoint_walks (x : PointState) : (s.setPoint x).walks = s.walks := rfl
@[simp] theorem State.setPoint_brought (x : PointState) : (s.setPoint x).brought = s.brought := rfl
@[simp] theorem State.setPoint_granted (x : PointState) : (s.setPoint x).granted = s.granted := rfl
@[simp] theorem State.setPoint_regions (x : PointState) : (s.setPoint x).regions = s.regions := rfl
@[simp] theorem State.setPoint_nib (x : PointState) : (s.setPoint x).nib = s.nib := rfl
@[simp] theorem State.setPoint_hostReqs (x : PointState) : (s.setPoint x).hostReqs = s.hostReqs := rfl
@[simp] theorem State.setPoint_out (x : PointState) : (s.setPoint x).out = s.out := rfl

@[simp] theorem State.setBudget_agenda (p k : Nat) (v : BitVec 10) : (s.setBudget p k v).agenda = s.agenda := rfl
@[simp] theorem State.setBudget_inputs (p k : Nat) (v : BitVec 10) : (s.setBudget p k v).inputs = s.inputs := rfl
@[simp] theorem State.setBudget_upsets (p k : Nat) (v : BitVec 10) : (s.setBudget p k v).upsets = s.upsets := rfl
@[simp] theorem State.setBudget_cur (p k : Nat) (v : BitVec 10) : (s.setBudget p k v).cur = s.cur := rfl
@[simp] theorem State.setBudget_fresh (p k : Nat) (v : BitVec 10) : (s.setBudget p k v).fresh = s.fresh := rfl
@[simp] theorem State.setBudget_nextId (p k : Nat) (v : BitVec 10) : (s.setBudget p k v).nextId = s.nextId := rfl
@[simp] theorem State.setBudget_clock (p k : Nat) (v : BitVec 10) : (s.setBudget p k v).clock = s.clock := rfl
@[simp] theorem State.setBudget_mem (p k : Nat) (v : BitVec 10) : (s.setBudget p k v).mem = s.mem := rfl
@[simp] theorem State.setBudget_poison (p k : Nat) (v : BitVec 10) : (s.setBudget p k v).poison = s.poison := rfl
@[simp] theorem State.setBudget_threads (p k : Nat) (v : BitVec 10) : (s.setBudget p k v).threads = s.threads := rfl
@[simp] theorem State.setBudget_parts (p k : Nat) (v : BitVec 10) : (s.setBudget p k v).parts = s.parts := rfl
@[simp] theorem State.setBudget_teams (p k : Nat) (v : BitVec 10) : (s.setBudget p k v).teams = s.teams := rfl
@[simp] theorem State.setBudget_cores (p k : Nat) (v : BitVec 10) : (s.setBudget p k v).cores = s.cores := rfl
@[simp] theorem State.setBudget_chans (p k : Nat) (v : BitVec 10) : (s.setBudget p k v).chans = s.chans := rfl
@[simp] theorem State.setBudget_ctxs (p k : Nat) (v : BitVec 10) : (s.setBudget p k v).ctxs = s.ctxs := rfl
@[simp] theorem State.setBudget_grids (p k : Nat) (v : BitVec 10) : (s.setBudget p k v).grids = s.grids := rfl
@[simp] theorem State.setBudget_queues (p k : Nat) (v : BitVec 10) : (s.setBudget p k v).queues = s.queues := rfl
@[simp] theorem State.setBudget_vfs (p k : Nat) (v : BitVec 10) : (s.setBudget p k v).vfs = s.vfs := rfl
@[simp] theorem State.setBudget_tokens (p k : Nat) (v : BitVec 10) : (s.setBudget p k v).tokens = s.tokens := rfl
@[simp] theorem State.setBudget_walks (p k : Nat) (v : BitVec 10) : (s.setBudget p k v).walks = s.walks := rfl
@[simp] theorem State.setBudget_brought (p k : Nat) (v : BitVec 10) : (s.setBudget p k v).brought = s.brought := rfl
@[simp] theorem State.setBudget_granted (p k : Nat) (v : BitVec 10) : (s.setBudget p k v).granted = s.granted := rfl
@[simp] theorem State.setBudget_regions (p k : Nat) (v : BitVec 10) : (s.setBudget p k v).regions = s.regions := rfl
@[simp] theorem State.setBudget_nib (p k : Nat) (v : BitVec 10) : (s.setBudget p k v).nib = s.nib := rfl
@[simp] theorem State.setBudget_hostReqs (p k : Nat) (v : BitVec 10) : (s.setBudget p k v).hostReqs = s.hostReqs := rfl
@[simp] theorem State.setBudget_out (p k : Nat) (v : BitVec 10) : (s.setBudget p k v).out = s.out := rfl

@[simp] theorem State.setToken_agenda (t : Token) : (s.setToken t).agenda = s.agenda := rfl
@[simp] theorem State.setToken_inputs (t : Token) : (s.setToken t).inputs = s.inputs := rfl
@[simp] theorem State.setToken_upsets (t : Token) : (s.setToken t).upsets = s.upsets := rfl
@[simp] theorem State.setToken_cur (t : Token) : (s.setToken t).cur = s.cur := rfl
@[simp] theorem State.setToken_fresh (t : Token) : (s.setToken t).fresh = s.fresh := rfl
@[simp] theorem State.setToken_nextId (t : Token) : (s.setToken t).nextId = s.nextId := rfl
@[simp] theorem State.setToken_clock (t : Token) : (s.setToken t).clock = s.clock := rfl
@[simp] theorem State.setToken_mem (t : Token) : (s.setToken t).mem = s.mem := rfl
@[simp] theorem State.setToken_poison (t : Token) : (s.setToken t).poison = s.poison := rfl
@[simp] theorem State.setToken_threads (t : Token) : (s.setToken t).threads = s.threads := rfl
@[simp] theorem State.setToken_parts (t : Token) : (s.setToken t).parts = s.parts := rfl
@[simp] theorem State.setToken_teams (t : Token) : (s.setToken t).teams = s.teams := rfl
@[simp] theorem State.setToken_cores (t : Token) : (s.setToken t).cores = s.cores := rfl
@[simp] theorem State.setToken_chans (t : Token) : (s.setToken t).chans = s.chans := rfl
@[simp] theorem State.setToken_ctxs (t : Token) : (s.setToken t).ctxs = s.ctxs := rfl
@[simp] theorem State.setToken_grids (t : Token) : (s.setToken t).grids = s.grids := rfl
@[simp] theorem State.setToken_queues (t : Token) : (s.setToken t).queues = s.queues := rfl
@[simp] theorem State.setToken_vfs (t : Token) : (s.setToken t).vfs = s.vfs := rfl
@[simp] theorem State.setToken_walks (t : Token) : (s.setToken t).walks = s.walks := rfl
@[simp] theorem State.setToken_brought (t : Token) : (s.setToken t).brought = s.brought := rfl
@[simp] theorem State.setToken_granted (t : Token) : (s.setToken t).granted = s.granted := rfl
@[simp] theorem State.setToken_regions (t : Token) : (s.setToken t).regions = s.regions := rfl
@[simp] theorem State.setToken_nib (t : Token) : (s.setToken t).nib = s.nib := rfl
@[simp] theorem State.setToken_hostReqs (t : Token) : (s.setToken t).hostReqs = s.hostReqs := rfl
@[simp] theorem State.setToken_out (t : Token) : (s.setToken t).out = s.out := rfl

@[simp] theorem State.store_agenda (pa : Nat) (bs : List Byte) : (s.store pa bs).agenda = s.agenda := rfl
@[simp] theorem State.store_inputs (pa : Nat) (bs : List Byte) : (s.store pa bs).inputs = s.inputs := rfl
@[simp] theorem State.store_upsets (pa : Nat) (bs : List Byte) : (s.store pa bs).upsets = s.upsets := rfl
@[simp] theorem State.store_cur (pa : Nat) (bs : List Byte) : (s.store pa bs).cur = s.cur := rfl
@[simp] theorem State.store_fresh (pa : Nat) (bs : List Byte) : (s.store pa bs).fresh = s.fresh := rfl
@[simp] theorem State.store_nextId (pa : Nat) (bs : List Byte) : (s.store pa bs).nextId = s.nextId := rfl
@[simp] theorem State.store_clock (pa : Nat) (bs : List Byte) : (s.store pa bs).clock = s.clock := rfl
@[simp] theorem State.store_poison (pa : Nat) (bs : List Byte) : (s.store pa bs).poison = s.poison := rfl
@[simp] theorem State.store_threads (pa : Nat) (bs : List Byte) : (s.store pa bs).threads = s.threads := rfl
@[simp] theorem State.store_parts (pa : Nat) (bs : List Byte) : (s.store pa bs).parts = s.parts := rfl
@[simp] theorem State.store_teams (pa : Nat) (bs : List Byte) : (s.store pa bs).teams = s.teams := rfl
@[simp] theorem State.store_cores (pa : Nat) (bs : List Byte) : (s.store pa bs).cores = s.cores := rfl
@[simp] theorem State.store_chans (pa : Nat) (bs : List Byte) : (s.store pa bs).chans = s.chans := rfl
@[simp] theorem State.store_ctxs (pa : Nat) (bs : List Byte) : (s.store pa bs).ctxs = s.ctxs := rfl
@[simp] theorem State.store_grids (pa : Nat) (bs : List Byte) : (s.store pa bs).grids = s.grids := rfl
@[simp] theorem State.store_queues (pa : Nat) (bs : List Byte) : (s.store pa bs).queues = s.queues := rfl
@[simp] theorem State.store_vfs (pa : Nat) (bs : List Byte) : (s.store pa bs).vfs = s.vfs := rfl
@[simp] theorem State.store_tokens (pa : Nat) (bs : List Byte) : (s.store pa bs).tokens = s.tokens := rfl
@[simp] theorem State.store_walks (pa : Nat) (bs : List Byte) : (s.store pa bs).walks = s.walks := rfl
@[simp] theorem State.store_brought (pa : Nat) (bs : List Byte) : (s.store pa bs).brought = s.brought := rfl
@[simp] theorem State.store_granted (pa : Nat) (bs : List Byte) : (s.store pa bs).granted = s.granted := rfl
@[simp] theorem State.store_regions (pa : Nat) (bs : List Byte) : (s.store pa bs).regions = s.regions := rfl
@[simp] theorem State.store_nib (pa : Nat) (bs : List Byte) : (s.store pa bs).nib = s.nib := rfl
@[simp] theorem State.store_hostReqs (pa : Nat) (bs : List Byte) : (s.store pa bs).hostReqs = s.hostReqs := rfl
@[simp] theorem State.store_out (pa : Nat) (bs : List Byte) : (s.store pa bs).out = s.out := rfl

@[simp] theorem State.postRecord_agenda (r : FaultRec) : (s.postRecord r).agenda = s.agenda := rfl
@[simp] theorem State.postRecord_inputs (r : FaultRec) : (s.postRecord r).inputs = s.inputs := rfl
@[simp] theorem State.postRecord_upsets (r : FaultRec) : (s.postRecord r).upsets = s.upsets := rfl
@[simp] theorem State.postRecord_cur (r : FaultRec) : (s.postRecord r).cur = s.cur := rfl
@[simp] theorem State.postRecord_fresh (r : FaultRec) : (s.postRecord r).fresh = s.fresh := rfl
@[simp] theorem State.postRecord_nextId (r : FaultRec) : (s.postRecord r).nextId = s.nextId := rfl
@[simp] theorem State.postRecord_clock (r : FaultRec) : (s.postRecord r).clock = s.clock := rfl
@[simp] theorem State.postRecord_mem (r : FaultRec) : (s.postRecord r).mem = s.mem := rfl
@[simp] theorem State.postRecord_poison (r : FaultRec) : (s.postRecord r).poison = s.poison := rfl
@[simp] theorem State.postRecord_threads (r : FaultRec) : (s.postRecord r).threads = s.threads := rfl
@[simp] theorem State.postRecord_parts (r : FaultRec) : (s.postRecord r).parts = s.parts := rfl
@[simp] theorem State.postRecord_teams (r : FaultRec) : (s.postRecord r).teams = s.teams := rfl
@[simp] theorem State.postRecord_cores (r : FaultRec) : (s.postRecord r).cores = s.cores := rfl
@[simp] theorem State.postRecord_chans (r : FaultRec) : (s.postRecord r).chans = s.chans := rfl
@[simp] theorem State.postRecord_ctxs (r : FaultRec) : (s.postRecord r).ctxs = s.ctxs := rfl
@[simp] theorem State.postRecord_grids (r : FaultRec) : (s.postRecord r).grids = s.grids := rfl
@[simp] theorem State.postRecord_queues (r : FaultRec) : (s.postRecord r).queues = s.queues := rfl
@[simp] theorem State.postRecord_tokens (r : FaultRec) : (s.postRecord r).tokens = s.tokens := rfl
@[simp] theorem State.postRecord_walks (r : FaultRec) : (s.postRecord r).walks = s.walks := rfl
@[simp] theorem State.postRecord_brought (r : FaultRec) : (s.postRecord r).brought = s.brought := rfl
@[simp] theorem State.postRecord_granted (r : FaultRec) : (s.postRecord r).granted = s.granted := rfl
@[simp] theorem State.postRecord_regions (r : FaultRec) : (s.postRecord r).regions = s.regions := rfl
@[simp] theorem State.postRecord_nib (r : FaultRec) : (s.postRecord r).nib = s.nib := rfl
@[simp] theorem State.postRecord_hostReqs (r : FaultRec) : (s.postRecord r).hostReqs = s.hostReqs := rfl
@[simp] theorem State.postRecord_out (r : FaultRec) : (s.postRecord r).out = s.out := rfl

/-- An update that looks for its part first is that part's update or nothing. -/
theorem State.onThread_cases (c p sl : Nat) (f : Thread → Thread) : s.onThread c p sl f = s ∨ ∃ x, s.onThread c p sl f = { s with threads := x } := by
  unfold State.onThread; split
  · exact .inr ⟨_, rfl⟩
  · exact .inl rfl

@[simp] theorem State.onThread_agenda (c p sl : Nat) (f : Thread → Thread) : (s.onThread c p sl f).agenda = s.agenda := by
  rcases s.onThread_cases c p sl f with h | ⟨_, h⟩ <;> rw [h]
@[simp] theorem State.onThread_inputs (c p sl : Nat) (f : Thread → Thread) : (s.onThread c p sl f).inputs = s.inputs := by
  rcases s.onThread_cases c p sl f with h | ⟨_, h⟩ <;> rw [h]
@[simp] theorem State.onThread_upsets (c p sl : Nat) (f : Thread → Thread) : (s.onThread c p sl f).upsets = s.upsets := by
  rcases s.onThread_cases c p sl f with h | ⟨_, h⟩ <;> rw [h]
@[simp] theorem State.onThread_cur (c p sl : Nat) (f : Thread → Thread) : (s.onThread c p sl f).cur = s.cur := by
  rcases s.onThread_cases c p sl f with h | ⟨_, h⟩ <;> rw [h]
@[simp] theorem State.onThread_fresh (c p sl : Nat) (f : Thread → Thread) : (s.onThread c p sl f).fresh = s.fresh := by
  rcases s.onThread_cases c p sl f with h | ⟨_, h⟩ <;> rw [h]
@[simp] theorem State.onThread_nextId (c p sl : Nat) (f : Thread → Thread) : (s.onThread c p sl f).nextId = s.nextId := by
  rcases s.onThread_cases c p sl f with h | ⟨_, h⟩ <;> rw [h]
@[simp] theorem State.onThread_clock (c p sl : Nat) (f : Thread → Thread) : (s.onThread c p sl f).clock = s.clock := by
  rcases s.onThread_cases c p sl f with h | ⟨_, h⟩ <;> rw [h]
@[simp] theorem State.onThread_mem (c p sl : Nat) (f : Thread → Thread) : (s.onThread c p sl f).mem = s.mem := by
  rcases s.onThread_cases c p sl f with h | ⟨_, h⟩ <;> rw [h]
@[simp] theorem State.onThread_poison (c p sl : Nat) (f : Thread → Thread) : (s.onThread c p sl f).poison = s.poison := by
  rcases s.onThread_cases c p sl f with h | ⟨_, h⟩ <;> rw [h]
@[simp] theorem State.onThread_parts (c p sl : Nat) (f : Thread → Thread) : (s.onThread c p sl f).parts = s.parts := by
  rcases s.onThread_cases c p sl f with h | ⟨_, h⟩ <;> rw [h]
@[simp] theorem State.onThread_teams (c p sl : Nat) (f : Thread → Thread) : (s.onThread c p sl f).teams = s.teams := by
  rcases s.onThread_cases c p sl f with h | ⟨_, h⟩ <;> rw [h]
@[simp] theorem State.onThread_cores (c p sl : Nat) (f : Thread → Thread) : (s.onThread c p sl f).cores = s.cores := by
  rcases s.onThread_cases c p sl f with h | ⟨_, h⟩ <;> rw [h]
@[simp] theorem State.onThread_chans (c p sl : Nat) (f : Thread → Thread) : (s.onThread c p sl f).chans = s.chans := by
  rcases s.onThread_cases c p sl f with h | ⟨_, h⟩ <;> rw [h]
@[simp] theorem State.onThread_ctxs (c p sl : Nat) (f : Thread → Thread) : (s.onThread c p sl f).ctxs = s.ctxs := by
  rcases s.onThread_cases c p sl f with h | ⟨_, h⟩ <;> rw [h]
@[simp] theorem State.onThread_grids (c p sl : Nat) (f : Thread → Thread) : (s.onThread c p sl f).grids = s.grids := by
  rcases s.onThread_cases c p sl f with h | ⟨_, h⟩ <;> rw [h]
@[simp] theorem State.onThread_queues (c p sl : Nat) (f : Thread → Thread) : (s.onThread c p sl f).queues = s.queues := by
  rcases s.onThread_cases c p sl f with h | ⟨_, h⟩ <;> rw [h]
@[simp] theorem State.onThread_vfs (c p sl : Nat) (f : Thread → Thread) : (s.onThread c p sl f).vfs = s.vfs := by
  rcases s.onThread_cases c p sl f with h | ⟨_, h⟩ <;> rw [h]
@[simp] theorem State.onThread_tokens (c p sl : Nat) (f : Thread → Thread) : (s.onThread c p sl f).tokens = s.tokens := by
  rcases s.onThread_cases c p sl f with h | ⟨_, h⟩ <;> rw [h]
@[simp] theorem State.onThread_walks (c p sl : Nat) (f : Thread → Thread) : (s.onThread c p sl f).walks = s.walks := by
  rcases s.onThread_cases c p sl f with h | ⟨_, h⟩ <;> rw [h]
@[simp] theorem State.onThread_brought (c p sl : Nat) (f : Thread → Thread) : (s.onThread c p sl f).brought = s.brought := by
  rcases s.onThread_cases c p sl f with h | ⟨_, h⟩ <;> rw [h]
@[simp] theorem State.onThread_granted (c p sl : Nat) (f : Thread → Thread) : (s.onThread c p sl f).granted = s.granted := by
  rcases s.onThread_cases c p sl f with h | ⟨_, h⟩ <;> rw [h]
@[simp] theorem State.onThread_regions (c p sl : Nat) (f : Thread → Thread) : (s.onThread c p sl f).regions = s.regions := by
  rcases s.onThread_cases c p sl f with h | ⟨_, h⟩ <;> rw [h]
@[simp] theorem State.onThread_nib (c p sl : Nat) (f : Thread → Thread) : (s.onThread c p sl f).nib = s.nib := by
  rcases s.onThread_cases c p sl f with h | ⟨_, h⟩ <;> rw [h]
@[simp] theorem State.onThread_hostReqs (c p sl : Nat) (f : Thread → Thread) : (s.onThread c p sl f).hostReqs = s.hostReqs := by
  rcases s.onThread_cases c p sl f with h | ⟨_, h⟩ <;> rw [h]
@[simp] theorem State.onThread_out (c p sl : Nat) (f : Thread → Thread) : (s.onThread c p sl f).out = s.out := by
  rcases s.onThread_cases c p sl f with h | ⟨_, h⟩ <;> rw [h]

/-- An update that looks for its part first is that part's update or nothing. -/
theorem State.onTeam_cases (c n : Nat) (f : Team → Team) : s.onTeam c n f = s ∨ ∃ x, s.onTeam c n f = { s with teams := x } := by
  unfold State.onTeam; split
  · exact .inr ⟨_, rfl⟩
  · exact .inl rfl

@[simp] theorem State.onTeam_agenda (c n : Nat) (f : Team → Team) : (s.onTeam c n f).agenda = s.agenda := by
  rcases s.onTeam_cases c n f with h | ⟨_, h⟩ <;> rw [h]
@[simp] theorem State.onTeam_inputs (c n : Nat) (f : Team → Team) : (s.onTeam c n f).inputs = s.inputs := by
  rcases s.onTeam_cases c n f with h | ⟨_, h⟩ <;> rw [h]
@[simp] theorem State.onTeam_upsets (c n : Nat) (f : Team → Team) : (s.onTeam c n f).upsets = s.upsets := by
  rcases s.onTeam_cases c n f with h | ⟨_, h⟩ <;> rw [h]
@[simp] theorem State.onTeam_cur (c n : Nat) (f : Team → Team) : (s.onTeam c n f).cur = s.cur := by
  rcases s.onTeam_cases c n f with h | ⟨_, h⟩ <;> rw [h]
@[simp] theorem State.onTeam_fresh (c n : Nat) (f : Team → Team) : (s.onTeam c n f).fresh = s.fresh := by
  rcases s.onTeam_cases c n f with h | ⟨_, h⟩ <;> rw [h]
@[simp] theorem State.onTeam_nextId (c n : Nat) (f : Team → Team) : (s.onTeam c n f).nextId = s.nextId := by
  rcases s.onTeam_cases c n f with h | ⟨_, h⟩ <;> rw [h]
@[simp] theorem State.onTeam_clock (c n : Nat) (f : Team → Team) : (s.onTeam c n f).clock = s.clock := by
  rcases s.onTeam_cases c n f with h | ⟨_, h⟩ <;> rw [h]
@[simp] theorem State.onTeam_mem (c n : Nat) (f : Team → Team) : (s.onTeam c n f).mem = s.mem := by
  rcases s.onTeam_cases c n f with h | ⟨_, h⟩ <;> rw [h]
@[simp] theorem State.onTeam_poison (c n : Nat) (f : Team → Team) : (s.onTeam c n f).poison = s.poison := by
  rcases s.onTeam_cases c n f with h | ⟨_, h⟩ <;> rw [h]
@[simp] theorem State.onTeam_threads (c n : Nat) (f : Team → Team) : (s.onTeam c n f).threads = s.threads := by
  rcases s.onTeam_cases c n f with h | ⟨_, h⟩ <;> rw [h]
@[simp] theorem State.onTeam_parts (c n : Nat) (f : Team → Team) : (s.onTeam c n f).parts = s.parts := by
  rcases s.onTeam_cases c n f with h | ⟨_, h⟩ <;> rw [h]
@[simp] theorem State.onTeam_cores (c n : Nat) (f : Team → Team) : (s.onTeam c n f).cores = s.cores := by
  rcases s.onTeam_cases c n f with h | ⟨_, h⟩ <;> rw [h]
@[simp] theorem State.onTeam_chans (c n : Nat) (f : Team → Team) : (s.onTeam c n f).chans = s.chans := by
  rcases s.onTeam_cases c n f with h | ⟨_, h⟩ <;> rw [h]
@[simp] theorem State.onTeam_ctxs (c n : Nat) (f : Team → Team) : (s.onTeam c n f).ctxs = s.ctxs := by
  rcases s.onTeam_cases c n f with h | ⟨_, h⟩ <;> rw [h]
@[simp] theorem State.onTeam_grids (c n : Nat) (f : Team → Team) : (s.onTeam c n f).grids = s.grids := by
  rcases s.onTeam_cases c n f with h | ⟨_, h⟩ <;> rw [h]
@[simp] theorem State.onTeam_queues (c n : Nat) (f : Team → Team) : (s.onTeam c n f).queues = s.queues := by
  rcases s.onTeam_cases c n f with h | ⟨_, h⟩ <;> rw [h]
@[simp] theorem State.onTeam_vfs (c n : Nat) (f : Team → Team) : (s.onTeam c n f).vfs = s.vfs := by
  rcases s.onTeam_cases c n f with h | ⟨_, h⟩ <;> rw [h]
@[simp] theorem State.onTeam_tokens (c n : Nat) (f : Team → Team) : (s.onTeam c n f).tokens = s.tokens := by
  rcases s.onTeam_cases c n f with h | ⟨_, h⟩ <;> rw [h]
@[simp] theorem State.onTeam_walks (c n : Nat) (f : Team → Team) : (s.onTeam c n f).walks = s.walks := by
  rcases s.onTeam_cases c n f with h | ⟨_, h⟩ <;> rw [h]
@[simp] theorem State.onTeam_brought (c n : Nat) (f : Team → Team) : (s.onTeam c n f).brought = s.brought := by
  rcases s.onTeam_cases c n f with h | ⟨_, h⟩ <;> rw [h]
@[simp] theorem State.onTeam_granted (c n : Nat) (f : Team → Team) : (s.onTeam c n f).granted = s.granted := by
  rcases s.onTeam_cases c n f with h | ⟨_, h⟩ <;> rw [h]
@[simp] theorem State.onTeam_regions (c n : Nat) (f : Team → Team) : (s.onTeam c n f).regions = s.regions := by
  rcases s.onTeam_cases c n f with h | ⟨_, h⟩ <;> rw [h]
@[simp] theorem State.onTeam_nib (c n : Nat) (f : Team → Team) : (s.onTeam c n f).nib = s.nib := by
  rcases s.onTeam_cases c n f with h | ⟨_, h⟩ <;> rw [h]
@[simp] theorem State.onTeam_hostReqs (c n : Nat) (f : Team → Team) : (s.onTeam c n f).hostReqs = s.hostReqs := by
  rcases s.onTeam_cases c n f with h | ⟨_, h⟩ <;> rw [h]
@[simp] theorem State.onTeam_out (c n : Nat) (f : Team → Team) : (s.onTeam c n f).out = s.out := by
  rcases s.onTeam_cases c n f with h | ⟨_, h⟩ <;> rw [h]

/-- An update that looks for its part first is that part's update or nothing. -/
theorem State.onGrid_cases (g : Nat) (f : Grid → Grid) : s.onGrid g f = s ∨ ∃ x, s.onGrid g f = { s with grids := x } := by
  unfold State.onGrid; split
  · exact .inr ⟨_, rfl⟩
  · exact .inl rfl

@[simp] theorem State.onGrid_agenda (g : Nat) (f : Grid → Grid) : (s.onGrid g f).agenda = s.agenda := by
  rcases s.onGrid_cases g f with h | ⟨_, h⟩ <;> rw [h]
@[simp] theorem State.onGrid_inputs (g : Nat) (f : Grid → Grid) : (s.onGrid g f).inputs = s.inputs := by
  rcases s.onGrid_cases g f with h | ⟨_, h⟩ <;> rw [h]
@[simp] theorem State.onGrid_upsets (g : Nat) (f : Grid → Grid) : (s.onGrid g f).upsets = s.upsets := by
  rcases s.onGrid_cases g f with h | ⟨_, h⟩ <;> rw [h]
@[simp] theorem State.onGrid_cur (g : Nat) (f : Grid → Grid) : (s.onGrid g f).cur = s.cur := by
  rcases s.onGrid_cases g f with h | ⟨_, h⟩ <;> rw [h]
@[simp] theorem State.onGrid_fresh (g : Nat) (f : Grid → Grid) : (s.onGrid g f).fresh = s.fresh := by
  rcases s.onGrid_cases g f with h | ⟨_, h⟩ <;> rw [h]
@[simp] theorem State.onGrid_nextId (g : Nat) (f : Grid → Grid) : (s.onGrid g f).nextId = s.nextId := by
  rcases s.onGrid_cases g f with h | ⟨_, h⟩ <;> rw [h]
@[simp] theorem State.onGrid_clock (g : Nat) (f : Grid → Grid) : (s.onGrid g f).clock = s.clock := by
  rcases s.onGrid_cases g f with h | ⟨_, h⟩ <;> rw [h]
@[simp] theorem State.onGrid_mem (g : Nat) (f : Grid → Grid) : (s.onGrid g f).mem = s.mem := by
  rcases s.onGrid_cases g f with h | ⟨_, h⟩ <;> rw [h]
@[simp] theorem State.onGrid_poison (g : Nat) (f : Grid → Grid) : (s.onGrid g f).poison = s.poison := by
  rcases s.onGrid_cases g f with h | ⟨_, h⟩ <;> rw [h]
@[simp] theorem State.onGrid_threads (g : Nat) (f : Grid → Grid) : (s.onGrid g f).threads = s.threads := by
  rcases s.onGrid_cases g f with h | ⟨_, h⟩ <;> rw [h]
@[simp] theorem State.onGrid_parts (g : Nat) (f : Grid → Grid) : (s.onGrid g f).parts = s.parts := by
  rcases s.onGrid_cases g f with h | ⟨_, h⟩ <;> rw [h]
@[simp] theorem State.onGrid_teams (g : Nat) (f : Grid → Grid) : (s.onGrid g f).teams = s.teams := by
  rcases s.onGrid_cases g f with h | ⟨_, h⟩ <;> rw [h]
@[simp] theorem State.onGrid_cores (g : Nat) (f : Grid → Grid) : (s.onGrid g f).cores = s.cores := by
  rcases s.onGrid_cases g f with h | ⟨_, h⟩ <;> rw [h]
@[simp] theorem State.onGrid_chans (g : Nat) (f : Grid → Grid) : (s.onGrid g f).chans = s.chans := by
  rcases s.onGrid_cases g f with h | ⟨_, h⟩ <;> rw [h]
@[simp] theorem State.onGrid_ctxs (g : Nat) (f : Grid → Grid) : (s.onGrid g f).ctxs = s.ctxs := by
  rcases s.onGrid_cases g f with h | ⟨_, h⟩ <;> rw [h]
@[simp] theorem State.onGrid_queues (g : Nat) (f : Grid → Grid) : (s.onGrid g f).queues = s.queues := by
  rcases s.onGrid_cases g f with h | ⟨_, h⟩ <;> rw [h]
@[simp] theorem State.onGrid_vfs (g : Nat) (f : Grid → Grid) : (s.onGrid g f).vfs = s.vfs := by
  rcases s.onGrid_cases g f with h | ⟨_, h⟩ <;> rw [h]
@[simp] theorem State.onGrid_tokens (g : Nat) (f : Grid → Grid) : (s.onGrid g f).tokens = s.tokens := by
  rcases s.onGrid_cases g f with h | ⟨_, h⟩ <;> rw [h]
@[simp] theorem State.onGrid_walks (g : Nat) (f : Grid → Grid) : (s.onGrid g f).walks = s.walks := by
  rcases s.onGrid_cases g f with h | ⟨_, h⟩ <;> rw [h]
@[simp] theorem State.onGrid_brought (g : Nat) (f : Grid → Grid) : (s.onGrid g f).brought = s.brought := by
  rcases s.onGrid_cases g f with h | ⟨_, h⟩ <;> rw [h]
@[simp] theorem State.onGrid_granted (g : Nat) (f : Grid → Grid) : (s.onGrid g f).granted = s.granted := by
  rcases s.onGrid_cases g f with h | ⟨_, h⟩ <;> rw [h]
@[simp] theorem State.onGrid_regions (g : Nat) (f : Grid → Grid) : (s.onGrid g f).regions = s.regions := by
  rcases s.onGrid_cases g f with h | ⟨_, h⟩ <;> rw [h]
@[simp] theorem State.onGrid_nib (g : Nat) (f : Grid → Grid) : (s.onGrid g f).nib = s.nib := by
  rcases s.onGrid_cases g f with h | ⟨_, h⟩ <;> rw [h]
@[simp] theorem State.onGrid_hostReqs (g : Nat) (f : Grid → Grid) : (s.onGrid g f).hostReqs = s.hostReqs := by
  rcases s.onGrid_cases g f with h | ⟨_, h⟩ <;> rw [h]
@[simp] theorem State.onGrid_out (g : Nat) (f : Grid → Grid) : (s.onGrid g f).out = s.out := by
  rcases s.onGrid_cases g f with h | ⟨_, h⟩ <;> rw [h]

@[simp] theorem State.freshWord_mem (ctx : Nat) : (s.freshWord ctx).2.mem = s.mem := rfl
@[simp] theorem State.newId_mem : s.newId.2.mem = s.mem := rfl
@[simp] theorem State.newId_threads : s.newId.2.threads = s.threads := rfl
@[simp] theorem State.freshWord_threads (ctx : Nat) : (s.freshWord ctx).2.threads = s.threads := rfl
@[simp] theorem State.freshWord_teams (ctx : Nat) : (s.freshWord ctx).2.teams = s.teams := rfl
@[simp] theorem State.newId_teams : s.newId.2.teams = s.teams := rfl

end Sys2Proof.Machine
end

