-- ==== Sys2Proof/Laws/Lookup.lean ====
section
/-! SUPPORT. Finding a part of the state after an update: the part replaced is found as it was put, every other part as before. -/

namespace Sys2Proof.Machine

/-- The entry put is found by any test it meets, if no other entry that meets the test comes before its place. -/
theorem upsert_find_same {α : Type} (p q : α → Bool) (x : α) (xs : List α) (hx : q x = true) (h : ∀ y, q y = true → p y = true) :
    (upsert p x xs).find? q = some x := by
  induction xs with
  | nil => simp [upsert, hx]
  | cons y ys ih =>
    unfold upsert
    split
    · simp [hx]
    · rename_i hp
      have : q y = false := by
        cases hq : q y with
        | false => rfl
        | true => exact absurd (h y hq) hp
      simp [this, ih]

/-- A test that the entry put and every entry it replaces fail finds what it found before. -/
theorem upsert_find_other {α : Type} (p q : α → Bool) (x : α) (xs : List α) (hx : q x = false) (h : ∀ y, p y = true → q y = false) :
    (upsert p x xs).find? q = xs.find? q := by
  induction xs with
  | nil => simp [upsert, hx]
  | cons y ys ih =>
    unfold upsert
    split
    · rename_i hp
      simp [hx, h y hp]
    · simp only [List.find?_cons, ih]

theorem upsert_mem {α : Type} {p : α → Bool} {x y : α} {xs : List α} (h : y ∈ upsert p x xs) : y = x ∨ y ∈ xs := by
  induction xs with
  | nil => simpa [upsert] using h
  | cons z zs ih =>
    unfold upsert at h
    split at h
    · rcases List.mem_cons.mp h with h | h
      · exact .inl h
      · exact .inr (List.mem_cons_of_mem _ h)
    · rcases List.mem_cons.mp h with h | h
      · exact .inr (h ▸ List.mem_cons_self)
      · exact (ih h).imp id (List.mem_cons_of_mem _)

variable (s : State)

/-- The name of a thread: its core, partition and slot. -/
def Thread.at3 (t : Thread) : Nat × Nat × Nat := (t.core, t.part, t.slot)

theorem State.thread?_name {s : State} {c p sl : Nat} {t : Thread} (h : s.thread? c p sl = some t) : t.core = c ∧ t.part = p ∧ t.slot = sl := by
  have := List.find?_some h
  simpa [and_assoc] using this

@[simp] theorem State.thread?_setThread_same (t : Thread) : (s.setThread t).thread? t.core t.part t.slot = some t :=
  upsert_find_same _ _ _ _ (by simp) (fun _ h => h)

theorem State.thread?_setThread_other (t : Thread) {c p sl : Nat} (h : (c, p, sl) ≠ (t.core, t.part, t.slot)) :
    (s.setThread t).thread? c p sl = s.thread? c p sl := by
  have h' : ∀ a b d : Nat, (a, b, d) = (t.core, t.part, t.slot) → ¬ (a = c ∧ b = p ∧ d = sl) := by
    rintro a b d e ⟨rfl, rfl, rfl⟩; exact h e
  refine upsert_find_other _ _ _ _ ?_ ?_
  · have := h' _ _ _ rfl
    simp only [Bool.and_eq_false_iff, beq_eq_false_iff_ne]; omega
  · intro y hy
    simp only [Bool.and_eq_true, beq_iff_eq] at hy
    have := h' y.core y.part y.slot (by rw [hy.1.1, hy.1.2, hy.2])
    simp only [Bool.and_eq_false_iff, beq_eq_false_iff_ne]; omega

/-- A thread after a change of one slot. -/
theorem State.thread?_onThread (c p sl c' p' sl' : Nat) (f : Thread → Thread)
    (hf : ∀ t, (f t).core = t.core ∧ (f t).part = t.part ∧ (f t).slot = t.slot) :
    (s.onThread c p sl f).thread? c' p' sl' =
      if (c', p', sl') = (c, p, sl) then (s.thread? c p sl).map f else s.thread? c' p' sl' := by
  unfold State.onThread
  split
  · rename_i t ht
    obtain ⟨h1, h2, h3⟩ := State.thread?_name ht
    obtain ⟨g1, g2, g3⟩ := hf t
    split
    · rename_i e
      obtain ⟨rfl, rfl, rfl⟩ : c' = c ∧ p' = p ∧ sl' = sl := by simpa using e
      have := s.thread?_setThread_same (f t)
      rw [g1, g2, g3, h1, h2, h3] at this
      rw [ht]; exact this
    · rename_i e
      refine s.thread?_setThread_other (f t) ?_
      rw [g1, g2, g3, h1, h2, h3]; exact e
  · rename_i ht
    split
    · rename_i e
      obtain ⟨rfl, rfl, rfl⟩ : c' = c ∧ p' = p ∧ sl' = sl := by simpa using e
      rw [ht]; rfl
    · rfl

@[simp] theorem State.team?_setTeam_same (t : Team) : (s.setTeam t).team? t.core t.slot = some t :=
  upsert_find_same _ _ _ _ (by simp) (fun _ h => h)

theorem State.team?_name {s : State} {c n : Nat} {t : Team} (h : s.team? c n = some t) : t.core = c ∧ t.slot = n := by
  have := List.find?_some h
  simpa using this

theorem State.team?_setTeam_other (t : Team) {c n : Nat} (h : (c, n) ≠ (t.core, t.slot)) : (s.setTeam t).team? c n = s.team? c n := by
  have h' : ∀ a b : Nat, (a, b) = (t.core, t.slot) → ¬ (a = c ∧ b = n) := by
    rintro a b e ⟨rfl, rfl⟩; exact h e
  refine upsert_find_other _ _ _ _ ?_ ?_
  · have := h' _ _ rfl
    simp only [Bool.and_eq_false_iff, beq_eq_false_iff_ne]; omega
  · intro y hy
    simp only [Bool.and_eq_true, beq_iff_eq] at hy
    have := h' y.core y.slot (by rw [hy.1, hy.2])
    simp only [Bool.and_eq_false_iff, beq_eq_false_iff_ne]; omega

/-- A team after a change of one slot. -/
theorem State.team?_onTeam (c n c' n' : Nat) (f : Team → Team) (hf : ∀ t, (f t).core = t.core ∧ (f t).slot = t.slot) :
    (s.onTeam c n f).team? c' n' = if (c', n') = (c, n) then (s.team? c n).map f else s.team? c' n' := by
  unfold State.onTeam
  split
  · rename_i t ht
    obtain ⟨h1, h2⟩ := State.team?_name ht
    obtain ⟨g1, g2⟩ := hf t
    split
    · rename_i e
      obtain ⟨rfl, rfl⟩ : c' = c ∧ n' = n := by simpa using e
      have := s.team?_setTeam_same (f t)
      rw [g1, g2, h1, h2] at this
      rw [ht]; exact this
    · rename_i e
      refine s.team?_setTeam_other (f t) ?_
      rw [g1, g2, h1, h2]; exact e
  · rename_i ht
    split
    · rename_i e
      obtain ⟨rfl, rfl⟩ : c' = c ∧ n' = n := by simpa using e
      rw [ht]; rfl
    · rfl

@[simp] theorem State.core_setCore_same (c : Core) : (s.setCore c).core c.idx = c := by
  unfold State.core State.setCore
  rw [upsert_find_same _ _ _ _ (by simp) (fun _ h => h)]; rfl

theorem State.core_setCore_other (c : Core) {n : Nat} (h : n ≠ c.idx) : (s.setCore c).core n = s.core n := by
  unfold State.core State.setCore
  rw [upsert_find_other]
  · simpa using fun e => h e.symm
  · intro y hy
    simp only [beq_iff_eq] at hy
    simpa [hy] using fun e => h e.symm

theorem State.core_idx (n : Nat) : (s.core n).idx = n := by
  unfold State.core
  cases h : s.cores.find? fun c => c.idx == n with
  | none => rfl
  | some c => simpa using List.find?_some h

/-- A core after a change of one core. -/
theorem State.core_onCore (n m : Nat) (f : Core → Core) (hf : ∀ c, (f c).idx = c.idx) :
    (s.onCore n f).core m = if m = n then f (s.core n) else s.core m := by
  have e : (f (s.core n)).idx = n := by rw [hf, s.core_idx]
  split
  · rename_i h
    subst h
    have := s.core_setCore_same (f (s.core m))
    rwa [e] at this
  · rename_i h
    exact s.core_setCore_other _ (by rw [e]; exact h)

@[simp] theorem State.part_setPart_same (q : Part) : (s.setPart q).part q.core q.idx = q := by
  unfold State.part State.setPart
  rw [upsert_find_same _ _ _ _ (by simp) (fun _ h => h)]; rfl

theorem State.part_setPart_other (q : Part) {c p : Nat} (h : (c, p) ≠ (q.core, q.idx)) : (s.setPart q).part c p = s.part c p := by
  have h' : ∀ a b : Nat, (a, b) = (q.core, q.idx) → ¬ (a = c ∧ b = p) := by
    rintro a b e ⟨rfl, rfl⟩; exact h e
  unfold State.part State.setPart
  rw [upsert_find_other]
  · have := h' _ _ rfl
    simp only [Bool.and_eq_false_iff, beq_eq_false_iff_ne]; omega
  · intro y hy
    simp only [Bool.and_eq_true, beq_iff_eq] at hy
    have := h' y.core y.idx (by rw [hy.1, hy.2])
    simp only [Bool.and_eq_false_iff, beq_eq_false_iff_ne]; omega

theorem State.part_name (c p : Nat) : (s.part c p).core = c ∧ (s.part c p).idx = p := by
  unfold State.part
  cases h : s.parts.find? fun q => q.core == c && q.idx == p with
  | none => exact ⟨rfl, rfl⟩
  | some q => simpa using List.find?_some h

/-- A partition after a change of one partition. -/
theorem State.part_onPart (c p c' p' : Nat) (f : Part → Part) (hf : ∀ q, (f q).core = q.core ∧ (f q).idx = q.idx) :
    (s.onPart c p f).part c' p' = if (c', p') = (c, p) then f (s.part c p) else s.part c' p' := by
  obtain ⟨h1, h2⟩ := s.part_name c p
  obtain ⟨g1, g2⟩ := hf (s.part c p)
  split
  · rename_i e
    obtain ⟨rfl, rfl⟩ : c' = c ∧ p' = p := by simpa using e
    have := s.part_setPart_same (f (s.part c' p'))
    rwa [g1, g2, h1, h2] at this
  · rename_i e
    exact s.part_setPart_other _ (by rw [g1, g2, h1, h2]; exact e)

/-- A register written reads back. -/
theorem setAt_getD_same (xs : List Word) (r : Nat) (w d : Word) : (setAt xs r w).getD r d = w := by
  induction xs generalizing r with
  | nil =>
    induction r with
    | zero => rfl
    | succ r ih => simpa [setAt] using ih
  | cons x xs ih =>
    cases r with
    | zero => rfl
    | succ r => simpa [setAt] using ih r

/-- A register that was not written reads as before; one that the list did not have reads as zero. -/
theorem setAt_getD_other (xs : List Word) (r q : Nat) (w : Word) (h : q ≠ r) : (setAt xs r w).getD q 0 = xs.getD q 0 := by
  induction xs generalizing r q with
  | nil =>
    induction r generalizing q with
    | zero => cases q with
      | zero => exact absurd rfl h
      | succ q => simp [setAt]
    | succ r ih =>
      cases q with
      | zero => simp [setAt]
      | succ q => simpa [setAt] using ih q (by omega)
  | cons x xs ih =>
    cases r with
    | zero => cases q with
      | zero => exact absurd rfl h
      | succ q => simp [setAt]
    | succ r =>
      cases q with
      | zero => simp [setAt]
      | succ q => simpa [setAt] using ih r q (by omega)

end Sys2Proof.Machine
end

