-- ==== Sys2Proof/Laws/Issue.lean ====
section
/-! SUPPORT. What the issue of a word does around the instruction's own effect: which threads it is for, and that ageing the latch, parking and holding change schedules only. -/

namespace Sys2Proof.Machine

/-- Nothing has changed but schedules: threads keep their data, and no part of the module but partition `p` of core `c` has changed. -/
def State.Sched (c p : Nat) (s u : State) : Prop :=
  { u with threads := s.threads, parts := s.parts } = s ∧ (∀ a b k, u.dataOf a b k = s.dataOf a b k)
    ∧ ∀ a b, (a, b) ≠ (c, p) → u.part a b = s.part a b

theorem State.Sched.refl (c p : Nat) (s : State) : State.Sched c p s s := ⟨rfl, fun _ _ _ => rfl, fun _ _ _ => rfl⟩

theorem State.Sched.trans {c p : Nat} {s t u : State} (h : State.Sched c p s t) (g : State.Sched c p t u) : State.Sched c p s u := by
  refine ⟨?_, fun a b k => (g.2.1 a b k).trans (h.2.1 a b k), fun a b e => (g.2.2 a b e).trans (h.2.2 a b e)⟩
  have h1 := h.1
  have g1 := g.1
  rw [← g1] at h1
  exact h1

/-- The rest of the module, by fields. -/
theorem State.Sched.teams {c p : Nat} {s u : State} (h : State.Sched c p s u) : u.teams = s.teams := by
  have := congrArg State.teams h.1; exact this

theorem State.Sched.mem {c p : Nat} {s u : State} (h : State.Sched c p s u) : u.mem = s.mem := by
  have := congrArg State.mem h.1; exact this

theorem State.Sched.cur {c p : Nat} {s u : State} (h : State.Sched c p s u) : u.cur = s.cur := by
  have := congrArg State.cur h.1; exact this

theorem State.Sched.foldl {α : Type} {c p : Nat} (g : State → α → State) (l : List α)
    (h : ∀ s, ∀ x ∈ l, State.Sched c p s (g s x)) (s : State) : State.Sched c p s (l.foldl g s) := by
  induction l generalizing s with
  | nil => exact .refl c p s
  | cons x l ih =>
    exact (h s x List.mem_cons_self).trans (ih (fun s y hy => h s y (List.mem_cons_of_mem _ hy)) (g s x))

theorem State.sched_onPart (s : State) (c p : Nat) (f : Part → Part) (hf : ∀ q, (f q).core = q.core ∧ (f q).idx = q.idx) :
    State.Sched c p s (s.onPart c p f) := by
  refine ⟨rfl, fun _ _ _ => rfl, fun a b e => ?_⟩
  rw [s.part_onPart c p a b f hf, if_neg e]

/-- A change of one thread that keeps its name, seen in the data of every thread. -/
theorem State.dataOf_onThread (s : State) (c p sl a b k : Nat) (f : Thread → Thread)
    (hf : ∀ t, (f t).core = t.core ∧ (f t).part = t.part ∧ (f t).slot = t.slot) :
    (s.onThread c p sl f).dataOf a b k =
      if (a, b, k) = (c, p, sl) then (s.thread? c p sl).map fun t => (f t).data else s.dataOf a b k := by
  unfold State.dataOf
  rw [s.thread?_onThread c p sl a b k f hf]
  split
  · rw [Option.map_map]; rfl
  · rfl

theorem State.sched_onThread (s : State) (c p sl : Nat) (f : Thread → Thread)
    (hf : ∀ t, (f t).core = t.core ∧ (f t).part = t.part ∧ (f t).slot = t.slot) (hd : ∀ t, (f t).data = t.data) :
    State.Sched c p s (s.onThread c p sl f) := by
  refine ⟨?_, fun a b k => ?_, fun a b _ => ?_⟩
  · rcases s.onThread_cases c p sl f with h | ⟨_, h⟩ <;> rw [h]
  · rw [s.dataOf_onThread c p sl a b k f hf]
    split
    · rename_i e
      obtain ⟨rfl, rfl, rfl⟩ : a = c ∧ b = p ∧ k = sl := by simpa using e
      simp only [hd]; rfl
    · rfl
  · unfold State.part; simp

theorem State.sched_leavePack (s : State) (c p sl : Nat) : State.Sched c p s (s.leavePack c p sl) :=
  s.sched_onPart c p _ fun _ => ⟨rfl, rfl⟩

/-- A park changes schedules only (R36). -/
theorem State.sched_park (s : State) (t : Thread) (k : Park) (to_ : Target) (chk : Option Check) :
    State.Sched t.core t.part s (s.park t k to_ chk) :=
  (s.sched_leavePack _ _ _).trans (State.sched_onThread _ _ _ _ _ (fun _ => ⟨rfl, rfl, rfl⟩) fun _ => rfl)

theorem State.onPack_sched (s : State) (cur : Cur) (f : Pack → Pack) : State.Sched cur.core cur.part s (s.onPack cur f) := by
  refine s.sched_onPart _ _ _ fun q => ?_
  dsimp only
  split <;> exact ⟨rfl, rfl⟩

/-- Holding the rest of the sub-groups changes schedules only (R37, R131). -/
theorem applyHolds_sched (s : State) (cur : Cur) (tm : Team) (conv : Bool) (all : List Thread) (trapped : List Nat) (done : Bool)
    (ha : ∀ t ∈ all, t.core = cur.core ∧ t.part = cur.part) :
    State.Sched cur.core cur.part s (applyHolds s cur tm conv all trapped done) := by
  have now (t : Thread) (ht : t ∈ all) :
      ((s.thread? cur.core cur.part t.slot).getD t).core = cur.core ∧ ((s.thread? cur.core cur.part t.slot).getD t).part = cur.part := by
    cases h : s.thread? cur.core cur.part t.slot with
    | none => exact ha t ht
    | some x => exact ⟨(State.thread?_name h).1, (State.thread?_name h).2.1⟩
  have held (u : State) (t : Thread) (ht : t ∈ all) (to_ : Target) (chk : Option Check) (f : Thread → Thread)
      (hf : ∀ t, (f t).core = t.core ∧ (f t).part = t.part ∧ (f t).slot = t.slot) (hd : ∀ t, (f t).data = t.data) :
      State.Sched cur.core cur.part u
        ((u.park ((s.thread? cur.core cur.part t.slot).getD t) .held to_ chk).onThread cur.core cur.part t.slot f) := by
    have h := u.sched_park ((s.thread? cur.core cur.part t.slot).getD t) .held to_ chk
    rw [(now t ht).1, (now t ht).2] at h
    exact h.trans (State.sched_onThread _ _ _ _ f hf hd)
  unfold applyHolds
  split
  · exact .refl _ _ _
  · refine (s.onPack_sched cur _).trans (State.Sched.foldl _ _ (fun u sg _ => ?_) _)
    dsimp only
    split
    · refine State.Sched.trans (State.Sched.foldl _ _ (fun u t ht => ?_) u) (State.sched_onPart _ _ _ _ fun _ => ⟨rfl, rfl⟩)
      exact held u t (List.mem_filter.mp ht).1 _ _ _ (fun _ => ⟨rfl, rfl, rfl⟩) fun _ => rfl
    · split
      · refine State.Sched.foldl _ _ (fun u t ht => ?_) u
        exact held u t (List.mem_filter.mp ht).1 _ _ _ (fun _ => ⟨rfl, rfl, rfl⟩) fun _ => rfl
      · exact .refl _ _ _

/-- What an issue is made of. -/
theorem State.issue_some {s : State} {g0 g1 : Guard} {is : Issue} (h : s.issue g0 g1 = some is) :
    s.cur = some is.cur ∧ ((s.part is.cur.core is.cur.part).stream is.cur.stream).pack = some is.pack
      ∧ s.team? is.cur.core is.pack.team = some is.team
      ∧ is.all = (is.pack.slots.eraseDups.filterMap fun sl => s.thread? is.cur.core is.cur.part sl).filter (fun t => t.team == is.pack.team)
      ∧ is.act = is.all.filter (fun t => holdsBoth g0 g1 t && !is.pack.skip.contains t.slot) := by
  unfold State.issue at h
  split at h
  · cases h
  · split at h
    · cases h
    · split at h
      · cases h
      · cases h
        exact ⟨by assumption, by assumption, by assumption, rfl, rfl⟩

/-- A thread of the pack is the thread of its slot. -/
theorem State.issue_all {s : State} {g0 g1 : Guard} {is : Issue} (h : s.issue g0 g1 = some is) {t : Thread} (ht : t ∈ is.all) :
    s.thread? is.cur.core is.cur.part t.slot = some t ∧ t.core = is.cur.core ∧ t.part = is.cur.part := by
  obtain ⟨_, _, _, h4, _⟩ := State.issue_some h
  rw [h4] at ht
  obtain ⟨sl, _, hsl⟩ := List.mem_filterMap.mp (List.mem_filter.mp ht).1
  obtain ⟨h1, h2, h3⟩ := State.thread?_name hsl
  rw [h3]; exact ⟨hsl, h1, h2⟩

theorem State.issue_act {s : State} {g0 g1 : Guard} {is : Issue} (h : s.issue g0 g1 = some is) {t : Thread} (ht : t ∈ is.act) : t ∈ is.all := by
  obtain ⟨_, _, _, _, h5⟩ := State.issue_some h
  rw [h5] at ht
  exact (List.mem_filter.mp ht).1

theorem State.issue_team {s : State} {g0 g1 : Guard} {is : Issue} (h : s.issue g0 g1 = some is) :
    s.team? is.cur.core is.team.slot = some is.team := by
  obtain ⟨_, _, h3, _, _⟩ := State.issue_some h
  rw [(State.team?_name h3).2]; exact h3

theorem nodup_eraseDups {α : Type} [BEq α] [LawfulBEq α] (n : Nat) (l : List α) (h : l.length ≤ n) : l.eraseDups.Nodup := by
  induction n generalizing l with
  | zero => cases l with
    | nil => simp
    | cons a l => simp at h
  | succ n ih =>
    cases l with
    | nil => simp
    | cons a l =>
      rw [List.eraseDups_cons, List.nodup_cons]
      refine ⟨fun h => ?_, ih _ ?_⟩
      · rw [List.mem_eraseDups] at h
        simp at h
      · have := List.length_filter_le (fun b => !b == a) l
        simp at h; omega

/-- The threads of an issue are in slots of their own (R25). -/
theorem State.issue_nodup {s : State} {g0 g1 : Guard} {is : Issue} (h : s.issue g0 g1 = some is) : (is.act.map (·.slot)).Nodup := by
  obtain ⟨_, _, _, h4, h5⟩ := State.issue_some h
  have key (l : List Nat) (hl : l.Nodup) :
      (l.filterMap fun sl => s.thread? is.cur.core is.cur.part sl).Pairwise fun a b => a.slot ≠ b.slot := by
    induction l with
    | nil => exact List.Pairwise.nil
    | cons a l ih =>
      rw [List.nodup_cons] at hl
      simp only [List.filterMap_cons]
      split
      · exact ih hl.2
      · rename_i t ht
        refine List.Pairwise.cons (fun u hu => ?_) (ih hl.2)
        obtain ⟨b, hb, hbu⟩ := List.mem_filterMap.mp hu
        rw [(State.thread?_name ht).2.2, (State.thread?_name hbu).2.2]
        rintro rfl
        exact hl.1 hb
  rw [List.Nodup, List.pairwise_map, h5, h4]
  exact ((key _ (nodup_eraseDups _ _ (Nat.le_refl _))).filter _).filter _

/-- The threads of an issue are of the team of its pack (R25). -/
theorem State.issue_own {s : State} {g0 g1 : Guard} {is : Issue} (h : s.issue g0 g1 = some is) {t : Thread} (ht : t ∈ is.all) :
    t.team = is.team.slot := by
  obtain ⟨_, _, h3, h4, _⟩ := State.issue_some h
  rw [h4] at ht
  rw [(State.team?_name h3).2]
  simpa using (List.mem_filter.mp ht).2

end Sys2Proof.Machine
end

