-- ==== Sys2Proof/Laws/RunWord.lean ====
section
/-! SUPPORT. The common rules of a word: when no executing thread traps, parks or waits for a walk, the word does the instruction's own effect on all of them, and holds change schedules only. -/

namespace Sys2Proof.Machine

/-- The state in which the effect of a word takes place: the latch has aged (R54). -/
def State.aged (s : State) (i : Instr) (is : Issue) : State :=
  s.onPack is.cur fun k => { k with latches := ageLatches k.latches (heldSource is i) }

theorem State.aged_sched (s : State) (i : Instr) (is : Issue) : State.Sched is.cur.core is.cur.part s (s.aged i is) :=
  s.onPack_sched is.cur _

/-- The faults that walks have delivered to the issuing stream. -/
abbrev Issue.walkFaults (is : Issue) (s : State) : List (DWord × Nat × Nat × Nat) :=
  ((s.part is.cur.core is.cur.part).stream is.cur.stream).faults

theorem State.Runs.issued {s : State} {i : Instr} {is : Issue} (h : s.Runs i is) : ∃ g0 g1, s.issue g0 g1 = some is := by
  obtain ⟨⟨_, f, _, hi⟩, _⟩ := h
  exact ⟨_, _, hi⟩

/-- A word that executes answers a next state, which is its own effect but for schedules. -/
theorem runWord_runs {s : State} {i : Instr} {is : Issue} (m : Meaning) (h : s.Runs i is)
    (ht : ∀ t ∈ is.act, m.traps s is t = none) (hp : ∀ t ∈ is.act, m.parks s is t = none)
    (hx : ∀ t ∈ is.act, ∀ n ∈ m.xl s is t, s.xlateCore is.cur.core is.team.ctx (is.walkFaults s) n.1 n.2 ≠ .miss) :
    ∃ u, runWord i m s = .next u ∧ State.Sched is.cur.core is.cur.part (m.run (s.aged i is) is is.act) u := by
  obtain ⟨⟨op, f, hf, hi⟩, hne, hbad, hpend, _⟩ := h
  have hfate : (is.act.map fun t => (t, m.fate s is i t)) = is.act.map fun t => (t, none, none) :=
    List.map_congr_left fun t h => by simp only [Meaning.fate, hbad, hpend t h, ht t h]
  have hclear : (((is.act.map fun t => (t, (none, none))).filter fun (x : Thread × Option (Nat × DWord) × Option ParkSpec) =>
      x.2.1.isNone && x.2.2.isNone).map (·.1)) = is.act := by
    induction is.act with
    | nil => rfl
    | cons t l ih => simpa using ih
  have hown : (is.act.map fun t => (t, m.parks s is t)) = is.act.map fun t => (t, none) := by
    refine List.map_congr_left fun t h => ?_
    rw [hp t h]
  have hneed : ((is.act.flatMap (m.xl s is)).filter fun n =>
      s.xlateCore is.cur.core is.team.ctx (is.walkFaults s) n.1 n.2 == .miss) = [] := by
    refine List.filter_eq_nil_iff.mpr fun n hn => ?_
    obtain ⟨t, h1, h2⟩ := List.mem_flatMap.mp hn
    simpa using hx t h1 n h2
  have e1 : ((is.act.map fun t => (t, (none, none))).filterMap fun (x : Thread × Option (Nat × DWord) × Option ParkSpec) =>
      x.2.1.map fun c => (x.1, c)) = [] := by
    induction is.act with
    | nil => rfl
    | cons t l ih => simp
  have e2 : ((is.act.map fun t => (t, (none, none))).filterMap fun (x : Thread × Option (Nat × DWord) × Option ParkSpec) =>
      x.2.2.map fun c => (x.1, c)) = [] := by
    induction is.act with
    | nil => rfl
    | cons t l ih => simp
  have e3 : ((is.act.map fun t => (t, none)).filterMap fun (x : Thread × Option ParkSpec) => x.2.map fun p => (x.1, p)) = [] := by
    induction is.act with
    | nil => rfl
    | cons t l ih => simp
  have e4 : (((is.act.map fun t => (t, none)).filter fun (x : Thread × Option ParkSpec) => x.2.isNone && !false).map (·.1)) = is.act := by
    induction is.act with
    | nil => rfl
    | cons t l ih => simpa using ih
  have hemp : is.act.isEmpty = false := by
    cases h : is.act with
    | nil => exact absurd h hne
    | cons _ _ => rfl
  unfold runWord
  simp only [hf, hi, hfate, hclear, hneed, hown, e1, e2, e3, List.isEmpty_nil, Bool.not_true, Bool.false_eq_true, if_false,
    List.filter_nil, List.map_nil, List.contains_nil, Bool.and_false, e4, hemp, List.append_nil, List.foldl_nil]
  exact ⟨_, rfl, applyHolds_sched _ _ _ _ _ _ _ fun t h => (State.issue_all hi h).2⟩

/-- A word that neither translates, traps nor parks. -/
theorem runWord_plain {s : State} {i : Instr} {is : Issue} (run : State → Issue → List Thread → State) (h : s.Runs i is) :
    ∃ u, runWord i (plain run) s = .next u ∧ State.Sched is.cur.core is.cur.part (run (s.aged i is) is is.act) u :=
  runWord_runs (plain run) h (fun _ _ => rfl) (fun _ _ => rfl) fun _ _ _ h => by cases h

end Sys2Proof.Machine
end

