-- ==== Sys2Proof/Laws/Results.lean ====
section
/-! SUPPORT. Results written at once (R30, R58): the destination holds what was computed, and nothing else has changed. -/

namespace Sys2Proof.Machine

/-- Registers written from `r` up. -/
def Thread.writeVs (t : Thread) (r : Nat) : List Word → Thread
  | [] => t
  | w :: ws => (t.writeV r w).writeVs (r + 1) ws

/-- Scalars written from `r` up. -/
def Team.writeSs (t : Team) (r : Nat) : List Word → Team
  | [] => t
  | w :: ws => (t.writeS r w).writeSs (r + 1) ws

theorem Thread.writeVs_rest (t : Thread) (r : Nat) (ws : List Word) :
    { t.writeVs r ws with regs := t.regs, gridpend := t.gridpend } = t := by
  induction ws generalizing t r with
  | nil => rfl
  | cons w ws ih =>
    have := ih (t.writeV r w) (r + 1)
    simp only [Thread.writeVs]
    exact congrArg (fun x : Thread => { x with regs := t.regs, gridpend := t.gridpend }) this

theorem Team.writeSs_rest (t : Team) (r : Nat) (ws : List Word) :
    { t.writeSs r ws with scalars := t.scalars, tags := t.tags } = t := by
  induction ws generalizing t r with
  | nil => rfl
  | cons w ws ih =>
    have := ih (t.writeS r w) (r + 1)
    simp only [Team.writeSs]
    exact congrArg (fun x : Team => { x with scalars := t.scalars, tags := t.tags }) this

/-- A register after writes from `r` up. -/
theorem Thread.writeVs_getD (t : Thread) (r q : Nat) (ws : List Word) :
    (t.writeVs r ws).regs.getD q 0 = if r ≤ q ∧ q < r + ws.length then ws.getD (q - r) 0 else t.regs.getD q 0 := by
  induction ws generalizing t r with
  | nil => exact (if_neg (fun h => absurd h.2 (by simpa using h.1))).symm
  | cons w ws ih =>
    simp only [Thread.writeVs, List.length_cons]
    rw [ih]
    by_cases h1 : r + 1 ≤ q ∧ q < r + 1 + ws.length
    · have h2 : r ≤ q ∧ q < r + (ws.length + 1) := by omega
      have h3 : q - r = (q - (r + 1)) + 1 := by omega
      simp [h1, h2, h3]
    · by_cases hq : q = r
      · subst hq
        simp only [h1, if_false, Thread.writeV]
        rw [setAt_getD_same]
        simp
      · have h2 : ¬ (r ≤ q ∧ q < r + (ws.length + 1)) := by omega
        simp only [h1, h2, if_false, Thread.writeV]
        exact setAt_getD_other _ _ _ _ hq

theorem Team.writeSs_getD (t : Team) (r q : Nat) (ws : List Word) :
    (t.writeSs r ws).scalars.getD q 0 = if r ≤ q ∧ q < r + ws.length then ws.getD (q - r) 0 else t.scalars.getD q 0 := by
  induction ws generalizing t r with
  | nil => exact (if_neg (fun h => absurd h.2 (by simpa using h.1))).symm
  | cons w ws ih =>
    simp only [Team.writeSs, List.length_cons]
    rw [ih]
    by_cases h1 : r + 1 ≤ q ∧ q < r + 1 + ws.length
    · have h2 : r ≤ q ∧ q < r + (ws.length + 1) := by omega
      have h3 : q - r = (q - (r + 1)) + 1 := by omega
      simp [h1, h2, h3]
    · by_cases hq : q = r
      · subst hq
        simp only [h1, if_false, Team.writeS]
        rw [setAt_getD_same]
        simp
      · have h2 : ¬ (r ≤ q ∧ q < r + (ws.length + 1)) := by omega
        simp only [h1, h2, if_false, Team.writeS]
        exact setAt_getD_other _ _ _ _ hq

/-- What is read back from registers just written. -/
theorem Thread.writeVs_vregs (t : Thread) (r n : Nat) (ws : List Word) (h : ws.length = n) : (t.writeVs r ws).vregs r n = ws := by
  subst h
  refine List.ext_getElem (by simp [Thread.vregs]) fun i h1 h2 => ?_
  simp only [Thread.vregs, List.getElem_map, List.getElem_range]
  rw [Thread.writeVs_getD]
  simp [h2]

theorem Team.writeSs_sregs (t : Team) (r n : Nat) (ws : List Word) (h : ws.length = n) : (t.writeSs r ws).sregs r n = ws := by
  subst h
  refine List.ext_getElem (by simp [Team.sregs]) fun i h1 h2 => ?_
  simp only [Team.sregs, List.getElem_map, List.getElem_range]
  rw [Team.writeSs_getD]
  simp [h2]

/-- Destinations in the `v` registers of a thread, written one after another, are one change of the thread. -/
theorem State.writeDests_thread (s : State) (c p sl r n : Nat) (ws : List Word) (h : ws.length = n) (c' p' k : Nat) :
    (s.writeDests c p ((List.range n).map fun i => Dest.v sl (r + i)) ws).thread? c' p' k
      = if (c', p', k) = (c, p, sl) then (s.thread? c p sl).map fun t => t.writeVs r ws else s.thread? c' p' k := by
  induction n generalizing s r ws with
  | zero =>
    cases ws with
    | nil =>
      simp only [List.range_zero, List.map_nil, State.writeDests, Thread.writeVs]
      split
      · rename_i e
        obtain ⟨rfl, rfl, rfl⟩ : c' = c ∧ p' = p ∧ k = sl := by simpa using e
        simp
      · rfl
    | cons w ws => cases h
  | succ n ih =>
    cases ws with
    | nil => cases h
    | cons w ws =>
      rw [List.range_succ_eq_map]
      simp only [List.map_cons, List.map_map, State.writeDests, State.writeDest, Nat.add_zero]
      have e : ((fun i => Dest.v sl (r + i)) ∘ Nat.succ) = fun i => Dest.v sl (r + 1 + i) := by
        funext i; simp [Nat.add_comm, Nat.add_left_comm]
      rw [e, ih _ _ ws (by simpa using h)]
      have hf : ∀ t : Thread, (t.writeV r w).core = t.core ∧ (t.writeV r w).part = t.part ∧ (t.writeV r w).slot = t.slot :=
        fun _ => ⟨rfl, rfl, rfl⟩
      rw [s.thread?_onThread c p sl c' p' k _ hf, s.thread?_onThread c p sl c p sl _ hf]
      split
      · simp [Thread.writeVs, Function.comp_def]
      · rfl

theorem State.writeDests_v_eq (s : State) (c p sl r n : Nat) (ws : List Word) :
    ∃ x, s.writeDests c p ((List.range n).map fun i => Dest.v sl (r + i)) ws = { s with threads := x } := by
  have e : (List.range n).map (fun i => Dest.v sl (r + i)) = ((List.range n).map fun i => r + i).map (Dest.v sl) := by
    rw [List.map_map]; rfl
  rw [e]
  generalize (List.range n).map (fun i => r + i) = rs
  induction rs generalizing s ws with
  | nil => exact ⟨s.threads, by cases ws <;> rfl⟩
  | cons r rs ih =>
    cases ws with
    | nil => exact ⟨s.threads, rfl⟩
    | cons w ws =>
      simp only [List.map_cons, State.writeDests, State.writeDest]
      obtain ⟨x, hx⟩ := ih (s.onThread c p sl fun t => t.writeV r w) ws
      refine ⟨x, ?_⟩
      rw [hx]
      rcases s.onThread_cases c p sl (fun t => t.writeV r w) with h | ⟨_, h⟩ <;> rw [h]

/-- Destinations in the scalars of a team, written one after another, are one change of the team. -/
theorem State.writeDests_team (s : State) (c p tm r n : Nat) (ws : List Word) (h : ws.length = n) (c' k : Nat) :
    (s.writeDests c p ((List.range n).map fun i => Dest.s tm (r + i)) ws).team? c' k
      = if (c', k) = (c, tm) then (s.team? c tm).map fun t => t.writeSs r ws else s.team? c' k := by
  induction n generalizing s r ws with
  | zero =>
    cases ws with
    | nil =>
      simp only [List.range_zero, List.map_nil, State.writeDests, Team.writeSs]
      split
      · rename_i e
        obtain ⟨rfl, rfl⟩ : c' = c ∧ k = tm := by simpa using e
        simp
      · rfl
    | cons w ws => cases h
  | succ n ih =>
    cases ws with
    | nil => cases h
    | cons w ws =>
      rw [List.range_succ_eq_map]
      simp only [List.map_cons, List.map_map, State.writeDests, State.writeDest, Nat.add_zero]
      have e : ((fun i => Dest.s tm (r + i)) ∘ Nat.succ) = fun i => Dest.s tm (r + 1 + i) := by
        funext i; simp [Nat.add_comm, Nat.add_left_comm]
      rw [e, ih _ _ ws (by simpa using h)]
      have hf : ∀ t : Team, (t.writeS r w).core = t.core ∧ (t.writeS r w).slot = t.slot := fun _ => ⟨rfl, rfl⟩
      rw [s.team?_onTeam c tm c' k _ hf, s.team?_onTeam c tm c tm _ hf]
      split
      · simp [Team.writeSs, Function.comp_def]
      · rfl

theorem State.writeDests_s_eq (s : State) (c p tm r n : Nat) (ws : List Word) :
    ∃ x, s.writeDests c p ((List.range n).map fun i => Dest.s tm (r + i)) ws = { s with teams := x } := by
  have e : (List.range n).map (fun i => Dest.s tm (r + i)) = ((List.range n).map fun i => r + i).map (Dest.s tm) := by
    rw [List.map_map]; rfl
  rw [e]
  generalize (List.range n).map (fun i => r + i) = rs
  induction rs generalizing s ws with
  | nil => exact ⟨s.teams, by cases ws <;> rfl⟩
  | cons r rs ih =>
    cases ws with
    | nil => exact ⟨s.teams, rfl⟩
    | cons w ws =>
      simp only [List.map_cons, State.writeDests, State.writeDest]
      obtain ⟨x, hx⟩ := ih (s.onTeam c tm fun t => t.writeS r w) ws
      refine ⟨x, ?_⟩
      rw [hx]
      rcases s.onTeam_cases c tm (fun t => t.writeS r w) with h | ⟨_, h⟩ <;> rw [h]

/-- One thread has changed by `f`, and else nothing but partition `p` of core `c`. -/
def State.Touch (c p sl : Nat) (f : Thread → Thread) (s u : State) : Prop :=
  { u with threads := s.threads, parts := s.parts } = s
    ∧ (∀ a b k, u.thread? a b k = if (a, b, k) = (c, p, sl) then (s.thread? c p sl).map f else s.thread? a b k)
    ∧ ∀ a b, (a, b) ≠ (c, p) → u.part a b = s.part a b

theorem State.touch_onThread (s : State) (c p sl : Nat) (f : Thread → Thread)
    (hf : ∀ t, (f t).core = t.core ∧ (f t).part = t.part ∧ (f t).slot = t.slot) : State.Touch c p sl f s (s.onThread c p sl f) := by
  refine ⟨?_, fun a b k => s.thread?_onThread c p sl a b k f hf, fun a b _ => ?_⟩
  · rcases s.onThread_cases c p sl f with h | ⟨_, h⟩ <;> rw [h]
  · unfold State.part; simp

/-- A change of each of several threads, one after another. -/
theorem State.foldl_touch (c p : Nat) (F : State → Thread → State) (g : Thread → Thread → Thread) (L : List Thread)
    (hn : (L.map (·.slot)).Nodup) (h : ∀ s, ∀ t ∈ L, State.Touch c p t.slot (g t) s (F s t)) (s : State) :
    { L.foldl F s with threads := s.threads, parts := s.parts } = s
      ∧ (∀ t ∈ L, (L.foldl F s).thread? c p t.slot = (s.thread? c p t.slot).map (g t))
      ∧ (∀ a b k, (a, b) ≠ (c, p) ∨ k ∉ L.map (·.slot) → (L.foldl F s).thread? a b k = s.thread? a b k)
      ∧ ∀ a b, (a, b) ≠ (c, p) → (L.foldl F s).part a b = s.part a b := by
  induction L generalizing s with
  | nil => exact ⟨rfl, fun _ h => (by cases h), fun _ _ _ _ => rfl, fun _ _ _ => rfl⟩
  | cons t L ih =>
    simp only [List.map_cons, List.nodup_cons] at hn
    obtain ⟨t1, t2, t3⟩ := h s t List.mem_cons_self
    obtain ⟨i1, i2, i3, i4⟩ := ih hn.2 (fun s u hu => h s u (List.mem_cons_of_mem _ hu)) (F s t)
    simp only [List.foldl_cons]
    refine ⟨?_, ?_, ?_, fun a b e => (i4 a b e).trans (t3 a b e)⟩
    · have := t1
      rw [← i1] at this
      exact this
    · intro u hu
      rcases List.mem_cons.mp hu with rfl | hu
      · rw [i3 c p u.slot (.inr hn.1), t2]; simp
      · rw [i2 u hu, t2]
        have : u.slot ≠ t.slot := fun e => hn.1 (e ▸ List.mem_map_of_mem hu)
        simp [this]
    · intro a b k e
      rw [i3 a b k (e.imp id fun e h => e (List.mem_cons_of_mem _ h)), t2]
      split
      · rename_i e'
        simp only [Prod.mk.injEq] at e'
        rcases e with e | e
        · exact absurd (by rw [e'.1, e'.2.1]) e
        · exact absurd (by rw [e'.2.2]; exact List.mem_cons_self) e
      · rfl

/-- What a fixed-latency write does (R30, R54): its registers, and the latch of the pack. -/
theorem writeFixed_touch (s : State) (is : Issue) (sl r n : Nat) (ws : List Word) (h : ws.length = n) :
    State.Touch is.cur.core is.cur.part sl (fun t => t.writeVs r ws) s
      (writeFixed s is ((List.range n).map fun i => Dest.v sl (r + i)) ws) := by
  unfold writeFixed
  have g := State.writeDests_thread s is.cur.core is.cur.part sl r n ws h
  obtain ⟨x, hx⟩ := s.writeDests_v_eq is.cur.core is.cur.part sl r n ws
  generalize s.writeDests is.cur.core is.cur.part ((List.range n).map fun i => Dest.v sl (r + i)) ws = v at *
  generalize hw : State.onPack v is.cur _ = w
  have hs : State.Sched is.cur.core is.cur.part v w := hw ▸ v.onPack_sched is.cur _
  have ht : w.threads = v.threads := by
    rw [← hw]; rfl
  refine ⟨?_, ?_, ?_⟩
  · have := hs.1
    subst hx
    exact congrArg (fun x : State => { x with threads := s.threads }) this
  · intro a b k
    have e : w.thread? a b k = v.thread? a b k := by unfold State.thread?; rw [ht]
    rw [e]; exact g a b k
  · intro a b e
    rw [hs.2.2 a b e]
    subst hx; rfl

/-- A write to no register: only the latch may change. -/
theorem writeFixed_none (s : State) (is : Issue) (sl : Nat) (ws : List Word) :
    State.Touch is.cur.core is.cur.part sl id s (writeFixed s is [] ws) := by
  unfold writeFixed
  have e : s.writeDests is.cur.core is.cur.part [] ws = s := by cases ws <;> rfl
  rw [e]
  generalize hw : State.onPack s is.cur _ = w
  have hs : State.Sched is.cur.core is.cur.part s w := hw ▸ s.onPack_sched is.cur _
  have ht : w.threads = s.threads := by rw [← hw]; rfl
  refine ⟨hs.1, ?_, hs.2.2⟩
  intro a b k
  have e : w.thread? a b k = s.thread? a b k := by unfold State.thread?; rw [ht]
  rw [e]
  split
  · rename_i h
    obtain ⟨rfl, rfl, rfl⟩ : a = is.cur.core ∧ b = is.cur.part ∧ k = sl := by simpa using h
    simp
  · rfl

/-- The predicates of a thread after several writes. -/
def Thread.writePs (t : Thread) (ps : List (Nat × Bool)) : Thread := ps.foldl (fun x p => x.setPred p.1 p.2) t

theorem Thread.writePs_rest (t : Thread) (ps : List (Nat × Bool)) : { t.writePs ps with preds := t.preds } = t := by
  induction ps generalizing t with
  | nil => rfl
  | cons p ps ih =>
    have := ih (t.setPred p.1 p.2)
    have h : { t.setPred p.1 p.2 with preds := t.preds } = t := by unfold Thread.setPred; split <;> rfl
    exact (congrArg (fun x : Thread => { x with preds := t.preds }) this).trans h

theorem Thread.writePs_name (t : Thread) (ps : List (Nat × Bool)) :
    (t.writePs ps).core = t.core ∧ (t.writePs ps).part = t.part ∧ (t.writePs ps).slot = t.slot := by
  have h := t.writePs_rest ps
  have h1 := congrArg Thread.core h
  have h2 := congrArg Thread.part h
  have h3 := congrArg Thread.slot h
  exact ⟨h1, h2, h3⟩

/-- The mark of a pair that no write touches stays. -/
theorem Thread.writeVs_mark (t : Thread) (r k : Nat) (ws : List Word) (h : ∀ q, r ≤ q → q < r + ws.length → q / 2 ≠ k) :
    bitAt (t.writeVs r ws).gridpend k = bitAt t.gridpend k := by
  induction ws generalizing t r with
  | nil => rfl
  | cons w ws ih =>
    simp only [Thread.writeVs]
    rw [ih (t.writeV r w) (r + 1) fun q h1 h2 => h q (by omega) (by simp only [List.length_cons]; omega)]
    have hk : r / 2 ≠ k := h r (Nat.le_refl _) (by simp)
    simp only [bitAt, Thread.writeV, BitVec.getLsbD_and, BitVec.getLsbD_not, BitVec.getLsbD_shiftLeft, BitVec.getLsbD_one]
    by_cases hlt : k < 64
    · by_cases hle : k < r / 2
      · simp [hlt, hle]
      · have : ¬ (k - r / 2 = 0) := by omega
        simp [hlt, hle, this]
    · simp [hlt, BitVec.getLsbD_of_ge _ _ (Nat.le_of_not_lt hlt)]

/-- A thread written in its predicates and then in its registers has changed in them only. -/
theorem Thread.changedOnly_writes (t : Thread) (ps : List (Nat × Bool)) (d : BitVec 8) (n : Nat) (ws : List Word)
    (hv : isV d = true) (hn : ws.length = n) : t.changedOnly ((t.writePs ps).writeVs d.toNat ws) d n := by
  have h1 := (t.writePs ps).writeVs_rest d.toNat ws
  have h2 := t.writePs_rest ps
  refine ⟨congrArg Thread.data ?_, fun r hr => ?_, fun k hk => ?_⟩
  · have := congrArg (fun x : Thread => { x with regs := t.regs, preds := t.preds, gridpend := t.gridpend }) h1
    refine Eq.trans this ?_
    exact congrArg (fun x : Thread => { x with regs := t.regs, preds := t.preds, gridpend := t.gridpend }) h2
  · rw [Thread.writeVs_getD]
    have : (t.writePs ps).regs = t.regs := by have := congrArg Thread.regs h2; exact this
    split
    · rename_i h
      exact absurd (by simp only [isDest, if_true]; exact ⟨hv, h.1, by omega⟩) hr
    · rw [this]
  · rw [Thread.writeVs_mark _ _ _ _ fun q h1 h2 => hk q (by simp only [isDest, if_true]; exact ⟨hv, h1, by omega⟩)]
    have := congrArg (fun x : Thread => bitAt x.gridpend k) h2; exact this

theorem Thread.changedOnly_preds (t : Thread) (ps : List (Nat × Bool)) (d : BitVec 8) (n : Nat) :
    t.changedOnly (t.writePs ps) d n := by
  have h2 := t.writePs_rest ps
  refine ⟨congrArg Thread.data ?_, fun r _ => ?_, fun k _ => ?_⟩
  · exact congrArg (fun x : Thread => { x with regs := t.regs, preds := t.preds, gridpend := t.gridpend }) h2
  · have := congrArg Thread.regs h2
    exact congrArg (fun l : List Word => l.getD r 0) this
  · have := congrArg (fun x : Thread => bitAt x.gridpend k) h2; exact this

/-- The value a scalar destination takes is the one of some executing thread (R58). -/
theorem State.pickScalar_mem (u : State) (ctx : Nat) (L : List Thread) (g : Thread → List Word) (hne : L ≠ []) :
    ∃ t ∈ L, ∃ fr, u.pickScalar ctx (L.map g) = (g t, { u with fresh := fr }) := by
  obtain ⟨t0, l, rfl⟩ := List.exists_cons_of_ne_nil hne
  unfold State.pickScalar
  simp only [List.map_cons]
  split
  · exact ⟨t0, List.mem_cons_self, u.fresh, rfl⟩
  · generalize hw : u.freshWord ctx = fw
    have e2 : fw.2 = { u with fresh := (u.drawn ctx 1).fresh } := by rw [← hw]; rfl
    obtain ⟨w, u'⟩ := fw
    simp only at e2
    subst e2
    simp only [List.length_cons, List.length_map]
    have hlt : w.toNat % (l.length + 1) < (t0 :: l).length := Nat.mod_lt _ (Nat.succ_pos _)
    refine ⟨(t0 :: l)[w.toNat % (l.length + 1)], List.getElem_mem hlt, (u.drawn ctx 1).fresh, ?_⟩
    have e3 : (g t0 :: l.map g) = (t0 :: l).map g := rfl
    rw [e3, List.getD_eq_getElem?_getD, List.getElem?_map, List.getElem?_eq_getElem hlt]
    rfl

/-- A fixed-latency word of several threads (R30, R45, R58): its destination and predicates hold what it computes, and
nothing else changes. -/
theorem fixRun_spec (s : State) (is : Issue) (d : BitVec 8) (n : Nat) (f : State → Issue → Thread → Out1)
    (ht : ∀ t ∈ is.act, s.thread? is.cur.core is.cur.part t.slot = some t) (hn : (is.act.map (·.slot)).Nodup) (hne : is.act ≠ [])
    (htm : s.team? is.cur.core is.team.slot = some is.team) (hl : ∀ t ∈ is.act, (f s is t).vals.length = n) :
    (∀ t ∈ is.act, isV d = true → (fixRun d n f s is is.act).thread? is.cur.core is.cur.part t.slot
        = some ((t.writePs (f s is t).preds).writeVs d.toNat (f s is t).vals))
      ∧ (∀ t ∈ is.act, isV d = false → (fixRun d n f s is is.act).thread? is.cur.core is.cur.part t.slot = some (t.writePs (f s is t).preds))
      ∧ (∀ a b k, (a, b) ≠ (is.cur.core, is.cur.part) ∨ k ∉ is.act.map (·.slot) →
          (fixRun d n f s is is.act).thread? a b k = s.thread? a b k)
      ∧ (∃ x, (fixRun d n f s is is.act).team? is.cur.core is.team.slot = some x ∧
          (isS d = true → ∃ t ∈ is.act, x = is.team.writeSs (d.toNat - 0x80) (f s is t).vals) ∧ (isS d = false → x = is.team))
      ∧ (∀ c k, (c, k) ≠ (is.cur.core, is.team.slot) → (fixRun d n f s is is.act).team? c k = s.team? c k)
      ∧ { fixRun d n f s is is.act with threads := s.threads, teams := s.teams, parts := s.parts, fresh := s.fresh } = s
      ∧ ∀ a b, (a, b) ≠ (is.cur.core, is.cur.part) → (fixRun d n f s is is.act).part a b = s.part a b := by
  -- the predicates, one thread after another
  have hp := State.foldl_touch is.cur.core is.cur.part (fun u t => u.writePreds is t (f s is t).preds)
    (fun t x => x.writePs (f s is t).preds) is.act hn (fun u t _ => by
      unfold State.writePreds
      exact u.touch_onThread _ _ _ _ fun x => x.writePs_name _) s
  have e1 : (is.act.map fun t => (t, f s is t)).foldl (fun u (o : Thread × Out1) => u.writePreds is o.1 o.2.preds) s
      = is.act.foldl (fun u t => u.writePreds is t (f s is t).preds) s := by rw [List.foldl_map]
  generalize hu : is.act.foldl (fun u t => u.writePreds is t (f s is t).preds) s = u at *
  obtain ⟨p1, p2, p3, p4⟩ := hp
  have pteam : u.teams = s.teams := by have := congrArg State.teams p1; exact this
  have htu : u.team? is.cur.core is.team.slot = some is.team := by unfold State.team?; rw [pteam]; exact htm
  unfold fixRun
  simp only [e1]
  by_cases hs : isS d = true
  · -- a scalar destination, once for the pack
    have hv : isV d = false := by
      simp only [isS, isV, Bool.and_eq_true, decide_eq_true_eq] at hs ⊢
      simp; omega
    rw [if_pos hs]
    obtain ⟨t0, l, hact⟩ := List.exists_cons_of_ne_nil hne
    have hm : ((is.act.map fun t => (t, f s is t)).map fun o => o.2.vals) = is.act.map fun t => (f s is t).vals := by
      rw [List.map_map]; rfl
    have hpick := u.pickScalar_mem is.team.ctx is.act (fun t => (f s is t).vals) hne
    rw [← hm] at hpick
    obtain ⟨t, htm', fr, hpk⟩ := hpick
    rw [hpk]
    simp only [hact]
    have hd : destsOf is.team t0 d n = (List.range n).map fun i => Dest.s is.team.slot (d.toNat - 0x80 + i) := by
      simp [destsOf, hv, hs]
    rw [hd]
    have hw := State.writeDests_team { u with fresh := fr } is.cur.core is.cur.part is.team.slot (d.toNat - 0x80) n (f s is t).vals (hl t htm')
    obtain ⟨x, hx⟩ := State.writeDests_s_eq { u with fresh := fr } is.cur.core is.cur.part is.team.slot (d.toNat - 0x80) n (f s is t).vals
    unfold writeFixed
    generalize State.writeDests { u with fresh := fr } is.cur.core is.cur.part ((List.range n).map fun i => Dest.s is.team.slot (d.toNat - 0x80 + i))
      (f s is t).vals = v at *
    generalize hz : State.onPack v is.cur _ = z
    have hsz : State.Sched is.cur.core is.cur.part v z := hz ▸ v.onPack_sched is.cur _
    have hzt : z.threads = u.threads := by rw [← hz]; show v.threads = _; rw [hx]
    have hzm : z.teams = v.teams := hsz.teams
    have th (a b k : Nat) : z.thread? a b k = u.thread? a b k := by unfold State.thread?; rw [hzt]
    have tm (a b : Nat) : z.team? a b = v.team? a b := by unfold State.team?; rw [hzm]
    have utm (a b : Nat) : ({ u with fresh := fr } : State).team? a b = s.team? a b := by
      unfold State.team?; rw [← pteam]
    rw [hact] at ht p2 p3 htm'
    refine ⟨fun t _ h => by simp [hv] at h, fun t' h _ => ?_, fun a b k e => ?_, ?_, fun c k e => ?_, ?_, fun a b e => ?_⟩
    · rw [th, p2 t' h, ht t' h]; rfl
    · rw [th, p3 a b k e]
    · refine ⟨is.team.writeSs (d.toNat - 0x80) (f s is t).vals, ?_, fun _ => ⟨t, htm', rfl⟩, fun h => by simp [hs] at h⟩
      rw [tm, hw, if_pos rfl, utm, htm]; rfl
    · rw [tm, hw, if_neg e, utm]
    · have h1 := hsz.1
      subst hx
      have h2 := congrArg (fun y : State => { y with threads := s.threads, teams := s.teams, parts := s.parts, fresh := s.fresh }) h1
      refine Eq.trans h2 ?_
      exact congrArg (fun y : State => { y with threads := s.threads, teams := s.teams, parts := s.parts, fresh := s.fresh }) p1
    · rw [hsz.2.2 a b e]
      subst hx
      exact p4 a b e
  · rw [if_neg hs]
    have hs' : isS d = false := by simpa using hs
    have e2 : (is.act.map fun t => (t, f s is t)).foldl (fun u (o : Thread × Out1) => writeFixed u is (destsOf is.team o.1 d n) o.2.vals) u
        = is.act.foldl (fun u t => writeFixed u is (destsOf is.team t d n) (f s is t).vals) u := by rw [List.foldl_map]
    rw [e2]
    have hq := State.foldl_touch is.cur.core is.cur.part (fun u t => writeFixed u is (destsOf is.team t d n) (f s is t).vals)
      (fun t x => if isV d = true then x.writeVs d.toNat (f s is t).vals else x) is.act hn (fun u t h => by
        by_cases hv : isV d = true
        · simp only [destsOf, hv, if_true]
          exact writeFixed_touch u is t.slot d.toNat n _ (hl t h)
        · simp only [destsOf, hv, if_false, hs', Bool.false_eq_true]
          exact writeFixed_none u is t.slot _) u
    generalize is.act.foldl (fun u t => writeFixed u is (destsOf is.team t d n) (f s is t).vals) u = z at *
    obtain ⟨q1, q2, q3, q4⟩ := hq
    have hzm : z.teams = s.teams := by have := congrArg State.teams q1; exact Eq.trans this pteam
    have tm (a b : Nat) : z.team? a b = s.team? a b := by unfold State.team?; rw [hzm]
    refine ⟨fun t h hv => ?_, fun t h hv => ?_, fun a b k e => (q3 a b k e).trans (p3 a b k e), ?_, fun c k _ => tm c k, ?_,
      fun a b e => (q4 a b e).trans (p4 a b e)⟩
    · rw [q2 t h, p2 t h, ht t h]; simp [hv]
    · rw [q2 t h, p2 t h, ht t h]; simp [hv]
    · exact ⟨is.team, by rw [tm]; exact htm, fun h => absurd h hs, fun _ => rfl⟩
    · have h2 := congrArg (fun y : State => { y with threads := s.threads, teams := s.teams, parts := s.parts, fresh := s.fresh }) q1
      refine Eq.trans h2 ?_
      exact congrArg (fun y : State => { y with threads := s.threads, teams := s.teams, parts := s.parts, fresh := s.fresh }) p1

/-- A thread seen through an update that changes schedules only. -/
theorem State.Sched.again {c p : Nat} {u v : State} (h : State.Sched c p u v) (t x : Thread)
    (hx : u.thread? t.core t.part t.slot = some x) : ∃ y, v.thread? t.core t.part t.slot = some y ∧ y.data = x.data := by
  have := h.2.1 t.core t.part t.slot
  unfold State.dataOf at this
  rw [hx] at this
  cases hy : v.thread? t.core t.part t.slot with
  | none => rw [hy] at this; cases this
  | some y => rw [hy] at this; exact ⟨y, rfl, by simpa using this⟩

/-- A word with a fixed-latency result: it completes, its destination and predicates hold what it computes, and nothing else
changes (R30, R45, R58). -/
theorem runWord_fixed {s : State} {i : Instr} {is : Issue} (h : s.Runs i is) (d : BitVec 8) (n : Nat)
    (f : State → Issue → Thread → Out1) (hl : ∀ t ∈ is.act, (f (s.aged i is) is t).vals.length = n) :
    ∃ u, runWord i (plain (fixRun d n f)) s = .next u ∧ u.Written is d n (fun t => (f (s.aged i is) is t).vals)
      ∧ u.PredsWritten is (fun t => (f (s.aged i is) is t).preds) ∧ s.OnlyDest u is d n := by
  obtain ⟨u, hu, hs⟩ := runWord_plain (fixRun d n f) h
  obtain ⟨⟨op, g, _, hi⟩, hne, _, _⟩ := h
  have ha := s.aged_sched i is
  have hth : (s.aged i is).threads = s.threads := rfl
  have th (a b k : Nat) : (s.aged i is).thread? a b k = s.thread? a b k := by unfold State.thread?; rw [hth]
  have tmx (a b : Nat) : (s.aged i is).team? a b = s.team? a b := by unfold State.team?; rw [ha.teams]
  have name (t : Thread) (ht : t ∈ is.act) := State.issue_all hi (State.issue_act hi ht)
  obtain ⟨f1, f2, f3, ⟨x, f4, f5, f6⟩, f7, f8, f9⟩ := fixRun_spec (s.aged i is) is d n f
    (fun t ht => by rw [th]; exact (name t ht).1) (State.issue_nodup hi) hne (by rw [tmx]; exact State.issue_team hi) hl
  generalize fixRun d n f (s.aged i is) is is.act = v at *
  have tu (a b : Nat) : u.team? a b = v.team? a b := by unfold State.team?; rw [hs.teams]
  refine ⟨u, hu, ⟨fun hv t ht => ?_, fun hv => ?_⟩, fun t ht => ?_, ?_, ?_, ?_, ?_, ?_, ?_⟩
  · obtain ⟨y, hy, hd⟩ := hs.again t _ (by rw [(name t ht).2.1, (name t ht).2.2]; exact f1 t ht hv)
    unfold State.again
    rw [hy]
    have hr : y.regs = ((t.writePs (f (s.aged i is) is t).preds).writeVs d.toNat (f (s.aged i is) is t).vals).regs := by
      have := congrArg Thread.regs hd; exact this
    have : y.vregs d.toNat n = ((t.writePs (f (s.aged i is) is t).preds).writeVs d.toNat (f (s.aged i is) is t).vals).vregs d.toNat n := by
      unfold Thread.vregs; rw [hr]
    exact this.trans (Thread.writeVs_vregs _ _ _ _ (hl t ht))
  · obtain ⟨t, ht, hx⟩ := f5 hv
    refine ⟨t, ht, ?_⟩
    rw [tu, f4, hx]
    exact Team.writeSs_sregs _ _ _ _ (hl t ht)
  · unfold State.again
    by_cases hv : isV d = true
    · obtain ⟨y, hy, hd⟩ := hs.again t _ (by rw [(name t ht).2.1, (name t ht).2.2]; exact f1 t ht hv)
      rw [hy]
      have hp := congrArg Thread.preds hd
      have hr := congrArg Thread.preds ((t.writePs (f (s.aged i is) is t).preds).writeVs_rest d.toNat (f (s.aged i is) is t).vals)
      exact Eq.trans hp hr
    · obtain ⟨y, hy, hd⟩ := hs.again t _ (by rw [(name t ht).2.1, (name t ht).2.2]; exact f2 t ht (by simpa using hv))
      rw [hy]
      have hp := congrArg Thread.preds hd
      exact hp
  · have h1 := congrArg (fun y : State => { y with threads := s.threads, teams := s.teams, parts := s.parts, fresh := s.fresh }) hs.1
    have h2 := congrArg (fun y : State => { y with threads := s.threads, teams := s.teams, parts := s.parts, fresh := s.fresh }) f8
    have h3 := congrArg (fun y : State => { y with threads := s.threads, teams := s.teams, parts := s.parts, fresh := s.fresh }) ha.1
    exact Eq.trans h1 (Eq.trans h2 h3)
  · intro a b k e
    rw [hs.2.1]
    unfold State.dataOf
    rw [f3 a b k e, th]
  · intro t ht
    by_cases hv : isV d = true
    · obtain ⟨y, hy, hd⟩ := hs.again t _ (by rw [(name t ht).2.1, (name t ht).2.2]; exact f1 t ht hv)
      have hc := t.changedOnly_writes (f (s.aged i is) is t).preds d n (f (s.aged i is) is t).vals hv (hl t ht)
      refine ⟨y, by rw [(name t ht).2.1, (name t ht).2.2] at hy; exact hy, ?_, fun r hr => ?_, fun k hk => ?_⟩
      · have := congrArg (fun x : Thread => { x with regs := t.regs, preds := t.preds, gridpend := t.gridpend }) hd
        exact Eq.trans this hc.1
      · have := congrArg (fun x : Thread => x.regs.getD r 0) hd
        exact Eq.trans this (hc.2.1 r hr)
      · have := congrArg (fun x : Thread => bitAt x.gridpend k) hd
        exact Eq.trans this (hc.2.2 k hk)
    · obtain ⟨y, hy, hd⟩ := hs.again t _ (by rw [(name t ht).2.1, (name t ht).2.2]; exact f2 t ht (by simpa using hv))
      have hc := t.changedOnly_preds (f (s.aged i is) is t).preds d n
      refine ⟨y, by rw [(name t ht).2.1, (name t ht).2.2] at hy; exact hy, ?_, fun r hr => ?_, fun k hk => ?_⟩
      · have := congrArg (fun x : Thread => { x with regs := t.regs, preds := t.preds, gridpend := t.gridpend }) hd
        exact Eq.trans this hc.1
      · have := congrArg (fun x : Thread => x.regs.getD r 0) hd
        exact Eq.trans this (hc.2.1 r hr)
      · have := congrArg (fun x : Thread => bitAt x.gridpend k) hd
        exact Eq.trans this (hc.2.2 k hk)
  · intro c k e
    rw [tu, f7 c k e, tmx]
  · refine ⟨x, by rw [tu]; exact f4, ?_, fun r hr => ?_⟩
    · by_cases hv : isS d = true
      · obtain ⟨t, _, rfl⟩ := f5 hv
        exact Team.writeSs_rest _ _ _
      · rw [f6 (by simpa using hv)]
    · by_cases hv : isS d = true
      · obtain ⟨t, ht, rfl⟩ := f5 hv
        rw [Team.writeSs_getD]
        split
        · rename_i g
          refine absurd ?_ hr
          simp only [isDest, Bool.false_eq_true, if_false]
          rw [hl t ht] at g
          exact ⟨hv, g⟩
        · rfl
      · rw [f6 (by simpa using hv)]
  · intro a b e
    rw [hs.2.2 a b e, f9 a b e, ha.2.2 a b e]

end Sys2Proof.Machine
end

