-- ==== Sys2Proof/Laws/Flagged.lean ====
section
/-! SUPPORT. Operations put in flight at issue (R34, R139, R168): each executing thread changes as the word says, its operation is added to the core's, and nothing else has changed. -/

namespace Sys2Proof.Machine

/-- A core after an operation is added to one. -/
theorem State.core_addOp (s : State) (core : Nat) (o : Op) (c : Nat) :
    (s.addOp core o).core c = if c = core then { s.core core with ops := (s.core core).ops ++ [o] } else s.core c :=
  s.core_onCore core c (fun c => { c with ops := c.ops ++ [o] }) fun _ => rfl

/-- A thread with a flag set, if there is one. -/
def Thread.flagged (t : Thread) (n : Option Nat) : Thread :=
  match n with
  | some k => t.setFlag k
  | none => t

/-- What each of several threads, and an operation of each, one after another, have changed; the order of use in the core's TLBs
may have changed too. -/
structure State.Raised (s u : State) (is : Issue) (L : List Thread) (g : Thread → Thread → Thread) (op : Thread → Op → Prop) : Prop where
  rest : { u with threads := s.threads, cores := s.cores, nextId := s.nextId } = s
  thr : ∀ t ∈ L, u.thread? is.cur.core is.cur.part t.slot = (s.thread? is.cur.core is.cur.part t.slot).map (g t)
  other : ∀ a b k, (a, b) ≠ (is.cur.core, is.cur.part) ∨ k ∉ L.map (·.slot) → u.thread? a b k = s.thread? a b k
  cores : ∀ c, c ≠ is.cur.core → u.core c = s.core c
  ops : ∃ new, { u.core is.cur.core with tlb1 := (s.core is.cur.core).tlb1, tlb2 := (s.core is.cur.core).tlb2 }
      = { s.core is.cur.core with ops := (s.core is.cur.core).ops ++ new }
    ∧ (∀ t ∈ L, ∃ o ∈ new, op t o) ∧ ∀ o ∈ new, ∃ t ∈ L, op t o

/-- An operation added for one thread. -/
theorem State.raised_op (s : State) (is : Issue) (t : Thread) (o : Op) :
    State.Raised s (({ s with nextId := s.nextId + 1 } : State).addOp is.cur.core o) is [t] (fun _ x => x) fun _ x => x = o := by
  refine ⟨rfl, fun u _ => ?_, fun _ _ _ _ => rfl, fun c hc => ?_, [o], ?_, fun _ _ => ⟨o, by simp, rfl⟩, fun y hy => ⟨t, by simp, by simpa using hy⟩⟩
  · show s.thread? _ _ _ = _
    cases s.thread? is.cur.core is.cur.part u.slot <;> rfl
  · rw [State.core_addOp, if_neg hc]; rfl
  · rw [State.core_addOp, if_pos rfl]; rfl

/-- The same for an operation made by `newOp`. -/
theorem State.raised_newOp (s : State) (is : Issue) (word : Nat) (t : Thread) (kind : OpKind) (stage : Stage) (f : Op → Op) :
    State.Raised s (s.newOp is word t kind stage f) is [t] (fun _ x => x)
      fun _ x => x = f (Op.blank s.nextId word is.cur.part t.slot is.team.slot is.team.ctx kind stage is.cur.pc s.clock) :=
  s.raised_op is t _

theorem State.Raised.weaken {s u : State} {is : Issue} {L : List Thread} {g : Thread → Thread → Thread} {p q : Thread → Op → Prop}
    (h : State.Raised s u is L g p) (hpq : ∀ t ∈ L, ∀ o, p t o → q t o) : State.Raised s u is L g q := by
  obtain ⟨new, h1, h2, h3⟩ := h.ops
  refine ⟨h.rest, h.thr, h.other, h.cores, new, h1, fun t ht => ?_, fun o ho => ?_⟩
  · obtain ⟨o, ho, hp⟩ := h2 t ht
    exact ⟨o, ho, hpq t ht o hp⟩
  · obtain ⟨t, ht, hp⟩ := h3 o ho
    exact ⟨t, ht, hpq t ht o hp⟩

/-- A change of the thread after its operation. -/
theorem State.Raised.after {s u : State} {is : Issue} {t : Thread} {g : Thread → Thread → Thread} {op : Thread → Op → Prop}
    (h : State.Raised s u is [t] g op) (f : Thread → Thread)
    (hf : ∀ t, (f t).core = t.core ∧ (f t).part = t.part ∧ (f t).slot = t.slot) :
    State.Raised s (u.onThread is.cur.core is.cur.part t.slot f) is [t] (fun t x => f (g t x)) op := by
  have e : ∃ x, u.onThread is.cur.core is.cur.part t.slot f = { u with threads := x } := by
    rcases u.onThread_cases is.cur.core is.cur.part t.slot f with h | ⟨x, h⟩
    · exact ⟨u.threads, by rw [h]⟩
    · exact ⟨x, h⟩
  obtain ⟨x, hx⟩ := e
  have co (c : Nat) : (u.onThread is.cur.core is.cur.part t.slot f).core c = u.core c := by rw [hx]; rfl
  refine ⟨?_, fun v hv => ?_, fun a b k hk => ?_, fun c hc => (co c).trans (h.cores c hc), ?_⟩
  · rw [hx]; exact h.rest
  · obtain rfl : v = t := by simpa using hv
    rw [u.thread?_onThread _ _ _ _ _ _ f hf, if_pos rfl, h.thr v (by simp), Option.map_map]; rfl
  · rw [u.thread?_onThread _ _ _ _ _ _ f hf, if_neg, h.other a b k hk]
    intro e
    simp only [Prod.mk.injEq] at e
    rcases hk with hk | hk
    · exact hk (by rw [e.1, e.2.1])
    · exact hk (by simp [e.2.2])
  · obtain ⟨new, h1, h2⟩ := h.ops
    exact ⟨new, by rw [co]; exact h1, h2⟩

/-- A change of the thread before its operation. -/
theorem State.Raised.before {s u : State} {is : Issue} {t : Thread} {g : Thread → Thread → Thread} {op : Thread → Op → Prop} (f : Thread → Thread)
    (hf : ∀ t, (f t).core = t.core ∧ (f t).part = t.part ∧ (f t).slot = t.slot)
    (h : State.Raised (s.onThread is.cur.core is.cur.part t.slot f) u is [t] g op) :
    State.Raised s u is [t] (fun t x => g t (f x)) op := by
  have e : ∃ x, s.onThread is.cur.core is.cur.part t.slot f = { s with threads := x } := by
    rcases s.onThread_cases is.cur.core is.cur.part t.slot f with h | ⟨x, h⟩
    · exact ⟨s.threads, by rw [h]⟩
    · exact ⟨x, h⟩
  obtain ⟨x, hx⟩ := e
  have co (c : Nat) : (s.onThread is.cur.core is.cur.part t.slot f).core c = s.core c := by rw [hx]; rfl
  have ni : (s.onThread is.cur.core is.cur.part t.slot f).nextId = s.nextId := by rw [hx]
  have cs : (s.onThread is.cur.core is.cur.part t.slot f).cores = s.cores := by rw [hx]
  refine ⟨?_, fun v hv => ?_, fun a b k hk => ?_, fun c hc => (h.cores c hc).trans (co c), ?_⟩
  · have := h.rest
    rw [cs, ni] at this
    have := congrArg (fun y : State => { y with threads := s.threads }) this
    rw [hx] at this
    exact this
  · obtain rfl : v = t := by simpa using hv
    rw [h.thr v (by simp), s.thread?_onThread _ _ _ _ _ _ f hf, if_pos rfl, Option.map_map]; rfl
  · rw [h.other a b k hk, s.thread?_onThread _ _ _ _ _ _ f hf, if_neg]
    intro e
    simp only [Prod.mk.injEq] at e
    rcases hk with hk | hk
    · exact hk (by rw [e.1, e.2.1])
    · exact hk (by simp [e.2.2])
  · obtain ⟨new, h1, h2⟩ := h.ops
    rw [co] at h1
    exact ⟨new, h1, h2⟩

/-- A change of the order of use in the core's TLBs before the operation (R95). -/
theorem State.Raised.tlb {s v u : State} {is : Issue} {L : List Thread} {g : Thread → Thread → Thread} {op : Thread → Op → Prop}
    (hv : { v with cores := s.cores } = s) (ho : ∀ c, c ≠ is.cur.core → v.core c = s.core c)
    (hc : { v.core is.cur.core with tlb1 := (s.core is.cur.core).tlb1, tlb2 := (s.core is.cur.core).tlb2 } = s.core is.cur.core)
    (h : State.Raised v u is L g op) : State.Raised s u is L g op := by
  have ht : v.threads = s.threads := by have := congrArg State.threads hv; exact this
  have th (a b k : Nat) : v.thread? a b k = s.thread? a b k := by unfold State.thread?; rw [ht]
  refine ⟨?_, fun t ht => (h.thr t ht).trans (by rw [th]), fun a b k e => (h.other a b k e).trans (th a b k),
    fun c e => (h.cores c e).trans (ho c e), ?_⟩
  · have h1 := hv
    rw [← h.rest] at h1
    have h2 := congrArg State.threads hv
    have h3 := congrArg State.nextId hv
    simp only at h2 h3
    have h4 := congrArg (fun y : State => { y with threads := s.threads, nextId := s.nextId }) h1
    exact h4
  · obtain ⟨new, h1, h2⟩ := h.ops
    refine ⟨new, ?_, h2⟩
    have h3 := congrArg (fun c : Core => { c with tlb1 := (s.core is.cur.core).tlb1, tlb2 := (s.core is.cur.core).tlb2 }) h1
    refine Eq.trans h3 ?_
    have h4 := congrArg (fun c : Core => { c with ops := c.ops ++ new }) hc
    exact h4

theorem State.Raised.nil (s : State) (is : Issue) (g : Thread → Thread → Thread) (op : Thread → Op → Prop) : State.Raised s s is [] g op := by
  refine ⟨rfl, fun _ h => (by cases h), fun _ _ _ _ => rfl, fun _ _ => rfl, [], ?_, fun _ h => (by cases h), fun _ h => (by cases h)⟩
  simp

theorem State.Raised.cons {s t u : State} {is : Issue} {x : Thread} {L : List Thread} {k : Thread → Thread → Thread} {op : Thread → Op → Prop}
    (h : State.Raised s t is [x] k op) (g : State.Raised t u is L k op) (hn : x.slot ∉ L.map (·.slot)) : State.Raised s u is (x :: L) k op := by
  refine ⟨?_, fun y hy => ?_, fun a b l e => ?_, fun c hc => (g.cores c hc).trans (h.cores c hc), ?_⟩
  · have := h.rest
    rw [← g.rest] at this
    exact this
  · rcases List.mem_cons.mp hy with rfl | hy
    · rw [g.other _ _ _ (.inr hn)]
      exact h.thr y (by simp)
    · rw [g.thr y hy, h.other _ _ _ (.inr fun e => hn ?_)]
      simp only [List.map_cons, List.map_nil, List.mem_singleton] at e
      rw [← e]; exact List.mem_map_of_mem hy
  · rw [g.other a b l (e.imp id fun e h => e (List.mem_cons_of_mem _ h)),
      h.other a b l (e.imp id fun e h => e (by simp at h; simp [h]))]
  · obtain ⟨n1, h1, h2, h3⟩ := h.ops
    obtain ⟨n2, g1, g2, g3⟩ := g.ops
    refine ⟨n1 ++ n2, ?_, fun y hy => ?_, fun o ho => ?_⟩
    · have g1' := congrArg (fun c : Core => { c with tlb1 := (s.core is.cur.core).tlb1, tlb2 := (s.core is.cur.core).tlb2 }) g1
      refine Eq.trans g1' ?_
      have h1' := congrArg (fun c : Core => { c with ops := c.ops ++ n2 }) h1
      refine Eq.trans ?_ (Eq.trans h1' ?_)
      · rfl
      · simp only [List.append_assoc]
    · rcases List.mem_cons.mp hy with rfl | hy
      · obtain ⟨o, ho, hp⟩ := h2 y (by simp)
        exact ⟨o, List.mem_append_left _ ho, hp⟩
      · obtain ⟨o, ho, hp⟩ := g2 y hy
        exact ⟨o, List.mem_append_right _ ho, hp⟩
    · rcases List.mem_append.mp ho with ho | ho
      · obtain ⟨t, ht, hp⟩ := h3 o ho
        exact ⟨t, by simp at ht; simp [ht], hp⟩
      · obtain ⟨t, ht, hp⟩ := g3 o ho
        exact ⟨t, List.mem_cons_of_mem _ ht, hp⟩

/-- A further change of each of the threads. -/
theorem State.Raised.touched {s u : State} {is : Issue} {L : List Thread} {g : Thread → Thread → Thread} {op : Thread → Op → Prop}
    (h : State.Raised s u is L g op) (hn : (L.map (·.slot)).Nodup) (f : Thread → Thread → Thread)
    (hf : ∀ t x, (f t x).core = x.core ∧ (f t x).part = x.part ∧ (f t x).slot = x.slot) :
    State.Raised s (L.foldl (fun v t => v.onThread is.cur.core is.cur.part t.slot (f t)) u) is L (fun t x => f t (g t x)) op := by
  have key : ∀ (L : List Thread) (u : State), ∃ x, L.foldl (fun (v : State) t => v.onThread is.cur.core is.cur.part t.slot (f t)) u = { u with threads := x } := by
    intro L
    induction L with
    | nil => intro u; exact ⟨u.threads, rfl⟩
    | cons t L ih =>
      intro u
      obtain ⟨x, hx⟩ := ih (u.onThread is.cur.core is.cur.part t.slot (f t))
      refine ⟨x, ?_⟩
      rw [List.foldl_cons, hx]
      rcases u.onThread_cases is.cur.core is.cur.part t.slot (f t) with h | ⟨_, h⟩ <;> rw [h]
  obtain ⟨_, f2, f3, _⟩ := State.foldl_touch is.cur.core is.cur.part (fun v t => v.onThread is.cur.core is.cur.part t.slot (f t)) f L hn
    (fun v t _ => v.touch_onThread _ _ _ _ (hf t)) u
  obtain ⟨x, hx⟩ := key L u
  generalize L.foldl (fun (v : State) t => v.onThread is.cur.core is.cur.part t.slot (f t)) u = w at *
  have co (c : Nat) : w.core c = u.core c := by rw [hx]; rfl
  refine ⟨?_, fun t ht => ?_, fun a b k e => (f3 a b k e).trans (h.other a b k e), fun c hc => (co c).trans (h.cores c hc), ?_⟩
  · rw [hx]; exact h.rest
  · rw [f2 t ht, h.thr t ht, Option.map_map]; rfl
  · obtain ⟨new, h1, h2⟩ := h.ops
    exact ⟨new, by rw [co]; exact h1, h2⟩

/-- An operation for each of several threads in slots of their own. -/
theorem State.foldl_raised (is : Issue) (F : State → Thread → State) (g : Thread → Thread → Thread) (op : Thread → Op → Prop) (L : List Thread)
    (hn : (L.map (·.slot)).Nodup) (P : State → Prop) (hP : ∀ s, P s → ∀ t ∈ L, P (F s t))
    (h : ∀ s, P s → ∀ t ∈ L, State.Raised s (F s t) is [t] g op) (s : State) (hs : P s) : State.Raised s (L.foldl F s) is L g op := by
  induction L generalizing s with
  | nil => exact .nil s is g op
  | cons t L ih =>
    simp only [List.map_cons, List.nodup_cons] at hn
    simp only [List.foldl_cons]
    exact State.Raised.cons (h s hs t List.mem_cons_self)
      (ih hn.2 (fun s hs u hu => hP s hs u (List.mem_cons_of_mem _ hu)) (fun s hs u hu => h s hs u (List.mem_cons_of_mem _ hu)) _
        (hP s hs t List.mem_cons_self)) hn.1

/-- What a flagged operation looks like. -/
def flagOp (is : Issue) (n : Nat) (dest : Thread → List Dest) (val : Thread → List Word) (preds : Thread → List (Nat × Bool))
    (t : Thread) (o : Op) : Prop :=
  (o.of is.cur.part t.slot = true ∧ o.ctx = is.team.ctx ∧ o.team = is.team.slot)
    ∧ o.kind = .result ∧ o.stage = .done ∧ o.flag = some n ∧ o.dest = dest t ∧ o.vals = val t ∧ o.preds = preds t

theorem flagOne_raised (is : Issue) (flag word : Nat) (d : BitVec 8) (n : Nat) (pins : List (Nat × Nat)) (s : State) (t : Thread) (o : Out1) :
    State.Raised s (flagOne is flag word d n pins s t o) is [t] (fun _ x => x.flagged (some flag))
      (flagOp is flag (fun t => destsOf is.team t d n) (fun _ => o.vals) (fun _ => o.preds)) := by
  refine State.Raised.weaken (State.Raised.before (fun x => x.setFlag flag) (fun _ => ⟨rfl, rfl, rfl⟩)
    (State.raised_newOp _ is word t .result .done _)) fun u hu x hx => ?_
  obtain rfl : u = t := by simpa using hu
  subst hx
  exact ⟨⟨by simp [Op.of, Op.blank], rfl, rfl⟩, rfl, rfl, rfl, rfl, rfl, rfl⟩

/-- A flag set is set, and every other flag is as before. -/
theorem Thread.setFlag_bit (t : Thread) (n k : Nat) : bitAt (t.setFlag n).flags k = (bitAt t.flags k || (decide (k = n) && decide (n < 12))) := by
  simp only [bitAt, Thread.setFlag, BitVec.getLsbD_or, BitVec.getLsbD_shiftLeft, BitVec.getLsbD_one]
  by_cases hk : k < 12
  · by_cases h1 : k < n
    · have : k ≠ n := by omega
      simp [hk, h1, this]
    · by_cases h2 : k = n
      · subst h2; simp [hk]
      · have : ¬ (k - n = 0) := by omega
        simp [hk, h1, h2, this]
  · by_cases h2 : k = n
    · subst h2; simp [hk]
    · simp [hk, h2]

/-- A thread with a flag set has changed in that flag only. -/
theorem Thread.flagged_only (t : Thread) (n : Option Nat) : t.onlyFlag n (t.flagged n) := by
  cases n with
  | none => exact ⟨rfl, fun _ _ => rfl, fun _ h => by cases h⟩
  | some m =>
    refine ⟨rfl, fun k hk => ?_, fun k hk hn => ?_⟩
    · show bitAt (t.setFlag m).flags k = _
      rw [Thread.setFlag_bit]
      have : k ≠ m := fun e => hk (by rw [e])
      simp [this]
    · obtain rfl : m = k := by simpa using hk
      show bitAt (t.setFlag m).flags m = true
      rw [Thread.setFlag_bit]; simp [hn]

/-- A property of a thread that its schedule does not decide. -/
def Thread.DataProp (P : Thread → Prop) : Prop := ∀ x y : Thread, x.data = y.data → P x → P y

theorem Thread.onlyFlag_data (n : Option Nat) (t : Thread) : Thread.DataProp (t.onlyFlag n) := by
  rintro x y e ⟨h1, h2, h3⟩
  have hf : y.flags = x.flags := (congrArg Thread.flags e).symm
  refine ⟨?_, fun k hk => by rw [hf]; exact h2 k hk, fun k hk hn => by rw [hf]; exact h3 k hk hn⟩
  have := congrArg (fun x : Thread => { x with flags := t.flags }) e
  exact Eq.trans this.symm h1

/-- The rest of the module when a word begins to change its threads: only names drawn and the partition may differ. -/
def State.Start (s w : State) (is : Issue) : Prop :=
  { w with parts := s.parts, nextId := s.nextId, fresh := s.fresh } = s
    ∧ ∀ a b, (a, b) ≠ (is.cur.core, is.cur.part) → w.part a b = s.part a b

theorem State.Start.draw {s w : State} {is : Issue} (i : Instr) (hw : w = { s.aged i is with nextId := w.nextId, fresh := w.fresh }) :
    s.Start w is := by
  have ha := s.aged_sched i is
  refine ⟨?_, fun a b e => ?_⟩
  · have h := congrArg (fun y : State => { y with parts := s.parts, nextId := s.nextId, fresh := s.fresh }) hw
    have h2 := congrArg (fun y : State => { y with parts := s.parts, nextId := s.nextId, fresh := s.fresh }) ha.1
    exact Eq.trans h h2
  · rw [← ha.2.2 a b e]
    have : w.parts = (s.aged i is).parts := by rw [hw]
    unfold State.part; rw [this]

/-- A word that changes its threads and adds operations, seen in the state after it. -/
theorem runWord_raised_some {s : State} {is : Issue} {u v : State} (L : List Thread) (hL : ∀ t ∈ L, t ∈ is.act)
    (g : Thread → Thread → Thread) (op : Thread → Op → Prop) (P : Thread → Thread → Prop)
    (hP : ∀ t ∈ is.act, Thread.DataProp (P t) ∧ if t ∈ L then P t (g t t) else P t t)
    (hi : ∃ g0 g1, s.issue g0 g1 = some is)
    (hv : ∃ w, s.Start w is ∧ State.Raised w v is L g op)
    (hu : State.Sched is.cur.core is.cur.part v u) :
    s.OnlyOps u is P ∧ ∀ t ∈ L, ∃ o ∈ (u.core is.cur.core).ops, op t o := by
  obtain ⟨g0, g1, hi⟩ := hi
  obtain ⟨w, hw, hr⟩ := hv
  have name (t : Thread) (ht : t ∈ is.act) := State.issue_all hi (State.issue_act hi ht)
  have wt : w.threads = s.threads := by have := congrArg State.threads hw.1; exact this
  have wc : w.cores = s.cores := by have := congrArg State.cores hw.1; exact this
  have th (a b k : Nat) : w.thread? a b k = s.thread? a b k := by unfold State.thread?; rw [wt]
  have co (c : Nat) : w.core c = s.core c := by unfold State.core; rw [wc]
  have uc (c : Nat) : u.core c = v.core c := by
    have h : u.cores = v.cores := by have := congrArg State.cores hu.1; exact this
    unfold State.core; rw [h]
  have hslot : ∀ t ∈ is.act, ∀ x ∈ L, x.slot = t.slot → x = t := fun t ht x hx e => by
    have h1 := (name t ht).1
    have h2 := (name x (hL x hx)).1
    rw [e, h1] at h2
    exact (Option.some.inj h2).symm
  have here (t : Thread) (ht : t ∈ is.act) : v.thread? is.cur.core is.cur.part t.slot = some (if t ∈ L then g t t else t) := by
    split
    · rename_i hm
      rw [hr.thr t hm, th, (name t ht).1]; rfl
    · rename_i hm
      rw [hr.other _ _ _ (.inr fun e => ?_), th, (name t ht).1]
      obtain ⟨x, hx, he⟩ := List.mem_map.mp e
      exact hm (hslot t ht x hx he ▸ hx)
  refine ⟨⟨?_, ?_, ?_, ?_, ?_, ?_⟩, fun t ht => ?_⟩
  · have h1 := congrArg (fun y : State =>
      { y with threads := s.threads, cores := s.cores, parts := s.parts, fresh := s.fresh, nextId := s.nextId }) hu.1
    have h2 := congrArg (fun y : State =>
      { y with threads := s.threads, cores := s.cores, parts := s.parts, fresh := s.fresh, nextId := s.nextId }) hr.rest
    have h3 := congrArg (fun y : State =>
      { y with threads := s.threads, cores := s.cores, parts := s.parts, fresh := s.fresh, nextId := s.nextId }) hw.1
    exact Eq.trans h1 (Eq.trans h2 h3)
  · intro a b k e
    rw [hu.2.1]
    unfold State.dataOf
    rw [hr.other a b k (e.imp id fun e h => ?_), th]
    obtain ⟨x, hx, he⟩ := List.mem_map.mp h
    exact e (List.mem_map.mpr ⟨x, hL x hx, he⟩)
  · intro t ht
    have hx := hu.2.1 is.cur.core is.cur.part t.slot
    unfold State.dataOf at hx
    rw [here t ht] at hx
    cases hy : u.thread? is.cur.core is.cur.part t.slot with
    | none => rw [hy] at hx; cases hx
    | some y =>
      rw [hy] at hx
      have hd : y.data = (if t ∈ L then g t t else t).data := by simpa using hx
      have hp : P t (if t ∈ L then g t t else t) := by
        have := (hP t ht).2
        split
        · rename_i hm; simpa [hm] using this
        · rename_i hm; simpa [hm] using this
      exact ⟨y, rfl, (hP t ht).1 _ _ hd.symm hp⟩
  · intro c hc
    rw [uc, hr.cores c hc, co]
  · obtain ⟨new, h1, _, _⟩ := hr.ops
    rw [co] at h1
    exact ⟨new, by rw [uc]; exact h1⟩
  · intro a b e
    rw [hu.2.2 a b e, ← hw.2 a b e]
    have h1 : v.parts = w.parts := by have h1 := congrArg State.parts hr.rest; exact h1
    unfold State.part; rw [h1]
  · obtain ⟨new, h1, h2, _⟩ := hr.ops
    obtain ⟨o, ho, hp⟩ := h2 t ht
    refine ⟨o, ?_, hp⟩
    have := congrArg Core.ops h1
    rw [uc, show (v.core is.cur.core).ops = _ from this]
    exact List.mem_append_right _ ho

/-- The same when every executing thread is changed. -/
theorem runWord_raised {s : State} {is : Issue} {u v : State} (g : Thread → Thread → Thread) (op : Thread → Op → Prop)
    (P : Thread → Thread → Prop) (hP : ∀ t ∈ is.act, Thread.DataProp (P t) ∧ P t (g t t))
    (hi : ∃ g0 g1, s.issue g0 g1 = some is)
    (hv : ∃ w, s.Start w is ∧ State.Raised w v is is.act g op)
    (hu : State.Sched is.cur.core is.cur.part v u) :
    s.OnlyOps u is P ∧ ∀ t ∈ is.act, ∃ o ∈ (u.core is.cur.core).ops, op t o :=
  runWord_raised_some is.act (fun _ h => h) g op P (fun t ht => ⟨(hP t ht).1, by rw [if_pos ht]; exact (hP t ht).2⟩) hi hv hu

/-- A word with a flagged result (R34, R58, R139): it completes, an operation carries each thread's result to its landing, and
nothing else changes.  `val` gives the threads their values: each its own, or for a scalar destination those of one of them. -/
theorem runWord_flagged {s : State} {i : Instr} {is : Issue} (h : s.Runs i is) (fs : Bool) (d : BitVec 8) (n : Nat)
    (f : State → Issue → Thread → Out1) (run : State → Issue → List Thread → State)
    (hrun : run (s.aged i is) is is.act = flagRun fs d n f (s.aged i is) is is.act) :
    ∃ u, runWord i (plain run) s = .next u ∧ s.OnlyOps u is (Thread.onlyFlag (some (flagOf is.hdr fs)))
      ∧ ∃ val : Thread → List Word, (isS d = false → ∀ t, val t = (f (s.aged i is) is t).vals)
        ∧ (isS d = true → ∃ t0 ∈ is.act, ∀ t, val t = (f (s.aged i is) is t0).vals)
        ∧ u.Flagged is (flagOf is.hdr fs) (fun t => destsOf is.team t d n) val (fun t => (f (s.aged i is) is t).preds) := by
  obtain ⟨u, hu, hs⟩ := runWord_plain run h
  rw [hrun] at hs
  obtain ⟨⟨op, g, _, hi⟩, hne, _, _⟩ := h
  generalize hA : s.aged i is = a at *
  have hn := State.issue_nodup hi
  -- the fold, with the values that it carries
  have key : ∃ w, w = { a with nextId := w.nextId, fresh := w.fresh } ∧ ∃ val : Thread → List Word,
      (isS d = false → ∀ t, val t = (f a is t).vals) ∧ (isS d = true → ∃ t0 ∈ is.act, ∀ t, val t = (f a is t0).vals)
      ∧ State.Raised w (flagRun fs d n f a is is.act) is is.act (fun _ x => x.flagged (some (flagOf is.hdr fs)))
        (flagOp is (flagOf is.hdr fs) (fun t => destsOf is.team t d n) val (fun t => (f a is t).preds)) := by
    unfold flagRun State.newId
    dsimp only
    by_cases hd : isS d = true
    · have hm : ((is.act.map fun t => (t, f a is t)).map fun o => o.2.vals) = is.act.map fun t => (f a is t).vals := by
        rw [List.map_map]; rfl
      obtain ⟨t0, ht0, fr, hp⟩ := State.pickScalar_mem { a with nextId := a.nextId + 1 } is.team.ctx is.act (fun t => (f a is t).vals) hne
      rw [if_pos hd, hm, hp]
      dsimp only
      rw [List.foldl_map]
      refine ⟨{ a with nextId := a.nextId + 1, fresh := fr }, rfl, fun _ => (f a is t0).vals, fun h => by simp [hd] at h,
        fun _ => ⟨t0, ht0, fun _ => rfl⟩, ?_⟩
      refine State.foldl_raised is _ _ _ is.act hn (fun _ => True) (fun _ _ _ _ => trivial) (fun v _ t ht => ?_) _ trivial
      refine (flagOne_raised is _ _ d n [] v t _).weaken fun x hx o ho => ?_
      obtain rfl : x = t := by simpa using hx
      exact ho
    · rw [if_neg hd, List.foldl_map]
      refine ⟨{ a with nextId := a.nextId + 1 }, rfl, fun t => (f a is t).vals, fun _ _ => rfl, fun h => absurd h hd, ?_⟩
      refine State.foldl_raised is _ _ _ is.act hn (fun _ => True) (fun _ _ _ _ => trivial) (fun v _ t ht => ?_) _ trivial
      refine (flagOne_raised is _ _ d n [] v t _).weaken fun x hx o ho => ?_
      obtain rfl : x = t := by simpa using hx
      exact ho
  obtain ⟨w, hw, val, hv1, hv2, hr⟩ := key
  rw [← hA] at hw
  obtain ⟨r1, r3⟩ := runWord_raised _ _ (Thread.onlyFlag (some (flagOf is.hdr fs)))
    (fun t _ => ⟨Thread.onlyFlag_data _ t, t.flagged_only _⟩) ⟨_, _, hi⟩ ⟨w, .draw i hw, hr⟩ hs
  refine ⟨u, hu, r1, val, hv1, hv2, fun t ht => ?_⟩
  obtain ⟨o, ho, ⟨h1, h2, h3⟩, h4⟩ := r3 t ht
  exact ⟨o, ho, h1, h2, h3, h4⟩

end Sys2Proof.Machine
end

