-- ==== Sys2Proof/Laws/Threads.lean ====
section
/-! SUPPORT. Words that change only the threads that execute them, one after another. -/

namespace Sys2Proof.Machine

/-- A word whose effect on each executing thread is `g` changes those threads so, and nothing else. -/
theorem runWord_threads {s : State} {i : Instr} {is : Issue} (F : State → Issue → State → Thread → State) (g : Thread → Thread → Thread)
    (P : Thread → Thread → Prop) (h : s.Runs i is) (hP : ∀ t ∈ is.act, Thread.DataProp (P t) ∧ P t (g t t))
    (hF : ∀ u, ∀ t ∈ is.act, State.Touch is.cur.core is.cur.part t.slot (g t) u (F (s.aged i is) is u t)) (m : Meaning)
    (ht : ∀ t ∈ is.act, m.traps s is t = none) (hp : ∀ t ∈ is.act, m.parks s is t = none)
    (hx : ∀ t ∈ is.act, ∀ n ∈ m.xl s is t, s.xlateCore is.cur.core is.team.ctx (is.walkFaults s) n.1 n.2 ≠ .miss)
    (hm : m.run (s.aged i is) is is.act = is.act.foldl (F (s.aged i is) is) (s.aged i is)) :
    ∃ u, runWord i m s = .next u ∧ s.OnlyThreads u is P := by
  obtain ⟨u, h1, hu⟩ := runWord_runs m h ht hp hx
  obtain ⟨⟨op, f, _, hi⟩, _⟩ := h
  have ha := s.aged_sched i is
  have name (t : Thread) (ht : t ∈ is.act) := State.issue_all hi (State.issue_act hi ht)
  have wt : (s.aged i is).threads = s.threads := rfl
  have th (a b k : Nat) : (s.aged i is).thread? a b k = s.thread? a b k := by unfold State.thread?; rw [wt]
  obtain ⟨f1, f2, f3, f4⟩ := State.foldl_touch is.cur.core is.cur.part (F (s.aged i is) is) g is.act (State.issue_nodup hi) hF (s.aged i is)
  rw [← hm] at f1 f2 f3 f4
  refine ⟨u, h1, ?_, fun a b k e => ?_, fun t ht => ?_, fun a b e => ?_⟩
  · have h1 := congrArg (fun y : State => { y with threads := s.threads, parts := s.parts }) hu.1
    have h2 := congrArg (fun y : State => { y with threads := s.threads, parts := s.parts }) f1
    have h3 := congrArg (fun y : State => { y with threads := s.threads, parts := s.parts }) ha.1
    exact Eq.trans h1 (Eq.trans h2 h3)
  · rw [hu.2.1]
    unfold State.dataOf
    rw [f3 a b k e, th]
  · have hx := hu.2.1 is.cur.core is.cur.part t.slot
    unfold State.dataOf at hx
    rw [f2 t ht, th, (name t ht).1] at hx
    cases hy : u.thread? is.cur.core is.cur.part t.slot with
    | none => rw [hy] at hx; cases hx
    | some y =>
      rw [hy] at hx
      have hd : y.data = (g t t).data := by simpa using hx
      exact ⟨y, rfl, (hP t ht).1 _ _ hd.symm (hP t ht).2⟩
  · rw [hu.2.2 a b e, f4 a b e, ha.2.2 a b e]

end Sys2Proof.Machine
end

