-- ==== Sys2Proof/Laws/Values.lean ====
section
/-! SUPPORT. How many registers a result has (R59, R61), and what a word that is an instruction says of its fields. -/

namespace Sys2Proof.Machine

@[simp] theorem wordsOf_length (k v : Nat) : (wordsOf k v).length = k := by simp [wordsOf]

theorem intWrite_length (md : Nat) (x : Int) (h : md ≠ 0xB) : (intWrite md x).length = typeRegs md := by
  have key : (intWidth md = 64 ↔ md = 2 ∨ md = 3) := by
    unfold intWidth
    constructor
    · intro h
      split at h
      · omega
      · split at h
        · omega
        · split at h <;> omega
    · intro h
      rcases h with rfl | rfl <;> rfl
  unfold intWrite typeRegs
  by_cases h1 : md = 2 ∨ md = 3
  · rcases h1 with rfl | rfl <;> simp [intWidth]
  · have : ¬ intWidth md = 64 := fun e => h1 (key.mp e)
    have h2 : ¬ md = 2 := fun e => h1 (.inl e)
    have h3 : ¬ md = 3 := fun e => h1 (.inr e)
    simp only [this, if_false]
    split <;> simp [h2, h3, h]

theorem intResult_length (md : Nat) (sat : Bool) (x : Int) (h : md ≠ 0xB) : (intResult md sat x).length = typeRegs md :=
  intWrite_length md _ h

theorem typeWrite_length (md bits : Nat) : (typeWrite md bits).length = typeRegs md := by
  unfold typeWrite
  split
  · exact intWrite_length md _ (by omega)
  · split
    · rename_i h; rcases h with rfl | rfl <;> rfl
    · split
      · rename_i h; subst h; simp [typeRegs]
      · have h2 : ¬ md = 2 := by omega
        have h3 : ¬ md = 3 := by omega
        simp [typeRegs, h2, h3]; omega

@[simp] theorem leaSum_length (base : Nat) (x : Int) (sh : Nat) : (leaSum base x sh).length = 2 := by simp [leaSum]

/-- A word that is an instruction has an entry that accepts it. -/
theorem wellFormed_accepts {i : Instr} {op : Nat} {f : Fields} {e : Entry} (h : i.wellFormed = true) (hf : i.fields = some (op, f))
    (he : i.entry = some e) : e.accepts = true ∧ (e.flagged = true ∨ f.fs = false) ∧ f.fit e.opds = true := by
  simp only [Instr.wellFormed, Instr.wordOk, hf, he, Bool.and_eq_true, Bool.or_eq_true, Bool.not_eq_true'] at h
  exact ⟨h.1.1, h.1.2, h.2⟩

/-- A type code among those that an arithmetic word accepts is not `f64`. -/
theorem aluEntry_md {md : BitVec 4} {x : BitVec 7} {mods xm : Nat} {o : Opds} (h : (aluEntry md x mods xm o).accepts = true)
    (hm : mods.testBit 0xB = false) : md.toNat ≠ 0xB := by
  intro e
  simp only [aluEntry, Bool.and_eq_true] at h
  rw [e, hm] at h
  exact absurd h.1 (by decide)

theorem State.Runs.word {s : State} {i : Instr} {is : Issue} (h : s.Runs i is) : i.wellFormed = true := h.2.2.2.2

/-- A fixed-latency word, by what it computes. -/
theorem fixed_of {s : State} {i : Instr} {is : Issue} (d : BitVec 8) (n : Nat) (f : State → Issue → Thread → Out1)
    (e : exec i s = runWord i (plain (fixRun d n f)) s) (h : s.Runs i is)
    (hl : ∀ t, (f (s.aged i is) is t).vals.length = n) :
    s.Fixed i is d n (fun t => (f (s.aged i is) is t).vals) (fun t => (f (s.aged i is) is t).preds) := by
  obtain ⟨u, h1, h2, h3, h4⟩ := runWord_fixed h d n f (fun t _ => hl t)
  exact ⟨u, e.trans h1, h2, h3, h4⟩

/-- The type code of an arithmetic word that is an instruction. -/
theorem md_alu {i : Instr} {op : Nat} {f : Fields} {md : BitVec 4} {x : BitVec 7} {mods xm : Nat} {o : Opds} (h : i.wellFormed = true) (hf : i.fields = some (op, f))
    (he : i.entry = some (aluEntry md x mods xm o)) (hm : mods.testBit 0xB = false) : md.toNat ≠ 0xB :=
  aluEntry_md (wellFormed_accepts h hf he).1 hm

/-- A long-latency word, by what it computes. -/
theorem long_of {s : State} {i : Instr} {is : Issue} (fs : Bool) (d : BitVec 8) (n : Nat) (f : State → Issue → Thread → Out1)
    (run : State → Issue → List Thread → State) (hrun : run (s.aged i is) is is.act = flagRun fs d n f (s.aged i is) is is.act)
    (e : exec i s = runWord i (plain run) s) (h : s.Runs i is) :
    s.LongLatency i is fs d n (fun t => (f (s.aged i is) is t).vals) (fun t => (f (s.aged i is) is t).preds) := by
  obtain ⟨u, h1, h2, w, h3, h4, h5⟩ := runWord_flagged h fs d n f run hrun
  exact ⟨u, e.trans h1, h2, w, h3, h4, h5⟩

/-- A sub-group word, by what it computes from the active members. -/
theorem group_of {s : State} {i : Instr} {is : Issue} (fs : Bool) (d : BitVec 8) (n : Nat) (f : Issue → List Thread → Thread → Out1)
    (e : exec i s = runWord i (plain (groupRun fs d n f)) s) (h : s.Runs i is) :
    s.LongLatency i is fs d n (fun t => (f is (activeOf is is.act t) t).vals) (fun t => (f is (activeOf is is.act t) t).preds) :=
  long_of fs d n (fun _ is t => f is (activeOf is is.act t) t) (groupRun fs d n f) rfl e h

/-- A word that is long-latency under a condition, by what it computes. -/
theorem result_of {s : State} {i : Instr} {is : Issue} (long : Prop) [Decidable long] (fs : Bool) (d : BitVec 8) (n : Nat) (f : State → Issue → Thread → Out1)
    (e : exec i s = runWord i (plain (if long then flagRun fs d n f else fixRun d n f)) s) (h : s.Runs i is)
    (hl : ∀ t, (f (s.aged i is) is t).vals.length = n) :
    s.Result i is long fs d n (fun t => (f (s.aged i is) is t).vals) (fun t => (f (s.aged i is) is t).preds) := by
  refine ⟨fun hh => ?_, fun hh => ?_⟩
  · rw [if_pos hh] at e; exact long_of fs d n f _ rfl e h
  · rw [if_neg hh] at e; exact fixed_of d n f e h hl


end Sys2Proof.Machine
end

