-- ==== Sys2Proof/Laws/Access.lean ====
section
/-! SUPPORT. Words that put an operation of each executing thread in flight: local and global accesses, fences, engine releases and results (R102, R165-R173). -/

namespace Sys2Proof.Machine

/-- A flag set, if there is one. -/
def State.raiseOpt (s : State) (is : Issue) (t : Thread) (n : Option Nat) : State :=
  match n with
  | some k => s.raiseFlag is t k
  | none => s

/-- An operation of a thread, after its flag is set. -/
theorem State.raised_opt {s u : State} {is : Issue} {t : Thread} {n : Option Nat} {op : Thread → Op → Prop}
    (h : State.Raised (s.raiseOpt is t n) u is [t] (fun _ x => x) op) : State.Raised s u is [t] (fun _ x => x.flagged n) op := by
  cases n with
  | none => exact h
  | some k => exact State.Raised.before (fun x => x.setFlag k) (fun _ => ⟨rfl, rfl, rfl⟩) h

/-- A word that puts an operation of each executing thread in flight, its flag set, completes and changes nothing else. -/
theorem runWord_ops {s : State} {i : Instr} {is : Issue} (m : Meaning) (h : s.Runs i is)
    (ht : ∀ t ∈ is.act, m.traps s is t = none) (hp : ∀ t ∈ is.act, m.parks s is t = none)
    (hx : ∀ t ∈ is.act, ∀ n ∈ m.xl s is t, s.xlateCore is.cur.core is.team.ctx (is.walkFaults s) n.1 n.2 ≠ .miss)
    (n : Option Nat) (w : State) (hw : s.Start w is) (F : State → Thread → State) (q : Thread → Op → Prop)
    (hF : ∀ v, ∀ t ∈ is.act, State.Raised v (F v t) is [t] (fun _ x => x.flagged n) q)
    (hm : m.run (s.aged i is) is is.act = is.act.foldl F w) :
    ∃ u, runWord i m s = .next u ∧ s.OnlyOps u is (Thread.onlyFlag n) ∧ ∀ t ∈ is.act, ∃ o ∈ (u.core is.cur.core).ops, q t o := by
  obtain ⟨u, hu, hs⟩ := runWord_runs m h ht hp hx
  obtain ⟨⟨op, g, _, hi⟩, _⟩ := h
  rw [hm] at hs
  obtain ⟨r1, r2⟩ := runWord_raised _ q (Thread.onlyFlag n) (fun t _ => ⟨Thread.onlyFlag_data _ t, t.flagged_only _⟩) ⟨_, _, hi⟩
    ⟨w, hw, State.foldl_raised is F _ q is.act (State.issue_nodup hi) (fun _ => True) (fun _ _ _ _ => trivial) (fun v _ t ht => hF v t ht) w trivial⟩ hs
  exact ⟨u, hu, r1, r2⟩

/-- The state after the latch has aged, with names drawn, is where the effect of a word starts. -/
theorem State.start_aged (s : State) (i : Instr) (is : Issue) (n : Nat) (f : List (Nat × Nat)) : s.Start { s.aged i is with nextId := n, fresh := f } is :=
  .draw i rfl

/-- A core of which nothing has changed but that operations have been added. -/
structure State.Adds (s u : State) (core : Nat) : Prop where
  ops : ∃ new, (u.core core).ops = (s.core core).ops ++ new
  loads : (u.core core).loads = (s.core core).loads
  array : (u.arrayOf core).array = (s.arrayOf core).array

/-- Earlier accesses stay earlier accesses (R102). -/
theorem State.Adds.accessesOf {s u : State} {core p sl b : Nat} (h : s.Adds u core) (ha : s.accessesOf core p sl b = true) :
    u.accessesOf core p sl b = true := by
  obtain ⟨⟨new, ho⟩, hl, hr⟩ := h
  unfold State.accessesOf at *
  dsimp only at *
  rw [ho, hl, hr]
  simp only [List.any_append, Bool.or_eq_true] at *
  exact ha.imp (.imp .inl id) id

/-- What waits for an operation goes on waiting for it (R100-R103). -/
theorem State.Adds.waitsFor {s u : State} {core : Nat} {o x : Op} (h : s.Adds u core) (hw : s.waitsFor core o x = true) :
    u.waitsFor core o x = true := by
  have hh : s.opHolds core x o.reads = true → u.opHolds core x o.reads = true := by
    unfold State.opHolds
    simp only [Bool.or_eq_true, Bool.and_eq_true]
    exact .imp (.imp id fun a => ⟨a.1, h.accessesOf a.2⟩) id
  unfold State.waitsFor at *
  simp only [Bool.or_eq_true, Bool.and_eq_true] at *
  exact hw.imp (.imp (.imp (.imp (fun a => ⟨a.1, a.2.imp hh id⟩) id) id) id) id

/-- What waits goes on waiting. -/
theorem State.Adds.waits {s u : State} {core : Nat} {o : Op} (h : s.Adds u core) (hw : s.waits core o = true) : u.waits core o = true := by
  obtain ⟨new, ho⟩ := h.ops
  unfold State.waits at *
  rw [ho, h.array, h.loads]
  simp only [List.any_append, Bool.or_eq_true, Bool.and_eq_true] at *
  refine hw.imp (.imp (.imp (fun a => ⟨a.1, h.accessesOf a.2⟩) fun a => .inl ?_) id) id
  obtain ⟨x, hx, hf⟩ := List.any_eq_true.mp a
  exact List.any_eq_true.mpr ⟨x, hx, h.waitsFor hf⟩

theorem settleOne_none {core : Nat} {s : State} {o : Op} (h : o.stage = .queued → o.outward = true ∨ s.waits core o = true) :
    settleOne core s o = s := by
  unfold settleOne
  split
  · rfl
  · rename_i hc
    simp only [Bool.or_eq_true, bne_iff_ne, ne_eq, not_or, Decidable.not_not, Bool.not_eq_true] at hc
    rcases h hc.1 with h | h
    · unfold Op.outward at h
      cases hk : o.kind <;> simp_all
    · rw [hc.2] at h; cases h

/-- Nothing of a core is performed when all that is queued has to wait or goes out to memory. -/
theorem State.settle_calm {s : State} {core : Nat} (h : s.Calm core) : s.settle core = s := by
  unfold State.settle
  have key : ∀ l : List Op, (∀ o ∈ l, o.stage = .queued → o.outward = true ∨ s.waits core o = true) → l.foldl (settleOne core) s = s := by
    intro l
    induction l with
    | nil => intro _; rfl
    | cons o l ih =>
      intro hl
      rw [List.foldl_cons, settleOne_none (hl o List.mem_cons_self)]
      exact ih fun x hx => hl x (List.mem_cons_of_mem _ hx)
  exact key _ h

/-- Operations that go out to memory leave a calm core calm. -/
theorem State.Raised.calm {s u : State} {is : Issue} {L : List Thread} {g : Thread → Thread → Thread} {q : Thread → Op → Prop}
    (h : State.Raised s u is L g q) (hc : s.Calm is.cur.core) (hq : ∀ t ∈ L, ∀ o, q t o → o.outward = true) : u.Calm is.cur.core := by
  obtain ⟨new, h1, _, h3⟩ := h.ops
  have e1 : (u.core is.cur.core).ops = (s.core is.cur.core).ops ++ new := by have := congrArg Core.ops h1; exact this
  have e2 : (u.core is.cur.core).loads = (s.core is.cur.core).loads := by have := congrArg Core.loads h1; exact this
  have e3 : (u.core is.cur.core).array = (s.core is.cur.core).array := by have := congrArg Core.array h1; exact this
  have e4 : (u.core is.cur.core).follower = (s.core is.cur.core).follower := by have := congrArg Core.follower h1; exact this
  have e5 : (u.arrayOf is.cur.core).array = (s.arrayOf is.cur.core).array := by
    unfold State.arrayOf
    rw [e4]
    split
    · by_cases he : is.cur.core - 1 = is.cur.core
      · rw [he, e3]
      · rw [h.cores _ he]
    · exact e3
  intro o ho hst
  rw [e1] at ho
  rcases List.mem_append.mp ho with ho | ho
  · exact (hc o ho hst).imp id (State.Adds.waits ⟨⟨new, e1⟩, e2, e5⟩)
  · obtain ⟨t, ht, hqo⟩ := h3 o ho
    exact .inl (hq t ht o hqo)

/-- The latch, and the names drawn, have no part in a translation. -/
theorem Issue.faults_aged (s : State) (i : Instr) (is : Issue) (n : Nat) (f : List (Nat × Nat)) :
    is.faults { s.aged i is with nextId := n, fresh := f } = is.faults s := by
  unfold Issue.faults
  have : (State.part { s.aged i is with nextId := n, fresh := f } is.cur.core is.cur.part) = (s.aged i is).part is.cur.core is.cur.part := rfl
  rw [this]
  unfold State.aged State.onPack
  rw [s.part_onPart _ _ _ _ _ (fun q => by dsimp only; split <;> exact ⟨rfl, rfl⟩), if_pos rfl]
  dsimp only
  split
  · rfl
  · rename_i k hk
    generalize s.part is.cur.core is.cur.part = q
    unfold Part.setStream Part.stream
    have hi : ((q.streams.find? fun t => t.idx == is.cur.stream).getD (Stream.init is.cur.stream)).idx = is.cur.stream := by
      cases h : q.streams.find? fun t => t.idx == is.cur.stream with
      | none => rfl
      | some t => simpa using List.find?_some h
    generalize (q.streams.find? fun t => t.idx == is.cur.stream).getD (Stream.init is.cur.stream) = st at *
    rw [upsert_find_same]
    · rfl
    · simpa using hi
    · intro y hy; simp only [beq_iff_eq] at *; rw [hi]; exact hy

theorem Issue.xlate_aged (s : State) (i : Instr) (is : Issue) (n : Nat) (f : List (Nat × Nat)) (a : Acc) (va : DWord) :
    is.xlate { s.aged i is with nextId := n, fresh := f } a va = is.xlate s a va := by
  unfold Issue.xlate
  rw [Issue.faults_aged]
  rfl

/-- The entry used last moves to the front of its core's TLBs, and nothing else changes (R95). -/
theorem State.touchTlb_spec (s : State) (core ctx : Nat) (va : DWord) :
    { s.touchTlb core ctx va with cores := s.cores } = s ∧ (∀ c, c ≠ core → (s.touchTlb core ctx va).core c = s.core c)
      ∧ { (s.touchTlb core ctx va).core core with tlb1 := (s.core core).tlb1, tlb2 := (s.core core).tlb2 } = s.core core := by
  unfold State.touchTlb
  split
  · rename_i e _
    refine ⟨rfl, fun c hc => ?_, ?_⟩
    · rw [s.core_onCore core c (fun c => c.tlbTouch e) fun _ => rfl, if_neg hc]
    · rw [s.core_onCore core core (fun c => c.tlbTouch e) fun _ => rfl, if_pos rfl]; rfl
  · exact ⟨rfl, fun _ _ => rfl, rfl⟩

/-- A global access put in flight. -/
theorem putGlobal_raised (is : Issue) (word : Nat) (kind : OpKind) (pa loc : Nat) (ink : Bool) (va : DWord) (x : BitVec 7) (f : Op → Op)
    (s : State) (t : Thread) :
    State.Raised s (putGlobal is word kind (.ok pa loc ink) va x f s t) is [t] (fun _ x => x) fun _ o =>
      ∃ id clock, o = f { Op.blank id word is.cur.part t.slot is.team.slot is.team.ctx kind .queued is.cur.pc clock with
        va := va, pa := pa, loc := loc, ink := ink, order := xOrder x, scope := xScope x, policy := xPolicy x, gindex := t.gindex } := by
  obtain ⟨h1, h2, h3⟩ := s.touchTlb_spec is.cur.core is.team.ctx va
  have h4 := (s.touchTlb is.cur.core is.team.ctx va).raised_newOp is word t kind .queued fun o =>
      f { o with va := va, pa := pa, loc := loc, ink := ink, order := xOrder x, scope := xScope x, policy := xPolicy x, gindex := t.gindex }
  exact State.Raised.tlb h1 h2 h3 (h4.weaken fun u hu o ho => ⟨_, _, ho⟩)

/-- What an access in the line queue is (R97, R167, R168). -/
def isAccess (s : State) (is : Issue) (kind : OpKind) (a : Acc) (va : DWord) (size col : Nat) (x : BitVec 7) (t : Thread) (o : Op) : Prop :=
  (o.of is.cur.part t.slot = true ∧ o.ctx = is.team.ctx ∧ o.team = is.team.slot) ∧ o.kind = kind ∧ o.stage = .queued ∧ o.va = va
    ∧ is.xlate s a va = .ok o.pa o.loc o.ink ∧ o.size = size ∧ o.col = col ∧ o.order = xOrder x ∧ o.scope = xScope x ∧ o.policy = xPolicy x

/-- A change of an operation that leaves what the access is, but for its size. -/
def Op.filled (size col : Nat) (o p : Op) : Prop :=
  p.part = o.part ∧ p.slot = o.slot ∧ p.ctx = o.ctx ∧ p.team = o.team ∧ p.kind = o.kind ∧ p.stage = o.stage
      ∧ p.va = o.va ∧ p.pa = o.pa ∧ p.loc = o.loc ∧ p.ink = o.ink ∧ p.order = o.order
      ∧ p.scope = o.scope ∧ p.policy = o.policy ∧ p.size = size ∧ p.col = col

theorem isAccess_filled (s : State) (is : Issue) (kind : OpKind) (a : Acc) (va : DWord) (size col : Nat) (x : BitVec 7) (t : Thread) (p : Op)
    (id word clock pa loc : Nat) (ink : Bool) (e : is.xlate s a va = .ok pa loc ink)
    (h : Op.filled size col { Op.blank id word is.cur.part t.slot is.team.slot is.team.ctx kind .queued is.cur.pc clock with
        va := va, pa := pa, loc := loc, ink := ink, order := xOrder x, scope := xScope x, policy := xPolicy x, gindex := t.gindex } p) : isAccess s is kind a va size col x t p := by
  obtain ⟨g0, g1, g2, g3, g4, g5, g6, g7, g8, g9, g10, g11, g12, g13, g14⟩ := h
  refine ⟨⟨?_, g2, g3⟩, g4, g5, g6, ?_, g13, g14, g10, g11, g12⟩
  · unfold Op.of; rw [g0, g1]; simp [Op.blank]
  · rw [g7, g8, g9, e]

theorem isAccess_outward {s : State} {is : Issue} {kind : OpKind} {a : Acc} {va : DWord} {size col : Nat} {x : BitVec 7} {t : Thread} {o : Op}
    (h : isAccess s is kind a va size col x t o)
    (hk : kind = .load ∨ kind = .store ∨ (∃ k, kind = .atomic k) ∨ ∃ k, kind = .reduction k) : o.outward = true := by
  unfold Op.outward
  rw [h.2.1]
  rcases hk with rfl | rfl | ⟨k, rfl⟩ | ⟨k, rfl⟩ <;> rfl

/-- A global access of a thread whose translation is known. -/
theorem putGlobal_access (s : State) (is : Issue) (word : Nat) (kind : OpKind) (a : Acc) (va : DWord) (size col : Nat) (x : BitVec 7) (n : Option Nat)
    (f : Op → Op) (hf : ∀ o, Op.filled size col o (f o)) (t : Thread) (hr : ∃ pa loc ink, is.xlate s a va = .ok pa loc ink) (v : State) :
    State.Raised v (putGlobal is word kind (is.xlate s a va) va x f (v.raiseOpt is t n) t) is [t] (fun _ x => x.flagged n)
      fun y o => isAccess s is kind a va size col x y o ∧ ∃ b, b.flag = none ∧ b.dest = [] ∧ o = f b := by
  obtain ⟨pa, loc, ink, e⟩ := hr
  rw [e]
  have h := putGlobal_raised is word kind pa loc ink va x f (v.raiseOpt is t n) t
  have g := State.raised_opt h
  refine g.weaken fun y hy o ho => ?_
  obtain rfl : y = t := by simpa using hy
  obtain ⟨id, clock, ho⟩ := ho
  exact ⟨isAccess_filled s is kind a va size col x y o id word clock pa loc ink e (ho ▸ hf _), _, rfl, rfl, ho⟩

/-- A word of global accesses that all reach memory (R165, R167): an operation of each is in the line queue, and nothing else changes. -/
theorem runWord_global {s : State} {i : Instr} {is : Issue} (h : s.Runs i is) (hc : s.Calm is.cur.core) (size col : Nat) (a : Acc)
    (ea : Issue → Thread → DWord) (run : State → Issue → List Thread → State) (n : Option Nat) (kind : OpKind) (x : BitVec 7)
    (f : Thread → Op → Op) (hk : kind = .load ∨ kind = .store ∨ (∃ k, kind = .atomic k) ∨ ∃ k, kind = .reduction k)
    (hf : ∀ t o, Op.filled size col o (f t o)) (hr : ∀ t ∈ is.act, s.Reaches is a (ea is t) size col)
    (hm : run (s.aged i is) is is.act = (is.act.foldl (fun v t =>
      putGlobal is s.nextId kind (is.xlate { s.aged i is with nextId := s.nextId + 1 } a (ea is t)) (ea is t) x (f t) (v.raiseOpt is t n) t)
        { s.aged i is with nextId := s.nextId + 1 }).settle is.cur.core) :
    ∃ u, runWord i (globalMeaning size col a ea run) s = .next u ∧ s.OnlyOps u is (Thread.onlyFlag n)
      ∧ ∀ t ∈ is.act, s.Access u is t kind a (ea is t) size col x fun o => ∃ b, b.flag = none ∧ b.dest = [] ∧ o = f t b := by
  have hw : s.Start { s.aged i is with nextId := s.nextId + 1 } is := s.start_aged i is (s.nextId + 1) s.fresh
  have hxl (t : Thread) : is.xlate { s.aged i is with nextId := s.nextId + 1 } a (ea is t) = is.xlate s a (ea is t) :=
    Issue.xlate_aged s i is (s.nextId + 1) s.fresh a (ea is t)
  simp only [hxl] at hm
  have hcw : State.Calm { s.aged i is with nextId := s.nextId + 1 } is.cur.core := hc
  generalize ({ s.aged i is with nextId := s.nextId + 1 } : State) = w at hm hw hcw
  have hF : ∀ v, ∀ t ∈ is.act, State.Raised v (putGlobal is s.nextId kind (is.xlate s a (ea is t)) (ea is t) x (f t) (v.raiseOpt is t n) t) is [t]
      (fun _ x => x.flagged n) fun y o => isAccess s is kind a (ea is y) size col x y o ∧ ∃ b, b.flag = none ∧ b.dest = [] ∧ o = f y b := fun v t ht =>
    (putGlobal_access s is s.nextId kind a (ea is t) size col x n (f t) (hf t) t (hr t ht).2 v).weaken fun y hy o ho => by
      obtain rfl : y = t := by simpa using hy
      exact ho
  obtain ⟨g0, g1, hi⟩ := h.issued
  have hn := State.issue_nodup hi
  have hraised := State.foldl_raised is
    (fun v t => putGlobal is s.nextId kind (is.xlate s a (ea is t)) (ea is t) x (f t) (v.raiseOpt is t n) t) (fun _ x => x.flagged n)
    (fun y o => isAccess s is kind a (ea is y) size col x y o ∧ ∃ b, b.flag = none ∧ b.dest = [] ∧ o = f y b) is.act hn (fun _ => True) (fun _ _ _ _ => trivial)
    (fun v _ t ht => hF v t ht) w trivial
  rw [State.settle_calm (hraised.calm hcw fun t ht o ho => isAccess_outward ho.1 hk)] at hm
  have ht : ∀ t ∈ is.act, (globalMeaning size col a ea run).traps s is t = none := fun t ht => by
    show (if misaligned (ea is t) size col = true then _ else _) = none
    rw [(hr t ht).1]; rfl
  have hp : ∀ t ∈ is.act, (globalMeaning size col a ea run).parks s is t = none := fun t ht => by
    obtain ⟨_, pa, loc, ink, e⟩ := hr t ht
    show (match is.xlate s a (ea is t) with | .bad cls code => _ | _ => _) = none
    rw [e]
  have hx : ∀ t ∈ is.act, ∀ k ∈ (globalMeaning size col a ea run).xl s is t,
      s.xlateCore is.cur.core is.team.ctx (is.walkFaults s) k.1 k.2 ≠ .miss := fun t ht k hk e => by
    obtain ⟨_, pa, loc, ink, e'⟩ := hr t ht
    obtain rfl : k = (a, ea is t) := by simpa [globalMeaning] using hk
    rw [show s.xlateCore is.cur.core is.team.ctx (is.walkFaults s) a (ea is t) = is.xlate s a (ea is t) from rfl, e'] at e
    cases e
  obtain ⟨u, h1, h2, h3⟩ := runWord_ops (globalMeaning size col a ea run) h ht hp hx n w hw _ _ hF hm
  have key : ∀ t ∈ is.act, s.Access u is t kind a (ea is t) size col x fun o => ∃ b, b.flag = none ∧ b.dest = [] ∧ o = f t b := fun t ht => by
    obtain ⟨o, ho, ⟨⟨a1, a2, a3⟩, a4⟩, a5⟩ := h3 t ht
    obtain ⟨b1, b2, b3, b4, b5, b6, b7, b8, b9⟩ := a4
    exact ⟨o, ho, a1, a2, a3, b1, b2, b3, b4, b5, b6, b7, b8, b9, a5⟩
  have h4 : s.OnlyOps u is (Thread.onlyFlag n) ∧ ∀ t ∈ is.act, s.Access u is t kind a (ea is t) size col x fun o => ∃ b, b.flag = none ∧ b.dest = [] ∧ o = f t b := ⟨h2, key⟩
  exact Exists.intro u (And.intro h1 h4)

/-- Threads changed one after another, and then one operation: each thread is changed, and the operation is the only one added. -/
theorem State.Raised.prefold {s u : State} {is : Issue} {L : List Thread} {t0 : Thread} (hn : (L.map (·.slot)).Nodup) (f : Thread → Thread)
    (hf : ∀ x, (f x).core = x.core ∧ (f x).part = x.part ∧ (f x).slot = x.slot) (ht0 : t0 ∈ L) {q : Op → Prop}
    (h : State.Raised (L.foldl (fun v t => v.onThread is.cur.core is.cur.part t.slot f) s) u is [t0] (fun _ x => x) fun _ => q) :
    State.Raised s u is L (fun _ x => f x) fun _ => q := by
  have key : ∀ (L : List Thread) (u : State), ∃ x, L.foldl (fun (v : State) t => v.onThread is.cur.core is.cur.part t.slot f) u = { u with threads := x } := by
    intro L
    induction L with
    | nil => intro u; exact ⟨u.threads, rfl⟩
    | cons t L ih =>
      intro u
      obtain ⟨x, hx⟩ := ih (u.onThread is.cur.core is.cur.part t.slot f)
      refine ⟨x, ?_⟩
      rw [List.foldl_cons, hx]
      rcases u.onThread_cases is.cur.core is.cur.part t.slot f with h | ⟨_, h⟩ <;> rw [h]
  obtain ⟨_, f2, f3, _⟩ := State.foldl_touch is.cur.core is.cur.part (fun v t => v.onThread is.cur.core is.cur.part t.slot f) (fun _ => f) L hn
    (fun v t _ => v.touch_onThread _ _ _ _ hf) s
  obtain ⟨x, hx⟩ := key L s
  generalize L.foldl (fun (v : State) t => v.onThread is.cur.core is.cur.part t.slot f) s = w at *
  have co (c : Nat) : w.core c = s.core c := by rw [hx]; rfl
  refine ⟨?_, fun t ht => ?_, fun a b k e => ?_, fun c hc => (h.cores c hc).trans (co c), ?_⟩
  · have h1 := congrArg (fun y : State => { y with threads := s.threads }) h.rest
    rw [hx] at h1
    exact h1
  · by_cases e : t.slot = t0.slot
    · have h1 := h.thr t0 (by simp)
      rw [e, h1, f2 t0 ht0]
      cases s.thread? is.cur.core is.cur.part t0.slot <;> rfl
    · rw [h.other _ _ _ (.inr (by simpa using e)), f2 t ht]
  · rw [h.other a b k (e.imp id fun e h => e (by simp at h; rw [h]; exact List.mem_map_of_mem ht0)), f3 a b k e]
  · obtain ⟨new, h1, h2, h3⟩ := h.ops
    rw [co] at h1
    refine ⟨new, h1, fun t ht => ?_, fun o ho => ?_⟩
    · obtain ⟨o, ho, hq⟩ := h2 t0 (by simp)
      exact ⟨o, ho, hq⟩
    · obtain ⟨t, ht, hq⟩ := h3 o ho
      exact ⟨t0, ht0, hq⟩

end Sys2Proof.Machine
end

