-- ==== Sys2Proof/Laws/Encoding.lean ====
section
/-! SUPPORT. What is packed into a word is read back from it: the laws of the six layouts (R115). -/

namespace Sys2Proof

/-- A field that stands wholly in the upper part of a concatenation. -/
theorem ext_hi {a b : Nat} (x : BitVec a) (y : BitVec b) (s n : Nat) (h : b ≤ s) :
    (x ++ y).extractLsb' s n = x.extractLsb' (s - b) n := by
  apply BitVec.eq_of_getLsbD_eq; intro i hi
  simp only [BitVec.getLsbD_extractLsb', BitVec.getLsbD_append, hi, decide_true, Bool.true_and]
  rw [if_neg (by omega)]; congr 1; omega

/-- A field that stands wholly in the lower part of a concatenation. -/
theorem ext_lo {a b : Nat} (x : BitVec a) (y : BitVec b) (s n : Nat) (h : s + n ≤ b) :
    (x ++ y).extractLsb' s n = y.extractLsb' s n := by
  apply BitVec.eq_of_getLsbD_eq; intro i hi
  simp only [BitVec.getLsbD_extractLsb', BitVec.getLsbD_append, hi, decide_true, Bool.true_and]
  rw [if_pos (by omega)]

/-- A bit of the upper part of a concatenation. -/
theorem bit_hi {a b : Nat} (x : BitVec a) (y : BitVec b) (s : Nat) (h : b ≤ s) :
    (x ++ y).getLsbD s = x.getLsbD (s - b) := by
  rw [BitVec.getLsbD_append, if_neg (by omega)]

/-- A bit of the lower part of a concatenation. -/
theorem bit_lo {a b : Nat} (x : BitVec a) (y : BitVec b) (s : Nat) (h : s < b) : (x ++ y).getLsbD s = y.getLsbD s := by
  rw [BitVec.getLsbD_append, if_pos (by omega)]

/-- The one bit of a Bool. -/
theorem bit_ofBool (b : Bool) : (BitVec.ofBool b).getLsbD 0 = b := by cases b <;> rfl

/-- Guard 0 as its two fields. -/
theorem g0Of_eq (w : DWord) : g0Of w = ⟨bitAt w 53, w.extractLsb' 50 3⟩ := rfl

/-- Guard 1 as its two fields. -/
theorem g1Of_eq (w : DWord) : g1Of w = ⟨bitAt w 49, w.extractLsb' 46 3⟩ := rfl

/-- The INV bit of a packed guard. -/
theorem guard_inv (i : Bool) (p : BitVec 3) : (putGuard ⟨i, p⟩).getLsbD 3 = i := by cases i <;> revert p <;> decide

/-- The predicate number of a packed guard. -/
theorem guard_pn (i : Bool) (p : BitVec 3) : (putGuard ⟨i, p⟩).extractLsb' 0 3 = p := by cases i <;> revert p <;> decide

/-- Form R reads back what was packed. -/
theorem getR_putR (op : Nat) (f : RWord) : getR (putR op f) = some f := by
  obtain ⟨⟨i0, p0⟩, ⟨i1, p1⟩, md, fs, hold, x, d, a, b, c⟩ := f
  simp (disch := decide) only 
    [getR, g0Of_eq, g1Of_eq, putR, putTop, guard_inv, guard_pn, ext_hi, ext_lo,
      bit_hi, bit_lo, bit_ofBool, bitAt, Nat.reduceSub, BitVec.extractLsb'_eq_self]

/-- Form I reads back what was packed. -/
theorem getI_putI (op : Nat) (f : IWord) : getI (putI op f) = some f := by
  obtain ⟨⟨i0, p0⟩, ⟨i1, p1⟩, md, fs, hold, x, d, a, b⟩ := f
  simp (disch := decide) only 
    [getI, g0Of_eq, g1Of_eq, putI, putTop, guard_inv, guard_pn, ext_hi, ext_lo,
      bit_hi, bit_lo, bit_ofBool, bitAt, Nat.reduceSub, BitVec.extractLsb'_eq_self]

/-- Form L reads back what was packed. -/
theorem getL_putL (op : Nat) (f : LWord) : getL (putL op f) = some f := by
  obtain ⟨⟨i0, p0⟩, ⟨i1, p1⟩, d, md, imm⟩ := f
  simp (disch := decide) only 
    [getL, g0Of_eq, g1Of_eq, putL, putTop, guard_inv, guard_pn, ext_hi, ext_lo,
      bit_hi, bit_lo, bitAt, Nat.reduceSub, BitVec.extractLsb'_eq_self]

/-- Form B reads back what was packed. -/
theorem getB_putB (op : Nat) (f : BWord) : getB (putB op f) = some f := by
  obtain ⟨⟨i0, p0⟩, ⟨i1, p1⟩, md, off⟩ := f
  simp (disch := decide) only 
    [getB, g0Of_eq, g1Of_eq, putB, putTop, guard_inv, guard_pn, ext_hi, ext_lo,
      bit_hi, bit_lo, bitAt, Nat.reduceSub, BitVec.extractLsb'_eq_self, if_true]

/-- Form E reads back what was packed. -/
theorem getE_putE (op : Nat) (f : EWord) : getE (putE op f) = some f := by
  obtain ⟨⟨i0, p0⟩, ⟨i1, p1⟩, md, fs, tl, slot, bulk, hnd, shp, crd, chan⟩ := f
  have z : (0 : BitVec 1).getLsbD 0 = false := rfl
  simp (disch := decide) only 
    [getE, g0Of_eq, g1Of_eq, putE, putTop, guard_inv, guard_pn, ext_hi, ext_lo,
      bit_hi, bit_lo, bit_ofBool, bitAt, Nat.reduceSub, BitVec.extractLsb'_eq_self, z, and_self, if_true]

/-- Form U reads back what was packed. -/
theorem getU_putU (op : Nat) (f : UWord) : getU (putU op f) = some f := by
  obtain ⟨⟨i0, p0⟩, ⟨i1, p1⟩, md, fs, bi, d, a, b, c⟩ := f
  simp (disch := decide) only 
    [getU, g0Of_eq, g1Of_eq, putU, putTop, guard_inv, guard_pn, ext_hi, ext_lo,
      bit_hi, bit_lo, bit_ofBool, bitAt, Nat.reduceSub, BitVec.extractLsb'_eq_self, if_true]

/-- The opcode of a packed word, whatever its form. -/
theorem opOf_putFields (op : Nat) (f : Fields) : opOf (putFields op f) = BitVec.ofNat 10 op := by
  cases f <;> simp (disch := decide) only 
    [opOf, putFields, putR, putI, putL, putB, putE, putU, putTop, ext_hi, Nat.reduceSub, BitVec.extractLsb'_eq_self]

end Sys2Proof
end

