-- ==== Sys2Proof/Laws/Global.lean ====
section
/-! SUPPORT. Global loads, stores and atomics at issue (R165-R170). -/

namespace Sys2Proof.Machine

/-- Less of an access. -/
theorem acc_weaken {s u : State} {is : Issue} {t : Thread} {kind a va size col x} {p q : Op → Prop}
    (h : s.Access u is t kind a va size col x p) (hpq : ∀ o, o.kind = kind → p o → q o) : s.Access u is t kind a va size col x q := by
  obtain ⟨o, ho, a1, a2, a3, b1, b2, b3, b4, b5, b6, b7, b8, b9, hp⟩ := h
  exact ⟨o, ho, a1, a2, a3, b1, b2, b3, b4, b5, b6, b7, b8, b9, hpq o b1 hp⟩

/-- `lds` puts one load in flight for the pack, and sets every flag (R167). -/
theorem lds_of {s : State} {is : Issue} {f : IWord} (h : s.Runs (.lds f) is) (hc : s.Calm is.cur.core)
    (hr : ∀ t ∈ is.act, s.Reaches is .read (globalEa f is t) (codeBytes f.md.toNat) 0) :
    ∃ u, exec (.lds f) s = .next u ∧ s.OnlyOps u is (Thread.onlyFlag (some (flagOf is.hdr f.fs))) ∧ ∀ t0, is.act.head? = some t0 →
        s.Access u is t0 .load .read (globalEa f is t0) (codeBytes f.md.toNat) 0 f.x fun o =>
          o.md = f.md.toNat ∧ o.dest = destsOf is.team t0 f.d (sizeRegs f.md.toNat) ∧ o.flag = some (flagOf is.hdr f.fs) ∧ o.also = is.act.tail.map (·.slot) := by
  obtain ⟨t, rest, hact⟩ := List.exists_cons_of_ne_nil h.2.1
  have hmem : t ∈ is.act := by rw [hact]; simp
  obtain ⟨g0, g1, hi⟩ := h.issued
  have hn := State.issue_nodup hi
  let n := flagOf is.hdr f.fs
  let w : State := { s.aged (.lds f) is with nextId := s.nextId + 1 }
  have hw : s.Start w is := s.start_aged (.lds f) is (s.nextId + 1) s.fresh
  let w' := is.act.foldl (fun v t => v.raiseFlag is t n) w
  let fill : Op → Op := fun o => { o with size := codeBytes f.md.toNat, md := f.md.toNat, dest := destsOf is.team t f.d (sizeRegs f.md.toNat), flag := some n, also := rest.map (·.slot) }
  have hx' : is.xlate w' .read (globalEa f is t) = is.xlate s .read (globalEa f is t) := by
    have key : ∀ (L : List Thread) (u : State), ∃ x, L.foldl (fun (v : State) t => v.raiseFlag is t n) u = { u with threads := x } := by
      intro L
      induction L with
      | nil => intro u; exact ⟨u.threads, rfl⟩
      | cons t L ih =>
        intro u
        obtain ⟨x, hx⟩ := ih (u.raiseFlag is t n)
        refine ⟨x, ?_⟩
        rw [List.foldl_cons, hx]
        rcases u.onThread_cases is.cur.core is.cur.part t.slot (fun x => x.setFlag n) with h | ⟨_, h⟩ <;> (unfold State.raiseFlag; rw [h])
    obtain ⟨x, hx⟩ := key is.act w
    show is.xlate (is.act.foldl (fun v t => v.raiseFlag is t n) w) _ _ = _
    rw [hx]
    exact Issue.xlate_aged s (.lds f) is (s.nextId + 1) s.fresh .read (globalEa f is t)
  obtain ⟨_, pa, loc, ink, e⟩ := hr t hmem
  let q : Op → Prop := fun o => isAccess s is .load .read (globalEa f is t) (codeBytes f.md.toNat) 0 f.x t o ∧ ∃ b, o = fill b
  have hput : State.Raised w' (putGlobal is s.nextId .load (is.xlate w' .read (globalEa f is t)) (globalEa f is t) f.x fill w' t) is [t] (fun _ x => x) fun _ => q := by
    rw [hx', e]
    refine (putGlobal_raised is s.nextId .load pa loc ink (globalEa f is t) f.x fill w' t).weaken fun y hy o ho => ?_
    obtain ⟨id, clock, ho⟩ := ho
    refine ⟨isAccess_filled s is .load .read (globalEa f is t) (codeBytes f.md.toNat) 0 f.x t o id s.nextId clock pa loc ink e ?_, _, ho⟩
    rw [ho]
    exact ⟨rfl, rfl, rfl, rfl, rfl, rfl, rfl, rfl, rfl, rfl, rfl, rfl, rfl, rfl, rfl⟩
  have hra := State.Raised.prefold hn (fun x => x.setFlag n) (fun _ => ⟨rfl, rfl, rfl⟩) hmem hput
  have hcw : w.Calm is.cur.core := hc
  have hset := State.settle_calm (hra.calm hcw fun _ _ o ho => isAccess_outward ho.1 (.inl rfl))
  have hm : (globalMeaning (codeBytes f.md.toNat) 0 .read (globalEa f) (ldsRun f)).run (s.aged (.lds f) is) is is.act
      = putGlobal is s.nextId .load (is.xlate w' .read (globalEa f is t)) (globalEa f is t) f.x fill w' t := by
    refine Eq.trans ?_ hset
    show (match is.act with | [] => _ | t :: rest => _) = _
    rw [hact]
    show State.settle (putGlobal is s.nextId .load (is.xlate (List.foldl (fun s t => s.raiseFlag is t n) w (t :: rest)) .read (globalEa f is t)) (globalEa f is t) f.x fill (List.foldl (fun s t => s.raiseFlag is t n) w (t :: rest)) t) _ = _
    rw [← hact]
  obtain ⟨u, h1, hs⟩ := runWord_runs (globalMeaning (codeBytes f.md.toNat) 0 .read (globalEa f) (ldsRun f)) h (fun t ht => by
      show (if misaligned (globalEa f is t) _ 0 = true then _ else _) = none
      rw [(hr t ht).1]; rfl)
    (fun t ht => by
      obtain ⟨_, pa, loc, ink, e⟩ := hr t ht
      show (match is.xlate s .read (globalEa f is t) with | .bad cls code => _ | _ => _) = none
      rw [e])
    (fun t ht k hk e => by
      obtain ⟨_, pa, loc, ink, e'⟩ := hr t ht
      obtain rfl : k = (.read, globalEa f is t) := by simpa [globalMeaning] using hk
      rw [show s.xlateCore is.cur.core is.team.ctx (is.walkFaults s) .read (globalEa f is t) = is.xlate s .read (globalEa f is t) from rfl, e'] at e
      cases e)
  rw [hm] at hs
  obtain ⟨r1, r2⟩ := runWord_raised _ (fun _ => q) (Thread.onlyFlag (some n)) (fun t _ => ⟨Thread.onlyFlag_data _ t, t.flagged_only _⟩) ⟨_, _, hi⟩
    ⟨w, hw, hra⟩ hs
  refine ⟨u, h1, r1, fun t0 ht0 => ?_⟩
  rw [hact] at ht0
  obtain rfl : t = t0 := by simpa using ht0
  obtain ⟨o, ho, ⟨⟨a1, a2, a3⟩, b1, b2, b3, b4, b5, b6, b7, b8, b9⟩, b, hb⟩ := r2 t hmem
  refine ⟨o, ho, a1, a2, a3, b1, b2, b3, b4, b5, b6, b7, b8, b9, ?_⟩
  subst hb
  exact ⟨rfl, rfl, rfl, by rw [hact]; rfl⟩

/-- An atomic of each executing thread goes to the line queue (R170). -/
theorem atom_of {s : State} {is : Issue} {f : RWord} (hc : s.Calm is.cur.core) (i : Instr) (k : Nat) (e : exec i s = runWord i (atomicMeaning f k false) s) (h : s.Runs i is)
    (hr : ∀ t ∈ is.act, s.Reaches is (.atomic (atomicCarried f.md.toNat)) (is.pair t f.a) (4 * k) 0) :
      ∃ u, exec i s = .next u ∧ s.OnlyOps u is (Thread.onlyFlag (some (flagOf is.hdr f.fs))) ∧ ∀ t ∈ is.act,
        s.Access u is t (.atomic f.md.toNat) (.atomic (atomicCarried f.md.toNat)) (is.pair t f.a) (4 * k) 0 f.x fun o => o.data = bytesOfWords (is.src t f.b k)
          ∧ o.data2 = bytesOfWords (is.src t f.c k) ∧ o.dest = destsOf is.team t f.d k ∧ o.flag = some (flagOf is.hdr f.fs) := by
  rw [e]
  obtain ⟨u, h1, h2, h3⟩ := runWord_global h hc (4 * k) 0 (.atomic (atomicCarried f.md.toNat)) (fun is t => is.pair t f.a) (atomicRun f k false) (some (flagOf is.hdr f.fs)) (.atomic f.md.toNat) f.x
      (atomicFill f k false is)
      (.inr (.inr (.inl ⟨_, rfl⟩))) (fun _ _ => ⟨rfl, rfl, rfl, rfl, rfl, rfl, rfl, rfl, rfl, rfl, rfl, rfl, rfl, rfl, rfl⟩) hr rfl
  exact ⟨u, h1, h2, fun t ht => acc_weaken (h3 t ht) fun o _ ⟨b, hb1, hb2, hb⟩ => by subst hb; exact ⟨rfl, rfl, rfl, rfl⟩⟩

/-- A reduction of each executing thread goes to the line queue (R170). -/
theorem red_of {s : State} {is : Issue} {f : RWord} (hc : s.Calm is.cur.core) (i : Instr) (k : Nat) (e : exec i s = runWord i (atomicMeaning f k true) s) (h : s.Runs i is)
    (hr : ∀ t ∈ is.act, s.Reaches is (.atomic (atomicCarried f.md.toNat)) (is.pair t f.a) (4 * k) 0) :
      ∃ u, exec i s = .next u ∧ s.OnlyOps u is (Thread.onlyFlag none) ∧ ∀ t ∈ is.act,
        s.Access u is t (.reduction f.md.toNat) (.atomic (atomicCarried f.md.toNat)) (is.pair t f.a) (4 * k) 0 f.x fun o => o.data = bytesOfWords (is.src t f.b k)
          ∧ o.dest = [] ∧ o.flag = none := by
  rw [e]
  obtain ⟨u, h1, h2, h3⟩ := runWord_global h hc (4 * k) 0 (.atomic (atomicCarried f.md.toNat)) (fun is t => is.pair t f.a) (atomicRun f k true) none (.reduction f.md.toNat) f.x
      (atomicFill f k true is)
      (.inr (.inr (.inr ⟨_, rfl⟩))) (fun _ _ => ⟨rfl, rfl, rfl, rfl, rfl, rfl, rfl, rfl, rfl, rfl, rfl, rfl, rfl, rfl, rfl⟩) hr rfl
  exact ⟨u, h1, h2, fun t ht => acc_weaken (h3 t ht) fun o _ ⟨b, hb1, hb2, hb⟩ => by subst hb; exact ⟨rfl, hb2, hb1⟩⟩

end Sys2Proof.Machine
end

