-- ==== Sys2Proof/Laws/Unit.lean ====
section
/-! SUPPORT. Words that change their threads, one core and their team, and nothing else: the change is put together from its parts. -/

namespace Sys2Proof.Machine

/-- What has changed so far: each executing thread is `g` of itself, core `c` is `k`, and the team is `tm`. -/
structure State.Unit (s v : State) (is : Issue) (c : Nat) (k : Core) (tm : Team) (g : Thread → Thread) : Prop where
  rest : { v with threads := s.threads, teams := s.teams, cores := s.cores, parts := s.parts, fresh := s.fresh, nextId := s.nextId } = s
  thr : ∀ t ∈ is.act, v.thread? is.cur.core is.cur.part t.slot = some (g t)
  other : ∀ a b l, (a, b) ≠ (is.cur.core, is.cur.part) ∨ l ∉ is.act.map (·.slot) → v.thread? a b l = s.thread? a b l
  cores : ∀ d, d ≠ c → v.core d = s.core d
  core : v.core c = k
  teams : ∀ d l, (d, l) ≠ (is.cur.core, is.team.slot) → v.team? d l = s.team? d l
  team : v.team? is.cur.core is.team.slot = some tm
  parts : ∀ a b, (a, b) ≠ (is.cur.core, is.cur.part) → v.part a b = s.part a b

/-- Nothing has changed where the effect of a word starts. -/
theorem State.Unit.start {s w : State} {is : Issue} {g0 g1 : Guard} (hi : s.issue g0 g1 = some is) (hw : s.Start w is) (c : Nat) :
    State.Unit s w is c (s.core c) is.team id := by
  have ht : w.threads = s.threads := by have := congrArg State.threads hw.1; exact this
  have hc : w.cores = s.cores := by have := congrArg State.cores hw.1; exact this
  have hm : w.teams = s.teams := by have := congrArg State.teams hw.1; exact this
  have th (a b l : Nat) : w.thread? a b l = s.thread? a b l := by unfold State.thread?; rw [ht]
  have co (d : Nat) : w.core d = s.core d := by unfold State.core; rw [hc]
  have tm (a b : Nat) : w.team? a b = s.team? a b := by unfold State.team?; rw [hm]
  refine ⟨?_, fun t h => ?_, fun a b l _ => th a b l, fun d _ => co d, co c, fun d l _ => tm d l, ?_, hw.2⟩
  · have := congrArg (fun y : State => { y with threads := s.threads, teams := s.teams, cores := s.cores, parts := s.parts, fresh := s.fresh, nextId := s.nextId }) hw.1
    exact this
  · rw [th]; exact (State.issue_all hi (State.issue_act hi h)).1
  · rw [tm]; exact State.issue_team hi

theorem State.Unit.onCore {s v : State} {is : Issue} {c : Nat} {k : Core} {tm : Team} {g : Thread → Thread}
    (h : State.Unit s v is c k tm g) (f : Core → Core) (hf : ∀ c, (f c).idx = c.idx) : State.Unit s (v.onCore c f) is c (f k) tm g :=
  ⟨h.rest, h.thr, h.other, fun d hd => by rw [v.core_onCore c d f hf, if_neg hd]; exact h.cores d hd,
    by rw [v.core_onCore c c f hf, if_pos rfl, h.core], h.teams, h.team, h.parts⟩

theorem State.Unit.onTeam {s v : State} {is : Issue} {c : Nat} {k : Core} {tm : Team} {g : Thread → Thread}
    (h : State.Unit s v is c k tm g) (f : Team → Team) (hf : ∀ t, (f t).core = t.core ∧ (f t).slot = t.slot) :
    State.Unit s (v.onTeam is.cur.core is.team.slot f) is c k (f tm) g := by
  have e : ∃ x, v.onTeam is.cur.core is.team.slot f = { v with teams := x } := by
    rcases v.onTeam_cases is.cur.core is.team.slot f with h | ⟨x, h⟩
    · exact ⟨v.teams, by rw [h]⟩
    · exact ⟨x, h⟩
  have ht (a b : Nat) := v.team?_onTeam is.cur.core is.team.slot a b f hf
  obtain ⟨x, hx⟩ := e
  generalize v.onTeam is.cur.core is.team.slot f = w at *
  subst hx
  refine ⟨h.rest, h.thr, h.other, h.cores, h.core, fun d l hd => ?_, ?_, h.parts⟩
  · rw [ht, if_neg hd]; exact h.teams d l hd
  · rw [ht, if_pos rfl, h.team]; rfl

theorem State.Unit.names {s v : State} {is : Issue} {c : Nat} {k : Core} {tm : Team} {g : Thread → Thread}
    (h : State.Unit s v is c k tm g) (n : Nat) (f : List (Nat × Nat)) : State.Unit s { v with nextId := n, fresh := f } is c k tm g :=
  ⟨h.rest, h.thr, h.other, h.cores, h.core, h.teams, h.team, h.parts⟩

theorem State.Unit.threads {s v : State} {is : Issue} {c : Nat} {k : Core} {tm : Team} {g : Thread → Thread}
    (h : State.Unit s v is c k tm g) (hn : (is.act.map (·.slot)).Nodup) (f : Thread → Thread → Thread)
    (hf : ∀ t x, (f t x).core = x.core ∧ (f t x).part = x.part ∧ (f t x).slot = x.slot) :
    State.Unit s (is.act.foldl (fun v t => v.onThread is.cur.core is.cur.part t.slot (f t)) v) is c k tm (fun t => f t (g t)) := by
  have key : ∀ (L : List Thread) (u : State), ∃ x, L.foldl (fun (v : State) t => v.onThread is.cur.core is.cur.part t.slot (f t)) u = { u with threads := x } := by
    intro L
    induction L with
    | nil => intro u; exact ⟨u.threads, rfl⟩
    | cons t L ih =>
      intro u
      obtain ⟨x, hx⟩ := ih (u.onThread is.cur.core is.cur.part t.slot (f t))
      refine ⟨x, ?_⟩
      rw [List.foldl_cons, hx]
      rcases u.onThread_cases is.cur.core is.cur.part t.slot (f t) with h | ⟨_, h⟩ <;> rw [h]
  obtain ⟨_, f2, f3, _⟩ := State.foldl_touch is.cur.core is.cur.part (fun v t => v.onThread is.cur.core is.cur.part t.slot (f t)) f is.act hn
    (fun v t _ => v.touch_onThread _ _ _ _ (hf t)) v
  obtain ⟨x, hx⟩ := key is.act v
  generalize is.act.foldl (fun (v : State) t => v.onThread is.cur.core is.cur.part t.slot (f t)) v = w at *
  subst hx
  refine ⟨h.rest, fun t ht => ?_, fun a b l e => (f3 a b l e).trans (h.other a b l e), h.cores, h.core, h.teams, h.team, h.parts⟩
  rw [f2 t ht, h.thr t ht]; rfl

/-- The change seen in the state after the word. -/
theorem State.Unit.only {s v u : State} {is : Issue} {c : Nat} {k : Core} {tm : Team} {g : Thread → Thread}
    (h : State.Unit s v is c k tm g) (hu : State.Sched is.cur.core is.cur.part v u) (P : Thread → Thread → Prop)
    (hP : ∀ t ∈ is.act, Thread.DataProp (P t) ∧ P t (g t)) : s.OnlyUnit u is c k tm P := by
  have uc (d : Nat) : u.core d = v.core d := by
    have h : u.cores = v.cores := by have := congrArg State.cores hu.1; exact this
    unfold State.core; rw [h]
  have ut (a b : Nat) : u.team? a b = v.team? a b := by unfold State.team?; rw [hu.teams]
  refine ⟨?_, fun a b l e => ?_, fun t ht => ?_, fun d hd => (uc d).trans (h.cores d hd), (uc c).trans h.core,
    fun d l e => (ut d l).trans (h.teams d l e), (ut _ _).trans h.team, fun a b e => (hu.2.2 a b e).trans (h.parts a b e)⟩
  · have h1 := congrArg (fun y : State => { y with threads := s.threads, teams := s.teams, cores := s.cores, parts := s.parts, fresh := s.fresh, nextId := s.nextId }) hu.1
    exact Eq.trans h1 h.rest
  · rw [hu.2.1]
    unfold State.dataOf
    rw [h.other a b l e]
  · have hx := hu.2.1 is.cur.core is.cur.part t.slot
    unfold State.dataOf at hx
    rw [h.thr t ht] at hx
    cases hy : u.thread? is.cur.core is.cur.part t.slot with
    | none => rw [hy] at hx; cases hx
    | some y =>
      rw [hy] at hx
      have hd : y.data = (g t).data := by simpa using hx
      exact ⟨y, rfl, (hP t ht).1 _ _ hd.symm (hP t ht).2⟩

/-- A word that changes its threads, a core and its team. -/
theorem runWord_unit {s : State} {i : Instr} {is : Issue} (m : Meaning) (h : s.Runs i is)
    (ht : ∀ t ∈ is.act, m.traps s is t = none) (hp : ∀ t ∈ is.act, m.parks s is t = none)
    (hx : ∀ t ∈ is.act, ∀ n ∈ m.xl s is t, s.xlateCore is.cur.core is.team.ctx (is.walkFaults s) n.1 n.2 ≠ .miss)
    (c : Nat) (k : Core) (tm : Team) (g : Thread → Thread) (P : Thread → Thread → Prop) (hP : ∀ t ∈ is.act, Thread.DataProp (P t) ∧ P t (g t))
    (hm : State.Unit s (m.run (s.aged i is) is is.act) is c k tm g) :
    ∃ u, runWord i m s = .next u ∧ s.OnlyUnit u is c k tm P := by
  obtain ⟨u, hu, hs⟩ := runWord_runs m h ht hp hx
  exact ⟨u, hu, hm.only hs P hP⟩

theorem Thread.same_data (t : Thread) : Thread.DataProp t.same := fun _ _ e h => e.symm.trans h

/-- A word that changes the module to `v`, whose threads and partitions are those before, and then each executing thread by `g`. -/
theorem runWord_over {s v : State} {i : Instr} {is : Issue} (F : State → Thread → State) (g : Thread → Thread → Thread)
    (P : Thread → Thread → Prop) (h : s.Runs i is) (hP : ∀ t ∈ is.act, Thread.DataProp (P t) ∧ P t (g t t))
    (hF : ∀ u, ∀ t ∈ is.act, State.Touch is.cur.core is.cur.part t.slot (g t) u (F u t)) (m : Meaning)
    (ht : ∀ t ∈ is.act, m.traps s is t = none) (hp : ∀ t ∈ is.act, m.parks s is t = none)
    (hx : ∀ t ∈ is.act, ∀ n ∈ m.xl s is t, s.xlateCore is.cur.core is.team.ctx (is.walkFaults s) n.1 n.2 ≠ .miss)
    (hv : v.threads = s.threads) (hm : m.run (s.aged i is) is is.act = is.act.foldl F v) :
    ∃ u, runWord i m s = .next u ∧ { u with threads := v.threads, parts := v.parts } = v
      ∧ (∀ c p sl, (c, p) ≠ (is.cur.core, is.cur.part) ∨ sl ∉ is.act.map (·.slot) → u.dataOf c p sl = s.dataOf c p sl)
      ∧ (∀ t ∈ is.act, ∃ x, u.thread? is.cur.core is.cur.part t.slot = some x ∧ P t x)
      ∧ ∀ a b, (a, b) ≠ (is.cur.core, is.cur.part) → u.part a b = v.part a b := by
  obtain ⟨u, h1, hu⟩ := runWord_runs m h ht hp hx
  obtain ⟨⟨op, f, _, hi⟩, _⟩ := h
  have name (t : Thread) (ht : t ∈ is.act) := State.issue_all hi (State.issue_act hi ht)
  have th (a b k : Nat) : v.thread? a b k = s.thread? a b k := by unfold State.thread?; rw [hv]
  obtain ⟨f1, f2, f3, f4⟩ := State.foldl_touch is.cur.core is.cur.part F g is.act (State.issue_nodup hi) hF v
  rw [← hm] at f1 f2 f3 f4
  refine ⟨u, h1, ?_, fun a b k e => ?_, fun t ht => ?_, fun a b e => (hu.2.2 a b e).trans (f4 a b e)⟩
  · have h1 := congrArg (fun y : State => { y with threads := v.threads, parts := v.parts }) hu.1
    exact Eq.trans h1 f1
  · rw [hu.2.1]
    unfold State.dataOf
    rw [f3 a b k e, th]
  · have hx := hu.2.1 is.cur.core is.cur.part t.slot
    unfold State.dataOf at hx
    rw [f2 t ht, th, (name t ht).1] at hx
    cases hy : u.thread? is.cur.core is.cur.part t.slot with
    | none => rw [hy] at hx; cases hx
    | some y =>
      rw [hy] at hx
      have hd : y.data = (g t t).data := by simpa using hx
      exact ⟨y, rfl, (hP t ht).1 _ _ hd.symm (hP t ht).2⟩

/-- Nothing has changed where the effect of a word starts. -/
theorem State.Unit.aged {s : State} {is : Issue} {g0 g1 : Guard} (hi : s.issue g0 g1 = some is) (i : Instr) (c : Nat) :
    State.Unit s (s.aged i is) is c (s.core c) is.team id := .start hi (s.start_aged i is s.nextId s.fresh) c

end Sys2Proof.Machine
end

