-- ==== Sys2Proof/Laws/InFlight.lean ====
section
/-! SUPPORT. Words that put one operation of each executing thread in flight with its flag set: results, function applies, `rand` (R34, R139, R159, R179). -/

namespace Sys2Proof.Machine

/-- Less of an operation in flight. -/
theorem inFlight_of {u : State} {is : Issue} {t : Thread} {p q : Op → Prop}
    (h : ∃ o ∈ (u.core is.cur.core).ops, (o.of is.cur.part t.slot = true ∧ o.ctx = is.team.ctx ∧ o.team = is.team.slot) ∧ p o)
    (hpq : ∀ o, p o → q o) : u.InFlight is t q := by
  obtain ⟨o, ho, ⟨a1, a2, a3⟩, hp⟩ := h
  exact ⟨o, ho, a1, a2, a3, hpq o hp⟩

/-- One operation with its flag. -/
theorem newOp_flagged (is : Issue) (word n : Nat) (t : Thread) (kind : OpKind) (stage : Stage) (f : Op → Op) (p : Op → Prop)
    (hf : ∀ o : Op, (f o).of = o.of ∧ (f o).ctx = o.ctx ∧ (f o).team = o.team)
    (hp : ∀ id clock, p (f (Op.blank id word is.cur.part t.slot is.team.slot is.team.ctx kind stage is.cur.pc clock))) (v : State) :
    State.Raised v ((v.raiseFlag is t n).newOp is word t kind stage f) is [t] (fun _ x => x.flagged (some n))
      fun y o => (o.of is.cur.part y.slot = true ∧ o.ctx = is.team.ctx ∧ o.team = is.team.slot) ∧ p o := by
  have h := State.Raised.before (fun x => x.setFlag n) (fun _ => ⟨rfl, rfl, rfl⟩) ((v.raiseFlag is t n).raised_newOp is word t kind stage f)
  refine h.weaken fun y hy o ho => ?_
  obtain rfl : y = t := by simpa using hy
  subst ho
  obtain ⟨h1, h2, h3⟩ := hf (Op.blank (v.raiseFlag is y n).nextId word is.cur.part y.slot is.team.slot is.team.ctx kind stage is.cur.pc (v.raiseFlag is y n).clock)
  exact ⟨⟨by rw [h1]; simp [Op.of, Op.blank], h2, h3⟩, hp _ _⟩

/-- A word that puts an operation of each executing thread in flight, its flag set. -/
theorem newOps_of {s : State} {i : Instr} {is : Issue} (m : Meaning) (h : s.Runs i is)
    (ht : ∀ t ∈ is.act, m.traps s is t = none) (hp : ∀ t ∈ is.act, m.parks s is t = none)
    (hx : ∀ t ∈ is.act, ∀ n ∈ m.xl s is t, s.xlateCore is.cur.core is.team.ctx (is.walkFaults s) n.1 n.2 ≠ .miss)
    (n word : Nat) (w : State) (hw : s.Start w is) (kind : Thread → OpKind) (stage : Thread → Stage) (f : Thread → Op → Op) (p : Thread → Op → Prop)
    (hf : ∀ (t : Thread) (o : Op), (f t o).of = o.of ∧ (f t o).ctx = o.ctx ∧ (f t o).team = o.team)
    (hq : ∀ t ∈ is.act, ∀ id clock, p t (f t (Op.blank id word is.cur.part t.slot is.team.slot is.team.ctx (kind t) (stage t) is.cur.pc clock)))
    (hm : m.run (s.aged i is) is is.act = is.act.foldl (fun v t => (v.raiseFlag is t n).newOp is word t (kind t) (stage t) (f t)) w) :
    ∃ u, runWord i m s = .next u ∧ s.OnlyOps u is (Thread.onlyFlag (some n)) ∧ ∀ t ∈ is.act, u.InFlight is t (p t) := by
  obtain ⟨u, h1, h2, h3⟩ := runWord_ops m h ht hp hx (some n) w hw (fun v t => (v.raiseFlag is t n).newOp is word t (kind t) (stage t) (f t))
    (fun t o => (o.of is.cur.part t.slot = true ∧ o.ctx = is.team.ctx ∧ o.team = is.team.slot) ∧ p t o)
    (fun v t ht => (newOp_flagged is word n t (kind t) (stage t) (f t) (p t) (hf t) (hq t ht) v).weaken fun y hy o ho => by
      obtain rfl : y = t := by simpa using hy
      exact ho) hm
  exact ⟨u, h1, h2, fun t ht => inFlight_of (h3 t ht) fun _ h => h⟩

/-- A destination that must be a `v` register is no scalar (R116). -/
theorem fit_dstV {n : Nat} {d : BitVec 8} (h : (Opd.dstV n).fits d = true) : isS d = false := by
  have h : d.toNat < 0x80 := by simpa [Opd.fits, isV] using h
  simp only [isS]
  have : ¬ (0x80 ≤ d.toNat) := by omega
  simp [this]

/-- A flagged result of each executing thread. -/
theorem flagOnes_raised (is : Issue) (flag word : Nat) (d : BitVec 8) (n : Nat) (val : Thread → List Word) (hn : (is.act.map (·.slot)).Nodup) (w : State) :
    State.Raised w (is.act.foldl (fun v t => flagOne is flag word d n [] v t (regs (val t))) w) is is.act (fun _ x => x.flagged (some flag))
      (flagOp is flag (fun t => destsOf is.team t d n) val noPreds) :=
  State.foldl_raised is (fun v t => flagOne is flag word d n [] v t (regs (val t))) (fun _ x => x.flagged (some flag))
      (flagOp is flag (fun t => destsOf is.team t d n) val noPreds) is.act hn (fun _ => True) (fun _ _ _ _ => trivial)
      (fun v _ t ht => (flagOne_raised is flag word d n [] v t (regs (val t))).weaken fun x hx o ho => by
        obtain rfl : x = t := by simpa using hx
        exact ho) w trivial

/-- `rand` draws the value of each executing thread from its counter, which advances (R159). -/
theorem rand_of {s : State} {is : Issue} {f : RWord} (h : s.Runs (.rand f) is) :
    ∃ u, exec (.rand f) s = .next u
      ∧ s.OnlyOps u is (fun t x => Thread.onlyFlag (some (flagOf is.hdr f.fs)) t { x with rand := t.rand } ∧ x.rand = t.rand + 1)
      ∧ u.Flagged is (flagOf is.hdr f.fs) (fun t => destsOf is.team t f.d (typeRegs f.md.toNat)) (fun t => randOut f.md.toNat
        (squash (s.ctx is.team.ctx).seed (BitVec.ofNat 64 (s.launchOf is.team)) (BitVec.ofNat 64 t.gindex) t.rand)) noPreds := by
  let n := typeRegs f.md.toNat
  let flag := flagOf is.hdr f.fs
  have hd : isS f.d = false := by
    have := (wellFormed_accepts h.word rfl rfl).2.2
    simp only [Fields.fit, Bool.and_eq_true] at this
    exact fit_dstV this.1.1.1
  obtain ⟨g0, g1, hi⟩ := h.issued
  have hn := State.issue_nodup hi
  obtain ⟨u, h1, hs⟩ := runWord_plain (h := h) (run := fun s is go =>
    let out := flagRun f.fs f.d n (fun s is t =>
      regs (randOut f.md.toNat (squash (s.ctx is.team.ctx).seed (BitVec.ofNat 64 (s.launchOf is.team)) (BitVec.ofNat 64 t.gindex) t.rand))) s is go
    go.foldl (fun s t => s.onThread is.cur.core is.cur.part t.slot fun x => { x with rand := x.rand + 1 }) out)
  let val : Thread → List Word := fun t => randOut f.md.toNat (squash (s.ctx is.team.ctx).seed (BitVec.ofNat 64 (s.launchOf is.team)) (BitVec.ofNat 64 t.gindex) t.rand)
  let w : State := { s.aged (.rand f) is with nextId := s.nextId + 1 }
  have hw : s.Start w is := s.start_aged (.rand f) is (s.nextId + 1) s.fresh
  have hr := flagOnes_raised is flag s.nextId f.d n val hn w
  have hr := hr.touched hn (fun _ x => { x with rand := x.rand + 1 }) fun _ _ => ⟨rfl, rfl, rfl⟩
  have e : flagRun f.fs f.d n (fun s is t =>
      regs (randOut f.md.toNat (squash (s.ctx is.team.ctx).seed (BitVec.ofNat 64 (s.launchOf is.team)) (BitVec.ofNat 64 t.gindex) t.rand))) (s.aged (.rand f) is) is is.act
      = is.act.foldl (fun v t => flagOne is flag s.nextId f.d n [] v t (regs (val t))) w := by
    unfold flagRun
    dsimp only
    rw [if_neg (by rw [hd]; exact Bool.false_ne_true), List.foldl_map]
    rfl
  dsimp only at hs
  rw [e] at hs
  have hP : ∀ t ∈ is.act, Thread.DataProp (fun x => Thread.onlyFlag (some flag) t { x with rand := t.rand } ∧ x.rand = t.rand + 1)
      ∧ (Thread.onlyFlag (some flag) t { t.flagged (some flag) with rand := t.rand } ∧ (t.flagged (some flag)).rand + 1 = t.rand + 1) := by
    intro t _
    refine ⟨fun x y he hp => ⟨?_, ?_⟩, t.flagged_only _, rfl⟩
    · exact Thread.onlyFlag_data _ t { x with rand := t.rand } _ (congrArg (fun z : Thread => { z with rand := t.rand }) he) hp.1
    · have := congrArg Thread.rand he
      exact this.symm.trans hp.2
  obtain ⟨r1, r2⟩ := runWord_raised _ _ (fun t x => Thread.onlyFlag (some flag) t { x with rand := t.rand } ∧ x.rand = t.rand + 1)
    hP ⟨_, _, hi⟩ ⟨w, hw, hr⟩ hs
  refine ⟨u, h1, r1, fun t ht => ?_⟩
  obtain ⟨o, ho, ⟨a1, a2, a3⟩, a4⟩ := r2 t ht
  exact ⟨o, ho, a1, a2, a3, a4⟩

/-- A change of the issuing partition alone. -/
theorem start_part {s : State} (i : Instr) (is : Issue) (g : Part → Part) (hg : ∀ q, (g q).core = q.core ∧ (g q).idx = q.idx) (n : Nat) :
    s.Start { (s.aged i is).onPart is.cur.core is.cur.part g with nextId := n } is := by
  have ha := s.start_aged i is n s.fresh
  refine ⟨ha.1, fun a b e => ?_⟩
  have h1 := (s.aged i is).part_onPart is.cur.core is.cur.part a b g hg
  rw [if_neg e] at h1
  exact h1.trans (ha.2 a b e)

/-- An apply of a valid function delivers its outputs and pins its generations (R179, R183, R186). -/
theorem app_of {s : State} {i : Instr} {is : Issue} {f : RWord} (n dbl : Nat) (out : Nat × Nat → List Nat) (e : exec i s = runWord i (fnMeaning f n dbl out) s)
    (h : s.Runs i is) (hv : fnInvalid s is (fnReg f.x) = none) :
    ∃ u, exec i s = .next u ∧ s.OnlyOps u is (Thread.onlyFlag (some (flagOf is.hdr f.fs))) ∧ ∀ t ∈ is.act,
        u.InFlight is t fun o => o.kind = .result ∧ o.stage = .done ∧ o.flag = some (flagOf is.hdr f.fs) ∧ o.dest = destsOf is.team t f.d n
          ∧ o.vals = (out (fnApply (fnPins s is (fnReg f.x)).2.1 (fnPins s is (fnReg f.x)).2.2
              (if f.md.toNat = 8 then is.flt t f.md.toNat f.a else f32.rne ((floatOf f.md.toNat).read (is.flt t f.md.toNat f.a))))).map
                (fun y => BitVec.ofNat 32 (fnFinal f.md.toNat y))
          ∧ o.preds = [] ∧ o.pins = (fnPins s is (fnReg f.x)).1 := by
  rw [e]
  refine newOps_of _ h (fun t _ => by show (fnInvalid s is (fnReg f.x)).map _ = none; rw [hv]; rfl) (fun _ _ => rfl) (fun _ _ _ h => by cases h) (flagOf is.hdr f.fs) s.nextId _
    (start_part i is (fun q => { q with funBusy := s.clock + dbl * (if (fnPins s is (fnReg f.x)).2.2.isSome then 2 else 1) * (is.team.packW / 8) }) (fun _ => ⟨rfl, rfl⟩) (s.nextId + 1))
    (fun _ => .result) (fun _ => .done) (fun t o => { o with dest := destsOf is.team t f.d n, vals := _, preds := [], flag := some (flagOf is.hdr f.fs), pins := (fnPins s is (fnReg f.x)).1 })
    _ (fun _ _ => ⟨rfl, rfl, rfl⟩) (fun t _ _ _ => ⟨rfl, rfl, rfl, rfl, rfl, rfl, rfl⟩) rfl

end Sys2Proof.Machine
end

