-- ==== Sys2Proof/Laws/Memory.lean ====
section
/-! SUPPORT. Device memory: reading back what was written, and the canonical form, which every memory operation keeps. -/

namespace Sys2Proof.Machine

/-- A list canonical from a bound is canonical from a lower one. -/
theorem memWfFrom_mono {m : List Host.Cell} {lo lo' : Nat} (h : lo' ≤ lo) (w : memWfFrom lo m = true) : memWfFrom lo' m = true := by
  cases m with
  | nil => rfl
  | cons c rest =>
    obtain ⟨k, v⟩ := c
    simp only [memWfFrom, Bool.and_eq_true, decide_eq_true_eq] at w ⊢
    exact ⟨⟨Nat.le_trans h w.1.1, w.1.2⟩, w.2⟩

/-- Setting a byte keeps the canonical form from any bound not above its address. -/
theorem memSet_wfFrom (m : List Host.Cell) (lo a : Nat) (b : Byte) (h : lo ≤ a) (w : memWfFrom lo m = true) :
    memWfFrom lo (memSet m a b) = true := by
  induction m generalizing lo with
  | nil => unfold memSet; split <;> simp_all [memWfFrom]
  | cons c rest ih =>
    obtain ⟨k, v⟩ := c
    simp only [memWfFrom, Bool.and_eq_true, decide_eq_true_eq] at w
    obtain ⟨⟨hk, hv⟩, hr⟩ := w
    unfold memSet
    split
    · subst_vars
      split
      · exact memWfFrom_mono (by omega) hr
      · simp_all [memWfFrom]
    · split
      · split
        · simp_all [memWfFrom]
        · have : a + 1 ≤ k := by omega
          simp_all [memWfFrom]
      · have := ih (k + 1) (by omega) hr
        simp_all [memWfFrom]

/-- Setting a byte keeps the canonical form. -/
theorem memSet_wf {m : List Host.Cell} (a : Nat) (b : Byte) (w : Memory.wf m = true) : Memory.wf (memSet m a b) = true :=
  memSet_wfFrom m 0 a b (Nat.zero_le _) w

/-- Writing bytes keeps the canonical form. -/
theorem memPut_wf {m : List Host.Cell} (a : Nat) (bs : List Byte) (w : Memory.wf m = true) : Memory.wf (memPut m a bs) = true := by
  induction bs generalizing m a with
  | nil => exact w
  | cons b bs ih => exact ih (a + 1) (memSet_wf a b w)

/-- A byte below the first listed address reads as an unlisted one. -/
theorem memGet_below {m : List Host.Cell} {lo a : Nat} (h : a < lo) (w : memWfFrom lo m = true) : memGet m a = unlisted := by
  cases m with
  | nil => rfl
  | cons c rest =>
    obtain ⟨k, v⟩ := c
    simp only [memWfFrom, Bool.and_eq_true, decide_eq_true_eq] at w
    have h1 : a ≠ k := by omega
    have h2 : a < k := by omega
    simp [memGet, h1, h2]

/-- A byte set reads back, and every other byte reads as before. -/
theorem memGet_memSet {m : List Host.Cell} {lo : Nat} (w : memWfFrom lo m = true) (a x : Nat) (b : Byte) :
    memGet (memSet m a b) x = if x = a then b else memGet m x := by
  induction m generalizing lo with
  | nil =>
    unfold memSet
    by_cases hx : x = a
    · split <;> simp_all [memGet]
    · split <;> simp_all [memGet]
  | cons c rest ih =>
    obtain ⟨k, v⟩ := c
    simp only [memWfFrom, Bool.and_eq_true, decide_eq_true_eq] at w
    obtain ⟨⟨_, hv⟩, hr⟩ := w
    unfold memSet
    split
    · rename_i hak
      subst hak
      split
      · rename_i hb
        subst hb
        by_cases hx : x = a
        · subst hx; simp [memGet_below (Nat.lt_succ_self x) hr]
        · by_cases hl : x < a
          · simp [memGet, hx, hl, memGet_below (show x < a + 1 by omega) hr]
          · simp [memGet, hx, hl]
      · by_cases hx : x = a <;> simp [memGet, hx]
    · rename_i hne
      split
      · rename_i hlt
        split
        · rename_i hb
          subst hb
          by_cases hx : x = a
          · subst hx; simp [memGet, hne, hlt]
          · simp [hx]
        · by_cases hx : x = a
          · simp [memGet, hx]
          · by_cases hl : x < a
            · have h1 : x ≠ k := by omega
              have h2 : x < k := by omega
              simp [memGet, hx, hl, h1, h2]
            · simp [memGet, hx, hl]
      · by_cases hx : x = a
        · subst hx
          have hgt : ¬ x < k := by assumption
          simp [memGet, hne, hgt, ih hr]
        · by_cases h1 : x = k
          · simp [memGet, h1]; intro h2; omega
          · by_cases h2 : x < k
            · simp [memGet, h1, h2]; intro h; omega
            · simp [memGet, h1, h2, ih hr]

/-- Bytes written read back in order, and every byte outside them reads as before. -/
theorem memGet_memPut {m : List Host.Cell} (w : Memory.wf m = true) (a x : Nat) (bs : List Byte) :
    memGet (memPut m a bs) x = if a ≤ x ∧ x < a + bs.length then bs.getD (x - a) 0 else memGet m x := by
  induction bs generalizing m a with
  | nil => exact (if_neg (fun h => absurd h.2 (by simpa using h.1))).symm
  | cons b bs ih =>
    simp only [memPut, List.length_cons]
    rw [ih (memSet_wf a b w), memGet_memSet w]
    by_cases h1 : a + 1 ≤ x ∧ x < a + 1 + bs.length
    · have h2 : a ≤ x ∧ x < a + (bs.length + 1) := by omega
      have h3 : x - a = (x - (a + 1)) + 1 := by omega
      simp [h1, h2, h3]
    · by_cases hx : x = a
      · subst hx; simp [show ¬ (x + 1 ≤ x) by omega]
      · have h2 : ¬ (a ≤ x ∧ x < a + (bs.length + 1)) := by omega
        rw [if_neg h1, if_neg h2, if_neg hx]

/-- A filter keeps the canonical form. -/
theorem memFilter_wfFrom (p : Host.Cell → Bool) (m : List Host.Cell) (lo : Nat) (w : memWfFrom lo m = true) :
    memWfFrom lo (m.filter p) = true := by
  induction m generalizing lo with
  | nil => rfl
  | cons c rest ih =>
    obtain ⟨k, v⟩ := c
    simp only [memWfFrom, Bool.and_eq_true, decide_eq_true_eq] at w
    have := ih (k + 1) w.2
    simp only [List.filter_cons]
    split
    · simp_all [memWfFrom]
    · exact memWfFrom_mono (by omega) this

/-- A store keeps the canonical form. -/
theorem State.store_wf {s : State} (pa : Nat) (bs : List Byte) (w : Memory.wf s.mem = true) : Memory.wf (s.store pa bs).mem = true :=
  memPut_wf pa bs w

/-- A store of one slice operation changes memory as a store does. -/
@[simp] theorem State.storeLine_mem (s : State) (pa : Nat) (bs : List Byte) : (s.storeLine pa bs).mem = memPut s.mem pa bs := by
  unfold State.storeLine State.clearPoison
  split <;> rfl

/-- A store of one slice operation keeps the canonical form. -/
theorem State.storeLine_wf {s : State} (pa : Nat) (bs : List Byte) (w : Memory.wf s.mem = true) :
    Memory.wf (s.storeLine pa bs).mem = true := by
  rw [State.storeLine_mem]; exact memPut_wf pa bs w

/-- A column store keeps the canonical form. -/
theorem State.storeColumn_wf {s : State} (pa e : Nat) (bs : List Byte) (w : Memory.wf s.mem = true) :
    Memory.wf (s.storeColumn pa e bs).mem = true := by
  have (l : List (Nat × Byte)) : ∀ m : List Host.Cell, Memory.wf m = true → Memory.wf (l.foldl (fun m p => memSet m p.1 p.2) m) = true := by
    induction l with
    | nil => exact fun _ h => h
    | cons p l ih => exact fun m h => ih _ (memSet_wf p.1 p.2 h)
  exact this _ _ w

/-- Zeroing a range keeps the canonical form. -/
theorem State.zeroRange_wf {s : State} (pa n : Nat) (w : Memory.wf s.mem = true) : Memory.wf (s.zeroRange pa n).mem = true :=
  memFilter_wfFrom _ _ _ w

/-- A byte stored by a store reads back, and every byte outside it reads as before. -/
theorem State.byte_store {s : State} (pa x : Nat) (bs : List Byte) (w : Memory.wf s.mem = true) :
    (s.store pa bs).byte x = if pa ≤ x ∧ x < pa + bs.length then bs.getD (x - pa) 0 else s.byte x :=
  memGet_memPut w pa x bs

/-- Memory after reset is canonical. -/
theorem reset_mem_wf : Memory.wf State.reset.mem = true := rfl

end Sys2Proof.Machine
end

