-- ==== Sys2Proof/Laws/PerInstr.lean ====
section
/-! SUPPORT. Statements made per instruction: the word of a well-formed instruction names its opcode, and the layout that the opcode names reads its fields back (R114, R115, R120). -/

namespace Sys2Proof

/-- The word of a well-formed instruction is read as that instruction before the checks of R110 and R116 (R120). -/
def Laws.RawDecode.Statement (i : Instr) : Prop := i.fields.isSome = true → i.wellFormed = true → rawDecode (encode i) = some i

theorem Laws.RawDecode.nop (f : RWord) : Statement (.nop f) := by
  intro _ _
  unfold rawDecode
  rw [show opOf (encode (.nop f)) = 0#10 from opOf_putFields _ _]
  exact congrArg (Option.map Instr.nop) (getR_putR 0 f)

theorem Laws.RawDecode.bra (f : BWord) : Statement (.bra f) := by
  intro _ _
  unfold rawDecode
  rw [show opOf (encode (.bra f)) = 1#10 from opOf_putFields _ _]
  exact congrArg (Option.map Instr.bra) (getB_putB 1 f)

theorem Laws.RawDecode.jmp (f : RWord) : Statement (.jmp f) := by
  intro _ _
  unfold rawDecode
  rw [show opOf (encode (.jmp f)) = 2#10 from opOf_putFields _ _]
  exact congrArg (Option.map Instr.jmp) (getR_putR 2 f)

theorem Laws.RawDecode.call (f : BWord) : Statement (.call f) := by
  intro _ _
  unfold rawDecode
  rw [show opOf (encode (.call f)) = 3#10 from opOf_putFields _ _]
  exact congrArg (Option.map Instr.call) (getB_putB 3 f)

theorem Laws.RawDecode.calli (f : RWord) : Statement (.calli f) := by
  intro _ _
  unfold rawDecode
  rw [show opOf (encode (.calli f)) = 4#10 from opOf_putFields _ _]
  exact congrArg (Option.map Instr.calli) (getR_putR 4 f)

theorem Laws.RawDecode.ret (f : RWord) : Statement (.ret f) := by
  intro _ _
  unfold rawDecode
  rw [show opOf (encode (.ret f)) = 5#10 from opOf_putFields _ _]
  exact congrArg (Option.map Instr.ret) (getR_putR 5 f)

theorem Laws.RawDecode.exit (f : RWord) : Statement (.exit f) := by
  intro _ _
  unfold rawDecode
  rw [show opOf (encode (.exit f)) = 6#10 from opOf_putFields _ _]
  exact congrArg (Option.map Instr.exit) (getR_putR 6 f)

theorem Laws.RawDecode.trap (f : IWord) : Statement (.trap f) := by
  intro _ _
  unfold rawDecode
  rw [show opOf (encode (.trap f)) = 7#10 from opOf_putFields _ _]
  exact congrArg (Option.map Instr.trap) (getI_putI 7 f)

theorem Laws.RawDecode.tret (f : RWord) : Statement (.tret f) := by
  intro _ _
  unfold rawDecode
  rw [show opOf (encode (.tret f)) = 8#10 from opOf_putFields _ _]
  exact congrArg (Option.map Instr.tret) (getR_putR 8 f)

theorem Laws.RawDecode.brk (f : IWord) : Statement (.brk f) := by
  intro _ _
  unfold rawDecode
  rw [show opOf (encode (.brk f)) = 9#10 from opOf_putFields _ _]
  exact congrArg (Option.map Instr.brk) (getI_putI 9 f)

theorem Laws.RawDecode.bar (f : IWord) : Statement (.bar f) := by
  intro _ _
  unfold rawDecode
  rw [show opOf (encode (.bar f)) = 10#10 from opOf_putFields _ _]
  exact congrArg (Option.map Instr.bar) (getI_putI 10 f)

theorem Laws.RawDecode.barArr (f : IWord) : Statement (.barArr f) := by
  intro _ _
  unfold rawDecode
  rw [show opOf (encode (.barArr f)) = 11#10 from opOf_putFields _ _]
  exact congrArg (Option.map Instr.barArr) (getI_putI 11 f)

theorem Laws.RawDecode.barWait (f : IWord) : Statement (.barWait f) := by
  intro _ _
  unfold rawDecode
  rw [show opOf (encode (.barWait f)) = 12#10 from opOf_putFields _ _]
  exact congrArg (Option.map Instr.barWait) (getI_putI 12 f)

theorem Laws.RawDecode.launch (f : RWord) : Statement (.launch f) := by
  intro _ _
  unfold rawDecode
  rw [show opOf (encode (.launch f)) = 13#10 from opOf_putFields _ _]
  exact congrArg (Option.map Instr.launch) (getR_putR 13 f)

theorem Laws.RawDecode.lwait (f : RWord) : Statement (.lwait f) := by
  intro _ h
  have m : f.md.toNat = 0 := by
    simp only [Instr.wellFormed, Instr.fields, Instr.wordOk, Instr.entry, Bool.and_eq_true, beq_iff_eq] at h
    exact h.1.1.1
  have e : f.md = 0 := BitVec.eq_of_toNat_eq m
  unfold rawDecode
  rw [show opOf (encode (.lwait f)) = 14#10 from opOf_putFields _ _]
  show (getR (putR 14 f)).map (fun f => if f.md == 0 then Instr.lwait f else .lwaitTest f) = _
  rw [getR_putR]
  simp [e]

theorem Laws.RawDecode.lwaitTest (f : RWord) : Statement (.lwaitTest f) := by
  intro _ h
  have m : f.md.toNat = 1 := by
    simp only [Instr.wellFormed, Instr.fields, Instr.wordOk, Instr.entry, Bool.and_eq_true, beq_iff_eq] at h
    exact h.1.1.1
  have e : f.md = 1 := BitVec.eq_of_toNat_eq m
  unfold rawDecode
  rw [show opOf (encode (.lwaitTest f)) = 14#10 from opOf_putFields _ _]
  show (getR (putR 14 f)).map (fun f => if f.md == 0 then Instr.lwait f else .lwaitTest f) = _
  rw [getR_putR]
  simp [e]

theorem Laws.RawDecode.yield (f : RWord) : Statement (.yield f) := by
  intro _ _
  unfold rawDecode
  rw [show opOf (encode (.yield f)) = 15#10 from opOf_putFields _ _]
  exact congrArg (Option.map Instr.yield) (getR_putR 15 f)

theorem Laws.RawDecode.sreg (f : IWord) : Statement (.sreg f) := by
  intro _ _
  unfold rawDecode
  rw [show opOf (encode (.sreg f)) = 16#10 from opOf_putFields _ _]
  exact congrArg (Option.map Instr.sreg) (getI_putI 16 f)

theorem Laws.RawDecode.add (f : RWord) : Statement (.add f) := by
  intro _ _
  unfold rawDecode
  rw [show opOf (encode (.add f)) = 64#10 from opOf_putFields _ _]
  exact congrArg (Option.map Instr.add) (getR_putR 64 f)

theorem Laws.RawDecode.sub (f : RWord) : Statement (.sub f) := by
  intro _ _
  unfold rawDecode
  rw [show opOf (encode (.sub f)) = 65#10 from opOf_putFields _ _]
  exact congrArg (Option.map Instr.sub) (getR_putR 65 f)

theorem Laws.RawDecode.addc (f : RWord) : Statement (.addc f) := by
  intro _ _
  unfold rawDecode
  rw [show opOf (encode (.addc f)) = 66#10 from opOf_putFields _ _]
  exact congrArg (Option.map Instr.addc) (getR_putR 66 f)

theorem Laws.RawDecode.subb (f : RWord) : Statement (.subb f) := by
  intro _ _
  unfold rawDecode
  rw [show opOf (encode (.subb f)) = 67#10 from opOf_putFields _ _]
  exact congrArg (Option.map Instr.subb) (getR_putR 67 f)

theorem Laws.RawDecode.mul (f : RWord) : Statement (.mul f) := by
  intro _ _
  unfold rawDecode
  rw [show opOf (encode (.mul f)) = 68#10 from opOf_putFields _ _]
  exact congrArg (Option.map Instr.mul) (getR_putR 68 f)

theorem Laws.RawDecode.mulh (f : RWord) : Statement (.mulh f) := by
  intro _ _
  unfold rawDecode
  rw [show opOf (encode (.mulh f)) = 69#10 from opOf_putFields _ _]
  exact congrArg (Option.map Instr.mulh) (getR_putR 69 f)

theorem Laws.RawDecode.mad (f : RWord) : Statement (.mad f) := by
  intro _ _
  unfold rawDecode
  rw [show opOf (encode (.mad f)) = 70#10 from opOf_putFields _ _]
  exact congrArg (Option.map Instr.mad) (getR_putR 70 f)

theorem Laws.RawDecode.madw (f : RWord) : Statement (.madw f) := by
  intro _ _
  unfold rawDecode
  rw [show opOf (encode (.madw f)) = 71#10 from opOf_putFields _ _]
  exact congrArg (Option.map Instr.madw) (getR_putR 71 f)

theorem Laws.RawDecode.div (f : RWord) : Statement (.div f) := by
  intro _ _
  unfold rawDecode
  rw [show opOf (encode (.div f)) = 72#10 from opOf_putFields _ _]
  exact congrArg (Option.map Instr.div) (getR_putR 72 f)

theorem Laws.RawDecode.rem (f : RWord) : Statement (.rem f) := by
  intro _ _
  unfold rawDecode
  rw [show opOf (encode (.rem f)) = 73#10 from opOf_putFields _ _]
  exact congrArg (Option.map Instr.rem) (getR_putR 73 f)

theorem Laws.RawDecode.min (f : RWord) : Statement (.min f) := by
  intro _ _
  unfold rawDecode
  rw [show opOf (encode (.min f)) = 74#10 from opOf_putFields _ _]
  exact congrArg (Option.map Instr.min) (getR_putR 74 f)

theorem Laws.RawDecode.max (f : RWord) : Statement (.max f) := by
  intro _ _
  unfold rawDecode
  rw [show opOf (encode (.max f)) = 75#10 from opOf_putFields _ _]
  exact congrArg (Option.map Instr.max) (getR_putR 75 f)

theorem Laws.RawDecode.abs (f : RWord) : Statement (.abs f) := by
  intro _ _
  unfold rawDecode
  rw [show opOf (encode (.abs f)) = 76#10 from opOf_putFields _ _]
  exact congrArg (Option.map Instr.abs) (getR_putR 76 f)

theorem Laws.RawDecode.cmp (f : RWord) : Statement (.cmp f) := by
  intro _ _
  unfold rawDecode
  rw [show opOf (encode (.cmp f)) = 77#10 from opOf_putFields _ _]
  exact congrArg (Option.map Instr.cmp) (getR_putR 77 f)

theorem Laws.RawDecode.addI (f : IWord) : Statement (.addI f) := by
  intro _ _
  unfold rawDecode
  rw [show opOf (encode (.addI f)) = 96#10 from opOf_putFields _ _]
  exact congrArg (Option.map Instr.addI) (getI_putI 96 f)

theorem Laws.RawDecode.subI (f : IWord) : Statement (.subI f) := by
  intro _ _
  unfold rawDecode
  rw [show opOf (encode (.subI f)) = 97#10 from opOf_putFields _ _]
  exact congrArg (Option.map Instr.subI) (getI_putI 97 f)

theorem Laws.RawDecode.mulI (f : IWord) : Statement (.mulI f) := by
  intro _ _
  unfold rawDecode
  rw [show opOf (encode (.mulI f)) = 100#10 from opOf_putFields _ _]
  exact congrArg (Option.map Instr.mulI) (getI_putI 100 f)

theorem Laws.RawDecode.minI (f : IWord) : Statement (.minI f) := by
  intro _ _
  unfold rawDecode
  rw [show opOf (encode (.minI f)) = 106#10 from opOf_putFields _ _]
  exact congrArg (Option.map Instr.minI) (getI_putI 106 f)

theorem Laws.RawDecode.maxI (f : IWord) : Statement (.maxI f) := by
  intro _ _
  unfold rawDecode
  rw [show opOf (encode (.maxI f)) = 107#10 from opOf_putFields _ _]
  exact congrArg (Option.map Instr.maxI) (getI_putI 107 f)

theorem Laws.RawDecode.cmpI (f : IWord) : Statement (.cmpI f) := by
  intro _ _
  unfold rawDecode
  rw [show opOf (encode (.cmpI f)) = 109#10 from opOf_putFields _ _]
  exact congrArg (Option.map Instr.cmpI) (getI_putI 109 f)

theorem Laws.RawDecode.and (f : RWord) : Statement (.and f) := by
  intro _ _
  unfold rawDecode
  rw [show opOf (encode (.and f)) = 128#10 from opOf_putFields _ _]
  exact congrArg (Option.map Instr.and) (getR_putR 128 f)

theorem Laws.RawDecode.or (f : RWord) : Statement (.or f) := by
  intro _ _
  unfold rawDecode
  rw [show opOf (encode (.or f)) = 129#10 from opOf_putFields _ _]
  exact congrArg (Option.map Instr.or) (getR_putR 129 f)

theorem Laws.RawDecode.xor (f : RWord) : Statement (.xor f) := by
  intro _ _
  unfold rawDecode
  rw [show opOf (encode (.xor f)) = 130#10 from opOf_putFields _ _]
  exact congrArg (Option.map Instr.xor) (getR_putR 130 f)

theorem Laws.RawDecode.andn (f : RWord) : Statement (.andn f) := by
  intro _ _
  unfold rawDecode
  rw [show opOf (encode (.andn f)) = 131#10 from opOf_putFields _ _]
  exact congrArg (Option.map Instr.andn) (getR_putR 131 f)

theorem Laws.RawDecode.not (f : RWord) : Statement (.not f) := by
  intro _ _
  unfold rawDecode
  rw [show opOf (encode (.not f)) = 132#10 from opOf_putFields _ _]
  exact congrArg (Option.map Instr.not) (getR_putR 132 f)

theorem Laws.RawDecode.shl (f : RWord) : Statement (.shl f) := by
  intro _ _
  unfold rawDecode
  rw [show opOf (encode (.shl f)) = 133#10 from opOf_putFields _ _]
  exact congrArg (Option.map Instr.shl) (getR_putR 133 f)

theorem Laws.RawDecode.shr (f : RWord) : Statement (.shr f) := by
  intro _ _
  unfold rawDecode
  rw [show opOf (encode (.shr f)) = 134#10 from opOf_putFields _ _]
  exact congrArg (Option.map Instr.shr) (getR_putR 134 f)

theorem Laws.RawDecode.sar (f : RWord) : Statement (.sar f) := by
  intro _ _
  unfold rawDecode
  rw [show opOf (encode (.sar f)) = 135#10 from opOf_putFields _ _]
  exact congrArg (Option.map Instr.sar) (getR_putR 135 f)

theorem Laws.RawDecode.rot (f : RWord) : Statement (.rot f) := by
  intro _ _
  unfold rawDecode
  rw [show opOf (encode (.rot f)) = 136#10 from opOf_putFields _ _]
  exact congrArg (Option.map Instr.rot) (getR_putR 136 f)

theorem Laws.RawDecode.bfe (f : RWord) : Statement (.bfe f) := by
  intro _ _
  unfold rawDecode
  rw [show opOf (encode (.bfe f)) = 137#10 from opOf_putFields _ _]
  exact congrArg (Option.map Instr.bfe) (getR_putR 137 f)

theorem Laws.RawDecode.bfi (f : RWord) : Statement (.bfi f) := by
  intro _ _
  unfold rawDecode
  rw [show opOf (encode (.bfi f)) = 138#10 from opOf_putFields _ _]
  exact congrArg (Option.map Instr.bfi) (getR_putR 138 f)

theorem Laws.RawDecode.popc (f : RWord) : Statement (.popc f) := by
  intro _ _
  unfold rawDecode
  rw [show opOf (encode (.popc f)) = 139#10 from opOf_putFields _ _]
  exact congrArg (Option.map Instr.popc) (getR_putR 139 f)

theorem Laws.RawDecode.clz (f : RWord) : Statement (.clz f) := by
  intro _ _
  unfold rawDecode
  rw [show opOf (encode (.clz f)) = 140#10 from opOf_putFields _ _]
  exact congrArg (Option.map Instr.clz) (getR_putR 140 f)

theorem Laws.RawDecode.ctz (f : RWord) : Statement (.ctz f) := by
  intro _ _
  unfold rawDecode
  rw [show opOf (encode (.ctz f)) = 141#10 from opOf_putFields _ _]
  exact congrArg (Option.map Instr.ctz) (getR_putR 141 f)

theorem Laws.RawDecode.brev (f : RWord) : Statement (.brev f) := by
  intro _ _
  unfold rawDecode
  rw [show opOf (encode (.brev f)) = 142#10 from opOf_putFields _ _]
  exact congrArg (Option.map Instr.brev) (getR_putR 142 f)

theorem Laws.RawDecode.perm (f : RWord) : Statement (.perm f) := by
  intro _ _
  unfold rawDecode
  rw [show opOf (encode (.perm f)) = 143#10 from opOf_putFields _ _]
  exact congrArg (Option.map Instr.perm) (getR_putR 143 f)

theorem Laws.RawDecode.lea (f : RWord) : Statement (.lea f) := by
  intro _ _
  unfold rawDecode
  rw [show opOf (encode (.lea f)) = 144#10 from opOf_putFields _ _]
  exact congrArg (Option.map Instr.lea) (getR_putR 144 f)

theorem Laws.RawDecode.sel (f : RWord) : Statement (.sel f) := by
  intro _ _
  unfold rawDecode
  rw [show opOf (encode (.sel f)) = 145#10 from opOf_putFields _ _]
  exact congrArg (Option.map Instr.sel) (getR_putR 145 f)

theorem Laws.RawDecode.mov (f : RWord) : Statement (.mov f) := by
  intro _ _
  unfold rawDecode
  rw [show opOf (encode (.mov f)) = 146#10 from opOf_putFields _ _]
  exact congrArg (Option.map Instr.mov) (getR_putR 146 f)

theorem Laws.RawDecode.movi (f : LWord) : Statement (.movi f) := by
  intro _ _
  unfold rawDecode
  rw [show opOf (encode (.movi f)) = 147#10 from opOf_putFields _ _]
  exact congrArg (Option.map Instr.movi) (getL_putL 147 f)

theorem Laws.RawDecode.andI (f : IWord) : Statement (.andI f) := by
  intro _ _
  unfold rawDecode
  rw [show opOf (encode (.andI f)) = 160#10 from opOf_putFields _ _]
  exact congrArg (Option.map Instr.andI) (getI_putI 160 f)

theorem Laws.RawDecode.orI (f : IWord) : Statement (.orI f) := by
  intro _ _
  unfold rawDecode
  rw [show opOf (encode (.orI f)) = 161#10 from opOf_putFields _ _]
  exact congrArg (Option.map Instr.orI) (getI_putI 161 f)

theorem Laws.RawDecode.xorI (f : IWord) : Statement (.xorI f) := by
  intro _ _
  unfold rawDecode
  rw [show opOf (encode (.xorI f)) = 162#10 from opOf_putFields _ _]
  exact congrArg (Option.map Instr.xorI) (getI_putI 162 f)

theorem Laws.RawDecode.andnI (f : IWord) : Statement (.andnI f) := by
  intro _ _
  unfold rawDecode
  rw [show opOf (encode (.andnI f)) = 163#10 from opOf_putFields _ _]
  exact congrArg (Option.map Instr.andnI) (getI_putI 163 f)

theorem Laws.RawDecode.shlI (f : IWord) : Statement (.shlI f) := by
  intro _ _
  unfold rawDecode
  rw [show opOf (encode (.shlI f)) = 165#10 from opOf_putFields _ _]
  exact congrArg (Option.map Instr.shlI) (getI_putI 165 f)

theorem Laws.RawDecode.shrI (f : IWord) : Statement (.shrI f) := by
  intro _ _
  unfold rawDecode
  rw [show opOf (encode (.shrI f)) = 166#10 from opOf_putFields _ _]
  exact congrArg (Option.map Instr.shrI) (getI_putI 166 f)

theorem Laws.RawDecode.sarI (f : IWord) : Statement (.sarI f) := by
  intro _ _
  unfold rawDecode
  rw [show opOf (encode (.sarI f)) = 167#10 from opOf_putFields _ _]
  exact congrArg (Option.map Instr.sarI) (getI_putI 167 f)

theorem Laws.RawDecode.rotI (f : IWord) : Statement (.rotI f) := by
  intro _ _
  unfold rawDecode
  rw [show opOf (encode (.rotI f)) = 168#10 from opOf_putFields _ _]
  exact congrArg (Option.map Instr.rotI) (getI_putI 168 f)

theorem Laws.RawDecode.leaI (f : IWord) : Statement (.leaI f) := by
  intro _ _
  unfold rawDecode
  rw [show opOf (encode (.leaI f)) = 176#10 from opOf_putFields _ _]
  exact congrArg (Option.map Instr.leaI) (getI_putI 176 f)

theorem Laws.RawDecode.fadd (f : RWord) : Statement (.fadd f) := by
  intro _ _
  unfold rawDecode
  rw [show opOf (encode (.fadd f)) = 192#10 from opOf_putFields _ _]
  exact congrArg (Option.map Instr.fadd) (getR_putR 192 f)

theorem Laws.RawDecode.fsub (f : RWord) : Statement (.fsub f) := by
  intro _ _
  unfold rawDecode
  rw [show opOf (encode (.fsub f)) = 193#10 from opOf_putFields _ _]
  exact congrArg (Option.map Instr.fsub) (getR_putR 193 f)

theorem Laws.RawDecode.fmul (f : RWord) : Statement (.fmul f) := by
  intro _ _
  unfold rawDecode
  rw [show opOf (encode (.fmul f)) = 194#10 from opOf_putFields _ _]
  exact congrArg (Option.map Instr.fmul) (getR_putR 194 f)

theorem Laws.RawDecode.ffma (f : RWord) : Statement (.ffma f) := by
  intro _ _
  unfold rawDecode
  rw [show opOf (encode (.ffma f)) = 195#10 from opOf_putFields _ _]
  exact congrArg (Option.map Instr.ffma) (getR_putR 195 f)

theorem Laws.RawDecode.fmin (f : RWord) : Statement (.fmin f) := by
  intro _ _
  unfold rawDecode
  rw [show opOf (encode (.fmin f)) = 196#10 from opOf_putFields _ _]
  exact congrArg (Option.map Instr.fmin) (getR_putR 196 f)

theorem Laws.RawDecode.fmax (f : RWord) : Statement (.fmax f) := by
  intro _ _
  unfold rawDecode
  rw [show opOf (encode (.fmax f)) = 197#10 from opOf_putFields _ _]
  exact congrArg (Option.map Instr.fmax) (getR_putR 197 f)

theorem Laws.RawDecode.fcmp (f : RWord) : Statement (.fcmp f) := by
  intro _ _
  unfold rawDecode
  rw [show opOf (encode (.fcmp f)) = 198#10 from opOf_putFields _ _]
  exact congrArg (Option.map Instr.fcmp) (getR_putR 198 f)

theorem Laws.RawDecode.fclass (f : RWord) : Statement (.fclass f) := by
  intro _ _
  unfold rawDecode
  rw [show opOf (encode (.fclass f)) = 199#10 from opOf_putFields _ _]
  exact congrArg (Option.map Instr.fclass) (getR_putR 199 f)

theorem Laws.RawDecode.frnd (f : RWord) : Statement (.frnd f) := by
  intro _ _
  unfold rawDecode
  rw [show opOf (encode (.frnd f)) = 200#10 from opOf_putFields _ _]
  exact congrArg (Option.map Instr.frnd) (getR_putR 200 f)

theorem Laws.RawDecode.fdot2 (f : RWord) : Statement (.fdot2 f) := by
  intro _ _
  unfold rawDecode
  rw [show opOf (encode (.fdot2 f)) = 201#10 from opOf_putFields _ _]
  exact congrArg (Option.map Instr.fdot2) (getR_putR 201 f)

theorem Laws.RawDecode.fcvt (f : RWord) : Statement (.fcvt f) := by
  intro _ _
  unfold rawDecode
  rw [show opOf (encode (.fcvt f)) = 256#10 from opOf_putFields _ _]
  exact congrArg (Option.map Instr.fcvt) (getR_putR 256 f)

theorem Laws.RawDecode.icvt (f : RWord) : Statement (.icvt f) := by
  intro _ _
  unfold rawDecode
  rw [show opOf (encode (.icvt f)) = 257#10 from opOf_putFields _ _]
  exact congrArg (Option.map Instr.icvt) (getR_putR 257 f)

theorem Laws.RawDecode.rand (f : RWord) : Statement (.rand f) := by
  intro _ _
  unfold rawDecode
  rw [show opOf (encode (.rand f)) = 258#10 from opOf_putFields _ _]
  exact congrArg (Option.map Instr.rand) (getR_putR 258 f)

theorem Laws.RawDecode.pset (f : RWord) : Statement (.pset f) := by
  intro _ _
  unfold rawDecode
  rw [show opOf (encode (.pset f)) = 320#10 from opOf_putFields _ _]
  exact congrArg (Option.map Instr.pset) (getR_putR 320 f)

theorem Laws.RawDecode.pmov (f : RWord) : Statement (.pmov f) := by
  intro _ _
  unfold rawDecode
  rw [show opOf (encode (.pmov f)) = 321#10 from opOf_putFields _ _]
  exact congrArg (Option.map Instr.pmov) (getR_putR 321 f)

theorem Laws.RawDecode.fnld (f : RWord) : Statement (.fnld f) := by
  intro _ _
  unfold rawDecode
  rw [show opOf (encode (.fnld f)) = 384#10 from opOf_putFields _ _]
  exact congrArg (Option.map Instr.fnld) (getR_putR 384 f)

theorem Laws.RawDecode.fapp (f : RWord) : Statement (.fapp f) := by
  intro _ _
  unfold rawDecode
  rw [show opOf (encode (.fapp f)) = 385#10 from opOf_putFields _ _]
  exact congrArg (Option.map Instr.fapp) (getR_putR 385 f)

theorem Laws.RawDecode.fappd (f : RWord) : Statement (.fappd f) := by
  intro _ _
  unfold rawDecode
  rw [show opOf (encode (.fappd f)) = 386#10 from opOf_putFields _ _]
  exact congrArg (Option.map Instr.fappd) (getR_putR 386 f)

theorem Laws.RawDecode.fapp2 (f : RWord) : Statement (.fapp2 f) := by
  intro _ _
  unfold rawDecode
  rw [show opOf (encode (.fapp2 f)) = 387#10 from opOf_putFields _ _]
  exact congrArg (Option.map Instr.fapp2) (getR_putR 387 f)

theorem Laws.RawDecode.fnsync (f : RWord) : Statement (.fnsync f) := by
  intro _ _
  unfold rawDecode
  rw [show opOf (encode (.fnsync f)) = 388#10 from opOf_putFields _ _]
  exact congrArg (Option.map Instr.fnsync) (getR_putR 388 f)

theorem Laws.RawDecode.fnq (f : RWord) : Statement (.fnq f) := by
  intro _ _
  unfold rawDecode
  rw [show opOf (encode (.fnq f)) = 389#10 from opOf_putFields _ _]
  exact congrArg (Option.map Instr.fnq) (getR_putR 389 f)

theorem Laws.RawDecode.shfl (f : RWord) : Statement (.shfl f) := by
  intro _ _
  unfold rawDecode
  rw [show opOf (encode (.shfl f)) = 448#10 from opOf_putFields _ _]
  exact congrArg (Option.map Instr.shfl) (getR_putR 448 f)

theorem Laws.RawDecode.sbc (f : RWord) : Statement (.sbc f) := by
  intro _ _
  unfold rawDecode
  rw [show opOf (encode (.sbc f)) = 449#10 from opOf_putFields _ _]
  exact congrArg (Option.map Instr.sbc) (getR_putR 449 f)

theorem Laws.RawDecode.svote (f : RWord) : Statement (.svote f) := by
  intro _ _
  unfold rawDecode
  rw [show opOf (encode (.svote f)) = 450#10 from opOf_putFields _ _]
  exact congrArg (Option.map Instr.svote) (getR_putR 450 f)

theorem Laws.RawDecode.sred (f : RWord) : Statement (.sred f) := by
  intro _ _
  unfold rawDecode
  rw [show opOf (encode (.sred f)) = 451#10 from opOf_putFields _ _]
  exact congrArg (Option.map Instr.sred) (getR_putR 451 f)

theorem Laws.RawDecode.sscan (f : RWord) : Statement (.sscan f) := by
  intro _ _
  unfold rawDecode
  rw [show opOf (encode (.sscan f)) = 452#10 from opOf_putFields _ _]
  exact congrArg (Option.map Instr.sscan) (getR_putR 452 f)

theorem Laws.RawDecode.smv (f : RWord) : Statement (.smv f) := by
  intro _ _
  unfold rawDecode
  rw [show opOf (encode (.smv f)) = 453#10 from opOf_putFields _ _]
  exact congrArg (Option.map Instr.smv) (getR_putR 453 f)

theorem Laws.RawDecode.ssmx (f : RWord) : Statement (.ssmx f) := by
  intro _ _
  unfold rawDecode
  rw [show opOf (encode (.ssmx f)) = 454#10 from opOf_putFields _ _]
  exact congrArg (Option.map Instr.ssmx) (getR_putR 454 f)

theorem Laws.RawDecode.ld (f : IWord) : Statement (.ld f) := by
  intro _ _
  unfold rawDecode
  rw [show opOf (encode (.ld f)) = 512#10 from opOf_putFields _ _]
  exact congrArg (Option.map Instr.ld) (getI_putI 512 f)

theorem Laws.RawDecode.st (f : IWord) : Statement (.st f) := by
  intro _ _
  unfold rawDecode
  rw [show opOf (encode (.st f)) = 513#10 from opOf_putFields _ _]
  exact congrArg (Option.map Instr.st) (getI_putI 513 f)

theorem Laws.RawDecode.ldl (f : IWord) : Statement (.ldl f) := by
  intro _ _
  unfold rawDecode
  rw [show opOf (encode (.ldl f)) = 514#10 from opOf_putFields _ _]
  exact congrArg (Option.map Instr.ldl) (getI_putI 514 f)

theorem Laws.RawDecode.stl (f : IWord) : Statement (.stl f) := by
  intro _ _
  unfold rawDecode
  rw [show opOf (encode (.stl f)) = 515#10 from opOf_putFields _ _]
  exact congrArg (Option.map Instr.stl) (getI_putI 515 f)

theorem Laws.RawDecode.lds (f : IWord) : Statement (.lds f) := by
  intro _ _
  unfold rawDecode
  rw [show opOf (encode (.lds f)) = 516#10 from opOf_putFields _ _]
  exact congrArg (Option.map Instr.lds) (getI_putI 516 f)

theorem Laws.RawDecode.ldx (f : IWord) : Statement (.ldx f) := by
  intro _ _
  unfold rawDecode
  rw [show opOf (encode (.ldx f)) = 517#10 from opOf_putFields _ _]
  exact congrArg (Option.map Instr.ldx) (getI_putI 517 f)

theorem Laws.RawDecode.stx (f : IWord) : Statement (.stx f) := by
  intro _ _
  unfold rawDecode
  rw [show opOf (encode (.stx f)) = 518#10 from opOf_putFields _ _]
  exact congrArg (Option.map Instr.stx) (getI_putI 518 f)

theorem Laws.RawDecode.ldFe (f : IWord) : Statement (.ldFe f) := by
  intro _ _
  unfold rawDecode
  rw [show opOf (encode (.ldFe f)) = 519#10 from opOf_putFields _ _]
  exact congrArg (Option.map Instr.ldFe) (getI_putI 519 f)

theorem Laws.RawDecode.stFe (f : IWord) : Statement (.stFe f) := by
  intro _ _
  unfold rawDecode
  rw [show opOf (encode (.stFe f)) = 520#10 from opOf_putFields _ _]
  exact congrArg (Option.map Instr.stFe) (getI_putI 520 f)

theorem Laws.RawDecode.feSet (f : IWord) : Statement (.feSet f) := by
  intro _ _
  unfold rawDecode
  rw [show opOf (encode (.feSet f)) = 521#10 from opOf_putFields _ _]
  exact congrArg (Option.map Instr.feSet) (getI_putI 521 f)

theorem Laws.RawDecode.fence (f : IWord) : Statement (.fence f) := by
  intro _ _
  unfold rawDecode
  rw [show opOf (encode (.fence f)) = 522#10 from opOf_putFields _ _]
  exact congrArg (Option.map Instr.fence) (getI_putI 522 f)

theorem Laws.RawDecode.prf (f : IWord) : Statement (.prf f) := by
  intro _ _
  unfold rawDecode
  rw [show opOf (encode (.prf f)) = 523#10 from opOf_putFields _ _]
  exact congrArg (Option.map Instr.prf) (getI_putI 523 f)

theorem Laws.RawDecode.cinv (f : IWord) : Statement (.cinv f) := by
  intro _ _
  unfold rawDecode
  rw [show opOf (encode (.cinv f)) = 524#10 from opOf_putFields _ _]
  exact congrArg (Option.map Instr.cinv) (getI_putI 524 f)

theorem Laws.RawDecode.atomB32 (f : RWord) : Statement (.atomB32 f) := by
  intro _ _
  unfold rawDecode
  rw [show opOf (encode (.atomB32 f)) = 576#10 from opOf_putFields _ _]
  exact congrArg (Option.map Instr.atomB32) (getR_putR 576 f)

theorem Laws.RawDecode.atomB64 (f : RWord) : Statement (.atomB64 f) := by
  intro _ _
  unfold rawDecode
  rw [show opOf (encode (.atomB64 f)) = 577#10 from opOf_putFields _ _]
  exact congrArg (Option.map Instr.atomB64) (getR_putR 577 f)

theorem Laws.RawDecode.redB32 (f : RWord) : Statement (.redB32 f) := by
  intro _ _
  unfold rawDecode
  rw [show opOf (encode (.redB32 f)) = 578#10 from opOf_putFields _ _]
  exact congrArg (Option.map Instr.redB32) (getR_putR 578 f)

theorem Laws.RawDecode.redB64 (f : RWord) : Statement (.redB64 f) := by
  intro _ _
  unfold rawDecode
  rw [show opOf (encode (.redB64 f)) = 579#10 from opOf_putFields _ _]
  exact congrArg (Option.map Instr.redB64) (getR_putR 579 f)

theorem Laws.RawDecode.mres (f : RWord) : Statement (.mres f) := by
  intro _ _
  unfold rawDecode
  rw [show opOf (encode (.mres f)) = 640#10 from opOf_putFields _ _]
  exact congrArg (Option.map Instr.mres) (getR_putR 640 f)

theorem Laws.RawDecode.mrel (f : RWord) : Statement (.mrel f) := by
  intro _ _
  unfold rawDecode
  rw [show opOf (encode (.mrel f)) = 641#10 from opOf_putFields _ _]
  exact congrArg (Option.map Instr.mrel) (getR_putR 641 f)

theorem Laws.RawDecode.mmac (f : RWord) : Statement (.mmac f) := by
  intro _ _
  unfold rawDecode
  rw [show opOf (encode (.mmac f)) = 642#10 from opOf_putFields _ _]
  exact congrArg (Option.map Instr.mmac) (getR_putR 642 f)

theorem Laws.RawDecode.mdual (f : RWord) : Statement (.mdual f) := by
  intro _ _
  unfold rawDecode
  rw [show opOf (encode (.mdual f)) = 643#10 from opOf_putFields _ _]
  exact congrArg (Option.map Instr.mdual) (getR_putR 643 f)

theorem Laws.RawDecode.mzero (f : RWord) : Statement (.mzero f) := by
  intro _ _
  unfold rawDecode
  rw [show opOf (encode (.mzero f)) = 644#10 from opOf_putFields _ _]
  exact congrArg (Option.map Instr.mzero) (getR_putR 644 f)

theorem Laws.RawDecode.mld (f : RWord) : Statement (.mld f) := by
  intro _ _
  unfold rawDecode
  rw [show opOf (encode (.mld f)) = 645#10 from opOf_putFields _ _]
  exact congrArg (Option.map Instr.mld) (getR_putR 645 f)

theorem Laws.RawDecode.mst (f : RWord) : Statement (.mst f) := by
  intro _ _
  unfold rawDecode
  rw [show opOf (encode (.mst f)) = 646#10 from opOf_putFields _ _]
  exact congrArg (Option.map Instr.mst) (getR_putR 646 f)

theorem Laws.RawDecode.qcvt (f : RWord) : Statement (.qcvt f) := by
  intro _ _
  unfold rawDecode
  rw [show opOf (encode (.qcvt f)) = 647#10 from opOf_putFields _ _]
  exact congrArg (Option.map Instr.qcvt) (getR_putR 647 f)

theorem Laws.RawDecode.dqcvt (f : RWord) : Statement (.dqcvt f) := by
  intro _ _
  unfold rawDecode
  rw [show opOf (encode (.dqcvt f)) = 648#10 from opOf_putFields _ _]
  exact congrArg (Option.map Instr.dqcvt) (getR_putR 648 f)

theorem Laws.RawDecode.amrd (f : RWord) : Statement (.amrd f) := by
  intro _ _
  unfold rawDecode
  rw [show opOf (encode (.amrd f)) = 649#10 from opOf_putFields _ _]
  exact congrArg (Option.map Instr.amrd) (getR_putR 649 f)

theorem Laws.RawDecode.amclr (f : RWord) : Statement (.amclr f) := by
  intro _ _
  unfold rawDecode
  rw [show opOf (encode (.amclr f)) = 650#10 from opOf_putFields _ _]
  exact congrArg (Option.map Instr.amclr) (getR_putR 650 f)

theorem Laws.RawDecode.cp (f : EWord) : Statement (.cp f) := by
  intro _ _
  unfold rawDecode
  rw [show opOf (encode (.cp f)) = 704#10 from opOf_putFields _ _]
  exact congrArg (Option.map Instr.cp) (getE_putE 704 f)

theorem Laws.RawDecode.cpRed (f : EWord) : Statement (.cpRed f) := by
  intro _ _
  unfold rawDecode
  rw [show opOf (encode (.cpRed f)) = 705#10 from opOf_putFields _ _]
  exact congrArg (Option.map Instr.cpRed) (getE_putE 705 f)

theorem Laws.RawDecode.cpGat (f : EWord) : Statement (.cpGat f) := by
  intro _ _
  unfold rawDecode
  rw [show opOf (encode (.cpGat f)) = 706#10 from opOf_putFields _ _]
  exact congrArg (Option.map Instr.cpGat) (getE_putE 706 f)

theorem Laws.RawDecode.coll (f : EWord) : Statement (.coll f) := by
  intro _ _
  unfold rawDecode
  rw [show opOf (encode (.coll f)) = 707#10 from opOf_putFields _ _]
  exact congrArg (Option.map Instr.coll) (getE_putE 707 f)

theorem Laws.RawDecode.fur (f : EWord) : Statement (.fur f) := by
  intro _ _
  unfold rawDecode
  rw [show opOf (encode (.fur f)) = 708#10 from opOf_putFields _ _]
  exact congrArg (Option.map Instr.fur) (getE_putE 708 f)

theorem Laws.RawDecode.cpFill (f : RWord) : Statement (.cpFill f) := by
  intro _ _
  unfold rawDecode
  rw [show opOf (encode (.cpFill f)) = 709#10 from opOf_putFields _ _]
  exact congrArg (Option.map Instr.cpFill) (getR_putR 709 f)

theorem Laws.RawDecode.tlWait (f : RWord) : Statement (.tlWait f) := by
  intro _ _
  unfold rawDecode
  rw [show opOf (encode (.tlWait f)) = 710#10 from opOf_putFields _ _]
  exact congrArg (Option.map Instr.tlWait) (getR_putR 710 f)

theorem Laws.RawDecode.tlTest (f : UWord) : Statement (.tlTest f) := by
  intro _ _
  unfold rawDecode
  rw [show opOf (encode (.tlTest f)) = 711#10 from opOf_putFields _ _]
  exact congrArg (Option.map Instr.tlTest) (getU_putU 711 f)

theorem Laws.RawDecode.tlCancel (f : UWord) : Statement (.tlCancel f) := by
  intro _ _
  unfold rawDecode
  rw [show opOf (encode (.tlCancel f)) = 712#10 from opOf_putFields _ _]
  exact congrArg (Option.map Instr.tlCancel) (getU_putU 712 f)

theorem Laws.RawDecode.tlRd (f : UWord) : Statement (.tlRd f) := by
  intro _ _
  unfold rawDecode
  rw [show opOf (encode (.tlRd f)) = 713#10 from opOf_putFields _ _]
  exact congrArg (Option.map Instr.tlRd) (getU_putU 713 f)

theorem Laws.RawDecode.tlSig (f : UWord) : Statement (.tlSig f) := by
  intro _ _
  unfold rawDecode
  rw [show opOf (encode (.tlSig f)) = 714#10 from opOf_putFields _ _]
  exact congrArg (Option.map Instr.tlSig) (getU_putU 714 f)

theorem Laws.RawDecode.uAdd (f : UWord) : Statement (.uAdd f) := by
  intro _ _
  unfold rawDecode
  rw [show opOf (encode (.uAdd f)) = 768#10 from opOf_putFields _ _]
  exact congrArg (Option.map Instr.uAdd) (getU_putU 768 f)

theorem Laws.RawDecode.uSub (f : UWord) : Statement (.uSub f) := by
  intro _ _
  unfold rawDecode
  rw [show opOf (encode (.uSub f)) = 769#10 from opOf_putFields _ _]
  exact congrArg (Option.map Instr.uSub) (getU_putU 769 f)

theorem Laws.RawDecode.uMul (f : UWord) : Statement (.uMul f) := by
  intro _ _
  unfold rawDecode
  rw [show opOf (encode (.uMul f)) = 770#10 from opOf_putFields _ _]
  exact congrArg (Option.map Instr.uMul) (getU_putU 770 f)

theorem Laws.RawDecode.uMin (f : UWord) : Statement (.uMin f) := by
  intro _ _
  unfold rawDecode
  rw [show opOf (encode (.uMin f)) = 771#10 from opOf_putFields _ _]
  exact congrArg (Option.map Instr.uMin) (getU_putU 771 f)

theorem Laws.RawDecode.uMax (f : UWord) : Statement (.uMax f) := by
  intro _ _
  unfold rawDecode
  rw [show opOf (encode (.uMax f)) = 772#10 from opOf_putFields _ _]
  exact congrArg (Option.map Instr.uMax) (getU_putU 772 f)

theorem Laws.RawDecode.uAnd (f : UWord) : Statement (.uAnd f) := by
  intro _ _
  unfold rawDecode
  rw [show opOf (encode (.uAnd f)) = 773#10 from opOf_putFields _ _]
  exact congrArg (Option.map Instr.uAnd) (getU_putU 773 f)

theorem Laws.RawDecode.uOr (f : UWord) : Statement (.uOr f) := by
  intro _ _
  unfold rawDecode
  rw [show opOf (encode (.uOr f)) = 774#10 from opOf_putFields _ _]
  exact congrArg (Option.map Instr.uOr) (getU_putU 774 f)

theorem Laws.RawDecode.uXor (f : UWord) : Statement (.uXor f) := by
  intro _ _
  unfold rawDecode
  rw [show opOf (encode (.uXor f)) = 775#10 from opOf_putFields _ _]
  exact congrArg (Option.map Instr.uXor) (getU_putU 775 f)

theorem Laws.RawDecode.uAndn (f : UWord) : Statement (.uAndn f) := by
  intro _ _
  unfold rawDecode
  rw [show opOf (encode (.uAndn f)) = 776#10 from opOf_putFields _ _]
  exact congrArg (Option.map Instr.uAndn) (getU_putU 776 f)

theorem Laws.RawDecode.uNot (f : UWord) : Statement (.uNot f) := by
  intro _ _
  unfold rawDecode
  rw [show opOf (encode (.uNot f)) = 777#10 from opOf_putFields _ _]
  exact congrArg (Option.map Instr.uNot) (getU_putU 777 f)

theorem Laws.RawDecode.uShl (f : UWord) : Statement (.uShl f) := by
  intro _ _
  unfold rawDecode
  rw [show opOf (encode (.uShl f)) = 778#10 from opOf_putFields _ _]
  exact congrArg (Option.map Instr.uShl) (getU_putU 778 f)

theorem Laws.RawDecode.uShr (f : UWord) : Statement (.uShr f) := by
  intro _ _
  unfold rawDecode
  rw [show opOf (encode (.uShr f)) = 779#10 from opOf_putFields _ _]
  exact congrArg (Option.map Instr.uShr) (getU_putU 779 f)

theorem Laws.RawDecode.uSar (f : UWord) : Statement (.uSar f) := by
  intro _ _
  unfold rawDecode
  rw [show opOf (encode (.uSar f)) = 780#10 from opOf_putFields _ _]
  exact congrArg (Option.map Instr.uSar) (getU_putU 780 f)

theorem Laws.RawDecode.uBfe (f : UWord) : Statement (.uBfe f) := by
  intro _ _
  unfold rawDecode
  rw [show opOf (encode (.uBfe f)) = 781#10 from opOf_putFields _ _]
  exact congrArg (Option.map Instr.uBfe) (getU_putU 781 f)

theorem Laws.RawDecode.uPopc (f : UWord) : Statement (.uPopc f) := by
  intro _ _
  unfold rawDecode
  rw [show opOf (encode (.uPopc f)) = 782#10 from opOf_putFields _ _]
  exact congrArg (Option.map Instr.uPopc) (getU_putU 782 f)

theorem Laws.RawDecode.uClz (f : UWord) : Statement (.uClz f) := by
  intro _ _
  unfold rawDecode
  rw [show opOf (encode (.uClz f)) = 783#10 from opOf_putFields _ _]
  exact congrArg (Option.map Instr.uClz) (getU_putU 783 f)

theorem Laws.RawDecode.uCtz (f : UWord) : Statement (.uCtz f) := by
  intro _ _
  unfold rawDecode
  rw [show opOf (encode (.uCtz f)) = 784#10 from opOf_putFields _ _]
  exact congrArg (Option.map Instr.uCtz) (getU_putU 784 f)

theorem Laws.RawDecode.uMov (f : UWord) : Statement (.uMov f) := by
  intro _ _
  unfold rawDecode
  rw [show opOf (encode (.uMov f)) = 785#10 from opOf_putFields _ _]
  exact congrArg (Option.map Instr.uMov) (getU_putU 785 f)

theorem Laws.RawDecode.uLea (f : UWord) : Statement (.uLea f) := by
  intro _ _
  unfold rawDecode
  rw [show opOf (encode (.uLea f)) = 786#10 from opOf_putFields _ _]
  exact congrArg (Option.map Instr.uLea) (getU_putU 786 f)

theorem Laws.RawDecode.nret (f : RWord) : Statement (.nret f) := by
  intro _ _
  unfold rawDecode
  rw [show opOf (encode (.nret f)) = 960#10 from opOf_putFields _ _]
  exact congrArg (Option.map Instr.nret) (getR_putR 960 f)

theorem Laws.RawDecode.ctlRd (f : RWord) : Statement (.ctlRd f) := by
  intro _ _
  unfold rawDecode
  rw [show opOf (encode (.ctlRd f)) = 961#10 from opOf_putFields _ _]
  exact congrArg (Option.map Instr.ctlRd) (getR_putR 961 f)

theorem Laws.RawDecode.ctlWr (f : RWord) : Statement (.ctlWr f) := by
  intro _ _
  unfold rawDecode
  rw [show opOf (encode (.ctlWr f)) = 962#10 from opOf_putFields _ _]
  exact congrArg (Option.map Instr.ctlWr) (getR_putR 962 f)

theorem Laws.RawDecode.nonInstruction (w : DWord) : Statement (.nonInstruction w) := fun h _ => nomatch h

theorem Laws.RawDecode.serialiseDrainEnd (core part stream : Nat) : Statement (.serialiseDrainEnd core part stream) := fun h _ => nomatch h

theorem Laws.RawDecode.patchModeEntry (core part slot : Nat) : Statement (.patchModeEntry core part slot) := fun h _ => nomatch h

theorem Laws.RawDecode.clauseFetch (core part stream : Nat) : Statement (.clauseFetch core part stream) := fun h _ => nomatch h

theorem Laws.RawDecode.podEvict (core part : Nat) : Statement (.podEvict core part) := fun h _ => nomatch h

theorem Laws.RawDecode.podOpen (core part : Nat) : Statement (.podOpen core part) := fun h _ => nomatch h

theorem Laws.RawDecode.packForm (core part : Nat) : Statement (.packForm core part) := fun h _ => nomatch h

theorem Laws.RawDecode.threadFiling (core part : Nat) : Statement (.threadFiling core part) := fun h _ => nomatch h

theorem Laws.RawDecode.podHeaderFetch (core part pod : Nat) : Statement (.podHeaderFetch core part pod) := fun h _ => nomatch h

theorem Laws.RawDecode.entryQueueServe (core part : Nat) : Statement (.entryQueueServe core part) := fun h _ => nomatch h

theorem Laws.RawDecode.pollRetry (core part slot : Nat) : Statement (.pollRetry core part slot) := fun h _ => nomatch h

theorem Laws.RawDecode.barrierComplete (core team b : Nat) : Statement (.barrierComplete core team b) := fun h _ => nomatch h

theorem Laws.RawDecode.resultLand (core id : Nat) : Statement (.resultLand core id) := fun h _ => nomatch h

theorem Laws.RawDecode.storeAck (core id : Nat) : Statement (.storeAck core id) := fun h _ => nomatch h

theorem Laws.RawDecode.lineRequestSend (core part : Nat) : Statement (.lineRequestSend core part) := fun h _ => nomatch h

theorem Laws.RawDecode.sliceService (slice : Nat) : Statement (.sliceService slice) := fun h _ => nomatch h

theorem Laws.RawDecode.sectorReorientEnd (slice : Nat) : Statement (.sectorReorientEnd slice) := fun h _ => nomatch h

theorem Laws.RawDecode.memoryControllerService (pc : Nat) : Statement (.memoryControllerService pc) := fun h _ => nomatch h

theorem Laws.RawDecode.sectorFill (slice sector : Nat) : Statement (.sectorFill slice sector) := fun h _ => nomatch h

theorem Laws.RawDecode.inkwellService (group : Nat) : Statement (.inkwellService group) := fun h _ => nomatch h

theorem Laws.RawDecode.completionTimeout (id : Nat) : Statement (.completionTimeout id) := fun h _ => nomatch h

theorem Laws.RawDecode.ccpResume (core part slot : Nat) (p : ResumePoint) : Statement (.ccpResume core part slot p) := fun h _ => nomatch h

theorem Laws.RawDecode.dieToDieLinkBeat (dir : Nat) : Statement (.dieToDieLinkBeat dir) := fun h _ => nomatch h

theorem Laws.RawDecode.quillFlit (port dir : Nat) (f : Flit) : Statement (.quillFlit port dir f) := fun h _ => nomatch h

theorem Laws.RawDecode.inkwellRefreshStart (group : Nat) : Statement (.inkwellRefreshStart group) := fun h _ => nomatch h

theorem Laws.RawDecode.inkwellRefreshEnd (group : Nat) : Statement (.inkwellRefreshEnd group) := fun h _ => nomatch h

theorem Laws.RawDecode.bankReservation (core part : Nat) : Statement (.bankReservation core part) := fun h _ => nomatch h

theorem Laws.RawDecode.budgetWindowStart (pt : Point) : Statement (.budgetWindowStart pt) := fun h _ => nomatch h

theorem Laws.RawDecode.walkComplete (die ctx vpn : Nat) : Statement (.walkComplete die ctx vpn) := fun h _ => nomatch h

theorem Laws.RawDecode.accessedDirtySet (die : Nat) : Statement (.accessedDirtySet die) := fun h _ => nomatch h

theorem Laws.RawDecode.fnldSwitch (core reg : Nat) : Statement (.fnldSwitch core reg) := fun h _ => nomatch h

theorem Laws.RawDecode.fnsyncClear (core id : Nat) : Statement (.fnsyncClear core id) := fun h _ => nomatch h

theorem Laws.RawDecode.arrayStart (core : Nat) : Statement (.arrayStart core) := fun h _ => nomatch h

theorem Laws.RawDecode.arrayRetire (core : Nat) : Statement (.arrayRetire core) := fun h _ => nomatch h

theorem Laws.RawDecode.commandHead (ch : ChanKey) : Statement (.commandHead ch) := fun h _ => nomatch h

theorem Laws.RawDecode.sequenceWordRead (ch : ChanKey) : Statement (.sequenceWordRead ch) := fun h _ => nomatch h

theorem Laws.RawDecode.sequenceWordPoll (ch : ChanKey) : Statement (.sequenceWordPoll ch) := fun h _ => nomatch h

theorem Laws.RawDecode.deliveryTurn (ch : ChanKey) : Statement (.deliveryTurn ch) := fun h _ => nomatch h

theorem Laws.RawDecode.commandComplete (core team tl : Nat) : Statement (.commandComplete core team tl) := fun h _ => nomatch h

theorem Laws.RawDecode.marrowJobStart (cluster : Nat) : Statement (.marrowJobStart cluster) := fun h _ => nomatch h

theorem Laws.RawDecode.marrowChunkStart (cluster : Nat) : Statement (.marrowChunkStart cluster) := fun h _ => nomatch h

theorem Laws.RawDecode.marrowChunkEnd (marrow : Nat) (e : ChunkEnd) : Statement (.marrowChunkEnd marrow e) := fun h _ => nomatch h

theorem Laws.RawDecode.teamRetire (core team : Nat) : Statement (.teamRetire core team) := fun h _ => nomatch h

theorem Laws.RawDecode.gridRetire (gid : Nat) : Statement (.gridRetire gid) := fun h _ => nomatch h

theorem Laws.RawDecode.wptrDoorbell (q : Nat) (v : DWord) : Statement (.wptrDoorbell q v) := fun h _ => nomatch h

theorem Laws.RawDecode.queueEnable (q : Nat) (v : DWord) : Statement (.queueEnable q v) := fun h _ => nomatch h

theorem Laws.RawDecode.queueDisable (q : Nat) : Statement (.queueDisable q) := fun h _ => nomatch h

theorem Laws.RawDecode.qerrClear (q : Nat) (v : DWord) : Statement (.qerrClear q v) := fun h _ => nomatch h

theorem Laws.RawDecode.packetAccept (src : AcceptSrc) : Statement (.packetAccept src) := fun h _ => nomatch h

theorem Laws.RawDecode.placementStep (die : Nat) : Statement (.placementStep die) := fun h _ => nomatch h

theorem Laws.RawDecode.teamStart (core team : Nat) : Statement (.teamStart core team) := fun h _ => nomatch h

theorem Laws.RawDecode.codeRingEnable (vf : Nat) (v : DWord) : Statement (.codeRingEnable vf v) := fun h _ => nomatch h

theorem Laws.RawDecode.codeRingDoorbell (vf : Nat) (v : DWord) : Statement (.codeRingDoorbell vf v) := fun h _ => nomatch h

theorem Laws.RawDecode.codeLoad (vf : Nat) : Statement (.codeLoad vf) := fun h _ => nomatch h

theorem Laws.RawDecode.codeReplace (vf : Nat) : Statement (.codeReplace vf) := fun h _ => nomatch h

theorem Laws.RawDecode.codeUnload (vf : Nat) : Statement (.codeUnload vf) := fun h _ => nomatch h

theorem Laws.RawDecode.faultQueueEnable (vf : Nat) (v : DWord) : Statement (.faultQueueEnable vf v) := fun h _ => nomatch h

theorem Laws.RawDecode.faultQueueReadPointer (vf : Nat) (v : DWord) : Statement (.faultQueueReadPointer vf v) := fun h _ => nomatch h

theorem Laws.RawDecode.faultRecordWrite (vf : Nat) : Statement (.faultRecordWrite vf) := fun h _ => nomatch h

theorem Laws.RawDecode.faultResponseRetry (vf token : Nat) : Statement (.faultResponseRetry vf token) := fun h _ => nomatch h

theorem Laws.RawDecode.faultResponseTerminate (vf token : Nat) : Statement (.faultResponseTerminate vf token) := fun h _ => nomatch h

theorem Laws.RawDecode.faultResponseAbort (vf token : Nat) : Statement (.faultResponseAbort vf token) := fun h _ => nomatch h

theorem Laws.RawDecode.faultResponseStep (vf token : Nat) : Statement (.faultResponseStep vf token) := fun h _ => nomatch h

theorem Laws.RawDecode.faultResponseRunFree (vf token : Nat) : Statement (.faultResponseRunFree vf token) := fun h _ => nomatch h

theorem Laws.RawDecode.tlbInvalidate (vf : Nat) (v : DWord) : Statement (.tlbInvalidate vf v) := fun h _ => nomatch h

theorem Laws.RawDecode.tlbInvalidateComplete (vf : Nat) : Statement (.tlbInvalidateComplete vf) := fun h _ => nomatch h

theorem Laws.RawDecode.regionModeWrite (vf : Nat) (v : DWord) : Statement (.regionModeWrite vf v) := fun h _ => nomatch h

theorem Laws.RawDecode.regionModeDone (vf : Nat) : Statement (.regionModeDone vf) := fun h _ => nomatch h

theorem Laws.RawDecode.preempt (vf ctx : Nat) : Statement (.preempt vf ctx) := fun h _ => nomatch h

theorem Laws.RawDecode.restoreImage (vf ctx : Nat) : Statement (.restoreImage vf ctx) := fun h _ => nomatch h

theorem Laws.RawDecode.drainDeadline (core : Nat) : Statement (.drainDeadline core) := fun h _ => nomatch h

theorem Laws.RawDecode.coreHalted (core : Nat) : Statement (.coreHalted core) := fun h _ => nomatch h

theorem Laws.RawDecode.imageSaved (vf : Nat) : Statement (.imageSaved vf) := fun h _ => nomatch h

theorem Laws.RawDecode.preemptWatchdog (vf : Nat) : Statement (.preemptWatchdog vf) := fun h _ => nomatch h

theorem Laws.RawDecode.assignmentApply (vf : Nat) : Statement (.assignmentApply vf) := fun h _ => nomatch h

theorem Laws.RawDecode.featmaskApply (ctx : Nat) : Statement (.featmaskApply ctx) := fun h _ => nomatch h

theorem Laws.RawDecode.censusCheckDone (vf : Nat) : Statement (.censusCheckDone vf) := fun h _ => nomatch h

theorem Laws.RawDecode.registerWrite (r : RegAddr) (v : DWord) : Statement (.registerWrite r v) := fun h _ => nomatch h

theorem Laws.RawDecode.assignmentWrite (vf offset : Nat) (v : DWord) : Statement (.assignmentWrite vf offset v) := fun h _ => nomatch h

theorem Laws.RawDecode.budgetRegisterWrite (by_ : BudgetWriter) (p k : Nat) (v : DWord) : Statement (.budgetRegisterWrite by_ p k v) := fun h _ => nomatch h

theorem Laws.RawDecode.breakpointControlWrite (vf k : Nat) (v : DWord) : Statement (.breakpointControlWrite vf k v) := fun h _ => nomatch h

theorem Laws.RawDecode.hostCompletion (id : Nat) (data : List Byte) : Statement (.hostCompletion id data) := fun h _ => nomatch h

theorem Laws.RawDecode.dumpRingEnable (vf : Nat) (v : DWord) : Statement (.dumpRingEnable vf v) := fun h _ => nomatch h

theorem Laws.RawDecode.dumpRingReadPointer (vf : Nat) (v : DWord) : Statement (.dumpRingReadPointer vf v) := fun h _ => nomatch h

theorem Laws.RawDecode.traceBufferEnable (vf : Nat) (journey : Bool) (v : DWord) : Statement (.traceBufferEnable vf journey v) := fun h _ => nomatch h

theorem Laws.RawDecode.thermalTrip : Statement (.thermalTrip) := fun h _ => nomatch h

theorem Laws.RawDecode.nibSwitch : Statement (.nibSwitch) := fun h _ => nomatch h

theorem Laws.RawDecode.arrivalAndOpenedAdvance : Statement (.arrivalAndOpenedAdvance) := fun h _ => nomatch h

theorem Laws.RawDecode.fenceLlcSlice (unit : Nat) : Statement (.fenceLlcSlice unit) := fun h _ => nomatch h

theorem Laws.RawDecode.fenceCore (unit : Nat) : Statement (.fenceCore unit) := fun h _ => nomatch h

theorem Laws.RawDecode.fencePseudoChannel (unit : Nat) : Statement (.fencePseudoChannel unit) := fun h _ => nomatch h

theorem Laws.RawDecode.fenceQuillPort (unit : Nat) : Statement (.fenceQuillPort unit) := fun h _ => nomatch h

theorem Laws.RawDecode.fenceMarrowCore (unit : Nat) : Statement (.fenceMarrowCore unit) := fun h _ => nomatch h

theorem Laws.RawDecode.linkRetry (port : Nat) : Statement (.linkRetry port) := fun h _ => nomatch h

theorem Laws.RawDecode.linkDown (port : Nat) : Statement (.linkDown port) := fun h _ => nomatch h

theorem Laws.RawDecode.nibImageLoad (image : List Byte) : Statement (.nibImageLoad image) := fun h _ => nomatch h

theorem Laws.RawDecode.recoveryImage (k : ImageKind) (image : List Byte) : Statement (.recoveryImage k image) := fun h _ => nomatch h

theorem Laws.RawDecode.spdmRequest (index : Nat) : Statement (.spdmRequest index) := fun h _ => nomatch h

theorem Laws.RawDecode.moduleReset (b : BringUp) : Statement (.moduleReset b) := fun h _ => nomatch h

theorem Laws.RawDecode.configurationRequest (tag : Nat) : Statement (.configurationRequest tag) := fun h _ => nomatch h

theorem Laws.RawDecode.hostLinkTraining (k : LinkKind) (width rate : Nat) : Statement (.hostLinkTraining k width rate) := fun h _ => nomatch h

theorem Laws.RawDecode.powerGovernorTick (shares : List (Nat × Nat × BitVec 9)) (duty : BitVec 9) : Statement (.powerGovernorTick shares duty) := fun h _ => nomatch h

theorem Laws.RawDecode.atsInvalidation (vf base size : Nat) : Statement (.atsInvalidation vf base size) := fun h _ => nomatch h

theorem Laws.RawDecode.pageRequestResponse (id : Nat) (ok : Bool) : Statement (.pageRequestResponse id ok) := fun h _ => nomatch h

theorem Laws.RawDecode.featmaskWrite (ctx : Nat) (v : DWord) : Statement (.featmaskWrite ctx v) := fun h _ => nomatch h

theorem Laws.RawDecode.censusCheck (vf : Nat) (v : DWord) : Statement (.censusCheck vf v) := fun h _ => nomatch h

end Sys2Proof
end

