-- ==== Sys2Proof/Laws/Served.lean ====
section
/-! SUPPORT. What asking for a line at its home can do (R84, R94): it puts requests into queues, and nothing else; and what bytes written there, and a soft error, leave of memory. -/

namespace Sys2Proof.Machine

/-- Nothing has changed but the queues of the slices and of the die-to-die link. -/
def State.Asked (s u : State) : Prop := { u with slices := s.slices, linkQ := s.linkQ } = s

theorem State.Asked.refl (s : State) : s.Asked s := rfl

theorem State.Asked.trans {s t u : State} (h : s.Asked t) (g : t.Asked u) : s.Asked u := by
  unfold State.Asked at *
  rw [← g] at h
  exact h

theorem State.Asked.mem {s u : State} (h : s.Asked u) : u.mem = s.mem := by have := congrArg State.mem h; exact this

theorem State.Asked.foldl {α : Type} (f : State → α → State) (l : List α) (h : ∀ s x, State.Asked s (f s x)) (s : State) :
    s.Asked (l.foldl f s) := by
  induction l generalizing s with
  | nil => exact .refl s
  | cons x l ih => exact (h s x).trans (ih _)

theorem State.sendReq_asked (s : State) (die : Nat) (r : Req) (pa : Nat) : s.Asked (s.sendReq die r pa) := by
  unfold State.sendReq
  split <;> rfl

/-- An agent that asks for a line puts at most a request into a queue. -/
theorem State.ask_asked (s : State) (g : Agent) (how : How) (pa : Nat) : s.Asked (s.ask g how pa) := by
  unfold State.ask
  split
  · exact .refl s
  · exact s.sendReq_asked _ _ _

theorem State.askAll_asked (s : State) (g : Agent) (how : How) (pas : List Nat) : s.Asked (s.askAll g how pas) :=
  State.Asked.foldl _ _ (fun s pa => s.ask_asked g how pa) s

/-- Bytes put into device memory keep it canonical. -/
theorem State.putPa_wf {s : State} (pa : Nat) (bs : List Byte) (w : Memory.wf s.mem = true) : Memory.wf (s.putPa pa bs).mem = true := by
  unfold State.putPa
  generalize linesPa pa bs.length = l
  induction l generalizing s with
  | nil => exact w
  | cons a l ih =>
    refine ih ?_
    dsimp only
    split
    · exact w
    · exact State.storeLine_wf _ _ w

/-- Bytes posted keep memory canonical. -/
theorem State.post_wf {s : State} (g : Agent) (pa : Nat) (bs : List Byte) (w : Memory.wf s.mem = true) :
    Memory.wf (s.post g pa bs).mem = true := by
  unfold State.post
  have h : (s.putPa pa bs).Asked
      ((linesPa pa bs.length).foldl (fun s a => if s.atHand g a then s else s.sendReq g.die (g.req .posted a) a) (s.putPa pa bs)) :=
    State.Asked.foldl _ _ (fun s a => by
      split
      · exact .refl s
      · exact s.sendReq_asked _ _ _) _
  rw [h.mem]
  exact State.putPa_wf pa bs w

/-- A soft error changes no byte of memory (R352). -/
@[simp] theorem State.strike_mem (s : State) (u : Upset) : (s.strike u).mem = s.mem := by
  cases u with
  | line l => simp only [State.strike]; split <;> rfl
  | scratch => simp only [State.strike, State.onTeam]; split <;> rfl
  | _ => rfl

end Sys2Proof.Machine
end

