-- ==== Sys2Proof/Laws/Uniform.lean ====
section
/-! SUPPORT. Words that write scalars of their team once for the pack (R58, R162). -/

namespace Sys2Proof.Machine

/-- A uniform write changes the scalars it names and nothing else. -/
theorem runWord_uniform {s : State} {i : Instr} {is : Issue} (h : s.Runs i is) (d n : Nat) (ws : List Word) (hn : ws.length = n)
    (run : State → Issue → List Thread → State)
    (hrun : run (s.aged i is) is is.act = writeFixed (s.aged i is) is ((List.range n).map fun k => .s is.team.slot (d + k)) ws)
    (e : exec i s = runWord i (plain run) s) : s.Uniform i is d n ws := by
  obtain ⟨u, hu, hs⟩ := runWord_plain run h
  rw [hrun] at hs
  obtain ⟨⟨op, g, _, hi⟩, _⟩ := h
  have ha := s.aged_sched i is
  generalize hA : s.aged i is = a at *
  have at_ : a.threads = s.threads := by rw [← hA]; rfl
  have hw := State.writeDests_team a is.cur.core is.cur.part is.team.slot d n ws hn
  obtain ⟨x, hx⟩ := State.writeDests_s_eq a is.cur.core is.cur.part is.team.slot d n ws
  unfold writeFixed at hs
  generalize State.writeDests a is.cur.core is.cur.part ((List.range n).map fun k => Dest.s is.team.slot (d + k)) ws = v at *
  generalize hz : State.onPack v is.cur _ = z at hs
  have hsz : State.Sched is.cur.core is.cur.part v z := hz ▸ v.onPack_sched is.cur _
  have hvu := hsz.trans hs
  have tm (a b : Nat) : u.team? a b = v.team? a b := by unfold State.team?; rw [hvu.teams]
  have ta (c k : Nat) : a.team? c k = s.team? c k := by unfold State.team?; rw [ha.teams]
  have ht := State.issue_team hi
  refine ⟨u, e.trans hu, ?_, fun c p sl => ?_, fun c k hk => ?_, ⟨is.team.writeSs d ws, ?_, Team.writeSs_rest _ _ _, Team.writeSs_sregs _ _ _ _ hn, fun r hr => ?_⟩, fun c p hp => ?_⟩
  · have h1 := congrArg (fun y : State => { y with teams := s.teams, threads := s.threads, parts := s.parts }) hvu.1
    have h2 := congrArg (fun y : State => { y with teams := s.teams, threads := s.threads, parts := s.parts }) hx
    have h3 := congrArg (fun y : State => { y with teams := s.teams, threads := s.threads, parts := s.parts }) ha.1
    exact Eq.trans h1 (Eq.trans h2 h3)
  · rw [hvu.2.1]
    rw [hx]
    unfold State.dataOf State.thread?
    simp only [at_]
  · rw [tm, hw, if_neg hk, ta]
  · rw [tm, hw, if_pos rfl, ta, ht]; rfl
  · rw [Team.writeSs_getD, if_neg (by rw [hn]; exact hr)]
  · rw [hvu.2.2 c p hp, ← ha.2.2 c p hp]
    have : v.parts = a.parts := by rw [hx]
    unfold State.part; rw [this]

/-- A uniform word, by what it computes. -/
theorem uni_of {s : State} {i : Instr} {is : Issue} {f : UWord} {n : Nat} (g : Team → List Word) (e : exec i s = runWord i (uniRun f g) s) (h : s.Runs i is) (hn : (g is.team).length = n) : s.Uniform i is f.d.toNat n (g is.team) :=
  runWord_uniform h f.d.toNat n _ hn _ (by show uniWrite f (g is.team) _ is = _; unfold uniWrite; rw [hn]) e

/-- The type code of a uniform word. -/
theorem uni_md {f : UWord} {i : Instr} {op : Nat} (h : i.wellFormed = true) (hf : i.fields = some (op, .u f))
    (he : i.entry = some (let e := uniEntry f; ⟨e.accepts && (f.bi || f.c.toNat == 0), e.port, false, noOpds⟩)) : f.md.toNat ≠ 0xB := by
  have := (wellFormed_accepts h hf he).1
  simp only [uniEntry, Bool.and_eq_true, decide_eq_true_eq] at this
  omega

/-- An integer uniform word. -/
theorem uni_int {s : State} {i : Instr} {is : Issue} {f : UWord} (op : Int → Int → Int) (e : exec i s = runWord i (uniInt f op) s) (h : s.Runs i is)
    (hm : f.md.toNat ≠ 0xB) : s.Uniform i is f.d.toNat (typeRegs f.md.toNat)
      (intWrite f.md.toNat (op (intRead f.md.toNat (is.team.snum f.a (typeRegs f.md.toNat))) (intRead f.md.toNat (uniB f is.team (typeRegs f.md.toNat))))) :=
  uni_of (fun tm => intWrite f.md.toNat (op (intRead f.md.toNat (tm.snum f.a (typeRegs f.md.toNat))) (intRead f.md.toNat (uniB f tm (typeRegs f.md.toNat))))) e h (intWrite_length _ _ hm)
/-- A uniform word on bits. -/
theorem uni_bit {s : State} {i : Instr} {is : Issue} {f : UWord} (n : Nat) (op : Nat → Nat → Nat → Nat) (e : exec i s = runWord i (uniBit f n op) s) (h : s.Runs i is) :
    s.Uniform i is f.d.toNat (typeRegs f.md.toNat)
      (wordsOf (typeRegs f.md.toNat) (op (intWidth f.md.toNat) (is.team.snum f.a (typeRegs f.md.toNat)) (uniB f is.team n))) :=
  uni_of (fun tm => wordsOf (typeRegs f.md.toNat) (op (intWidth f.md.toNat) (tm.snum f.a (typeRegs f.md.toNat)) (uniB f tm n))) e h (wordsOf_length _ _)
/-- A uniform count. -/
theorem uni_count {s : State} {i : Instr} {is : Issue} {f : UWord} (op : Nat → Nat → Nat) (e : exec i s = runWord i (uniCount f op) s) (h : s.Runs i is) :
    s.Uniform i is f.d.toNat 1 [BitVec.ofNat 32 (op (intWidth f.md.toNat) (is.team.snum f.a (typeRegs f.md.toNat)))] :=
  uni_of (fun tm => [BitVec.ofNat 32 (op (intWidth f.md.toNat) (tm.snum f.a (typeRegs f.md.toNat)))]) e h rfl


end Sys2Proof.Machine
end

