-- ==== Sys2Proof/Tests/Slice0.lean ====
section
/-! SUPPORT. Tests on small states: ill-formed terms, words written out from the manual's encodings, worked examples, and states that meet the hypotheses of each statement. -/

namespace Sys2Proof.Tests
open Sys2Proof Sys2Proof.Machine

set_option Elab.async false

/-- The guard `p7`, which always holds (R45). -/
def p7 : Guard := ⟨false, 7⟩
/-- A guard that never holds. -/
def pN : Guard := ⟨true, 7⟩
/-- A form R word under `p7`. -/
def rw_ (md : BitVec 4) (x : BitVec 7) (d a b c : BitVec 8) : RWord := ⟨p7, p7, md, false, 0, x, d, a, b, c⟩
/-- A form I word under `p7`. -/
def iw (md : BitVec 4) (x : BitVec 7) (d a : BitVec 8) (imm : BitVec 16) : IWord := ⟨p7, p7, md, false, 0, x, d, a, imm⟩
/-- A form U word under `p7`. -/
def uw (md : BitVec 4) (d a b : BitVec 9) : UWord := ⟨p7, p7, md, false, false, d, a, b, 0⟩

/-- The word being issued, from a clause of one word at 0x1000. -/
def curOf (w : DWord) : Cur := ⟨0, 0, 0, 0x1008, w, fetchHeader, 0x1000, 0, 0, w⟩
/-- The state after reset with a word in issue, for one thread of one team. -/
def on (i : Instr) : State := { State.reset.placeWord (encode i) with cur := some (curOf (encode i)) }
/-- What the word being issued meets. -/
def issueOf (i : Instr) (s : State) : Option Issue :=
  match i.fields with
  | none => none
  | some (_, f) => s.issue (guardsOf f).1 (guardsOf f).2
/-- Whether a word executes, with a further test of what it meets. -/
def runs (i : Instr) (s : State) (p : Issue → Bool) : Bool :=
  match issueOf i s with
  | none => false
  | some is => !is.act.isEmpty && badOperand is.team.frame i == none && (is.act.all fun t => pendingRead s is i t == none) && i.wellFormed && p is

/-- The test is what the statements assume. -/
theorem runs_sound {i : Instr} {s : State} {p : Issue → Bool} (h : runs i s p = true) : ∃ is, s.Runs i is ∧ p is = true := by
  unfold runs at h
  cases e : issueOf i s with
  | none => simp [e] at h
  | some is =>
    simp only [e, Bool.and_eq_true, Bool.not_eq_true', beq_iff_eq, List.all_eq_true] at h
    obtain ⟨⟨⟨⟨h1, h2⟩, h3⟩, h4⟩, h5⟩ := h
    unfold issueOf at e
    cases g : i.fields with
    | none => simp [g] at e
    | some x =>
      obtain ⟨op, f⟩ := x
      simp only [g] at e
      exact ⟨is, ⟨⟨op, f, g, e⟩, by intro n; simp [n] at h1, h2, h3, h4⟩, h5⟩

/-- The same for each of a list of words. -/
theorem all_run {l : List Instr} (h : (l.all fun i => runs i (on i) fun _ => true) = true) : ∀ i ∈ l, ∃ is, (on i).Runs i is :=
  fun i hi => (runs_sound (List.all_eq_true.mp h i hi)).imp fun _ h => h.1

/-- IntegerResults: each integer word executes. -/
theorem test_integer_run : ∀ i ∈ [Instr.add (rw_ 0 0 8 4 6 0xFF), .sub (rw_ 0 0 8 4 6 0xFF), .addc (rw_ 1 0 8 4 6 0xFF), .subb (rw_ 1 0 8 4 6 0xFF),
    .mul (rw_ 0 0 8 4 6 0xFF), .mulh (rw_ 0 0 8 4 6 0xFF), .mad (rw_ 0 0 8 4 6 10), .madw (rw_ 0 0 8 4 6 10),
    .min (rw_ 0 0 8 4 6 0xFF), .max (rw_ 0 0 8 4 6 0xFF), .abs (rw_ 0 0 8 4 0xFF 0xFF), .cmp (rw_ 0 0 8 4 6 0xFF),
    .addI (iw 0 0 8 4 0), .subI (iw 0 0 8 4 0), .mulI (iw 0 0 8 4 0), .minI (iw 0 0 8 4 0), .maxI (iw 0 0 8 4 0),
    .cmpI (iw 0 0 8 4 0)],
    ∃ is, (on i).Runs i is := all_run (by decide +kernel)

/-- DivisionResults. -/
theorem test_division_run : ∀ i ∈ [Instr.div (rw_ 0 0 8 4 6 0xFF), .rem (rw_ 0 0 8 4 6 0xFF)],
    ∃ is, (on i).Runs i is := all_run (by decide +kernel)

/-- BitResults: each bit and address word of registers or with an immediate executes. -/
theorem test_bit_run : ∀ i ∈ [Instr.and (rw_ 0 0 8 4 6 0xFF), .or (rw_ 0 0 8 4 6 0xFF), .xor (rw_ 0 0 8 4 6 0xFF), .andn (rw_ 0 0 8 4 6 0xFF),
    .not (rw_ 0 0 8 4 0xFF 0xFF), .shl (rw_ 0 0 8 4 6 0xFF), .shr (rw_ 0 0 8 4 6 0xFF), .sar (rw_ 0 0 8 4 6 0xFF),
    .rot (rw_ 0 0 8 4 6 0xFF), .bfe (rw_ 0 0 8 4 6 0xFF), .bfi (rw_ 0 0 8 4 6 10), .popc (rw_ 0 0 8 4 0xFF 0xFF),
    .clz (rw_ 0 0 8 4 0xFF 0xFF), .ctz (rw_ 0 0 8 4 0xFF 0xFF), .brev (rw_ 0 0 8 4 0xFF 0xFF), .perm (rw_ 0 0 8 4 6 10),
    .lea (rw_ 0 0 8 4 6 0xFF), .sel (rw_ 0 0 8 4 6 0xFF), .mov (rw_ 0 0 8 4 0xFF 0xFF), .andI (iw 0 0 8 4 0),
    .orI (iw 0 0 8 4 0), .xorI (iw 0 0 8 4 0), .andnI (iw 0 0 8 4 0), .shlI (iw 0 0 8 4 0), .shrI (iw 0 0 8 4 0),
    .sarI (iw 0 0 8 4 0), .rotI (iw 0 0 8 4 0), .leaI (iw 0 0 8 4 0)],
    ∃ is, (on i).Runs i is := all_run (by decide +kernel)

/-- FloatResults: each float word executes with a 32-bit or packed type, and all but `fdot2` with f64. -/
theorem test_float_run : ∀ i ∈ [Instr.fadd (rw_ 8 0 8 4 6 0xFF), .fsub (rw_ 8 0 8 4 6 0xFF), .fmul (rw_ 8 0 8 4 6 0xFF), .ffma (rw_ 8 0 8 4 6 10),
    .fmin (rw_ 8 0 8 4 6 0xFF), .fmax (rw_ 8 0 8 4 6 0xFF), .fcmp (rw_ 8 0 8 4 6 0xFF), .fclass (rw_ 8 0 8 4 0xFF 0xFF),
    .frnd (rw_ 8 0 8 4 0xFF 0xFF), .fdot2 (rw_ 12 0 8 4 6 10), .fadd (rw_ 11 0 8 4 6 0xFF), .fsub (rw_ 11 0 8 4 6 0xFF),
    .fmul (rw_ 11 0 8 4 6 0xFF), .ffma (rw_ 11 0 8 4 6 10), .fmin (rw_ 11 0 8 4 6 0xFF), .fmax (rw_ 11 0 8 4 6 0xFF),
    .fcmp (rw_ 11 0 8 4 6 0xFF), .fclass (rw_ 11 0 8 4 0xFF 0xFF), .frnd (rw_ 11 0 8 4 0xFF 0xFF)],
    ∃ is, (on i).Runs i is := all_run (by decide +kernel)

/-- ConversionAndPredicateResults: with f32 and with f64 on either side, both moves of predicates, and the special registers 0 and 0x30. -/
theorem test_conversion_run : ∀ i ∈ [Instr.fcvt (rw_ 8 0x28 8 4 0xFF 0xFF), .fcvt (rw_ 11 0x20 8 4 0xFF 0xFF), .fcvt (rw_ 8 0x2C 8 4 0xFF 0xFF),
    .fcvt (rw_ 8 0x30 8 4 0xFF 0xFF), .icvt (rw_ 0 0 8 4 0xFF 0xFF), .pset (rw_ 0 0 0xFF 0xFF 0xFF 0xFF),
    .pmov (rw_ 0 0 8 0xFF 0xFF 0xFF), .pmov (rw_ 1 0x7F 0xFF 4 0xFF 0xFF), .lwaitTest (rw_ 1 0 8 4 0xFF 0xFF),
    .sreg (iw 0 0 8 0xFF 0), .sreg (iw 0 0 8 0xFF 0x30)],
    ∃ is, (on i).Runs i is := all_run (by decide +kernel)

/-- SubGroupResults. -/
theorem test_subgroup_run : ∀ i ∈ [Instr.shfl (rw_ 0 0 8 4 6 0xFF), .sbc (rw_ 0 0 8 4 6 0xFF), .svote (rw_ 0 0 8 0xFF 0xFF 0xFF), .sred (rw_ 0 0 8 4 0xFF 0xFF),
    .sscan (rw_ 0 0 8 4 0xFF 0xFF), .smv (rw_ 8 0 8 4 0xFF 0xFF)],
    ∃ is, (on i).Runs i is := all_run (by decide +kernel)

/-- UniformResults. -/
theorem test_uniform_run : ∀ i ∈ [Instr.uAdd (uw 0 8 4 6), .uSub (uw 0 8 4 6), .uMul (uw 0 8 4 6), .uMin (uw 0 8 4 6), .uMax (uw 0 8 4 6), .uAnd (uw 0 8 4 6),
    .uOr (uw 0 8 4 6), .uXor (uw 0 8 4 6), .uAndn (uw 0 8 4 6), .uNot (uw 0 8 4 0), .uShl (uw 0 8 4 6), .uShr (uw 0 8 4 6),
    .uSar (uw 0 8 4 6), .uBfe (uw 0 8 4 6), .uPopc (uw 0 8 4 0), .uClz (uw 0 8 4 0), .uCtz (uw 0 8 4 0), .uMov (uw 0 8 4 0),
    .uLea (uw 0 8 4 6)],
    ∃ is, (on i).Runs i is := all_run (by decide +kernel)

/-- RandomAndControlReads and StatusReadsIssue. -/
theorem test_status_run : ∀ i ∈ [Instr.rand (rw_ 1 0 8 0xFF 0xFF 0xFF), .ctlRd (rw_ 0 0 8 0xFF 0xFF 0xFF), .fnsync (rw_ 0 0 0xFF 0xFF 0xFF 0xFF),
    .fnq (rw_ 0 0 8 0xFF 0xFF 0xFF), .cpFill (rw_ 0 0 8 0xFF 0xFF 0xFF)],
    ∃ is, (on i).Runs i is := all_run (by decide +kernel)

/-- BranchResults; LeavingWords: `yield`, and `tret` with each MOD. -/
theorem test_branch_run : ∀ i ∈ [Instr.nop (rw_ 0 0 0xFF 0xFF 0xFF 0xFF), .jmp (rw_ 0 0 0xFF 4 0xFF 0xFF), .yield (rw_ 0 0 0xFF 0xFF 0xFF 0xFF),
    .tret (rw_ 0 0 0xFF 0xFF 0xFF 0xFF), .tret (rw_ 1 0 0xFF 0xFF 0xFF 0xFF), .tret (rw_ 2 0 0xFF 4 0xFF 0xFF)],
    ∃ is, (on i).Runs i is := all_run (by decide +kernel)

/-- What the word being issued meets, as a term. -/
def at_ (i : Instr) (s : State) : Issue := (issueOf i s).getD ⟨curOf 0, fetchTeam, fetchPack 0, [], []⟩

/-- The same test for the term. -/
theorem runs_at {i : Instr} {s : State} (h : runs i s (fun _ => true) = true) : s.Runs i (at_ i s) := by
  obtain ⟨is, r, -⟩ := runs_sound h
  have r' := r
  obtain ⟨⟨op, f, e, g⟩, -⟩ := r
  have : issueOf i s = some is := by unfold issueOf; rw [e]; exact g
  unfold at_; rw [this]; exact r'

/-- A state with nothing in flight on a core. -/
theorem idle_of {s : State} {c : Nat} (h : ((s.core c).ops.isEmpty && (s.core c).loads.isEmpty && (s.arrayOf c).array.isEmpty) = true) :
    s.Idle c := by
  simp only [Bool.and_eq_true, List.isEmpty_iff] at h
  exact ⟨h.1.1, h.1.2, h.2⟩

/-- Nothing in flight, so nothing is about to be performed. -/
theorem calm_of {s : State} {c : Nat} (h : (s.core c).ops.isEmpty = true) : s.Calm c := by
  intro o ho; rw [List.isEmpty_iff.mp h] at ho; cases ho

/-- Whether a translation answers an address. -/
def isOk : Xl → Bool
  | .ok _ _ _ => true
  | _ => false

/-- A translation that answers an address. -/
theorem ok_of {x : Xl} (h : isOk x = true) : ∃ pa loc ink, x = .ok pa loc ink := by
  cases x <;> first | exact ⟨_, _, _, rfl⟩ | cases h

/-- Every thread's access is aligned and translated. -/
theorem reach_of {s : State} {is : Issue} {a : Acc} {n col : Nat} {f : Thread → DWord}
    (h : (is.act.all fun t => !misaligned (f t) n col && isOk (is.xlate s a (f t))) = true) : ∀ t ∈ is.act, s.Reaches is a (f t) n col := by
  intro t ht
  have := List.all_eq_true.mp h t ht
  simp only [Bool.and_eq_true, Bool.not_eq_true'] at this
  exact ⟨this.1, ok_of this.2⟩

/-- No fault slot takes the fault, and no thread is in patch mode. -/
theorem noSlot_of {s : State} {is : Issue} {cls : Nat} (h : ((is.act.all fun t => !t.patched)
    && (s.faultSlot is.team.ctx (faultWord cls (opOf is.cur.word).toNat) is.cur.hdr).1 == 0) = true) : s.NoFaultSlot is cls := by
  simp only [Bool.and_eq_true, List.all_eq_true, Bool.not_eq_true', beq_iff_eq] at h
  refine ⟨fun t ht => h.1 t ht, ?_, ?_⟩ <;> rw [h.2] <;> decide

/-- The one thread of these states. -/
def th0 : Thread := freshThread 0 0 0 0 0 0 128
/-- The state with a word in issue and its thread replaced. -/
def onTh (i : Instr) (t : Thread) : State := { on i with threads := [t] }
/-- The state with a word in issue and its team replaced. -/
def onTm (i : Instr) (t : Team) : State := { on i with teams := [t] }
/-- The state with a word in issue and its core replaced. -/
def onCo (i : Instr) (c : Core) : State := { on i with cores := [c] }
/-- The first gigabyte, mapped to itself, writable and executable. -/
def tlb0 : TlbEntry := ⟨0, 0, 30, 0, 0x6F, true⟩
/-- The state with a word in issue, and the first gigabyte owned and in the TLB of core 0. -/
def mapped (i : Instr) : State := { onCo i { Core.init 0 with tlb1 := [tlb0] } with regions := [(0, 0, 0)] }
/-- A grid of the team. -/
def grid0 : Grid :=
  { gid := 0, ctx := 0, launchid := 5, depth := 1, prio := 0, packet := List.replicate 0x38 0 ++ [64, 0, 0, 0], parent := none, queue := none, die := none,
    compl := .none, accepted := true, entry := [], obj := 0, args := [], preload := [], nextTeam := 1, teams := [(0, 0)], preCores := [], retired := 0,
    finished := false }

/-- BitResults: the four writes of `movi`. -/
theorem test_movi_run : ∀ i ∈ [Instr.movi ⟨p7, p7, 8, 0, 5⟩, .movi ⟨p7, p7, 8, 1, 5⟩, .movi ⟨p7, p7, 8, 2, 5⟩, .movi ⟨p7, p7, 8, 3, 5⟩, .bra ⟨p7, p7, 0, 2⟩],
    ∃ is, (on i).Runs i is := all_run (by decide +kernel)

/-- IntegerResults, BitResults, ConversionAndPredicateResults: the clauses on reserved codes. -/
theorem test_reserved_codes : 6 ≤ ((0x0C : BitVec 7).extractLsb' 1 3).toNat ∧ (Instr.movi ⟨p7, p7, 8, 3, 5⟩).wellFormed = true
    ∧ (Instr.pset (rw_ 8 0x32 0xFF 0xFF 0xFF 0xFF)).wellFormed = true ∧ (Instr.pmov (rw_ 1 0x7F 0xFF 4 0xFF 0xFF)).wellFormed = true := by decide +kernel

/-- GlobalLoadsAndStoresIssue: each word reaches its line. -/
theorem test_global_words_reach :
    (let i := Instr.ld (iw 0 0 8 4 16); let s := mapped i; s.Runs i (at_ i s) ∧ s.Calm 0
      ∧ ∀ t ∈ (at_ i s).act, s.Reaches (at_ i s) .read ((at_ i s).pair t 4 + (16 : BitVec 16).signExtend 64) 4 0)
    ∧ (let i := Instr.st (iw 3 0 8 4 16); let s := mapped i; s.Runs i (at_ i s) ∧ s.Calm 0
      ∧ ∀ t ∈ (at_ i s).act, s.Reaches (at_ i s) .write ((at_ i s).pair t 4 + (16 : BitVec 16).signExtend 64) 8 0) :=
  ⟨⟨runs_at (by decide +kernel), calm_of (by decide +kernel), reach_of (by decide +kernel)⟩,
   ⟨runs_at (by decide +kernel), calm_of (by decide +kernel), reach_of (by decide +kernel)⟩⟩


/-- A word that executes, with what it meets. -/
theorem meets {i : Instr} {s : State} {P : Issue → Prop} (h : runs i s (fun _ => true) = true) (p : P (at_ i s)) :
    ∃ is, s.Runs i is ∧ P is := ⟨_, runs_at h, p⟩

/-- An operation of the thread, in the line queue. -/
def op0 : Op :=
  { id := 0, word := 0, part := 0, slot := 0, team := 0, ctx := 0, kind := .load, stage := .queued, xlated := true, pc := 0, va := 0x100, pa := 0x100,
    loc := 0, ink := false, size := 4, col := 0, data := [], data2 := [], order := 0, scope := 0, policy := 0, md := 0, dest := [.v 0 8], vals := [],
    preds := [], flag := some 0, line := [], noInstall := false, bypass := false, pins := [], poisoned := false, also := [], stampAt := 0, since := 0,
    hops := [], sampled := false, perf := 0, gindex := 0, fault := none, wakes := none }
/-- A function register that holds a descriptor without a chain. -/
def fn0 : FnReg := ⟨⟨[0, 0, 0, 0, 0, 0, 0xFF], 0, 0, true⟩, .empty, false⟩
/-- A core with a valid function register 0. -/
def fnCore : Core := { Core.init 0 with fns := fn0 :: List.replicate 15 .empty }
/-- A team of 128 threads with a format slot for each format, zero pointers, and 4 KiB of scratch. -/
def matTeam : Team := { fetchTeam with size := 128, scratchBytes := 4096, fs := [1, 2, 4, 6, 0, 0, 0, 0] }
/-- The state with a matrix word in issue, the array reserved, and a shape word in `v10`. -/
def onMat (i : Instr) (shape : Word) : State :=
  { onCo i { Core.init 0 with resv := some (0, false) } with teams := [matTeam], threads := [{ th0 with regs := th0.regs.set 10 shape }] }

/-- GlobalLoadsAndStoresIssue: the line words and the shared load, a row and a column. -/
theorem test_line_words_reach :
    (let i := Instr.ldx (iw 0 0 8 4 32); ∃ is, (mapped i).Runs i is ∧ (mapped i).Calm is.cur.core
      ∧ ∀ t ∈ is.act, (mapped i).Reaches is .read (is.pair t 4 + (32 : BitVec 16).signExtend 64) 32 0)
    ∧ (let i := Instr.stx (iw 0xA 0 8 4 0x100); ∃ is, (mapped i).Runs i is ∧ (mapped i).Calm is.cur.core
      ∧ ∀ t ∈ is.act, (mapped i).Reaches is .write (is.pair t 4 + (0x100 : BitVec 16).signExtend 64) 32 (lineCol (iw 0xA 0 8 4 0x100)))
    ∧ (let i := Instr.lds (iw 0 0 0x88 0x84 8); ∃ is, (mapped i).Runs i is ∧ (mapped i).Calm is.cur.core
      ∧ ∀ t ∈ is.act, (mapped i).Reaches is .read (is.pair t 0x84 + (8 : BitVec 16).signExtend 64) 4 0) :=
  ⟨meets (by decide +kernel) ⟨calm_of (by decide +kernel), reach_of (by decide +kernel)⟩,
   meets (by decide +kernel) ⟨calm_of (by decide +kernel), reach_of (by decide +kernel)⟩,
   meets (by decide +kernel) ⟨calm_of (by decide +kernel), reach_of (by decide +kernel)⟩⟩

/-- AtomicsIssue: an atomic and a reduction of each width. -/
theorem test_atomics_reach : ∀ i ∈ [(Instr.atomB32 (rw_ 0 0 8 4 6 0xFF), 4), (.atomB64 (rw_ 0 0 8 4 6 0xFF), 8), (.redB32 (rw_ 0 0 0xFF 4 6 0xFF), 4),
    (.redB64 (rw_ 0 0 0xFF 4 6 0xFF), 8)], ∃ is, (mapped i.1).Runs i.1 is ∧ (mapped i.1).Calm is.cur.core
      ∧ ∀ t ∈ is.act, (mapped i.1).Reaches is (.atomic (atomicCarried 0)) (is.pair t 4) i.2 0 := by
  intro i hi
  have h : ([(Instr.atomB32 (rw_ 0 0 8 4 6 0xFF), 4), (.atomB64 (rw_ 0 0 8 4 6 0xFF), 8), (.redB32 (rw_ 0 0 0xFF 4 6 0xFF), 4),
      (.redB64 (rw_ 0 0 0xFF 4 6 0xFF), 8)].all fun i => runs i.1 (mapped i.1) (fun _ => true) && ((mapped i.1).core 0).ops.isEmpty
      && (at_ i.1 (mapped i.1)).cur.core == 0 && ((at_ i.1 (mapped i.1)).act.all fun t => !misaligned ((at_ i.1 (mapped i.1)).pair t 4) i.2 0
        && isOk ((at_ i.1 (mapped i.1)).xlate (mapped i.1) (.atomic (atomicCarried 0)) ((at_ i.1 (mapped i.1)).pair t 4)))) = true := by decide +kernel
  have := List.all_eq_true.mp h i hi
  simp only [Bool.and_eq_true, beq_iff_eq] at this
  obtain ⟨⟨⟨h1, h2⟩, h3⟩, h4⟩ := this
  exact meets h1 ⟨by rw [h3]; exact calm_of h2, reach_of h4⟩

/-- ControlWritesIssue: the firmware writes `trapvec`. -/
theorem test_control_write : let i := Instr.ctlWr (rw_ 0 1 0xFF 4 0xFF 0xFF)
    let s : State := { on i with cur := some { curOf (encode i) with part := 8 }, threads := [{ th0 with part := 8 }],
                                 parts := [{ Part.init 0 8 with streams := [(Stream.init 0).withPack (fetchPack (encode i))] }] }
    ∃ is, s.Runs i is ∧ isFirmware is.cur.part = true ∧ (0 : BitVec 4).toNat * 128 + (1 : BitVec 7).toNat ∈ [1, 2, 3, 5, 6] :=
  meets (by decide +kernel) (by decide +kernel)

/-- FunctionAppliesIssue and the invalid register of OperandTraps. -/
theorem test_applies : ∀ i ∈ [Instr.fapp (rw_ 8 0 8 4 0xFF 0xFF), .fappd (rw_ 8 0 8 4 0xFF 0xFF), .fapp2 (rw_ 8 0 8 4 0xFF 0xFF),
    .ssmx (rw_ 0 0 8 4 0xFF 0xFF)], (∃ is, (onCo i fnCore).Runs i is ∧ (fnInvalid (onCo i fnCore) is 0 == none) = true)
      ∧ ∃ is, (on i).Runs i is ∧ (fnInvalid (on i) is 0).isSome = true := by
  intro i hi
  have h : ([Instr.fapp (rw_ 8 0 8 4 0xFF 0xFF), .fappd (rw_ 8 0 8 4 0xFF 0xFF), .fapp2 (rw_ 8 0 8 4 0xFF 0xFF), .ssmx (rw_ 0 0 8 4 0xFF 0xFF)].all
    fun i => runs i (onCo i fnCore) (fun is => fnInvalid (onCo i fnCore) is 0 == none) && runs i (on i) (fun is => (fnInvalid (on i) is 0).isSome)) = true := by
    decide +kernel
  have := List.all_eq_true.mp h i hi
  simp only [Bool.and_eq_true] at this
  exact ⟨runs_sound this.1, runs_sound this.2⟩

/-- MatrixWordsQueue: each matrix word passes its checks on an array that its team holds. -/
theorem test_matrix_words_pass : ∀ x ∈ [(Mat.mk .mmac (rw_ 0 0 8 0x10 6 10), (0x00200000 : Word)), (.mk .mdual (rw_ 0 0 8 0x10 6 10), 0x0),
    (.mk .mzero (rw_ 0 0 0xFF 0xFF 0xFF 10), 0x7F), (.mk .mld (rw_ 0 4 0xFF 4 0xFF 10), 0x00100000), (.mk .mst (rw_ 0 0 8 4 0xFF 10), 0x00100000),
    (.mk .qcvt (rw_ 8 2 8 4 6 10), 1), (.mk .dqcvt (rw_ 0 4 8 4 6 10), 1024)],
    let i := match x.1.kind with
      | .mmac => Instr.mmac x.1.f | .mdual => .mdual x.1.f | .mzero => .mzero x.1.f | .mld => .mld x.1.f | .mst => .mst x.1.f
      | .qcvt => .qcvt x.1.f | .dqcvt => .dqcvt x.1.f
    runs i (onMat i x.2) (fun is => (is.leader.map fun e => x.1.check (onMat i x.2) is e) == some none) = true := by decide +kernel


/-- An array word of the team, queued. -/
def arr0 : ArrayOp :=
  { id := 1, core := 0, word := encode (.mzero (rw_ 0 0 0xFF 0xFF 0xFF 10)), at_ := resumeAt 0x1008 0x1000 fetchHeader 0, ctx := 0, team := 0, part := 0, slot := 0,
    slots := [0], flag := 0, d := 0, a := 0, b := 0, c := 0, started := none, made := false, dur := 0, counts := [], am := none, amNan := false, amMag := 0,
    trap := ⟨0x1008, encode (.mzero (rw_ 0 0 0xFF 0xFF 0xFF 10)), 0x1000, fetchHeader, true, false, 0⟩, issued := 0 }
/-- A core with a reservation. -/
def held (pair : Bool) : Core := { Core.init 0 with resv := some (0, pair) }

/-- ArrayReservation: `mres` granted, single and pair, and refused; `mrel` without a reservation, with a word queued, and of each kind. -/
theorem test_reservations :
    (let i := Instr.mres (rw_ 0 0 0xFF 0xFF 0xFF 0xFF)
     runs i (on i) (fun is => (on i).arrayFree is.cur.core is.team.slot && (on i).holds is.cur.core is.team.slot == none) = true)
    ∧ (let i := Instr.mres (rw_ 8 0 0xFF 0xFF 0xFF 0xFF)
       let s := { on i with vfs := [{ Vf.reset 0 with vcore := 3 }] }
       runs i s (fun is => s.pairFree is.cur.core is.team && s.holds is.cur.core is.team.slot == none) = true)
    ∧ (let i := Instr.mres (rw_ 0 0 0xFF 0xFF 0xFF 0xFF)
       let s := onCo i { Core.init 0 with resv := some (1, false) }
       runs i s (fun is => !s.arrayFree is.cur.core is.team.slot) = true)
    ∧ (let i := Instr.mrel (rw_ 0 0 0xFF 0xFF 0xFF 0xFF)
       runs i (on i) (fun is => (on i).holds is.cur.core is.team.slot == none) = true
       ∧ runs i (onCo i { held false with array := [arr0] }) (fun is => (onCo i { held false with array := [arr0] }).holds is.cur.core is.team.slot == some false
          && ((onCo i { held false with array := [arr0] }).arrayOf is.cur.core).array.any fun o => o.core == is.cur.core && o.team == is.team.slot) = true
       ∧ runs i (onCo i (held false)) (fun is => (onCo i (held false)).holds is.cur.core is.team.slot == some false) = true
       ∧ runs i (onCo i (held true)) (fun is => (onCo i (held true)).holds is.cur.core is.team.slot == some true
          && ((onCo i (held true)).arrayOf is.cur.core).array.isEmpty) = true) := by decide +kernel

/-- BadOperandsTrap: an odd pair as D, and an odd scalar pair of form U; NoFaultSlot as it assumes. -/
theorem test_bad_operands_come : ∀ i ∈ [Instr.add (rw_ 3 0 9 4 6 0xFF), .uAdd (uw 3 8 5 6)], ∃ is v, (on i).Comes i is
    ∧ badOperand is.team.frame i = some v ∧ (on i).NoFaultSlot is 4 := by
  intro i hi
  have h : ([Instr.add (rw_ 3 0 9 4 6 0xFF), .uAdd (uw 3 8 5 6)].all fun i => !(at_ i (on i)).act.isEmpty && (badOperand (at_ i (on i)).team.frame i).isSome
    && (match i.fields with | some (_, f) => (on i).issue (guardsOf f).1 (guardsOf f).2 == some (at_ i (on i)) | none => false)
    && (((at_ i (on i)).act.all fun t => !t.patched)
      && ((on i).faultSlot (at_ i (on i)).team.ctx (faultWord 4 (opOf (at_ i (on i)).cur.word).toNat) (at_ i (on i)).cur.hdr).1 == 0)) = true := by decide +kernel
  have := List.all_eq_true.mp h i hi
  rw [Bool.and_eq_true, Bool.and_eq_true, Bool.and_eq_true] at this
  obtain ⟨⟨⟨h1, h2⟩, h3⟩, h4⟩ := this
  obtain ⟨v, hv⟩ := Option.isSome_iff_exists.mp h2
  refine ⟨at_ i (on i), v, ⟨?_, ?_⟩, hv, noSlot_of h4⟩
  · cases e : i.fields with
    | none => rw [e] at h3; cases h3
    | some x => rw [e] at h3; exact ⟨x.1, x.2, rfl, by simpa using h3⟩
  · intro e; rw [e] at h1; cases h1

/-- PendingOperandsPark: a marked pair of a grid that has not retired, and a tagged scalar pair. -/
theorem test_pending_operands :
    (let i := Instr.add (rw_ 3 0 8 4 6 0xFF)
     let s := { onTh i { th0 with gridpend := 4, regs := th0.regs.set 4 5 } with grids := [grid0] }
     pendingRead s (at_ i s) i { th0 with gridpend := 4, regs := th0.regs.set 4 5 } = some (.at_ (.grid 0) false)
       ∧ badOperand (at_ i s).team.frame i = none ∧ (at_ i s).act ≠ [])
    ∧ (let i := Instr.uAdd (uw 3 8 4 6)
       let s := onTm i { fetchTeam with tags := [(4, 2, 7)] }
       pendingRead s (at_ i s) i th0 = some (.at_ (.handle 2 7) false) ∧ badOperand (at_ i s).team.frame i = none ∧ (at_ i s).act ≠ []) := by decide +kernel

/-- TrapWords: the words run, no fault slot is on, and a non-instruction comes to issue. -/
theorem test_trap_words_run : (∀ i ∈ [Instr.trap (iw 0 0 0xFF 0xFF 0x1234), .brk (iw 0 0 0xFF 0xFF 7), .ret (rw_ 0 0 0xFF 0xFF 0xFF 0xFF)],
      runs i (on i) (fun is => (is.act.all fun t => !t.patched && t.rs.isEmpty)
        && (on i).faultSlot is.team.ctx (faultWord 7 7) is.cur.hdr == (0, 0, 0)) = true)
    ∧ (let s : State := { State.reset.placeWord 0xD006E000040102FF with cur := some (curOf 0xD006E000040102FF) }
       let t : State := { s with threads := [{ th0 with preds := 2 }] }
       decode 0xD006E000040102FF = none ∧ ((t.issue (g0Of 0xD006E000040102FF) (g1Of 0xD006E000040102FF)).map fun is => is.act.length) = some 1) := by
  decide +kernel

/-- OperandTraps: an address off by one for every access of R165, a column on a row's boundary only, and a word outside scratch. -/
theorem test_misaligned :
    (∀ i ∈ [(Instr.ld (iw 0 0 8 4 1), 4), (.st (iw 0 0 8 4 2), 4), (.lds (iw 3 0 0x88 0x84 4), 8), (.ld (iw 5 0 8 4 1), 2)],
      runs i.1 (on i.1) (fun is => is.act.all fun t => (is.pair t 4 + (match i.1 with
        | .ld f | .st f | .lds f => f.imm.signExtend 64 | _ => 0)).toNat % i.2 != 0) = true)
    ∧ (∀ i ∈ [Instr.ldx (iw 0 0 8 4 16), .stx (iw 0 0 8 4 0xFFFF)], runs i (on i) (fun is => is.act.all fun t => (is.pair t 4 + (match i with
        | .ldx f | .stx f => f.imm.signExtend 64 | _ => 0)).toNat % 32 != 0) = true)
    ∧ (let f := iw 9 0 8 4 32; runs (.ldx f) (on (.ldx f)) (fun is => decide (lineCol f = 2) && is.act.all fun t =>
        (is.pair t f.a + f.imm.signExtend 64).toNat % 2 == 0 && (is.pair t f.a + f.imm.signExtend 64).toNat / 32 % 32 % 16 != 0) = true)
    ∧ (∀ i ∈ [(Instr.atomB32 (rw_ 0 0 8 4 6 0xFF), 4), (.atomB64 (rw_ 0 0 8 4 6 0xFF), 8), (.redB32 (rw_ 0 0 0xFF 4 6 0xFF), 4), (.redB64 (rw_ 0 0 0xFF 4 6 0xFF), 8)],
      runs i.1 (onTh i.1 { th0 with regs := th0.regs.set 4 2 }) (fun is => is.act.all fun t => (is.pair t 4).toNat % i.2 != 0) = true)
    ∧ (∀ i ∈ [Instr.ldl (iw 0 0 8 4 2), .stl (iw 0 0 8 4 0xFFFF), .ldFe (iw 0 0 8 4 4), .stFe (iw 0 0 8 4 0), .feSet (iw 0 0 0xFF 4 1)],
      runs i (on i) (fun is => is.team.scratchBytes == 0 && is.act.all fun t => is.val t 4 1 == 0) = true) := by decide +kernel

/-- OperandTraps: each matrix word without a reservation fails its check; `qcvt` and `dqcvt` with a block count of 0 do. -/
theorem test_matrix_words_fail : ∀ x ∈ [Mat.mk .mmac (rw_ 0 0 8 0x10 6 10), .mk .mdual (rw_ 0 0 8 0x10 6 10), .mk .mzero (rw_ 0 0 0xFF 0xFF 0xFF 10),
    .mk .mld (rw_ 0 4 0xFF 4 0xFF 10), .mk .mst (rw_ 0 0 8 4 0xFF 10), .mk .qcvt (rw_ 8 2 8 4 6 10), .mk .dqcvt (rw_ 0 4 8 4 6 10)],
    let i := match x.kind with
      | .mmac => Instr.mmac x.f | .mdual => .mdual x.f | .mzero => .mzero x.f | .mld => .mld x.f | .mst => .mst x.f | .qcvt => .qcvt x.f | .dqcvt => .dqcvt x.f
    let s := onTm i matTeam
    runs i s (fun is => (is.leader.map fun e => (x.check s is e).isSome) == some true) = true := by decide +kernel

/-- WordFates: a masked word, a privileged one, a non-instruction, a branch that is not last, and a word that goes on. -/
theorem test_fates : let i := Instr.add (rw_ 0 0 8 4 6 0xFF)
    let r := Instr.rand (rw_ 1 0 8 0xFF 0xFF 0xFF)
    let n := Instr.nret (rw_ 0 0 0xFF 0xFF 0xFF 0xFF)
    let b := Instr.bra ⟨p7, p7, 0, 2⟩
    ((on i).issue (g0Of (encode i)) (g1Of (encode i))).map (fun is => is.act.length) = some 1
      ∧ masked 2 (encode r) = true ∧ masked 0 (encode r) = false ∧ (opOf (encode n)).toNat / 64 = 0xF ∧ masked 0xFFF (encode n) = false
      ∧ decode 0x3006F800040102FF = none ∧ decode (encode b) = some b ∧ badPlace b (readHeader fetchHeader) false false 1 = true
      ∧ badPlace b (readHeader fetchHeader) true false 1 = false ∧ badPlace i (readHeader fetchHeader) true false 1 = false
      ∧ badPlace i (readHeader 0xD0000107E0000000) true false 1 = true := by decide +kernel


/-- The state with a word in issue, the first gigabyte mapped, and its thread and grid as given. -/
def mappedTh (i : Instr) (t : Thread) (g : List Grid) : State := { mapped i with threads := [t], grids := g }

/-- CallResults: a call with room, one that spills, a return, and one that refills. -/
theorem test_calls : (∀ i ∈ [Instr.call ⟨p7, p7, 0, 4⟩, .calli (rw_ 0 0 0xFF 4 0xFF 0xFF)],
      runs i (onTh i { th0 with rs := [1, 2, 3] }) (fun is => is.act.all fun t => decide (t.rs.length < 4)) = true
      ∧ (let s := mappedTh i { th0 with rs := [8, 16, 24, 32] } [grid0]
         runs i s (fun is => is.act.all fun t => t.rs.length == 4 && !t.refill && decide (8 * (t.spilled + 1) ≤ pktSpillStride (s.packetOf is.team))
          && isOk (s.xlateCore is.cur.core is.team.ctx [] .write (s.spillSlot is.team t t.spilled))) = true))
    ∧ (let i := Instr.ret (rw_ 0 0 0xFF 0xFF 0xFF 0xFF)
       runs i (onTh i { th0 with rs := [8] }) (fun is => is.act.all fun t => t.badFlags.isEmpty && !t.rs.isEmpty && t.spilled == 0) = true
       ∧ (let s := mappedTh i { th0 with rs := [8], spilled := 1 } [grid0]
          runs i s (fun is => is.act.all fun t => t.badFlags.isEmpty && t.rs.length == 1 && t.spilled != 0
            && isOk (s.xlateCore is.cur.core is.team.ctx [] .read (s.spillSlot is.team t (t.spilled - 1)))) = true)) := by decide +kernel

/-- LeavingWords: `exit` without a flag set, and with one. -/
theorem test_exits : let i := Instr.exit (rw_ 0 0 0xFF 0xFF 0xFF 0xFF)
    runs i (on i) (fun is => is.act.all fun t => t.flags == 0) = true
    ∧ runs i (onTh i { th0 with flags := 1 }) (fun is => ((onTh i { th0 with flags := 1 }).part 0 0).groups.isEmpty && is.act.all fun t => t.flags != 0) = true := by
  decide +kernel

/-- A second thread of the team, in the next slot. -/
def th1 : Thread := freshThread 0 0 1 0 1 1 128
/-- The state with a word in issue for the first of two threads of a team. -/
def onTwo (i : Instr) (a b : Thread) : State := { on i with threads := [a, b], teams := [{ fetchTeam with size := 2, started := 2 }] }

/-- BarrierWords: each word, with an access in flight, and a wait that has not arrived; a barrier that completes, and one for which a thread parks. -/
theorem test_barriers : let a := Instr.barArr (iw 0 0 0xFF 0xFF 15)
    let b := Instr.bar (iw 0 0 0xFF 0xFF 0)
    let w := Instr.barWait (iw 0 0 0xFF 0xFF 0)
    let free := fun (s : State) (is : Issue) => is.act.all fun t => !s.accessesOf is.cur.core is.cur.part t.slot 100
    let came : Thread := { th0 with arrived := 1, counted := 1 }
    (runs a (on a) (fun is => free (on a) is) = true)
    ∧ (let s := { onCo a { Core.init 0 with ops := [op0] } with nextId := 1 }
       runs a s (fun is => is.act.all fun t => !bitAt t.arrived 15 && s.accessesOf is.cur.core is.cur.part t.slot s.nextId) = true)
    ∧ (runs b (onTwo b th0 th1) (fun is => free (onTwo b th0 th1) is) = true)
    ∧ (runs w (on w) (fun is => is.act.all fun t => !bitAt t.arrived 0) = true)
    ∧ (runs w (onTh w came) (fun is => is.act.all fun t => bitAt t.arrived 0) = true)
    ∧ (let parked : Thread := { came with life := .parked (.barrier 0) }
       let s := onTwo w parked { th1 with arrived := 1, counted := 1, atBar := some ⟨0, true, normalAt 0x1010 0, none⟩ }
       s.barrierReady 0 0 0 = true ∧ s.thread? 0 0 0 = some parked ∧ parked.live = true ∧ (s.thread? 0 0 1).isSome = true)
    ∧ (let here : Thread := { came with atBar := some ⟨0, true, normalAt 0x1010 0, none⟩ }
       let s := onTwo w here th1
       s.barrierReady 0 0 0 = false ∧ s.barriersOf 0 0 = false ∧ { s with agenda := [.event (.barrierComplete 0 0 1)] }.barriersOf 0 0 = true
        ∧ { s with agenda := [.event (.barrierComplete 0 0 1)] }.barrierReady 0 0 0 = false ∧ s.thread? 0 here.part here.slot = some here) := by
  decide +kernel

/-- Whether nothing of core 0 is in flight or queued. -/
def idle (s : State) : Bool := (s.core 0).ops.isEmpty && (s.core 0).loads.isEmpty && (s.arrayOf 0).array.isEmpty

/-- A command of the team in a channel's queue. -/
def cmd0 : Command :=
  { id := 1, core := 0, team := 0, ctx := 0, gid := 0, part := 0, slot := 0, relId := 0, word := 0xB01DC0200A020181, tl := 2, val := 1, shp := 0, crd := List.replicate 8 0,
    fmtSlot := 0, phase := 0, recs := [], pos := 0, unacked := 0, pollAt := 0, paused := none, pausing := false, failed := false, num := 0 }
/-- The scalars `s4:s5` holding the handle of value 1 of timeline 2. -/
def tlTeam : Team := { fetchTeam with scalars := (List.replicate 512 0).set 4 1 |>.set 5 0xE2000000 }
/-- A timeline that has given out every value below 2^56. -/
def fullTl : Timeline := ⟨2 ^ 56 - 1, 0, 0, []⟩

/-- TimelineWords: a wait for 0 and for 1; the words on a handle and on none; a `tl.sig` with values left and with none left; a cancel of a queued command. -/
theorem test_timelines :
    (let i := Instr.tlWait (rw_ 2 0x28 0xFF 0xFF 0 0); runs i (on i) (fun is => is.act.all fun _ => decide (0 ≤ (is.team.tl 2).completed)) = true)
    ∧ (let i := Instr.tlWait (rw_ 2 0x28 0xFF 0xFF 0 1); runs i (on i) (fun is => is.act.all fun _ => decide ((is.team.tl 2).completed < 1)) = true)
    ∧ (let i := Instr.tlTest (uw 0 8 4 0); runs i (onTm i tlTeam) (fun is => readHandle (is.team.snum 4 2) == some (2, 1)) = true ∧ runs i (on i) (fun _ => true) = true)
    ∧ (let i := Instr.tlRd (uw 9 8 0 0); runs i (on i) (fun _ => true) = true)
    ∧ (let i := Instr.tlSig (uw 2 0 0 0)
       runs i (on i) (fun is => decide ((is.team.tl 2).assigned + 1 < tlEnd) && idle (on i)) = true
       ∧ runs i (onTm i { fetchTeam with tls := List.replicate 8 fullTl }) (fun is => decide (tlEnd ≤ (is.team.tl 2).assigned + 1)) = true)
    ∧ (let i := Instr.tlCancel (uw 0 8 4 0)
       runs i (onTm i tlTeam) (fun _ => ((onTm i tlTeam).unstartedAt 0 0 2 1).isNone) = true
       ∧ (let s := { onTm i tlTeam with chans := [{ Chan.init (.core 0 0 1) with queue := [cmd0] }] }
          runs i s (fun is => readHandle (is.team.snum 4 2) == some (2, 1) && (s.unstartedAt 0 0 2 1).isSome) = true)) := by decide +kernel

/-- A form E word with timeline 2, HND 22, SHP 8 and CRD 12. -/
def ew (bulk : Bool) (crd : BitVec 9) : EWord := ⟨p7, p7, 0, false, 2, 0, bulk, 22, 8, crd, 1⟩

/-- EngineCommandsQueue: each command with values left on its timeline, and with none left. -/
theorem test_commands : ∀ i ∈ [Instr.cp (ew false 12), .cpRed (ew true 12), .cpGat (ew false 12), .coll (ew true 12), .fur (ew false 0)],
    let fits (is : Issue) : Bool := (is.team.fs.getD 1 0).toNat % 16 == 0
    runs i (on i) (fun is => decide ((is.team.tl 2).assigned + 1 < tlEnd) && idle (on i) && fits is) = true
    ∧ runs i (onTm i { fetchTeam with tls := List.replicate 8 fullTl }) (fun is => decide (tlEnd ≤ (is.team.tl 2).assigned + 1) && fits is
        && (onTm i { fetchTeam with tls := List.replicate 8 fullTl }).faultSlot 0 (faultWord 4 0x2C0) is.cur.hdr == (0, 0, 0)) = true := by decide +kernel

/-- EngineCommandsQueue: a format slot that `cp.red` does not accept, and one that `coll` does not. -/
theorem test_commands_unfit : ∀ x ∈ [(Instr.cpRed (ew true 12), (3 : DWord)), (.coll (ew true 12), 0xA)],
    let s := onTm x.1 { fetchTeam with fs := List.replicate 8 x.2 }
    runs x.1 s (fun is => ((is.team.fs.getD 1 0).toNat % 16 == x.2.toNat) && s.faultSlot 0 (faultWord 4 0x2C1) is.cur.hdr == (0, 0, 0)) = true := by
  decide +kernel

/-- CacheAndLoadWords: a load of a descriptor, a prefetch of memory and of an unmapped page, and both invalidations. -/
theorem test_cache_words :
    (let i := Instr.fnld (rw_ 0 2 0xFF 4 0xFF 0xFF)
     runs i (mapped i) (fun is => (is.leader.map fun e => (fnPages (is.pair e 4)).all fun a => isOk (is.xlate (mapped i) .read a)) == some true) = true)
    ∧ (let i := Instr.prf (iw 0 0 0xFF 4 64)
       runs i (mapped i) (fun is => is.xlate (mapped i) .read 64 == .ok 64 0 false) = true
       ∧ runs i (onCo i { Core.init 0 with tlb1 := [tlb0] }) (fun is => is.xlate (onCo i { Core.init 0 with tlb1 := [tlb0] }) .read 64 == .bad 0x11 9) = true
       ∧ runs i (onCo i { Core.init 0 with tlb1 := [{ tlb0 with leaf := 0x26F }] }) (fun is =>
          is.xlate (onCo i { Core.init 0 with tlb1 := [{ tlb0 with leaf := 0x26F }] }) .read 64 == .ok 64 2 false) = true)
    ∧ (let i := Instr.cinv (iw 0 0 0xFF 0xFF 0); runs i (on i) (fun _ => true) = true)
    ∧ (let i := Instr.cinv (iw 1 0 0xFF 4 64); runs i (mapped i) (fun is => is.act.all fun _ => is.xlate (mapped i) .read 64 != .miss) = true) := by decide +kernel

/-- FenceResults: relaxed; with nothing in flight; and behind an access of the thread. -/
theorem test_fences : (let i := Instr.fence (iw 0 0 0xFF 0xFF 0); runs i (on i) (fun _ => true) = true)
    ∧ (let i := Instr.fence (iw 1 0x74 0xFF 0xFF 0)
       xOrder 0x74 = 3 ∧ xScope 0x74 = 5 ∧ runs i (on i) (fun _ => idle (on i)) = true)
    ∧ (let i := Instr.fence (iw 0 0x50 0xFF 0xFF 0)
       let s := { onCo i { Core.init 0 with ops := [op0] } with nextId := 1 }
       xOrder 0x50 = 2 ∧ xScope 0x50 = 4
        ∧ runs i s (fun is => ((s.core 0).ops.all fun o => o.outward) && is.act.all fun t => s.accessesOf 0 is.cur.part t.slot s.nextId) = true) := by decide +kernel

/-- Whether the banks of a window are unclaimed for a word that issues now. -/
def unclaimed (s : State) (us : List BankUse) : Bool := s.banksFree 0 (s.nextId + 1) s.nextId us

/-- LocalAccesses: a load and a store at the two ends of scratch. -/
theorem test_local_accesses :
    (∀ i ∈ [(Instr.ldl (iw 3 0 8 4 0), 0), (.ldl (iw 3 0 8 4 4088), 4088)],
     runs i.1 (onTm i.1 matTeam) (fun is => is.act.all fun t => i.2 % 8 == 0 && is.val t 4 1 == 0
      && idle (onTm i.1 matTeam) && ((onTm i.1 matTeam).window is.team is.cur.part t.slot i.2 8 false).isSome
      && unclaimed (onTm i.1 matTeam) ((Win.scratch i.2).banks 8)) = true)
    ∧ (let i := Instr.stl (iw 3 0 8 4 4088)
       runs i (onTm i matTeam) (fun is => is.act.length == 1 && (is.act.all fun t => (onTm i matTeam).window is.team is.cur.part t.slot 4088 8 true == some (.scratch 4088))
        && idle (onTm i matTeam) && unclaimed (onTm i matTeam) ((Win.scratch 4088).banks 8)) = true) := by
  decide +kernel

/-- LocalAccesses: a store to a register through the frame window. -/
theorem test_frame_window : let i := Instr.stl (iw 0 0 8 4 4)
    let s := onTh i { th0 with regs := th0.regs.set 4 0x30000000 }
    runs i s (fun is => is.act.length == 1 && (is.act.all fun t =>
      s.window is.team is.cur.part t.slot (is.val t 4 1 + 4) 4 true == some (.frame 0 0 1)) && !isFirmware is.cur.part
      && idle s && unclaimed s ((Win.frame 0 0 1).banks 4) && (s.thread? 0 0 0).isSome) = true := by
  decide +kernel

/-- The state with a word in issue for a team, and the bank of the word at 4 claimed or not. -/
def banked (i : Instr) (t : Team) (taken : Bool) : State :=
  let s := onTm i t
  if taken then s.onPart 0 0 fun q => { q with claims := [⟨0, s.clock, s.clock, true, none⟩] } else s

/-- Whether a word runs beside a full/empty word at 4 that is full or not, reserved or not, with its bank claimed or not. -/
def meetsWord (i : Instr) (full : Bool) (r : Option (Nat × Nat)) (taken : Bool) : Bool :=
  let s := banked i { matTeam with fe := [⟨4, full, r, []⟩] } taken
  runs i s fun is => is.act.length == 1 && idle s && (is.team.feWord 4).reserved == r && unclaimed s (scratchBanks 4 4) != taken
    && decide (s.waiterCount 0 < 512)

/-- FullEmptyWords: a full word and an empty one, ready and not, their bank claimed and not, and a word reserved for the thread or for another. -/
theorem test_full_empty : (∀ x ∈ [(Instr.ldFe (iw 0 0 8 4 4), true), (.stFe (iw 0 0 8 4 4), false), (.feSet (iw 1 0 0xFF 4 4), false)],
      (meetsWord x.1 x.2 none false && meetsWord x.1 x.2 none true && meetsWord x.1 x.2 (some (0, 0)) false) = true)
    ∧ ∀ x ∈ [(Instr.ldFe (iw 0 0 8 4 4), false), (.stFe (iw 0 0 8 4 4), true)],
      (meetsWord x.1 x.2 none false && meetsWord x.1 x.2 (some (0, 7)) false) = true := by decide +kernel

/-- FullEmptyWords: a waiter table that is full. -/
theorem test_full_waiters :
    let crowd : Team := { matTeam with fe := [⟨0, false, none, List.replicate 512 ⟨0, 1, true, 0, 0⟩⟩] }
    let crowdFull : Team := { crowd with fe := ⟨4, true, none, []⟩ :: crowd.fe }
    ∀ x ∈ [(Instr.ldFe (iw 0 0 8 4 4), crowd), (.stFe (iw 0 0 8 4 4), crowdFull)],
      runs x.1 (onTm x.1 x.2) (fun is => is.act.length == 1 && (is.team.feWord 4).full == (x.2.fe.length == 2) && (onTm x.1 x.2).waiterCount 0 == 512) = true := by
  decide +kernel

/-- LaunchWords: a launch at depth 1 and at depth 10; `lwait` on a pair without a mark and on a marked one. -/
theorem test_launches :
    (let i := Instr.launch (rw_ 2 0 8 4 0xFF 0xFF)
     let s := mappedTh i th0 [grid0]
     runs i s (fun is => ((s.grid? is.team.gid).map (·.depth)).getD 0 == 1 && is.act.all fun t => isOk (is.xlate s .read (is.pair t 4)) && isOk (is.xlate s .read (is.pair t 4 + 127))) = true
     ∧ runs i { s with grids := [{ grid0 with depth := 10 }] } (fun _ => true) = true)
    ∧ (let i := Instr.lwait (rw_ 0 0 0xFF 4 0xFF 0xFF)
       runs i (on i) (fun is => is.act.all fun t => ((on i).gridOfPair is t 4).isNone) = true
       ∧ (let s := mappedTh i { th0 with gridpend := 4, regs := th0.regs.set 4 5 } [grid0]
          runs i s (fun is => is.act.all fun t => s.gridOfPair is t 4 == some 0) = true)) := by decide +kernel

/-- What a thread in patch mode keeps of a word at an address. -/
def patchOf (at_ : DWord) : Patch := ⟨0x3006E000040102FF, at_, fetchHeader, 0, false, 0, 0x2000, 0, 1⟩

/-- PatchReturns: a thread in patch mode whose record is readable, for each MOD. -/
theorem test_patch_returns : ∀ i ∈ [Instr.nret (rw_ 0 0 0xFF 0xFF 0xFF 0xFF), .nret (rw_ 1 0 0xFF 8 0xFF 0xFF), .nret (rw_ 2 0 0xFF 0xFF 0xFF 0xFF)],
    let s := mappedTh i { th0 with patched := true, patch := some (patchOf 0x2008) } []
    runs i s (fun is => is.act.all fun t => is.xlate s .read (patchRecord (s.ctx 0) 0 0 t.slot) == .ok 0 0 false) = true := by decide +kernel

/-- A load of a patch record that has come, and the state that it lands in, with what else is in flight. -/
def patchLoad (md size : Nat) : Op :=
  { op0 with kind := .patchLoad, stage := .done, size := size, md := md, dest := [], flag := none, data2 := List.replicate size 0, vals := [0x1000, 0] }
def patching (at_ : DWord) (ops : List Op) : State :=
  { State.reset with threads := [{ th0 with patched := true, patch := some (patchOf at_) }], teams := [fetchTeam], cores := [{ Core.init 0 with ops := ops }] }

/-- PatchReturns: loads of a record that land, with the other still to come and as the last, after an emulated word and after a header. -/
theorem test_patch_lands :
    (∀ x ∈ [(0, 32), (1, 32), (2, 1)], ((patching 0x2008 [patchLoad x.1 x.2]).core 0).op? 0 = some (patchLoad x.1 x.2)
      ∧ ((patching 0x2008 [patchLoad x.1 x.2, { op0 with id := 1, kind := .patchLoad }]).core 0).op? 0 = some (patchLoad x.1 x.2))
    ∧ (∀ x ∈ [((0x2000 : DWord), 0), (0x2008, 0x0C0)], ((patching x.1 []).thread? 0 0 0).map (·.patch) = some (some (patchOf x.1))
      ∧ ((patching x.1 []).team? 0 0).isSome = true ∧ ((patching x.1 []).faultSlot 0 (faultWord 1 x.2) fetchHeader).1 = 0) := by decide +kernel


/-- A page for an agent that has no TLB of its own. -/
def pageFor (g : Agent) : Brought := ⟨g.owner, g.ctx, 0, 0, .page tlb0⟩
/-- The lines of a range, granted to an agent. -/
def linesFor (g : Agent) (how : How) (pa n : Nat) : List Grant := (linesPa pa n).map fun a => ⟨g.owner, a / 32, how⟩

/-- A pod of the team in which thread 0 waits for the clause at 0x1000. -/
def pod0 (n : Nat) : Pod := ⟨n, 0, 0x1000, false, false, 0, false, 0, [(0, 0)], 0, true, 0x1000, 0⟩
/-- The state with pods in partition 0 of core 0. -/
def podded (ps : List Pod) : State :=
  { State.reset with teams := [fetchTeam], threads := [{ th0 with life := .waiting }], parts := [{ Part.init 0 0 with pods := ps }] }
/-- A clause at 0x1000: its header and one `nop`. -/
def code0 : List Host.Cell :=
  [(0x1003, 0xE0), (0x1004, 0x0F), (0x1005, 0x01), (0x1007, 0xD0), (0x1008, 0xFF), (0x1009, 0xFF), (0x100A, 0xFF), (0x100B, 0xFF), (0x100D, 0xC0), (0x100E, 0x1D)]
/-- The same, with the code in memory and mapped. -/
def coded (ps : List Pod) : State :=
  { podded ps with mem := code0, regions := [(0, 0, 0)], cores := [{ Core.init 0 with tlb1 := [tlb0] }], granted := linesFor (fetchAgent 0 0) .row 0x1000 32 }
/-- The bytes of a clause fetch, if it answers. -/
def fetched : Code → Option (List Byte)
  | .ok bs => some bs
  | _ => none

/-- PodEvents: a pod to evict, one to open, a pack to form, a clause and a header to fetch, a filing, the entry queue, and a poll. -/
theorem test_pod_events :
    let x := { pod0 0 with isOpen := true, opened := 1 }
    let four := [{ x with opened := 300 }, { x with idx := 1, opened := 400 }, { x with idx := 2 }, { x with idx := 3 }, { pod0 4 with arrival := 256 }]
    (((podded four).toEvict ((podded four).part 0 0)).map (·.idx) = some 1)
    ∧ (((podded [pod0 0]).toOpen ((podded [pod0 0]).part 0 0)).map (·.idx) = some 0)
    ∧ (((podded [x]).core 0).halting = false ∧ (pickBy Pod.before (((podded [x]).part 0 0).openPods.filter fun y => y.opened != 0 && !((podded [x]).eligible ((podded [x]).part 0 0) y).isEmpty)).isSome = true
        ∧ ((podded [x]).team? 0 0).isSome = true ∧ ((podded [x]).freeStream ((podded [x]).part 0 0) ((podded [x]).widthOf ((podded [x]).part 0 0) x)).isSome = true)
    ∧ (fetched ((coded []).fetchCode 0 0 0 0x1000 8)).isSome = true
    ∧ fetched ((coded []).fetchCode 0 0 0 0x1008 (8 * hdrCount fetchHeader)) = some [0xFF, 0xFF, 0xFF, 0xFF, 0, 0xC0, 0x1D, 0]
    ∧ (Pack.formedFrom (pod0 0) [0] 0).clause = none
    ∧ ((fetched ((coded [{ pod0 0 with fetched := false }]).fetchCode 0 0 0 0x1000 8)).map fun h => (readHeader (BitVec.ofNat 64 (natOf h))).isEntry) = some true
    ∧ ((Part.fileIn (Part.init 0 0) 0 0 (normalAt 0x1000 0)).isSome = true ∧ ((podded []).thread? 0 0 0).isSome = true ∧ (podded []).barriersLeft 0 = false
        ∧ (podded []).threads.all (fun t => t.life == .waiting) = true)
    ∧ (Life.parked (.poll 0) = { th0 with life := .parked (.poll 0) }.life ∧ 0 ≤ (podded []).clock) := by decide +kernel

/-- CoreEvents: a result that lands; a store and a patch save acknowledged; an `fnsync` whose thread has nothing else under its flag, drains, or has;
a load that begins to switch and one that switches; a pack that has drained; a thread that enters patch mode; and a bank to reserve. -/
theorem test_core_events :
    let res : Op := { op0 with kind := .result, stage := .done, vals := [7] }
    let co (o : Op) : State := { podded [] with cores := [{ Core.init 0 with ops := [o] }] }
    let ld (t : Option Nat) : FnLoad := ⟨0, 0, 0, 0, [], 0, [0], 0, some (1 :: List.replicate 95 0), t, none, normalAt 0 0, ⟨0, 0, 0, 0, false, false, 0⟩⟩
    let p : Patch := ⟨0, 0, 0, 0, true, 0, 0, 0, 1⟩
    (((co res).core 0).op? 0 = some res ∧ res.acquires = false ∧ res.flag = some 0 ∧ ((co res).dropOp 0 0).flagHeld 0 0 0 0 = false
        ∧ (co res).banksFree 0 0 0 (destBanks 0 res.dest) = true ∧ res.fault = none ∧ res.wakes = none
        ∧ res.dest = [.v res.slot 8] ∧ ((co res).thread? 0 0 0).isSome = true)
    ∧ (let o := { op0 with kind := .store, stage := .done }
       ((co o).core 0).op? 0 = some o ∧ o.lands = false ∧ o.sampled = false ∧ o.wakes = none)
    ∧ (let o := { op0 with kind := .patchSave, stage := .done }
       let t := { th0 with patch := some p }
       { co o with threads := [t] }.thread? 0 0 0 = some t ∧ p.enter = true ∧ (({ co o with threads := [t] }).core 0).op? 0 = some o)
    ∧ (let o := { op0 with kind := .fnsync 3 }
       let t := { th0 with life := .draining, flags := 1 }
       (((co o).core 0).ops.find? fun o => o.id == 0) = some o ∧ ((co o).core 0).pinned 3 (((co o).core 0).fn 3).old.gen = false ∧ o.flag = some 0
        ∧ ((co o).dropOp 0 0).flagHeld 0 0 0 0 = false ∧ ((co o).thread? 0 0 0).isSome = true ∧ { co o with threads := [t] }.thread? 0 0 0 = some t
        ∧ t.flags = 1#12 <<< 0
        ∧ (let two := { podded [] with cores := [{ Core.init 0 with ops := [o, { res with id := 1 }] }] }
           ((two.core 0).ops.find? fun o => o.id == 0) = some o ∧ (two.dropOp 0 0).flagHeld 0 0 0 0 = true))
    ∧ (∀ t ∈ [none, some 0], let s := { podded [] with cores := [{ Core.init 0 with loads := [ld t] }], clock := 2 }
       ((s.core 0).loads.find? fun l => l.reg == 0) = some (ld t) ∧ ((s.core 0).loads.all fun x => x.image.isSome) = true ∧ (s.core 0).halting = false
        ∧ (s.core 0).ops = [] ∧ (s.thread? 0 0 0).isSome = true ∧ (s.dropLoad 0 (ld t).id).flagHeld 0 0 0 (ld t).flag = false
        ∧ (s.core 0).pinned 0 ((s.core 0).fn 0).old.gen = false ∧ 0 + 1 + min (fnByte ((ld t).image.getD []) 0) 32 ≤ s.clock)
    ∧ (let k := { fetchPack 0 with serial := true }
       k.clause.isSome = true ∧ k.serialDone = false ∧ k.slots.all (fun sl => (((podded []).thread? 0 0 sl).map fun t => t.flags == 0 && !(podded []).accessesOf 0 0 t.slot 1) == some true) = true)
    ∧ (let t := { th0 with patch := some p }
       let s := { coded [] with threads := [t], ctxs := [{ Ctx.init 0 with psave := 0x4000 }] }
       let x := (s.xlateUnit (coreAgent (saveName 0 0 0) 0 0) .write (patchRecord (s.ctx 0) 0 0 0)).1
       s.thread? 0 0 0 = some t ∧ t.flags = 0 ∧ p.enter = true ∧ (s.core 0).ops = [] ∧ (x == .ok 0x4000 0 false) = true ∧ th0.patchSave.length = 33)
    ∧ (let w : PortWait := ⟨9, 8, [⟨0, 5, 0⟩]⟩
       ({ podded [] with parts := [{ Part.init 0 1 with portWait := [w] }] }.portWaits 0) = [w] ∧ 8 ≤ w.waited) := by decide +kernel


/-- Tables that map the first gigabyte to itself, of context 0. -/
def tables : List Host.Cell := [(0x10000, 0x01), (0x10001, 0x10), (0x10002, 0x01), (0x11000, 0x01), (0x11001, 0x20), (0x11002, 0x01), (0x12000, 0x6F)]
/-- The state after reset with those tables, and bytes at an address. -/
def paged (a : Nat) (bs : List Byte) : State :=
  { State.reset with mem := memPut tables a bs, regions := [(0, 0, 0)], ctxs := [{ Ctx.init 0 with ptbase := 0x10000, psave := 0x4000, ktbase := 0x8000, valid := true }] }
/-- The state after reset with one operation on core 0. -/
def withOp (o : Op) : State := { State.reset with cores := [{ Core.init 0 with ops := [o] }] }
/-- A line request of the operation, and one of another agent. -/
def req0 : Req := ⟨0, 0, 0, 33 * 8, 0, false, none⟩
def reqBy : Req := { req0 with by_ := some ⟨5, .row, 0⟩ }

/-- MemoryPathEvents: nothing to send; a miss on the core's die and on the other; Inkwell; an L1 hit; at a slice a
request with its sector and without, of the operation and of another agent. -/
theorem test_memory_path :
    let s := withOp op0
    let far := { op0 with pa := 0x4000 }
    let ink := { op0 with pa := inkBase }
    let at_ (st : Stage) (r : List Req) (sec : List Sector) : State := { withOp { op0 with stage := st } with slices := [⟨s.home 0x100, sec, r, []⟩] }
    let sl := Stage.slice (s.home 0x100)
    ((State.reset).sendable 0 0 = [] ∧ op0.isGlobal = true) ∧ (s.sendable 0 0 = [op0] ∧ op0.usesL1 = true ∧ (s.core 0).l1Find (op0.pa / 32) = none ∧ isInk op0.pa = false
        ∧ s.homeless op0.pa = false ∧ s.dieAt op0.pa = dieOf 0)
    ∧ ((withOp far).sendable 0 0 = [far] ∧ (withOp far).dieAt far.pa = 1)
    ∧ ((withOp ink).sendable 0 0 = [ink] ∧ isInk ink.pa = true ∧ ink.loc = 0 ∧ (withOp ink).dieAt ink.pa = 0)
    ∧ (let t := { State.reset with cores := [{ Core.init 0 with ops := [op0], l1 := [⟨8, List.replicate 32 1⟩] }] }
       t.sendable 0 0 = [op0] ∧ ((t.core 0).l1Find (op0.pa / 32)).isSome = true)
    ∧ (∀ c ∈ [0, 6], State.reset.chooseClass (.link 0) [c] = some c ∧ State.reset.chooseClass (.controller 3) [c] = some c)
    ∧ (∀ r ∈ [req0, reqBy], let t := at_ sl [r] [⟨0, 0, false, false, 0⟩]
       (t.slice (s.home 0x100)).queue = [r] ∧ t.chooseClass (.slice (s.home 0x100)) [0] = some 0
        ∧ (t.slice (s.home 0x100)).isRewriting 0 = false ∧ t.sectorPending (r.pa / 1024) = false
        ∧ ((t.slice (s.home 0x100)).sectors.find? fun y => y.addr == r.pa / 1024).isSome = true ∧ r.word = op0.word ∧ r.line = op0.lineKey
        ∧ t.rmwBefore r = false ∧ op0.col = 0 ∧ (t.core 0).ops = [{ op0 with stage := sl }])
    ∧ (let t := at_ sl [req0] []
       ((t.slice (s.home 0x100)).sectors.find? fun y => y.addr == req0.pa / 1024) = none ∧ t.rmwBefore req0 = false
        ∧ { t with granted := [⟨5, 8, .rmw⟩] }.rmwBefore req0 = true)
    ∧ (let t := { at_ sl [req0] [] with slices := [⟨s.home 0x100, [], [req0], [(0, 0)]⟩] }
       (t.slice (s.home 0x100)).queue = [req0] ∧ (t.slice (s.home 0x100)).isRewriting (req0.pa / 1024) = true
        ∧ (t.slice (s.home 0x100)).rewriting = [(0, 0)] ∧ 0 ≤ t.clock) := by decide +kernel

/-- MemoryPathEvents: the link, the controllers and Inkwell. -/
theorem test_memory_path_ends :
    let s := withOp op0
    let ink := { op0 with pa := inkBase }
    (∀ to_ ∈ [LinkTo.slice 0 req0, .host ⟨1, 0, 0, none, .hostRead 1 0 0 4, 0, .none, 0⟩, .quill 0 ⟨0, 1, 2, 3, 0, []⟩],
       let t := { s with linkQ := [⟨0, 0, to_, 3⟩] }
       t.linkQ = [⟨0, 0, to_, 3⟩] ∧ t.chooseClass (.link 0) [0] = some 0 ∧ isInk req0.pa = false ∧ to_.beats ≤ 3 + 1)
    ∧ 0 + 1 < (LinkTo.quill 0 ⟨0, 1, 2, 3, 0, []⟩).beats
    ∧ (let t := { s with memctls := [⟨3, [], none, []⟩, ⟨4, [req0], none, []⟩] }
       (t.memctl 3).queue = [] ∧ (t.memctl 4).queue = [req0] ∧ t.chooseClass (.controller 4) [req0.cls] = some req0.cls)
    ∧ (let t := { withOp { op0 with stage := .memory 0 true } with memctls := [⟨0, [], none, [req0]⟩] }
       t.home req0.pa = s.home 0x100 ∧ (t.memctl 0).filled = [req0] ∧ (t.slice (s.home 0x100)).isRewriting (req0.pa / 1024) = false ∧ t.rmwBefore req0 = false)
    ∧ (let t := withOp { ink with stage := .inkwell 0 }
       (t.inkFirst 0).map (·.1) = some 0 ∧ t.refreshing.contains 0 = false)
    ∧ refreshPhase 0 0 < 640 ∧ 640 ≤ refreshPhase 640 0
    ∧ (let t := { State.reset with clock := 4096, points := [⟨.slice 0, List.replicate 8 0, 0, 4096⟩] }
       (t.point (.slice 0)).next ≤ t.clock) := by decide +kernel

/-- WalkEvents: a walk of a leaf whose A is set and of one whose A is clear, one whose entries are still to be read, one that faults for a word, and one
that sets the bits. -/
theorem test_walks :
    let w : Walk := ⟨0, 0, 2, [(.unit none 5, .read)], false, 0, none⟩
    let g := walkAgent 0 0 2
    let reads (g : Agent) : List Grant := linesFor g .row 0x10000 8 ++ linesFor g .row 0x11000 8 ++ linesFor g .row 0x12000 8
    let s := { paged 0 [] with walks := [w], granted := reads g }
    let c := { s with mem := memPut tables 0x12000 [0x0F] }
    let leaf (s : State) (r : WalkRes) : Option Bool := match r with
      | .leaf e _ l => if s.mayWalk 0 0 2 l then some (bitAt e.leaf 5) else none
      | _ => none
    let bad (s : State) (n : Nat) (r : WalkRes) : Bool := match r with
      | .bad _ _ l => s.mayWalk 0 0 n l
      | _ => false
    (((s.running 0).find? fun w => w.ctx == 0 && w.vpn == 2 && w.setting.isNone) = some w ∧ leaf s (s.walkCached 0 0 (va56 w.va)) = some true
        ∧ Acc.writes .read = false)
    ∧ leaf c (c.walkCached 0 0 (va56 w.va)) = some false
    ∧ leaf { s with granted := [] } (s.walkCached 0 0 (va56 w.va)) = none
    ∧ (let v : Walk := ⟨0, 0, 0x40000, [(.word 0 0 0, .read)], false, 0, none⟩
       let k := { s with walks := [v], granted := reads (walkAgent 0 0 0x40000), parts := [{ Part.init 0 0 with streams := [{ (Stream.init 0).withPack (fetchPack 0) with walking := true }] }] }
       bad k 0x40000 (k.walkCached 0 0 (va56 v.va)) = true ∧ ((k.running 0).find? fun w => w.ctx == 0 && w.vpn == 0x40000 && w.setting.isNone) = some v
        ∧ ((k.part 0 0).stream 0).pack = some (fetchPack 0) ∧ (fetchPack 0).clause.isSome = true ∧ ((k.part 0 0).stream 0).walking = true)
    ∧ (let v : Walk := { w with setting := some (tlb0, 0x12000, 0) }
       let k := { s with walks := [v], granted := linesFor g .rmw 0x12000 8 }
       (k.walks.find? fun w => w.die == 0 && (w.setting.map fun x => k.mayServe (walkAgent 0 w.ctx w.vpn) .rmw x.2.1).getD false) = some v
        ∧ k.homeless 0x12000 = false) := by decide +kernel

/-- A tensor record (R228): one dimension of one element. -/
def trec (base fmt loc seq : Nat) : List Byte :=
  bytesOf 8 base ++ bytesOf 8 0 ++ bytesOf 4 1 ++ List.replicate 24 0 ++ bytesOf 2 1 ++ List.replicate 6 0
    ++ [BitVec.ofNat 8 fmt, 1, BitVec.ofNat 8 loc, 0] ++ bytesOf 8 seq
/-- A state in which a command heads channel 1 of core 0, with bytes at 0x2000. -/
def headed (c : Command) (bs : List Byte) : State :=
  let k : ChanKey := .core 0 0 1
  { paged 0x2000 bs with
    teams := [{ fetchTeam with scratchBytes := 4096 }], chans := [{ Chan.init k with queue := [c], pages := [tlb0] }]
    granted := linesFor (c.agent k) .row 0x2000 128 ++ linesFor (c.agent k) .row 0x3000 32 ++ linesFor (c.agent k) .row 0x5000 8
      ++ linesFor (c.agent k) .write 0x4000 32 ++ linesFor (c.agent k) .rmw 0x4000 32 }
/-- What an engine read gives, if it does. -/
def gave {α : Type} : Got α → Option α
  | .ok x => some x
  | _ => none

/-- ChannelEvents: a command that starts, one that is rejected, a `fur`, the sequence word read and polled, deliveries to scratch and to memory, and a completion. -/
theorem test_channels :
    let k : ChanKey := .core 0 0 1
    let c := { cmd0 with shp := 0x2000 }
    let good := trec 0x3000 0 0 0 ++ trec 0x4000 0 0 0
    let ord := { c with word := 0xB05DC4330B020182, phase := 1, recs := [trec 0x3000 0 0 0, trec 0x4000 0 0 0x5000], crd := List.replicate 9 0 }
    let del := { c with phase := 2, recs := [trec 16 0 1 0, trec 32 0 1 0] }
    let head (s : State) (c : Command) (n : Nat) : Option (List Byte) := gave (s.engReadAll k c c.shp n).1
    let s := headed c good
    ((s.chan k).queue = [c] ∧ c.op = 0x2C0 ∧ (s.chan k).ackPaused = false ∧ s.relWaits c = false ∧ s.preempting c.ctx = false ∧ head s c 128 = some good
        ∧ s.rejects k { c with recs := [trec 0x3000 0 0 0, trec 0x4000 0 0 0] } = false)
    ∧ (let t := headed c (List.replicate 128 0)
       head t c 128 = some (List.replicate 128 0) ∧ t.rejects k { c with recs := [List.replicate 64 0, List.replicate 64 0] } = true
        ∧ (t.team? 0 0).isSome = true ∧ c.tl < (List.replicate 8 Timeline.reset).length)
    ∧ (let f := { c with word := 0xB11DC0200A020001 }
       let t := { headed f (List.replicate 64 0) with vfs := [{ Vf.reset 0 with clusters := 2 }] }
       f.op = 0x2C4 ∧ ((getE f.word).map (·.chan.toNat)) = some 1 ∧ bitAt (t.vf 0).clusters 1 = true
        ∧ ((List.range 8).all fun i => bitAt t.fencedMarrow (8 * 1 + i)) = false ∧ (t.cluster 1).fifo.length < 32 ∧ (head t f 64).isSome = true)
    ∧ (ord.ordered = true ∧ ord.pollAt = 0 ∧ gave ((headed ord []).engRead k ord false (recSeq (ord.record 1)) 8).1 = some (List.replicate 8 0))
    ∧ ({ ord with pollAt := 1 }.pollAt ≤ { headed ord [] with clock := 1 }.clock)
    ∧ (del.pausing = false ∧ del.unacked = 0 ∧ del.positions = 1 ∧ recLocal (del.record 0) = true ∧ recLocal (del.record 1) = true
        ∧ isTwin (recFmt (del.record 1)) = false ∧ del.unitBytes = 4 ∧ recAt (del.record 0) 4 (addIdx del.from_ (boxIdx del.box 0)) = some 16
        ∧ del.dest 0 = some 32 ∧ fetchTeam.scratchBad 16 4 = false ∧ (List.range 4).all (fun i => !del.overlaps (32 + BitVec.ofNat 64 i)) = true
        ∧ recFmt (del.record 0) = recFmt (del.record 1) ∧ (s.chan k).acking = [] ∧ s.hostBusy del.id = false)
    ∧ (let d := { c with phase := 3 }
       let t := { State.reset with teams := [{ fetchTeam with tls := List.replicate 8 ⟨1, 0, 0, [⟨1, false⟩]⟩ }], chans := [{ Chan.init k with acking := [d] }] }
       t.deliveredOf 0 0 2 = [(k, d)] ∧ t.hostBusy d.id = false ∧ d.ordered = false ∧ d.op = 0x2C0 ∧ (t.team? 0 0).map (fun x => (x.tl 2).pending.map (·.val)) = some [1]) := by
  decide +kernel

/-- The channel of the delivery tests. -/
def chanK : ChanKey := .core 0 0 1
/-- A `cp` or a `cp.red` that has started, from 0x3000 to 0x4000. -/
def devCmd (red : Bool) : Command :=
  { cmd0 with shp := 0x2000, word := if red then 0xB05DC0200A020181 else 0xB01DC0200A020181, phase := 2, recs := [trec 0x3000 0 0 0, trec 0x4000 0 0 0] }
/-- The state in which the delivery of a command reads its source. -/
def devState (c : Command) : State := ((headed c []).turnState chanK c).readAhead chanK c
/-- The answer for the destination of a delivery, with the state after. -/
def devDest (c : Command) (red : Bool) : Got Wr × State :=
  ((devState c).copySource chanK c 0).2.engDest chanK c red false 0x4000 [0, 0, 0, 0]
/-- What the statement about deliveries to device memory supposes of a command. -/
def delivers (c : Command) (red : Bool) : Bool :=
  let w := devDest c red
  c.op == (if red then 0x2C1 else 0x2C0) && c.positions == 1 && !(devState c).hostBusy c.id
    && gave ((devState c).copySource chanK c 0).1 == some [0, 0, 0, 0] && c.dest 0 == some 0x4000
    && (gave w.1).map (fun y => (y.loc, y.pa)) == some (0, 0x4000) && !w.2.homeless 0x4000 && !w.2.hostBusy c.id && !w.2.readsPoison 0x4000 4
    && (List.range 4).all fun i => !c.overlaps (0x4000 + BitVec.ofNat 64 i)

/-- ChannelEvents: a delivery to device memory, of a `cp` and of a `cp.red`. -/
theorem test_deliveries : delivers (devCmd false) false = true ∧ delivers (devCmd true) true = true := by
  decide +kernel


/-- A packet of teams of one thread along x, with frames of 16. -/
def packet0 (teams : Nat) : List Byte :=
  [0, 0, 0, 16, 0, 0, 0, 0] ++ bytesOf 4 teams ++ bytesOf 4 1 ++ bytesOf 4 1 ++ bytesOf 2 1 ++ bytesOf 2 1 ++ bytesOf 2 1 ++ List.replicate 30 0
    ++ [64, 0, 0, 0] ++ List.replicate 68 0
/-- A kernel entry whose code is at 0x1000, with frames of 16. -/
def kent : List Byte := bytesOf 8 0x1000 ++ List.replicate 20 0 ++ [16, 0, 0, 0]
/-- An array word of the team, with a shape. -/
def arrOf (i : Instr) (shape : Word) : ArrayOp := { arr0 with word := encode i, c := shape }
/-- The pages of ranges, if their translation answers. -/
def pagesOf : XlAll × State → Option (PageMap × State)
  | (.ok m, s) => some (m, s)
  | _ => none
/-- A state whose core 0 has a word at the head of its array queue, with a format in slot 0. -/
def arrays (o : ArrayOp) (f : DWord) : State :=
  { paged 0 [] with
    teams := [{ matTeam with fs := [f, 2, 4, 6, 0, 0, 0, 0] }], threads := [th0], clock := 1
    cores := [{ Core.init 0 with resv := some (0, false), array := [o], tlb1 := [tlb0] }], granted := linesFor (coreAgent o.id 0 0) .row 0 4096 }
/-- Whether a queued word is ready to start. -/
def readyArray (s : State) (o : ArrayOp) (x : Mat) : Bool :=
  let rs := s.matRanges o x
  let m0 := s.peekMap 0 0 rs
  let keys (w : Bool) := keysVa m0 ((rs.filter fun r => r.1.writes == w).map fun r => r.2)
  o.started.isNone && !o.made && decide (o.issued < s.clock) && !(s.core 0).halting && !s.arrayTaken 0 o && !s.arrayWaits o x.local_ (keys false) (keys true)
    && (o.arrays x).all fun n => decide ((s.core n).busy + s.matDur o x m0 ≤ 16 * s.duty.toNat)
/-- Whether a started word may be made. -/
def makesArray (s : State) (o : ArrayOp) (x : Mat) : Bool :=
  let rs := s.matRanges o x
  let reads := (rs.filter fun r => !r.1.writes).map fun r => r.2
  let g := coreAgent o.id o.ctx o.core
  match pagesOf (s.xlateRanges g rs) with
  | some (m, t) =>
    let f := t.fetchHost g m reads
    !rs.isEmpty && f.1 && f.2.mayServeVa g .row m reads && f.2.mayServeVa g .write m ((rs.filter fun r => r.1.writes).map fun r => r.2)
      && f.2.poisonVa m reads == none && !f.2.arrayBad o x (slotFmtCode 0) && (f.2.team? o.core o.team).isSome
  | none => false

/-- ArrayEvents: a word with ranges that starts, one that waits for its pages and one that has started and is made now; `mzero`; a local `mmac`; and a word
that retires. -/
theorem test_arrays :
    let z := arrOf (.mzero (rw_ 0 0 0xFF 0xFF 0xFF 10)) 0x00100000
    let g := arrOf (.mld (rw_ 0 4 0xFF 4 0xFF 10)) 0x00200000
    let l := arrOf (.mmac (rw_ 2 0 8 0x10 6 10)) 0x00200000
    let e := { l with started := some 0, made := true, dur := 0, am := some 0 }
    ((matOf z.word).map (fun x => (x.kind, readyArray (arrays z 1) z x)) = some (.mzero, true))
    ∧ (match matOf g.word with
      | some x =>
        let s := arrays g 1
        let o1 := { g with started := some s.clock, dur := s.matDur g x (s.peekMap 0 0 (s.matRanges g x)) }
        let s1 := (s.setArrayOp 0 o1).traceArray o1 7 o1.dur
        let old := { g with started := some 0 }
        let w : State := { s with cores := [{ Core.init 0 with resv := some (0, false), array := [g] }] }
        let w1 := (w.setArrayOp 0 o1).traceArray o1 7 o1.dur
        readyArray s g x && makesArray s1 o1 x && makesArray (arrays old 1) old x
          && readyArray w g x && (pagesOf (w1.xlateRanges (coreAgent 1 0 0) (w1.matRanges o1 x))).isNone
      | none => false) = true
    ∧ ((matOf l.word).map (fun x => (x.kind, x.local_)) = some (.mmac, true) ∧ isTwin 1 = false ∧ matTeam.reuse = none
        ∧ (matOf l.word).map (readyArray (arrays l 1) l) = some true ∧ (matOf l.word).map (fun x => (arrays l 1).arrayBad l x 1) = some false
        ∧ 32 * (shapeOf l.c).col + (shapeOf l.c).n ≤ 384)
    ∧ (0 + e.dur ≤ (arrays e 1).clock ∧ (arrays e 1).hostBusy e.id = false ∧ ((arrays e 1).core 0).releasing = none ∧ ((arrays e 1).thread? 0 0 0).isSome = true
        ∧ th0.life ≠ .draining ∧ ((arrays e 1).onCore 0 fun k => { k with array := [] }).flagHeld 0 0 0 e.flag = false ∧ 0 < fetchTeam.am.length) := by
  decide +kernel

/-- A Marrow job of KIND 0 with `n` chunks and one window. -/
def job0 (n : Nat) : Job :=
  { cmd := 1, chan := .core 0 0 1, ctx := 0, core := 0, team := 0, tl := 0, val := 1, addr := 0,
    rec_ := [0, 1] ++ List.replicate 22 0 ++ bytesOf 8 n ++ List.replicate 32 0 ++ bytesOf 8 0 ++ bytesOf 8 64, nchunk := n, next := 0, bad := [], ended := 0,
    rejected := false }

/-- A Marrow job of KIND 0 with two chunks, whose ENTRY lies in an EXEC window. -/
def job1 : Job :=
  { job0 2 with
    rec_ := [0, 1] ++ List.replicate 6 0 ++ bytesOf 8 0x2000 ++ List.replicate 8 0 ++ bytesOf 8 2 ++ List.replicate 32 0
      ++ bytesOf 8 0x2000 ++ bytesOf 8 (64 + 2 ^ 62) }

/-- MarrowEvents: a job whose record is bad and one whose record is good, a chunk to start, and chunks that end, the last one among them, with
results that may be written at once (nowhere, at addresses that are not canonical) and later; and a job that leaves. -/
theorem test_marrow :
    let s (j : Job) (r : Bool) (cs : List (Nat × Nat)) : State := { paged 0x2000 [] with
      clusters := [⟨0, [j], r, cs, [], [], []⟩], brought := [pageFor (j.agent 0)], granted := linesFor (j.agent 0) .write 0 64 }
    let may (s : State) (j : Job) : Bool := (s.marrowMay (j.agent 0) true (j.results.map fun w => (w.1, w.2.length))).1
    (∀ x ∈ [(job0 0, true), (job0 2, false)], ((s x.1 false []).cluster 0).running = false ∧ (((s x.1 false []).cluster 0).fifo.map Job.badRecord) = [x.2]
        ∧ ((s x.1 false []).marrowMay (x.1.agent 0) true [(x.1.addr + 0x20, 8)]).1 = true)
    ∧ (job0 2).kind = 0
    ∧ (let t := s (job0 2) true []
       ((List.range 8).find? fun i => !bitAt t.fencedMarrow (8 * 0 + i) && !((t.cluster 0).chunks.any fun c => c.1 == i)) = some 0
        ∧ (t.cluster 0).running = true ∧ (job0 2).next < (job0 2).nchunk)
    ∧ (((s job1 true [(3, 0)]).cluster 0).chunks.find? fun c => c.1 == 3) = some (3, 0)
    ∧ job1.kind = 0 ∧ gave ((s job1 true [(3, 0)]).marrowAccess 3 job1 .fetch job1.entry 2).1 = some ()
    ∧ job1.ended + 1 ≠ job1.nchunk
    ∧ (let j := { job1 with ended := 1 }
       let v (t : State) : State := (t.hostForget 1).setCluster { (t.hostForget 1).cluster 0 with chunks := [], fifo := [{ j with ended := 2 }] }
       let t := s j true [(3, 0)]
       let far := { j with ended := 2, addr := 0x8000000000000000 }
       j.ended + 1 = j.nchunk ∧ gave (t.marrowAccess 3 j .fetch j.entry 2).1 = some () ∧ may (v t) { j with ended := 2 } = false
        ∧ may (v t) far = true ∧ may (s { j with ended := 2 } true []) { j with ended := 2 } = true ∧ { j with ended := 2 }.over = true) := by decide +kernel

/-- A grid of queue 0 with `n` teams, of which `k` are placed. -/
def gridOf (n k : Nat) : Grid := { grid0 with packet := packet0 n, nextTeam := k, teams := [], entry := kent, queue := some 0 }
/-- The state after reset with core 0 assigned, a kernel entry, the bytes of a packet at 0x2000, and grids. -/
def granted (p : List Byte) (gs : List Grid) : State :=
  { paged 0x2000 p with mem := memPut (memPut tables 0x2000 p) 0x8000 kent, grids := gs, vfs := [{ Vf.reset 0 with vcore := 1 }]
                        ctxs := [{ Ctx.init 0 with ptbase := 0x10000, ktbase := 0x8000, ktsize := 1, valid := true, owners := [⟨0, 1⟩] }] }

/-- TeamEvents: a grid to place, a team to start and one that is done, and a grid that is done. -/
theorem test_teams :
    (let s := granted [] [gridOf 1 0]
     s.clock % 8 = 0 ∧ (s.pickGrid (assoc 0 63 s.dispLast) (s.grids.filter fun g => g.dispatcher == 0)).map (·.2) = some 0 ∧ s.fnsMissing 0 0 = none)
    ∧ (let tm := { fetchTeam with started := 0 }
       let s := { granted [] [{ gridOf 1 1 with gid := tm.gid }] with teams := [tm], threads := [th0] }
       s.team? 0 0 = some tm ∧ (s.grid? tm.gid).isSome = true ∧ tm.heldTok = none ∧ tm.started < tm.size ∧ tm.preloads = [] ∧ s.preloading tm = false
        ∧ tm.startAt ≤ s.clock ∧ s.threadsOf 0 0 = [th0] ∧ tm.started ≤ th0.tid ∧ th0.tid < tm.started + 32
        ∧ s.thread? 0 th0.part th0.slot = some th0
        ∧ { s with teams := [tm, { tm with slot := 1, preloads := [(0, 0)] }] }.preloading tm = true)
    ∧ (let s := { granted [] [gridOf 1 1] with teams := [fetchTeam] }
       s.team? 0 0 = some fetchTeam ∧ s.teamDone fetchTeam = true)
    ∧ (let g := { gridOf 1 1 with compl := .queue 0 1 }
       let s := granted [] [g]
       s.grid? 0 = some g ∧ g.accepted = true ∧ g.placing = false ∧ g.teams = [] ∧ g.parent = none ∧ s.censusDir g.ctx g.obj = none ∧ (s.ctx g.ctx).objs = []) := by
  decide +kernel

/-- A state whose queue 0, enabled, holds a packet that its dispatcher may read. -/
def queued (p : List Byte) : State :=
  { granted p [{ gridOf 1 1 with queue := none }] with
    queues := [{ Queue.reset 0 with qbase := 0x2000, enable := true, wptr := 1 }], brought := [pageFor (queueAgent 0 0)]
    granted := linesFor (queueAgent 0 0) .row 0x2000 128 }
/-- What the dispatcher reads of it. -/
def packetOf (s : State) : Option (List Byte × State) :=
  match s.dispRead (queueAgent 0 0) 0x2000 128 with
  | (.ok p, t) => some (p, t)
  | _ => none

/-- QueueEvents: pointers within and beyond the ring, a queue of its function and one of another, and a packet that is rejected and one that waits for its
dependence or for its row. -/
theorem test_queues :
    let q := (queued []).queue 0
    let wants := ((packet0 1).set 29 1).set 80 1
    (q.rptr ≤ 2 ∧ 2 ≤ q.rptr + 2 ^ (q.log2n + 4) ∧ q.wptr ≤ 2) ∧ ¬ (17 ≤ q.rptr + 2 ^ (q.log2n + 4))
    ∧ (vfOf (qctlCtx 0) = (State.reset.queue 0).vf ∧ (State.reset.queue 0).enable = false) ∧ (∃ v : DWord, vfOf (qctlCtx v) ≠ (State.reset.queue 0).vf)
    ∧ (∀ x ∈ [(packet0 1, 0), (packet0 0, 3)], (queued x.1).active 0 = true ∧ (queued x.1).closed 0 = false ∧ q.enable = true ∧ q.rptr < q.wptr
        ∧ ((queued x.1).grids.all fun g => g.queue != some 0) = true
        ∧ (packetOf (queued x.1)).map (fun y => (y.1, y.2.packetCode 0 true (some ([], 0)) y.1)) = some x)
    ∧ ((packetOf (queued (packet0 1))).map fun y => pktDeps (packet0 1) == [] && decide (pktKidx (packet0 1) < (y.2.ctx 0).ktsize)
        && paOk ((y.2.ctx 0).entryPa 0) 32 && !y.2.mayServePa (dieAgent y.2.nextId 0 0 0) .row ((y.2.ctx 0).entryPa 0) 32) = some true
    ∧ pktDeps wants = [(0, 1)] ∧ ((packetOf (queued wants)).map fun y => (y.1 == wants, y.2.packetCode 0 true (some ([], 0)) y.1,
        (y.2.queue 0).tl.completed)) = some (true, 0, 0) := by
  refine ⟨?_, ?_, ?_, ⟨BitVec.allOnes 64, ?_⟩, ?_⟩ <;> decide +kernel

/-- QueueEvents: a grid that waits and is accepted, one whose row is not valid or whose frame is too big, and a device-side one. -/
theorem test_pending_grids :
    let of (g : Grid) (kt : List Byte) : State := { granted [] [g] with
      mem := memPut tables 0x8000 kt, queues := [{ Queue.reset 0 with enable := true }], granted := linesFor g.agent .row 0x8000 32 }
    let g : Grid := { gridOf 1 0 with accepted := false, compl := .queue 0 1 }
    let row (kt : List Byte) : Option (Option Nat) := (gave ((of g kt).gridEntry g).1).map fun r => r.map fun x => fieldAt x.1 0x1C 1
    ((of g kent).grids.find? fun g => g.queue == some 0 && !g.accepted) = some g ∧ (of g kent).closed g.ctx = false ∧ ((of g kent).queue 0).enable = true
    ∧ pktDeps g.packet = [] ∧ pktArgSize g.packet = 0 ∧ pktNpre g.packet = 0 ∧ pktFrame g.packet = 16
    ∧ row kent = some (some 16) ∧ row (kent.set 28 17) = some (some 17) ∧ row (List.replicate 32 0) = some none
    ∧ (let g := { gridOf 1 0 with queue := none, accepted := false }
       (granted [] [g]).grid? 0 = some g ∧ g.accepted = false ∧ g.queue = none ∧ (granted [] [g]).closed g.ctx = false ∧ pktDeps g.packet = []
        ∧ fieldAt g.entry 0x1C 1 ≤ pktFrame g.packet ∧ pktArgSize g.packet = 0 ∧ pktNpre g.packet = 0
        ∧ pktFrame g.packet < fieldAt (kent.set 28 17) 0x1C 1) := by decide +kernel


/-- The tables, with bytes at addresses. -/
def memOf (xs : List (Nat × List Byte)) : List Host.Cell := xs.foldl (fun m x => memPut m x.1 x.2) tables
/-- The bytes of the clause at 0x1000. -/
def clause0 : List Byte := [0, 0, 0, 0xE0, 0x0F, 0x01, 0, 0xD0, 0xFF, 0xFF, 0xFF, 0xFF, 0, 0xC0, 0x1D, 0]
/-- A code command for object 0 of context 0 (R337). -/
def cmdOf (opc kcount : Nat) (base size list : Nat) : List Byte :=
  bytesOf 2 opc ++ bytesOf 2 0 ++ bytesOf 2 0 ++ bytesOf 2 kcount ++ bytesOf 8 base ++ bytesOf 8 size ++ bytesOf 8 list ++ List.replicate 32 0
/-- A state whose code ring, at 0x4000, holds one command, with a list at 0x2000, code at 0x1000, and what the context owns. -/
def ringed (cmd : List Byte) (list : List Byte) (kt : List Byte) (objs : List (Nat × ObjState)) (own : List KtOwner) : State :=
  { granted [] [{ gridOf 1 1 with queue := none }] with
    mem := memOf [(0x4000, cmd), (0x2000, list), (0x1000, clause0), (0x8000, kt)], vfs := [{ Vf.reset 0 with code := ⟨0x4000, 1, 1, 0⟩ }]
    brought := [pageFor (codeAgent 0 0)], granted := linesFor (codeAgent 0 0) .row 0x2000 64
    ctxs := [{ Ctx.init 0 with ptbase := 0x10000, ktbase := 0x8000, ktsize := 1, valid := true, objs := objs, owners := own }] }

/-- CodeRingEvents: a LOAD without a list and with one, a REPLACE and an UNLOAD. -/
theorem test_code_ring :
    let list := List.replicate 8 0 ++ kent
    let it (s : State) (cmd : List Byte) : Bool := s.codeCommand 0 == some (0x4000, cmd) && paOk 0x4000 64 && !cmdReserved cmd && s.active (cmdCtx cmd)
      && vfOf (cmdCtx cmd) == 0 && objReady (s.ctx (cmdCtx cmd)) (cmdOpc cmd) (cmdObj cmd)
    let passes (s w : State) (cmd bs : List Byte) (m : PageMap) : Bool :=
      let rs := listRecords (cmdKcount cmd) bs
      !((List.range (cmdKcount cmd)).any fun i => fieldAt bs (40 * i + 2) 6 != 0) && w.listStatus (s.ctx 0) (cmdOpc cmd) 0x1000 16 m rs == 0
        && rs.all fun x => paOk ((s.ctx 0).entryPa x.1) 32 && s.codeCommand 0 == some (0x4000, cmd)
    let listed (s w : State) (cmd : List Byte) (m : PageMap) : Bool := match w.dispReadOpt (codeAgent 0 0) (cmdList cmd) (40 * cmdKcount cmd) with
      | (.ok bs, w) => passes s w cmd bs m
      | (_, _) => false
    (∀ x ∈ [(cmdOf 1 0 0x1000 16 0, []), (cmdOf 1 1 0x1000 16 0x2000, list)],
      let s := ringed x.1 x.2 [] [] []
      it s x.1 = true ∧ (match pagesOf (s.xlateRanges (codeAgent 0 0) [(.fetch, BitVec.ofNat 64 (cmdBase x.1), cmdSize x.1)]) with
        | some (m, t) => listed s t x.1 m
        | none => false) = true)
    ∧ (let c := cmdOf 2 1 0 0 0x2000
       let s := ringed c list kent [(0, .loaded 0x1000 16)] [⟨0, 0⟩]
       it s c = true ∧ listed s s c [] = true)
    ∧ (let c := cmdOf 3 0 0 0 0
       let s := ringed c [] kent [(0, .loaded 0x1000 16)] [⟨0, 0⟩]
       it s c = true ∧ ((s.ctx 0).objs.find? fun o => o.1 == 0) = some (0, .loaded 0x1000 16))
    ∧ (let r := (ringed [] [] [] [] []).vf 0
       (linesPa (0x4000 + 0x38) 8).all (fun a => !(isHbm a && (ringed [] [] [] [] []).homeless a)) = true ∧ r.code.rptr ≤ 2 ∧ 2 ≤ r.code.rptr + r.code.size ∧ r.code.wptr ≤ 2 ∧ bitAt ((State.reset.vf 0).code.ctl) 0 = false) := by decide +kernel

/-- A record in a function's hands. -/
def rec0 : FaultRec := ⟨0, 0x11, 0, 0, 0, 0, 0, 1, 0, 0, 0, 0, none, none⟩

/-- RecordRingEvents: a record to write into a ring with room, and rings and buffers that are off. -/
theorem test_record_rings :
    (let s := { State.reset with vfs := [{ Vf.reset 0 with fault := ⟨0x4000, 1, 0, 0⟩, held := [rec0] }] }
     (s.vf 0).dumps = [] ∧ (s.heldRecs 0).find? (s.writable 0) = some rec0 ∧ (s.faultRing 0).room = true
      ∧ paOk ((s.faultRing 0).slotAt 64 (s.faultRing 0).wptr) 64 = true
      ∧ (linesPa ((s.faultRing 0).slotAt 64 (s.faultRing 0).wptr) 64).all (fun a => !(isHbm a && s.homeless a)) = true)
    ∧ bitAt (State.reset.faultRing 0).ctl 0 = false ∧ bitAt (State.reset.vf 0).dump.ctl 0 = false ∧ (State.reset.vf 0).dumps = [] ∧ (State.reset.vf 0).held = []
    ∧ bitAt (State.reset.vf 0).trctl 0 = false ∧ bitAt (State.reset.vf 0).jrctl 0 = false := by decide +kernel

/-- A token for what waits on fault 1. -/
def tok0 (cls : Nat) (ts : List (Nat × Nat × Nat)) (k : Option ChanKey) : Token := ⟨1, 0, 0, 0, 0, 0, cls, 0, 0, 0, ts, k, [], [], none⟩

/-- ResponseEvents: a thread parked on a fault and on a debug event, a paused command, and a thread that the firmware holds. -/
theorem test_responses :
    let th (n : Nat) : Thread := { th0 with life := .parked (.fault n), at_ := resumeAt 0x1008 0x1000 fetchHeader 0 }
    let of (t : Thread) (k : Token) : State := { State.reset with threads := [t], teams := [fetchTeam], tokens := [k] }
    (∀ cls ∈ [0x11, 0x18], let s := of (th 1) (tok0 cls [(0, 0, 0)] none)
      s.thread? 0 0 0 = some (th 1) ∧ s.token? 1 = some (tok0 cls [(0, 0, 0)] none) ∧ (s.ctx 0).saved = false
        ∧ (tok0 cls [(0, 0, 0)] none).replays = [] ∧ (tok0 cls [(0, 0, 0)] none).starts = [] ∧ (th 1).moved = none ∧ (th 1).flags = 0)
    ∧ (let c := { cmd0 with paused := some 1 }
       let s := { of (th 0) (tok0 0x11 [] (some (.core 0 0 1))) with chans := [{ Chan.init (.core 0 0 1) with queue := [c] }] }
       (s.thread? 0 0 0).isSome = true ∧ s.token? 1 = some (tok0 0x11 [] (some (.core 0 0 1))) ∧ (s.chan (.core 0 0 1)).queue = [c] ∧ c.op ≠ 0x2C3
        ∧ (s.ctx 0).saved = false)
    ∧ (let s := { of (th 0) (tok0 0x11 [] none) with mem := memOf [(0x1000, bytesOf 8 0xD100010FE0000000)], regions := [(0, 0, 0)], ctxs := [{ Ctx.init 0 with ptbase := 0x10000 }] }
       s.thread? 0 0 0 = some (th 0) ∧ (th 0).life = .parked (.fault 0)
        ∧ (th 0).at_.key ≠ (th 0).at_.hdr + BitVec.ofNat 64 (8 * hdrCount (s.codeWordAt (th 0) (th 0).at_.hdr))) := by decide +kernel

/-- PartitionEvents: an invalidation that is done, a region to change and one that changes, assignments of each kind, masks, and a budget. -/
theorem test_partitions :
    let of (x : Vf) : State := { State.reset with regions := [(0, 0, 0)], vfs := [x] }
    let v := Vf.reset 0
    (vfOf ((0 : DWord).extractLsb' 52 12).toNat = 0)
    ∧ (let i : TlbInv := ⟨1, 0, 0, 4096, 1⟩
       ((of { v with invs := [i] }).vf 0).invs = [i] ∧ (of { v with invs := [i] }).invDone 0 i = true)
    ∧ ((of v).regionVf (regionBase 0) = some 0 ∧ (2#64 <<< 9).extractLsb' 9 2 = 2 ∧ v.regBusy = none)
    ∧ (((of { v with regBusy := some (0, 2) }).vf 0).regBusy = some (0, 2))
    ∧ (let other := { of v with vfs := [v, { Vf.reset 1 with vcore := 1 }] }
       other.taken 0 (v.assigned.write 0 1) = true)
    ∧ (let a := v.assigned
       (of v).taken 0 (a.write 0 1) = false ∧ { a.write 0 1 with wayMask := v.wayMask } ≠ a ∧ (of v).vfQuiet 0 = true
        ∧ ({ of v with teams := [fetchTeam] }).vfQuiet 0 = false
        ∧ (of v).taken 0 (a.write 0x18 1) = false ∧ { a.write 0x18 1 with wayMask := v.wayMask } = a
        ∧ ((of { v with pend := some a }).vf 0).pend = some a ∧ (of { v with pend := some a }).vfQuiet 0 = true ∧ (of v).regPend = [])
    ∧ ((of v).resident 0 = false ∧ ({ of v with ctxs := [{ Ctx.init 0 with featPend := some 3 }] }.ctx 0).featPend = some 3)
    ∧ ((of v).budgetFits 0 0 0x20 = true ∧ (of v).budgetFits 0 0 0xFF = false) := by decide +kernel

/-- A state with a census table at 0x9000, compared with what follows it, for the object at 0x1000. -/
def census0 (counts : List Byte) : State :=
  { ringed [] [] [] [(0, .loaded 0x1000 16)] [] with
    mem := memOf [(0x1000, clause0.take 8 ++ bytesOf 8 0xA080440AFF20888C), (0x6000, bytesOf 8 0x9001), (0x9000, counts)], vfs := [{ Vf.reset 0 with cnsBusy := some (0, 0) }]
    ctxs := [{ Ctx.init 0 with ptbase := 0x10000, cnsdir := 0x6000, objs := [(0, .loaded 0x1000 16)] }] }

/-- RegisterEvents: a module that is ready, one that is not, a queue, a comparator, and a census check that finds no difference and one. -/
theorem test_registers :
    State.reset.ready = true ∧ State.reset.tripped = false ∧ (State.reset.queue 0).vf ≠ 1 ∧ (State.reset.queue 0).vf = 0 ∧ ctlWritable 1 = true ∧ 0 < (State.reset.vf 0).bpc.length
    ∧ (let s := { census0 [] with vfs := [] }
       s.censusDir 0 0 = some (0x9000, true) ∧ (s.vf 0).cnsBusy = none)
    ∧ (∀ x ∈ [(([] : List Byte), 0), ([1], 1)], let s := census0 x.1
       (s.vf 0).cnsBusy = some (0, 0) ∧ s.censusMissing 0 0 = none ∧ s.censusDir 0 0 = some (0x9000, true) ∧ (s.objectSites 0 0).length = 1
        ∧ s.siteUnequal 0x9000 1 0 = x.2) := by decide +kernel


/-- PreemptEvents: a context with a core, cores that reach their deadlines or halt, an image that may be saved, a late save, and a restore. -/
theorem test_preempts :
    let of (x : Vf) (c : Core) : State := { State.reset with vfs := [x], cores := [c] }
    let v := Vf.reset 0
    let halt := { Core.init 0 with ctx := some 0, halting := true, drainAt := 1 }
    let p : Preempt := ⟨0, 0, 0x5000⟩
    (v.busy = false ∧ vfOf 0 = 0 ∧ ((of v halt).ctx 0).saved = false ∧ (of v halt).quiet = false ∧ { of v halt with quiet := true }.quiet = true)
    ∧ (let s := { of v { halt with ops := [op0] } with clock := 1 }
       (s.core 0).halting = true ∧ (s.core 0).halted = false ∧ (s.core 0).drainAt ≠ 0 ∧ (s.core 0).drainAt ≤ s.clock ∧ (s.core 0).ops = [op0]
        ∧ op0.abandoned = true ∧ s.hostReqs = [])
    ∧ (((of v halt).core 0).ctx = some 0 ∧ (of v halt).mayHalt 0 = true)
    ∧ (let s := { of { v with pstat := 2, pstatCtx := 0, preempt := some p } { halt with halted := true } with teams := [fetchTeam] }
       (s.vf 0).preempt = some p ∧ s.maySave 0 = true ∧ s.coresOf 0 = [0] ∧ 0 < (s.imageBytes 0).length ∧ paOk p.base (s.imageBytes 0).length = true
        ∧ (linesPa p.base (s.imageBytes 0).length).all (fun a => !(isHbm a && s.homeless a)) = true)
    ∧ (let s := { of { v with pstat := 1, preempt := some p } halt with teams := [fetchTeam], clock := 10000 }
       (s.vf 0).preempt = some p ∧ p.since + 10000 ≤ s.clock ∧ s.allHalted 0 = false)
    ∧ (State.reset.images.find? fun i => i.ctx == 0) = none
    ∧ (let i : Image := ⟨0, 0x5000, [1, 2], [], [], [], [], [], []⟩
       let s := { of { v with psarea := 0x5000 } halt with mem := [(0x5000, 1), (0x5001, 2)], images := [i] }
       let t := s.setVf { s.vf 0 with pstat := 4, pstatCtx := 0, restore := some ⟨0, s.clock, 0x5000⟩ }
       (s.images.find? fun i => i.ctx == 0) = some i ∧ (s.vf 0).saveBase = 0x5000 ∧ paOk 0x5000 2 = true ∧ s.bytes 0x5000 2 = i.bytes ∧ i.leaders = [] ∧ (s.ctx 0).featPend = none
        ∧ (t.images.find? fun i => i.ctx == 0) = some i ∧ (t.tokens.all fun k => k.ctx != 0) = true) := by decide +kernel

/-- With no group to place, what is left to place is what there was. -/
theorem test_restore_places (i : Image) (s : State) : placeGroups i [] s = .next s := rfl

/-- HostEvents: a read, a command's read, a store too late, and page requests. -/
theorem test_host :
    let rd : HostReq := ⟨9, 0, 0, none, .hostRead 9 0 0x100 4, 0, .none, 0x100⟩
    let wr : HostReq := ⟨9, 0, 0, none, .hostWrite 9 0 0x100 [1, 2, 3, 4], 0, .none, 0x100⟩
    let of (o : Op) (r : HostReq) : State := { withOp o with hostReqs := [r], clock := 3000 }
    let o := { op0 with stage := .host }
    let st := { o with kind := .store }
    ((of o rd).hostReqs = [rd] ∧ rd.wait = .none ∧ rd.owner = none ∧ ((of o rd).core rd.core).op? rd.op = some o ∧ o.stage = .host ∧ o.kind = .load ∧ (of o rd).linkQ = [])
    ∧ (let c := { rd with owner := some 1 }
       c.wait = .none ∧ c.owner = some 1 ∧ c.msg = .hostRead 9 0 0x100 4)
    ∧ (wr.wait = .none ∧ ((of st wr).core wr.core).op? wr.op = some st ∧ st.kind = .store ∧ wr.sent + 3000 ≤ (of st wr).clock)
    ∧ (let p := { wr with wait := .asked }
       p.wait = .asked ∧ p.owner = none ∧ ((of st p).core p.core).op? p.op = some st) := by decide +kernel

/-- ContainmentEvents: flits to send and from a peer, a link that retries and one that has retried 16 times, a slice with a request, and Marrow cores. -/
theorem test_containment :
    let f : Flit := ⟨0, 1, 2, 3, 0, []⟩
    let port (n r : Nat) : Port18 := ⟨n, true, [8, 8, 8], [f], r, 0, 0⟩
    let s : State := { State.reset with ports := [port 0 0, port 1 16, port 18 16], vfs := [{ Vf.reset 3 with quill := 1 }] }
    let at_ (n : Nat) := s.ports.find? fun x => x.idx == n
    (at_ 0 = some (port 0 0) ∧ (port 0 0).up = true ∧ bitAt s.fencedPorts 0 = false ∧ s.nextFlit 0 = some f ∧ s.portOwner 0 = some 3 ∧ f.cls ≤ 1
      ∧ (port 0 0).retries < 16)
    ∧ (∀ n ∈ [1, 18], at_ n = some (port n 16) ∧ bitAt s.fencedPorts n = false ∧ 16 ≤ (port n 16).retries)
    ∧ (bitAt s.fencedCores 5 = false ∧ bitAt s.fencedPcs 5 = false ∧ bitAt s.fencedMarrow 5 = false)
    ∧ (let t := { s with slices := [⟨5, [], [req0], []⟩] }
       bitAt t.fencedSlices 5 = false ∧ (t.slice 5).queue = [req0])
    ∧ ((s.cluster (5 / 8)).chunks.find? fun c => c.1 == 5 % 8) = none
    ∧ (let t := { s with clusters := [⟨0, [job0 2], true, [(5, 0)], [], [], []⟩] }
       ((t.cluster (5 / 8)).chunks.find? fun c => c.1 == 5 % 8) = some (5, 0) ∧ (t.cluster 0).fifo = [job0 2] ∧ (job0 2).ended + 1 ≠ (job0 2).nchunk) := by
  decide +kernel

/-- BootEvents: a module that takes an image, one that has one waiting, one in recovery at each stage, and a measurement. -/
theorem test_boot :
    let s := State.reset
    let img := s.nib
    (s.nibPend = none ∧ (s.vfs.any fun v => v.preempt.isSome) = false)
    ∧ (let t := { s with nibPend := some img }
       t.nibPend ≠ none ∧ t.nibPend = some img ∧ t.atQuiet = true)
    ∧ (let t := { s with recovery := true, scribeOk := false }
       t.recovery = true ∧ t.scribeOk = false)
    ∧ (let t := { s with recovery := true, scribeOk := true, ccpOk := false }
       t.scribeOk = true ∧ t.ccpOk = false)
    ∧ (let t := { s with recovery := true, scribeOk := true, ccpOk := true, nibOk := false }
       t.scribeOk = true ∧ t.ccpOk = true ∧ t.nibOk = false)
    ∧ (s.measurement 5).isSome = true ∧ s.scribeOk = true := by decide +kernel

/-- ClockAdvance, and SystemFaultParks: no trace record waits; a thread whose fault is its first, and one whose fault joins a token. -/
theorem test_clock_and_faults :
    (∀ c ∈ State.reset.cores, (State.reset.core c.idx).trace = []) ∧ (State.reset.vfs.all fun v => v.headPend.isEmpty) = true ∧ State.reset.hostReqs = []
    ∧ (let s := { State.reset with threads := [th0], teams := [fetchTeam] }
       s.thread? 0 0 0 = some th0 ∧ s.team? 0 0 = some fetchTeam ∧ s.findToken 0 { rec0 with code := 2 } = none
        ∧ (let t := { s with tokens := [{ tok0 0x11 [] none with code := 2 }] }
           t.findToken 0 { rec0 with code := 2 } = some { tok0 0x11 [] none with code := 2 })) := by decide +kernel

/-- WordsRoundTrip and DecodedWordsAreTheirOwn: a word that is well formed, and a word that decodes. -/
theorem test_words_exist : let i := Instr.fadd (rw_ 8 0 4 1 2 0xFF)
    i.fields.isSome = true ∧ i.wellFormed = true ∧ decode (encode i) = some i := by decide +kernel

/-- StepRunsTheDecodedWord: the state that `withFetchWord` gives is one whose next act issues the word. -/
theorem test_fetch_issues :
    let w := 0x3006E000040102FF
    let s := State.reset.withFetchWord 64 w
    let k := fetchPack (BitVec.ofNat 64 w)
    s.agenda = [.issue 0 0 0] ∧ ((s.part 0 0).stream 0).pack = some k ∧ (s.team? 0 k.team).isSome = true ∧ k.clause = some (fetchHeader, [BitVec.ofNat 64 w])
    ∧ k.pos = none ∧ k.start = 0 ∧ (readHeader fetchHeader).bad = false
    ∧ (k.slots.filterMap fun sl => s.thread? 0 0 sl).all (fun t => t.badWait (readHeader fetchHeader) == none && t.flags &&& (readHeader fetchHeader).wait == 0) = true
    ∧ k.rewrite = [] ∧ k.nib = 0 ∧ k.serial = false ∧ k.serialDone = false ∧ s.quiet = false ∧ isFirmware 0 = false
    ∧ ((s.part 0 0).stream 0).walking = false ∧ (s.part 0 0).unitFree (portOf (BitVec.ofNat 64 w)) s.clock = true
    ∧ s.entryReady 0 0 (BitVec.ofNat 64 w) fetchTeam (k.slots.filterMap fun sl => s.thread? 0 0 sl) = true
    ∧ ((s.part 0 0).bankPlan (BitVec.ofNat 64 w) k.latches k.slots fetchTeam.packW 0 s.clock).isSome = true
    ∧ (decode (BitVec.ofNat 64 w)).isSome = true ∧ masked (s.ctx 0).featmask (BitVec.ofNat 64 w) = false ∧ (opOf (BitVec.ofNat 64 w)).toNat / 64 ≠ 0xF
    ∧ ((decode (BitVec.ofNat 64 w)).all fun i => !badPlace i (readHeader fetchHeader) (0 + 1 == (readHeader fetchHeader).count) k.inRewrite fetchTeam.sg) = true
    ∧ s.nib.dec = [] ∧ k.skip = [] ∧ ((k.slots.filterMap fun sl => s.thread? 0 0 sl).any (s.ownWindow 0)) = false
    ∧ (decode (BitVec.ofNat 64 w)).all (fun i => !scaleMismatch fetchTeam i) = true := by decide +kernel

/-- StepRunsTheDecodedWord: no decode slot and no debug test is in the word's way. -/
theorem test_fetch_debug :
    let w : DWord := 0x3006E000040102FF
    let s := { State.reset.withFetchWord 64 w.toNat with agenda := [], cur := some (curOf w) }
    ((s.issue (g0Of w) (g1Of w)).map fun is => decide (s.debugAll is = s)) = some true ∧ firstSlot s.nib.dec 0 w fetchHeader = none := by decide +kernel

/-- The memory of the state after reset is canonical. -/
theorem test_memory_inv : State.reset.MemInv := rfl

/-- TrippedStaysQuiet: a state of a module that has tripped. -/
theorem test_tripped : let s : State := { State.reset with tripped := true }
    s.tripped = true ∧ s.teams = [] ∧ s.agenda = [] := by decide +kernel


/-- A word of the manual, and what it stands for. -/
abbrev Says (w : DWord) (i : Instr) : Prop := decode w = some i

/-- Decoding (R114-R120): control words, as the manual writes them out. -/
theorem test_decode_control :
    Says 0x005DC0000000000E (.bra ⟨p7, p7, 0, 14⟩) ∧ Says 0x00DDC000FFFFFFFB (.call ⟨p7, p7, 0, 0xFFFFFFFB⟩)
    ∧ Says 0x011DC000FF1CFFFF (.calli (rw_ 0 0 0xFF 0x1C 0xFF 0xFF)) ∧ Says 0x015DC000FFFFFFFF (.ret (rw_ 0 0 0xFF 0xFF 0xFF 0xFF))
    ∧ Says 0x019DC000FFFFFFFF (.exit (rw_ 0 0 0xFF 0xFF 0xFF 0xFF)) ∧ Says 0x02E1C000FFFF0003 (.barArr ⟨⟨true, 0⟩, p7, 0, false, 0, 0, 0xFF, 0xFF, 3⟩)
    ∧ Says 0x029DC000FFFF0000 (.bar (iw 0 0 0xFF 0xFF 0)) ∧ Says 0x035DC8000A04FFFF (.launch (rw_ 2 0 10 4 0xFF 0xFF))
    ∧ Says 0x041DC00008FF0030 (.sreg (iw 0 0 8 0xFF 0x30)) := by decide +kernel

/-- Decoding: integer, bit and floating-point words. -/
theorem test_decode_arithmetic :
    Says 0x135DC024FF0405FF (.cmp (rw_ 0 0x24 0xFF 4 5 0xFF)) ∧ Says 0x185DC40001010001 (.subI (iw 1 0 1 1 1)) ∧ Says 0x1B5DC400FF000000 (.cmpI (iw 1 0 0xFF 0 0))
    ∧ Says 0x241DC400028001FF (.lea (rw_ 1 0 2 0x80 1 0xFF)) ∧ Says 0x24DDC181FFFFFFFE (.movi ⟨p7, p7, 6, 1, 0xFFFFFFFE⟩)
    ∧ Says 0x295DC40001000001 (.shlI (iw 1 0 1 0 1)) ∧ Says 0x309DE000050406FF (.fmul (rw_ 8 0 5 4 6 0xFF))
    ∧ Says 0x30DDE00108010203 (.ffma (rw_ 8 1 8 1 2 3)) ∧ Says 0x401DE8600302FFFF (.fcvt (rw_ 10 0x60 3 2 0xFF 0xFF))
    ∧ Says 0x501DE032FFFFFFFF (.pset (rw_ 8 0x32 0xFF 0xFF 0xFF 0xFF)) := by decide +kernel

/-- Decoding: function, sub-group, memory, matrix, engine and privileged words. -/
theorem test_decode_rest :
    Says 0x601DC002FF84FFFF (.fnld (rw_ 0 2 0xFF 0x84 0xFF 0xFF)) ∧ Says 0x605DE0020504FFFF (.fapp (rw_ 8 2 5 4 0xFF 0xFF))
    ∧ Says 0x60DDE4030802FFFF (.fapp2 (rw_ 9 3 8 2 0xFF 0xFF)) ∧ Says 0x701DCC70050407FF (.shfl (rw_ 3 0x70 5 4 7 0xFF))
    ∧ Says 0x70DDE0000604FFFF (.sred (rw_ 8 0 6 4 0xFF 0xFF)) ∧ Says 0x719DD4120604FFFF (.ssmx (rw_ 5 0x12 6 4 0xFF 0xFF))
    ∧ Says 0x801DE03004080010 (.ld (iw 8 0x30 4 8 0x10)) ∧ Says 0x805DCC5004020000 (.st (iw 3 0x50 4 2 0)) ∧ Says 0x901DE47006020708 (.atomB32 (rw_ 9 0x70 6 2 7 8))
    ∧ Says 0xA001E400FFFFFFFF (.mres ⟨⟨false, 0⟩, p7, 9, false, 0, 0, 0xFF, 0xFF, 0xFF, 0xFF⟩)
    ∧ Says 0xA080440AFF20888C (.mmac ⟨⟨false, 0⟩, ⟨false, 1⟩, 1, false, 0, 10, 0xFF, 0x20, 0x88, 0x8C⟩)
    ∧ Says 0xA1804603FF8AFF8D (.mst ⟨⟨false, 0⟩, ⟨false, 1⟩, 1, true, 0, 3, 0xFF, 0x8A, 0xFF, 0x8D⟩)
    ∧ Says 0xB001C0200A020181 (.cp ⟨⟨false, 0⟩, p7, 0, false, 2, 0, false, 20, 8, 12, 1⟩) ∧ Says 0xB05DC4330B020182 (.cpRed ⟨p7, p7, 1, false, 3, 1, true, 22, 8, 12, 2⟩)
    ∧ Says 0xB19DC828FFFF0007 (.tlWait (rw_ 2 0x28 0xFF 0xFF 0 7)) ∧ Says 0xB1DDC000F0500000 (.tlTest (uw 0 30 20 0))
    ∧ Says 0xF05DC00100FFFFFF (.ctlRd (rw_ 0 1 0 0xFF 0xFF 0xFF)) ∧ Says 0xF01DC000FFFFFFFF (.nret (rw_ 0 0 0xFF 0xFF 0xFF 0xFF)) := by decide +kernel

/-- R115, R116: a term that each check refuses: codes of MOD and X, FS on a word that is not long-latency, an operand field that is not its kind, and fields that
the form leaves unused. -/
theorem test_ill_formed : ∀ i ∈ [Instr.add (rw_ 15 0 8 4 6 0xFF), .add (rw_ 0 0x7F 8 4 6 0xFF), .add ⟨p7, p7, 0, true, 0, 0, 8, 4, 6, 0xFF⟩, .add (rw_ 0 0 0xFF 4 6 0xFF),
    .add (rw_ 0 0 8 4 6 6), .ffma (rw_ 4 0 8 4 6 10), .movi ⟨p7, p7, 8, 63, 5⟩, .mres (rw_ 0 0 8 0xFF 0xFF 0xFF), .tret (rw_ 3 0 0xFF 0xFF 0xFF 0xFF),
    .atomB32 (rw_ 10 0 0xFF 4 6 0xFF)], i.wellFormed = false := by decide +kernel

/-- The registers from `d` on that a word leaves in its thread, or the values that it has in flight, from registers given by number. -/
def left (i : Instr) (rs : List (Nat × Word)) (d n : Nat) : Option (List Word) :=
  match exec i (onTh i { th0 with regs := rs.foldl (fun l r => l.set r.1 r.2) th0.regs }) with
  | .next t =>
    match (t.core 0).ops with
    | o :: _ => some o.vals
    | [] => (t.thread? 0 0 0).map fun t => (List.range n).map fun k => t.regs.getD (d + k) 0
  | _ => none

/-- R142, R143: the manual's corners of division, and an addition that carries out of 64 bits. -/
theorem test_division_corners :
    left (.div (rw_ 0 0 8 4 6 0xFF)) [(4, 7), (6, 0xFFFFFFFE)] 8 1 = some [0xFFFFFFFD] ∧ left (.rem (rw_ 0 0 8 4 6 0xFF)) [(4, 7), (6, 0xFFFFFFFE)] 8 1 = some [1]
    ∧ left (.rem (rw_ 0 0 8 4 6 0xFF)) [(4, 0xFFFFFFF9), (6, 2)] 8 1 = some [0xFFFFFFFF] ∧ left (.div (rw_ 1 0 8 4 6 0xFF)) [(4, 7), (6, 0)] 8 1 = some [0xFFFFFFFF]
    ∧ left (.rem (rw_ 0 0 8 4 6 0xFF)) [(4, 0xFFFFFFFB), (6, 0)] 8 1 = some [0xFFFFFFFB]
    ∧ left (.div (rw_ 0 0 8 4 6 0xFF)) [(4, 0x80000000), (6, 0xFFFFFFFF)] 8 1 = some [0x80000000]
    ∧ left (.addc (rw_ 3 0 8 4 6 0xFF)) [(4, 0xFFFFFFFF), (5, 0xFFFFFFFF), (6, 1)] 8 2 = some [0, 0] := by decide +kernel

/-- R155: the manual's conversions at their limits. -/
theorem test_conversion_limits :
    left (.fcvt (rw_ 10 0x20 8 4 0xFF 0xFF)) [(4, 0x3F808000)] 8 1 = some [0x3F80] ∧ left (.fcvt (rw_ 10 0x20 8 4 0xFF 0xFF)) [(4, 0x3F818000)] 8 1 = some [0x3F82]
    ∧ left (.fcvt (rw_ 10 0x20 8 4 0xFF 0xFF)) [(4, 0x7F7FFFFF)] 8 1 = some [0x7F80] ∧ left (.fcvt (rw_ 10 0x60 8 4 0xFF 0xFF)) [(4, 0x7F7FFFFF)] 8 1 = some [0x7F7F]
    ∧ left (.fcvt (rw_ 6 0x20 8 4 0xFF 0xFF)) [(4, 0x4348B333)] 8 1 = some [0x7F] ∧ left (.fcvt (rw_ 6 0x20 8 4 0xFF 0xFF)) [(4, 0xC0600000)] 8 1 = some [0xFFFFFFFC]
    ∧ left (.fcvt (rw_ 6 0x21 8 4 0xFF 0xFF)) [(4, 0xC0600000)] 8 1 = some [0xFFFFFFFD] ∧ left (.fcvt (rw_ 0 0x20 8 4 0xFF 0xFF)) [(4, 0x7FC00000)] 8 1 = some [0]
    ∧ left (.fcvt (rw_ 9 0x04 8 4 0xFF 0xFF)) [(4, 70000)] 8 1 = some [0x7C00] ∧ left (.fcvt (rw_ 9 0x44 8 4 0xFF 0xFF)) [(4, 70000)] 8 1 = some [0x7BFF] := by decide +kernel

/-- R146, R155: the two writes of the manual's `movi.s` and `icvt` examples. -/
theorem test_movi_icvt :
    left (.movi ⟨p7, p7, 6, 1, 0xFFFFFFFE⟩) [] 6 2 = some [0xFFFFFFFE, 0xFFFFFFFF]
    ∧ left (.icvt (rw_ 6 0x44 8 4 0xFF 0xFF)) [(4, 300)] 8 1 = some [0x7F] ∧ left (.icvt (rw_ 6 0x04 8 4 0xFF 0xFF)) [(4, 300)] 8 1 = some [0x2C] := by decide +kernel

/-- R151: the manual's `frnd` examples. -/
theorem test_frnd :
    left (.frnd (rw_ 8 0 8 4 0xFF 0xFF)) [(4, 0xBE99999A)] 8 1 = some [0x80000000] ∧ left (.frnd (rw_ 8 2 8 4 0xFF 0xFF)) [(4, 0x40200000)] 8 1 = some [0x40400000] := by
  decide +kernel

end Sys2Proof.Tests
end

section
/-! PROOFS. The integer, bit and address words (R141-R146), all of fixed latency: one rule for each shape of operands, from which each word follows by what it computes. -/

namespace Sys2Proof.Machine

/-- A fixed-latency effect with its values written in another way. -/
theorem State.Fixed.congr_vals {s : State} {i : Instr} {is : Issue} {d : BitVec 8} {n : Nat} {val val' : Thread → List Word}
    {preds : Thread → List (Nat × Bool)} (h : s.Fixed i is d n val preds) (hv : ∀ t, val t = val' t) : s.Fixed i is d n val' preds :=
  (funext hv : val = val') ▸ h

/-- A fixed-latency effect with its predicates written in another way. -/
theorem State.Fixed.congr_preds {s : State} {i : Instr} {is : Issue} {d : BitVec 8} {n : Nat} {val : Thread → List Word}
    {preds preds' : Thread → List (Nat × Bool)} (h : s.Fixed i is d n val preds) (hp : ∀ t, preds t = preds' t) :
    s.Fixed i is d n val preds' :=
  (funext hp : preds = preds') ▸ h

/-- A bit pattern written as an integer type has the registers of the type. -/
theorem bitsOut_length (md r : Nat) : (bitsOut md r).vals.length = typeRegs md := wordsOf_length _ _

section Shapes

variable {s : State} {i : Instr} {is : Issue}

/-- An integer word of two register sources (R141). -/
theorem fixed_intRR {f : RWord} (sat : Bool) (op : Int → Int → Int) (e : exec i s = runWord i (intRR f sat op) s) (h : s.Runs i is)
    (hm : f.md.toNat ≠ 0xB) :
    s.Fixed i is f.d (typeRegs f.md.toNat)
      (fun t => intResult f.md.toNat sat (op (is.int t f.md.toNat f.a) (is.int t f.md.toNat f.b))) noPreds :=
  fixed_of f.d _ _ e h fun _ => intResult_length _ _ _ hm

/-- An integer word of a register and an immediate (R140, R141). -/
theorem fixed_intRI {f : IWord} (sat : Bool) (op : Int → Int → Int) (e : exec i s = runWord i (intRI f sat op) s) (h : s.Runs i is)
    (hm : f.md.toNat ≠ 0xB) :
    s.Fixed i is f.d (typeRegs f.md.toNat)
      (fun t => intResult f.md.toNat sat (op (is.int t f.md.toNat f.a) (immRead f.md.toNat f.imm))) noPreds :=
  fixed_of f.d _ _ e h fun _ => intResult_length _ _ _ hm

/-- A bit word of two register sources (R145). -/
theorem fixed_bitRR {f : RWord} (op : Nat → Nat → Nat → Nat) (e : exec i s = runWord i (bitRR f op) s) (h : s.Runs i is) :
    s.Fixed i is f.d (typeRegs f.md.toNat)
      (fun t => wordsOf (typeRegs f.md.toNat)
        (op (intWidth f.md.toNat) (is.val t f.a (typeRegs f.md.toNat)) (is.val t f.b (typeRegs f.md.toNat)))) noPreds :=
  fixed_of f.d _ _ e h fun _ => bitsOut_length _ _

/-- A bit word whose B is a 32-bit count or control (R144, R145). -/
theorem fixed_bitRC {f : RWord} (op : Nat → Nat → Nat → Nat) (e : exec i s = runWord i (bitRC f op) s) (h : s.Runs i is) :
    s.Fixed i is f.d (typeRegs f.md.toNat)
      (fun t => wordsOf (typeRegs f.md.toNat) (op (intWidth f.md.toNat) (is.val t f.a (typeRegs f.md.toNat)) (is.val t f.b 1))) noPreds :=
  fixed_of f.d _ _ e h fun _ => bitsOut_length _ _

/-- A bit word of a register and an immediate (R140, R145). -/
theorem fixed_bitRI {f : IWord} (op : Nat → Nat → Nat → Nat) (e : exec i s = runWord i (bitRI f op) s) (h : s.Runs i is) :
    s.Fixed i is f.d (typeRegs f.md.toNat)
      (fun t => wordsOf (typeRegs f.md.toNat)
        (op (intWidth f.md.toNat) (is.val t f.a (typeRegs f.md.toNat)) (wrapN (intWidth f.md.toNat) f.imm.toInt))) noPreds :=
  fixed_of f.d _ _ e h fun _ => bitsOut_length _ _

/-- A bit word of one register source (R145). -/
theorem fixed_bitR {f : RWord} (op : Nat → Nat → Nat) (e : exec i s = runWord i (bitR f op) s) (h : s.Runs i is) :
    s.Fixed i is f.d (typeRegs f.md.toNat)
      (fun t => wordsOf (typeRegs f.md.toNat) (op (intWidth f.md.toNat) (is.val t f.a (typeRegs f.md.toNat)))) noPreds :=
  fixed_of f.d _ _ e h fun _ => bitsOut_length _ _

/-- A count of the bits of one register source (R145). -/
theorem fixed_countR {f : RWord} (op : Nat → Nat → Nat) (e : exec i s = runWord i (countR f op) s) (h : s.Runs i is) :
    s.Fixed i is f.d 1
      (fun t => [BitVec.ofNat 32 (op (intWidth f.md.toNat) (is.val t f.a (typeRegs f.md.toNat)))]) noPreds :=
  fixed_of f.d _ _ e h fun _ => rfl

/-- A comparison of integers, which writes one register and one predicate (R143). -/
theorem fixed_cmpOut (d : BitVec 8) (pd : Nat) (c : Issue → Thread → Bool)
    (e : exec i s = runWord i (plain (fixRun d 1 fun _ is t => cmpOut pd (c is t))) s) (h : s.Runs i is) :
    s.Fixed i is d 1 (fun t => [if c is t then 1 else 0]) fun t => [(pd, c is t)] :=
  fixed_of d 1 _ e h fun _ => rfl

end Shapes

/-- A word whose entry does not accept its codes is no instruction (R116). -/
theorem wellFormed_false_of_rejects {i : Instr} {op : Nat} {f : Fields} {e : Entry} (hf : i.fields = some (op, f))
    (he : i.entry = some e) (hr : e.accepts = false) : i.wellFormed = false := by
  simp only [Instr.wellFormed, Instr.wordOk, hf, he, hr, Bool.false_and]

/-- An entry that asks for a condition code of R143 refuses the codes 6 and 7. -/
theorem reserved_cond_rejected (ok : Bool) {x : BitVec 7} (hc : 6 ≤ (x.extractLsb' 1 3).toNat) :
    (ok && decide ((x.extractLsb' 1 3).toNat ≤ 5)) = false := by
  have hgt : ¬ (x.extractLsb' 1 3).toNat ≤ 5 := by omega
  rw [decide_eq_false hgt, Bool.and_false]

/-- The condition codes 6 and 7 of `cmp` are reserved, with two registers (R143). -/
theorem cmp_reserved (f : RWord) (hc : 6 ≤ (f.x.extractLsb' 1 3).toNat) : (Instr.cmp f).wellFormed = false :=
  wellFormed_false_of_rejects rfl rfl (reserved_cond_rejected _ hc)

/-- The condition codes 6 and 7 of `cmp` are reserved, with an immediate (R143). -/
theorem cmpI_reserved (f : IWord) (hc : 6 ≤ (f.x.extractLsb' 1 3).toNat) : (Instr.cmpI f).wellFormed = false :=
  wellFormed_false_of_rejects rfl rfl (reserved_cond_rejected _ hc)

/-- Settles O1: each word is of one of the shapes above, or writes its own registers and predicate at once. -/
theorem integerResults : Obligations.IntegerResults := by
  refine ⟨fun s is f => ⟨?add, ?sub, ?mul, ?mulh, ?mad, ?madw, ?min, ?max, ?abs, ?addc, ?subb, ?cmp⟩,
    fun s is f => ⟨?addI, ?subI, ?mulI, ?minI, ?maxI, ?cmpI⟩, cmp_reserved, cmpI_reserved⟩ <;> intro h
  case add => exact fixed_intRR (bitAt f.x 0) (· + ·) rfl h (md_alu h.word rfl rfl rfl)
  case sub => exact fixed_intRR (bitAt f.x 0) (· - ·) rfl h (md_alu h.word rfl rfl rfl)
  case mul => exact fixed_intRR false (· * ·) rfl h (md_alu h.word rfl rfl rfl)
  case mulh => exact fixed_intRR false (fun a b => a * b / (2 ^ intWidth f.md.toNat : Nat)) rfl h (md_alu h.word rfl rfl rfl)
  case mad => exact fixed_of f.d _ _ rfl h fun _ => intWrite_length _ _ (md_alu h.word rfl rfl rfl)
  case madw => exact fixed_of f.d 2 _ rfl h fun _ => intWrite_length 3 _ (by decide)
  case min => exact fixed_intRR false min rfl h (md_alu h.word rfl rfl rfl)
  case max => exact fixed_intRR false max rfl h (md_alu h.word rfl rfl rfl)
  case abs => exact fixed_of f.d _ _ rfl h fun _ => intResult_length _ _ _ (md_alu h.word rfl rfl rfl)
  case addc => exact fixed_of f.d _ _ rfl h fun _ => intWrite_length _ _ (md_alu h.word rfl rfl rfl)
  case subb => exact fixed_of f.d _ _ rfl h fun _ => intWrite_length _ _ (md_alu h.word rfl rfl rfl)
  case cmp => exact fixed_cmpOut f.d _ _ rfl h
  case addI => exact fixed_intRI (bitAt f.x 0) (· + ·) rfl h (md_alu h.word rfl rfl rfl)
  case subI => exact fixed_intRI (bitAt f.x 0) (· - ·) rfl h (md_alu h.word rfl rfl rfl)
  case mulI => exact fixed_intRI false (· * ·) rfl h (md_alu h.word rfl rfl rfl)
  case minI => exact fixed_intRI false min rfl h (md_alu h.word rfl rfl rfl)
  case maxI => exact fixed_intRI false max rfl h (md_alu h.word rfl rfl rfl)
  case cmpI => exact fixed_cmpOut f.d _ _ rfl h

/-- A move of an immediate, by the registers that its code names (R146). -/
theorem fixed_movi {s : State} {is : Issue} {f : LWord} {d : BitVec 8} {off n : Nat} {ws : List Word} (hd : f.d + BitVec.ofNat 8 off = d)
    (ho : moviOut f.md6.toNat f.imm = (off, n, ws)) (hn : ws.length = n) (h : s.Runs (.movi f) is) :
    s.Fixed (.movi f) is d n (fun _ => ws) noPreds := by
  refine fixed_of d n (fun _ _ _ => regs ws) ?_ h fun _ => hn
  show execMovi f s = _
  simp only [execMovi, ho, hd]

/-- The code of a `movi` that is an instruction is one of four, and its destination is a register (R146). -/
theorem movi_wellFormed {f : LWord} (h : (Instr.movi f).wellFormed = true) : f.md6.toNat < 4 ∧ (isV f.d = true ∨ isS f.d = true) := by
  obtain ⟨ha, -, hd⟩ := wellFormed_accepts h rfl rfl
  have hcode : f.md6.toNat ≤ 3 := of_decide_eq_true ha
  exact ⟨by omega, Bool.or_eq_true _ _ ▸ hd⟩

/-- Settles O3: each word is of one of the shapes above, or writes its own registers at once. -/
theorem bitResults : Obligations.BitResults := by
  refine ⟨fun s is f => ⟨?and, ?or, ?xor, ?andn, ?not, ?shl, ?shr, ?sar, ?rot, ?bfe, ?bfi, ?popc, ?clz, ?ctz, ?brev, ?perm, ?lea, ?sel, ?mov⟩,
    fun s is => ⟨fun f => ⟨?andI, ?orI, ?xorI, ?andnI, ?shlI, ?shrI, ?sarI, ?rotI, ?leaI⟩, ?movi⟩, fun f => movi_wellFormed⟩
  case movi =>
    intro f h
    refine ⟨fun hm => ?low, fun hm => ?signExtended, fun hm => ?zeroExtended, fun hm => ?high⟩
    case low => exact fixed_movi (BitVec.add_zero _) (by rw [hm]; rfl) rfl h
    case signExtended => exact fixed_movi (BitVec.add_zero _) (by rw [hm]; rfl) rfl h
    case zeroExtended => exact fixed_movi (BitVec.add_zero _) (by rw [hm]; rfl) rfl h
    case high => exact fixed_movi rfl (by rw [hm]; rfl) rfl h
  all_goals intro h
  case and => exact fixed_bitRR (fun _ a b => a &&& b) rfl h
  case or => exact fixed_bitRR (fun _ a b => a ||| b) rfl h
  case xor => exact fixed_bitRR (fun _ a b => a ^^^ b) rfl h
  case andn => exact fixed_bitRR andnBits rfl h
  case not => exact fixed_bitR (fun w a => ones w ^^^ a) rfl h
  case shl => exact fixed_bitRC shlBits rfl h
  case shr => exact fixed_bitRC shrBits rfl h
  case sar => exact fixed_bitRC sarBits rfl h
  case rot => exact fixed_bitRC rotBits rfl h
  case bfe => exact fixed_bitRC (bfeBits (intSigned f.md.toNat)) rfl h
  case bfi => exact fixed_of f.d _ _ rfl h fun _ => bitsOut_length _ _
  case popc => exact fixed_countR popcount rfl h
  case clz => exact fixed_countR leadingZeros rfl h
  case ctz => exact fixed_countR trailingZeros rfl h
  case brev => exact fixed_bitR reverseBits rfl h
  case perm => exact fixed_of f.d 1 _ rfl h fun _ => rfl
  case lea => exact fixed_of f.d 2 _ rfl h fun _ => leaSum_length _ _ _
  case sel =>
    refine (fixed_of f.d _ _ rfl h fun _ => typeWrite_length _ _).congr_vals fun t => ?_
    exact congrArg (typeWrite f.md.toNat) (apply_ite (fun sel => is.val t sel (typeRegs f.md.toNat)) _ _ _)
  case mov => exact fixed_of f.d _ _ rfl h fun _ => typeWrite_length _ _
  case andI => exact fixed_bitRI (fun _ a b => a &&& b) rfl h
  case orI => exact fixed_bitRI (fun _ a b => a ||| b) rfl h
  case xorI => exact fixed_bitRI (fun _ a b => a ^^^ b) rfl h
  case andnI => exact fixed_bitRI andnBits rfl h
  case shlI => exact fixed_bitRI shlBits rfl h
  case shrI => exact fixed_bitRI shrBits rfl h
  case sarI => exact fixed_bitRI sarBits rfl h
  case rotI => exact fixed_bitRI rotBits rfl h
  case leaI => exact fixed_of f.d 2 _ rfl h fun _ => leaSum_length _ _ _

end Sys2Proof.Machine
end

section
/-! PROOFS. Conversions, predicate words and special registers (R135-R137, R153-R157): the registers a conversion writes, what the entries of the predicate words fix, and what each word computes. -/

namespace Sys2Proof.Machine

/-- Only `v` pairs can be marked, and a pair that is marked names a grid (R135). -/
theorem State.gridOfPair_isSome (s : State) (is : Issue) (t : Thread) (sel : BitVec 8) :
    (s.gridOfPair is t sel).isSome = (isV sel && bitAt t.gridpend (sel.toNat / 2)) := by
  unfold State.gridOfPair
  split
  · rename_i hp; exact hp.symm
  · rename_i hp; exact (eq_false_of_ne_true hp).symm

/-- Ageing the latch changes no special register (R54, R136). -/
theorem sregValue_aged (n : Nat) (s : State) (i : Instr) (is : Issue) (t : Thread) : sregValue n (s.aged i is) is t = sregValue n s is t := rfl

/-- A packed source is accepted only into `f32` and into the other packed type (R153). -/
theorem fcvtEntry_packed {f : RWord} (h : (fcvtEntry f).accepts = true) (hs : cvtSrc f.x = 0xC ∨ cvtSrc f.x = 0xD) :
    f.md.toNat = 8 ∨ f.md.toNat = 0xC ∨ f.md.toNat = 0xD := by
  refine Decidable.byContradiction fun hm => ?_
  obtain ⟨h8, hC, hD⟩ : f.md.toNat ≠ 8 ∧ f.md.toNat ≠ 0xC ∧ f.md.toNat ≠ 0xD := by omega
  rcases hs with hs | hs
  · simp only [fcvtEntry, isScalarFloat, hs, Nat.reduceLeDiff, decide_true, decide_false, Bool.and_false, Bool.false_eq_true, ↓reduceIte,
      Bool.or_self, Nat.reduceBEq, BEq.rfl, Bool.or_false, Bool.and_true, beq_iff_eq, h8, Bool.false_or, hD] at h
  · simp only [fcvtEntry, isScalarFloat, hs, Nat.reduceLeDiff, decide_true, decide_false, Bool.and_false, Bool.false_eq_true, ↓reduceIte,
      Bool.or_self, Nat.reduceBEq, BEq.rfl, Bool.or_true, Bool.and_true, beq_iff_eq, h8, Bool.or_false, hC] at h

/-- A conversion writes as many registers as its types take: two for the elements of a packed source, and otherwise those of the
destination type (R153, R154). -/
theorem fcvtBits_length {dt st : Nat} (sat : Bool) (rm : RMode) (a b : Nat)
    (hp : st = 0xC ∨ st = 0xD → dt = 8 ∨ dt = 0xC ∨ dt = 0xD) :
    (fcvtBits dt st sat rm a b).length = if (st = 0xC ∨ st = 0xD) ∧ dt = 8 then 2 else typeRegs dt := by
  unfold fcvtBits
  by_cases hint : dt < 8
  · have hone : ¬ ((st = 0xC ∨ st = 0xD) ∧ dt = 8) := by omega
    rw [if_pos hint, if_neg hone]
    exact intWrite_length _ _ (by omega)
  rw [if_neg hint]
  by_cases hpack : dt = 0xC ∨ dt = 0xD
  · have hone : ¬ ((st = 0xC ∨ st = 0xD) ∧ dt = 8) := by omega
    have hreg : typeRegs dt = 1 := by rcases hpack with rfl | rfl <;> rfl
    rw [if_pos hpack, if_neg hone, hreg]
    dsimp only
    split <;> rfl
  rw [if_neg hpack]
  by_cases hsrc : st = 0xC ∨ st = 0xD
  · have h8 : dt = 8 := by have := hp hsrc; omega
    rw [if_pos hsrc, if_pos ⟨hsrc, h8⟩]
    rfl
  · have hone : ¬ ((st = 0xC ∨ st = 0xD) ∧ dt = 8) := fun hh => hsrc hh.1
    rw [if_neg hsrc, if_neg hone]
    exact typeWrite_length _ _

/-- The empty selector is the only one that names no operand. -/
theorem isNone_iff {sel : BitVec 8} : isNone sel = true ↔ sel = 0xFF :=
  beq_iff_eq.trans (BitVec.toNat_inj (y := 0xFF#8))

/-- A word of form R names in each field what its entry asks (R116). -/
theorem fit_r {f : RWord} {o : Opds} (h : (Fields.r f).fit o = true) :
    o.d.fits f.d = true ∧ o.a.fits f.a = true ∧ o.b.fits f.b = true ∧ o.c.fits f.c = true := by
  simpa only [Fields.fit, Bool.and_eq_true, and_assoc] using h

/-- A `pset` that is an instruction names no register and has its low bit of X clear (R156). -/
theorem pset_wellFormed {f : RWord} (h : (Instr.pset f).wellFormed = true) :
    bitAt f.x 0 = false ∧ f.d = 0xFF ∧ f.a = 0xFF ∧ f.b = 0xFF ∧ f.c = 0xFF := by
  obtain ⟨ha, -, hf⟩ := wellFormed_accepts h rfl rfl
  obtain ⟨hd, hA, hB, hC⟩ := fit_r hf
  exact ⟨Bool.not_eq_true' _ ▸ ha, isNone_iff.mp hd, isNone_iff.mp hA, isNone_iff.mp hB, isNone_iff.mp hC⟩

/-- A `pmov` that is an instruction reads predicates into a `v` register or writes them from a source (R157). -/
theorem pmov_wellFormed {f : RWord} (h : (Instr.pmov f).wellFormed = true) :
    f.md = 0 ∧ isV f.d = true ∧ f.a = 0xFF ∧ f.x = 0 ∨ f.md = 1 ∧ f.d = 0xFF ∧ f.a ≠ 0xFF := by
  obtain ⟨ha, -, hf⟩ := wellFormed_accepts h rfl rfl
  by_cases hm : f.md.toNat = 0
  · simp only [hm, beq_self_eq_true, if_true] at ha hf
    obtain ⟨hd, hA, -, -⟩ := fit_r hf
    exact .inl ⟨BitVec.eq_of_toNat_eq hm, hd, isNone_iff.mp hA, BitVec.eq_of_toNat_eq (beq_iff_eq.mp ha)⟩
  · simp only [beq_eq_false_iff_ne.mpr hm, Bool.false_eq_true, if_false] at ha hf
    obtain ⟨hd, hA, -, -⟩ := fit_r hf
    refine .inr ⟨BitVec.eq_of_toNat_eq (beq_iff_eq.mp ha), isNone_iff.mp hd, fun hn => ?_⟩
    rw [hn] at hA
    exact absurd hA (by decide)

/-- A conversion of floats, flagged with `f64` on either side (R139, R153, R154). -/
theorem result_fcvt {s : State} {is : Issue} {f : RWord} (h : s.Runs (.fcvt f) is) :
    s.Result (.fcvt f) is (f.md.toNat = 0xB ∨ cvtSrc f.x = 0xB) f.fs f.d
      (if (cvtSrc f.x = 0xC ∨ cvtSrc f.x = 0xD) ∧ f.md.toNat = 8 then 2 else typeRegs f.md.toNat)
      (fun t => fcvtBits f.md.toNat (cvtSrc f.x) (bitAt f.x 6) (rmOf f.x) (is.flt t (cvtSrc f.x) f.a) (is.val t f.b 1)) noPreds := by
  have hacc : (fcvtEntry f).accepts = true := (wellFormed_accepts h.word rfl rfl).1
  refine result_of _ f.fs f.d _ (fun _ is t =>
    regs (fcvtBits f.md.toNat (cvtSrc f.x) (bitAt f.x 6) (rmOf f.x) (is.flt t (cvtSrc f.x) f.a) (is.val t f.b 1))) ?_ h
    fun t => fcvtBits_length _ _ _ _ (fcvtEntry_packed hacc)
  show execFcvt f s = _
  simp only [execFcvt, or_and_right]
  rfl

/-- `pset` writes the entry of its truth table that the two predicates name (R156). -/
theorem fixed_pset {s : State} {is : Issue} {f : RWord} (h : s.Runs (.pset f) is) :
    s.Fixed (.pset f) is f.d 0 (fun _ => []) fun t => [((f.x.extractLsb' 4 3).toNat,
      bitAt f.md (2 * (t.pred (f.x.extractLsb' 1 3).toNat).toNat + (t.pred (f.x.extractLsb' 4 3).toNat).toNat))] := by
  refine (fixed_of f.d 0 _ rfl h fun _ => rfl).congr_preds fun t => ?_
  simp only [Bool.toNat, Bool.cond_eq_ite]

/-- `pmov` with MOD 0 reads the predicates (R157). -/
theorem fixed_pmov_read {s : State} {is : Issue} {f : RWord} (h : s.Runs (.pmov f) is) (hm : f.md = 0) :
    s.Fixed (.pmov f) is f.d 1 (fun t => [BitVec.ofNat 32 t.predBits]) noPreds :=
  fixed_of f.d 1 (fun _ _ t => regs [BitVec.ofNat 32 t.predBits]) (congrArg (fun r => runWord (.pmov f) (plain r) s) (if_pos hm)) h fun _ => rfl

/-- `pmov` with MOD 1 writes the predicates that X selects from the bits of A (R157). -/
theorem fixed_pmov_write {s : State} {is : Issue} {f : RWord} (h : s.Runs (.pmov f) is) (hm : f.md = 1) :
    s.Fixed (.pmov f) is f.d 0 (fun _ => [])
      fun t => ((List.range 7).filter fun k => bitAt f.x k).map fun k => (k, (is.val t f.a 1).testBit k) :=
  have hne : f.md ≠ 0 := by rw [hm]; decide
  fixed_of f.d 0 (fun _ is t => ⟨[], ((List.range 7).filter fun k => bitAt f.x k).map fun k => (k, (is.val t f.a 1).testBit k)⟩)
    (congrArg (fun r => runWord (.pmov f) (plain r) s) (if_neg hne)) h fun _ => rfl

/-- `lwait.test` writes 0 while its pair is marked (R135). -/
theorem fixed_lwaitTest {s : State} {is : Issue} {f : RWord} (h : s.Runs (.lwaitTest f) is) :
    s.Fixed (.lwaitTest f) is f.d 1 (fun t => [if isV f.a ∧ bitAt t.gridpend (f.a.toNat / 2) then 0 else 1]) noPreds := by
  refine (fixed_of f.d 1 _ rfl h fun _ => rfl).congr_vals fun t => ?_
  simp only [regs, State.gridOfPair_isSome, Bool.and_eq_true]

/-- Settles O5: a conversion is long-latency with `f64` on either side, and every other of these words writes at once. -/
theorem conversionAndPredicateResults : Obligations.ConversionAndPredicateResults := by
  refine ⟨fun s is => ⟨fun f => ⟨result_fcvt, ?icvt, fixed_pset, fixed_pmov_read, fixed_pmov_write, fixed_lwaitTest⟩, ?sreg⟩,
    fun f => pset_wellFormed, fun f => pmov_wellFormed⟩
  case icvt =>
    intro h
    have hacc := (wellFormed_accepts h.word rfl rfl).1
    simp only [Bool.and_eq_true, decide_eq_true_eq] at hacc
    exact fixed_of f.d _ _ rfl h fun _ => intResult_length _ _ _ (by omega)
  case sreg =>
    intro f h
    exact (fixed_of f.d _ _ rfl h fun _ => wordsOf_length _ _).congr_vals fun t => congrArg (wordsOf _) (sregValue_aged _ s _ is t)

end Sys2Proof.Machine
end
